-- ==== Sys2Proof/Word.lean ====
section
/-! DEFINITION. The byte and check-sum words of the two links, and the index types of R-numbered things that
the manual numbers (section "Numbering" of spec/00_scope.md). Everything else is a plain number: volumes, rates,
times and counts are not bit patterns in the manual. -/

namespace Sys2Proof

/-- One byte of either link (R149, R164). -/
abbrev Byte := BitVec 8

/-- The register of the CRC-16 (R183). -/
abbrev CrcWord := BitVec 16

/-- Lanes 0–3 of this station, or of a peer. -/
abbrev LaneId := Fin 4

/-- Products 0–7. -/
abbrev ProductId := Fin 8

/-- Tanks 0–11 of the bay. -/
abbrev TankId := Fin 12

/-- Spill zones 0–3. -/
abbrev ZoneId := Fin 4

/-- Station numbers 0–7. -/
abbrev StationId := Fin 8

/-- Spill inputs 0–3 and gauge inputs 0–3 of this station. -/
abbrev InputId := Fin 4

/-- Machine classes 0–15. -/
abbrev ClassId := Fin 16

end Sys2Proof
end

