-- ==== Sys2Proof/Config.lean ====
section
/-! DEFINITION. The fixed numbers of the part (spec/00_scope.md section 7 and the rules named beside them), and
the open values: constants with no body, which nothing can evaluate, for the values the manual leaves open. -/

namespace Sys2Proof.Config

/-! ## Open values (notes/assumptions/5.md)
The first argument is the block's count of events (`Block.openDraws`), so that two events draw two values; the
second tells apart the values one event may draw. DESIGN CHOICE: the form; no value is chosen. -/

/-- An open number: an epoch, a sequence number, a clock value or a count past the end of its format. -/
opaque openNat : Nat → Nat → Nat

/-- An open signed accumulator value (R43 past the signed 64-bit range). -/
opaque openInt : Nat → Nat → Int

/-- A byte of a readout to which the manual gives no value. -/
opaque openByte : Nat → Nat → Byte

/-! ## Times, in milliseconds -/

/-- R12: lift timer, 120 s. -/
def liftMs : Nat := 120000
/-- R12: no-flow timer, 60 s. -/
def noFlowMs : Nat := 60000
/-- R12: duration timer, 30 min. -/
def durationMs : Nat := 1800000
/-- R12: settle timer of a closing lane, 2 s. -/
def settleMs : Nat := 2000
/-- R50: creep timer, 60 s. -/
def creepMs : Nat := 60000
/-- R39: sample watch, 3 s. -/
def sampleWatchMs : Nat := 3000
/-- R47: rate window, 1 s. -/
def rateWindowMs : Nat := 1000
/-- R57: a basis ages for 10 min. -/
def basisAgeMs : Nat := 600000
/-- R70, R71: STOCK interval, 60 s. -/
def stockIntervalMs : Nat := 60000
/-- R121: zone line settle timer, 500 ms. -/
def zoneSettleMs : Nat := 500
/-- R131: start listen, 2 s. -/
def listenMs : Nat := 2000
/-- R123: the sender's interval, 1 s. -/
def intervalMs : Nat := 1000
/-- R125: a receiver's wait, 3 s. -/
def waitMs : Nat := 3000
/-- R136: an entry goes STALE at 1.5 s. -/
def staleMs : Nat := 1500
/-- R136: an entry goes LOST at 10 s. -/
def lostMs : Nat := 10000
/-- R135: an age is held at 65,535 s. -/
def ageHoldMs : Nat := 65535000
/-- R147: STATUS period, 500 ms. -/
def statusPeriodMs : Nat := 500
/-- R147: STATUS hold-off, 100 ms. -/
def holdOffMs : Nat := 100
/-- R155: hold between the copies of a trip, 200 ms. -/
def tripHoldMs : Nat := 200
/-- R166: panel presence timer, 5 s. -/
def presenceMs : Nat := 5000
/-- R164: no byte for 10 ms ends a panel frame. -/
def panelByteMs : Nat := 10

/-! ## Volumes, limits and ranges -/

/-- R44: picolitres in a centilitre. -/
def pLPerCL : Nat := 10000000000
/-- R44: microlitres in a centilitre. -/
def uLPerCL : Nat := 10000
/-- R9: the preset maximum, 600,000 cL. -/
def presetMax : Nat := 600000
/-- R8: the lane minimum is the stop lead plus 100 cL. -/
def laneMinimumMargin : Nat := 100
/-- R4: hour readings above this are treated as absent. -/
def hoursMax : Nat := 9999999
/-- R7: room in the fill record queue. -/
def fillRoom : Nat := 16
/-- R7: room for DRAW entries. -/
def drawRoom : Nat := 12
/-- R84: records the account table holds. -/
def accountRoom : Nat := 384
/-- R46: the reverse flow limit, in µL. -/
def reverseLimit : Nat := 2000000
/-- R49: creep volume that presents CREEP, in µL. -/
def creepLimit : Nat := 500000
/-- R68: two readings closer than this end a delivery, in cL. -/
def deliveryStable : Nat := 2000
/-- R54: book stock is held at plus or minus this. -/
def bookHold : Int := 2147483647
/-- 32-bit counts: the modulus of those that wrap, and one more than the hold of those that hold. -/
def two32 : Nat := 4294967296
/-- Counts held at 4,294,967,295 (R51, R82, R88). -/
def hold32 : Nat := 4294967295
/-- Counts held at 65,535 (R86, R135, R159, R175). -/
def hold16 : Nat := 65535
/-- R172: a raise count holds at 255. -/
def raiseHold : Nat := 255
/-- R152: conflicts that isolate. -/
def conflictLimit : Nat := 3
/-- R159: link errors that raise LINK_ERRORS. -/
def linkErrorLimit : Nat := 16
/-- R117: copies of a TRIP frame. -/
def tripCopies : Nat := 3
/-- R110: the greatest epoch a view holds in the service life of the part. -/
def epochMax : Nat := 65534

end Sys2Proof.Config
end

