-- ==== Sys2Proof/Syntax.lean ====
section
/-! DEFINITION. The commands of the JV6: one constructor of `Instr` per row of spec/opcode_table.json, with the
operands the spec's text gives the row. The enumerations are those of R182. A panel request carries its items
as numbers, as the panel port receives them: the port's range check (R168) is part of the meaning. A frame of the
bay link carries its validated, decoded content (R159, R184). -/

namespace Sys2Proof

/-- R182: DRAW puts product into a machine, RETURN takes used oil out of it. -/
inductive Direction where
  | draw | ret
  deriving DecidableEq, Repr

/-- R16, R182: the band a lane publishes. -/
inductive Band where
  | idle | granted | drawing | returning | closing
  deriving DecidableEq, Repr

/-- R110, R182: the state of a zone view. -/
inductive ZoneState where
  | starting | normal | tripped | clearing
  deriving DecidableEq, Repr

/-- R110, R182: the cause of a trip. -/
inductive TripCause where
  | none | sump | pit | bund | estop | excessFlow | creep | highHigh | zoneLine | retrip | peerStatus
  deriving DecidableEq, Repr

/-- R17, R19, R182: the causes that end a session or a grant. -/
inductive EndCause where
  | preset | hung | noFlow | duration | cancel | spill | meterFault | dry | restart | lapsed | panelLost
  deriving DecidableEq, Repr

/-- R9, R10: the limit that last lowered the requested preset. -/
inductive ClampReason where
  | none | presetMax | stockLimit | lubeLimit | toFullLimit
  deriving DecidableEq, Repr

/-- R11, R85: where the account table sends the posting of a grant. -/
inductive Disposition where
  | record | unassigned | bulk
  deriving DecidableEq, Repr

/-- R1: the directions a lane may run. -/
inductive LaneMode where
  | disabled | drawOnly | returnOnly | both
  deriving DecidableEq, Repr

/-- R182: the class of a product. -/
inductive ProductClass where
  | fuel | lube | coolant | waste
  deriving DecidableEq, Repr

/-- R52, R182: the class of a tank. -/
inductive TankClass where
  | fuelSupply | lubeSupply | waste
  deriving DecidableEq, Repr

/-- R112, R182: the kind of a spill input. -/
inductive InputKind where
  | sump | pit | bund | estop
  deriving DecidableEq, Repr

/-- R82, R104: the eight flags of a machine record. -/
inductive MachineFlag where
  | hoursBack | hoursJump | rateHigh | rateLow | serviceDue | lubeHigh | resynced | doubleFill
  deriving DecidableEq, Repr

/-- A requested preset: a volume in cL, or the TO_FULL mark (R4). -/
inductive Preset where
  | volume (cl : Nat)
  | toFull
  deriving DecidableEq, Repr

/-- The six items of AUTHORIZE (R4), with the direction and the lube override as the bytes that carry them. -/
structure AuthorizeReq where
  lane : Nat
  machine : Nat
  direction : Nat
  preset : Preset
  hours : Option Nat
  lubeOverride : Nat
  deriving DecidableEq, Repr

/-- ACCOUNT SET (R106): a machine and five items, each given (`some`) or left. Hours to service and the
estimate may be given as absent (`some none`). -/
structure AccountSetReq where
  machine : Nat
  cls : Option Nat
  priority : Option Nat
  hours : Option Nat
  service : Option (Option Nat)
  estimate : Option (Option Nat)
  deriving DecidableEq, Repr

/-- CONFIGURE (R176): the item's kind and number and its fields, in the layout order of R188. -/
structure ConfigureReq where
  kind : Nat
  number : Nat
  fields : List Nat
  deriving DecidableEq, Repr

/-- The eighteen requests of the panel port (R167), in the order of their codes. -/
inductive Request where
  | authorize (r : AuthorizeReq)
  | cancel (lane : Nat)
  | laneRead (lane : Nat)
  | takeFill (again : Nat)
  | meterHealth (lane : Nat)
  | tankRead (tank : Nat)
  | accountRead (machine : Nat)
  | accountSet (r : AccountSetReq)
  | serviceDone (machine : Nat) (service : Option Nat)
  | clearFlags (machine : Nat) (flags : Byte)
  | zoneRead
  | rosterRead (clear : Nat)
  | stationRead
  | timeSet (time : Nat)
  | readAttention
  | configure (r : ConfigureReq)
  | start
  | restart
  deriving DecidableEq, Repr

/-- A temperature converter's sample (R39): dC, or PROBE_FAULT. -/
inductive Sample where
  | temp (dC : Int)
  | probeFault
  deriving DecidableEq, Repr

/-- A gauge input's reading (R64). -/
inductive GaugeReading where
  | fault
  | good (g : Nat) (high highHigh : Bool)
  deriving DecidableEq, Repr

/-- The six items a lane publishes (R16), as a STATUS frame carries them (R184). -/
structure LanePicture where
  band : Band
  tank : Option TankId
  demand : Nat
  delivered : Nat
  commitment : Nat
  machine : Nat
  deriving DecidableEq, Repr

/-- State and epoch of one zone view, as a STATUS frame carries them (R111, R184). -/
structure ZoneReport where
  state : ZoneState
  epoch : Nat
  deriving DecidableEq, Repr

/-- The content of a STATUS frame (R146). -/
structure StatusContent where
  bayTime : Nat
  drawSeq : Nat
  lockOpen : Bool
  panelAbsent : Bool
  zones : Vector ZoneReport 4
  lanes : Vector LanePicture 4
  deriving DecidableEq, Repr

/-- The content of a DRAW frame (R89, R184). -/
structure DrawContent where
  seq : Nat
  lane : LaneId
  direction : Direction
  product : ProductId
  tank : TankId
  machine : Nat
  cls : ClassId
  net : Nat
  total : Nat
  hours : Option Nat
  prior : Option Nat
  toFull : Bool
  start : Nat
  stop : Nat
  deriving DecidableEq, Repr

/-- The content of a STOCK frame (R70, R184). -/
structure StockContent where
  tank : TankId
  g : Nat
  time : Nat
  high : Bool
  highHigh : Bool
  delivering : Bool
  delivery : Nat
  deriving DecidableEq, Repr

/-- The content of a TRIP frame (R117, R184). -/
structure TripContent where
  zone : ZoneId
  epoch : Nat
  cause : TripCause
  copy : Nat
  deriving DecidableEq, Repr

/-- The content of a CLEAR frame (R124, R184). -/
structure ClearContent where
  zone : ZoneId
  epoch : Nat
  copy : Nat
  deriving DecidableEq, Repr

/-- A frame of the bay link, without its sender (R184). -/
inductive Frame where
  | trip (c : TripContent)
  | clear (c : ClearContent)
  | draw (c : DrawContent)
  | stock (c : StockContent)
  | status (c : StatusContent)
  deriving DecidableEq, Repr

/-- The commands of the block: one constructor per row of spec/opcode_table.json. -/
inductive Instr where
  | powerOnReset (straps : StationId)
  | authorize (r : AuthorizeReq)
  | cancel (lane : Nat)
  | laneRead (lane : Nat)
  | takeFill (again : Nat)
  | meterHealth (lane : Nat)
  | tankRead (tank : Nat)
  | accountRead (machine : Nat)
  | accountSet (r : AccountSetReq)
  | serviceDone (machine : Nat) (service : Option Nat)
  | clearFlags (machine : Nat) (flags : Byte)
  | zoneRead
  | rosterRead (clear : Nat)
  | stationRead
  | timeSet (time : Nat)
  | readAttention
  | configure (r : ConfigureReq)
  | start
  | restart
  | panelByteReceived (byte : Byte)
  | panelByteTimeout
  | panelFrameSent
  | presenceTimerExpiry
  | nozzleOut (lane : LaneId)
  | nozzleIn (lane : LaneId)
  | aPulse (lane : LaneId) (bHigh : Bool)
  | bPulse (lane : LaneId)
  | temperatureSample (lane : LaneId) (sample : Sample)
  | sampleWatchExpiry (lane : LaneId)
  | liftTimerExpiry (lane : LaneId)
  | noFlowExpiry (lane : LaneId)
  | durationExpiry (lane : LaneId)
  | settleExpiry (lane : LaneId)
  | rateWindowEnd (lane : LaneId)
  | creepTimerExpiry (lane : LaneId)
  | spillInputActive (input : InputId)
  | spillInputInactive (input : InputId)
  | confirmTimerExpiry (input : InputId)
  | zoneLineAsserted (asserted : Bool)
  | zoneSettleExpiry
  | releaseKey
  | intervalTimerExpiry
  | waitTimerExpiry (zone : ZoneId)
  | listenTimerExpiry
  | gaugeReading (input : InputId) (reading : GaugeReading)
  | basisAgeExpiry (tank : TankId)
  | stockIntervalExpiry (tank : TankId)
  | idleGapContend
  | arbitrationWon
  | arbitrationLost
  | frameSent
  | linkConflict
  | tripHoldExpiry (zone : ZoneId)
  | statusPeriodExpiry
  | holdOffExpiry
  | invalidFrame
  | ownNumberFrame
  | statusFrame (sender : StationId) (content : StatusContent)
  | drawFrame (sender : StationId) (content : DrawContent)
  | stockFrame (sender : StationId) (content : StockContent)
  | tripFrame (sender : StationId) (content : TripContent)
  | clearCopy1Frame (sender : StationId) (zone : ZoneId) (epoch : Nat)
  | clearCopy2Frame (sender : StationId) (zone : ZoneId) (epoch : Nat)
  | loopbackTestEnd (returned : Option (List Byte))
  | rosterStale (station : StationId)
  | rosterLost (station : StationId)
  | bayClockSecond
  | calibrationSwitchChange (on : Bool)
  | setPointStep (lane : LaneId)
  deriving DecidableEq, Repr

end Sys2Proof
end

