-- ==== Sys2Proof/WellFormed.lean ====
section
/-! DEFINITION. Which commands can exist at all: every operand fits the bytes that carry it (R182 to R185, R188).
The meanings do not lean on it; the statements about encodings do. -/

namespace Sys2Proof

/-- A number that `n` bytes can carry (R182). -/
def fitsBytes (n v : Nat) : Bool := v < 256 ^ n

/-- An optional number of `n` bytes: the value of all 0xFF stands for absent (R182). -/
def fitsOpt (n : Nat) : Option Nat → Bool
  | none => true
  | some v => v < 256 ^ n - 1

/-- The widths of the fields of a configuration item, in layout order; `none` for an unknown kind (R188). -/
def itemWidths : Nat → Option (List Nat)
  | 0 => some [1]
  | 1 => some [1, 1, 1, 1, 4, 2, 2, 4, 4, 1]
  | 2 => some [1, 2]
  | 3 => some [1, 1, 1, 1, 1, 4, 4, 4, 4, 4, 4, 4, 2, 2, 4, 4]
  | 4 => some [2, 1, 4, 4]
  | 5 => some [1, 1, 1, 1, 1]
  | 6 => some [1]
  | _ => none

/-- Every field fits its width, and there is one field for each width. -/
def fieldsFit : List Nat → List Nat → Bool
  | [], [] => true
  | w :: ws, v :: vs => fitsBytes w v && fieldsFit ws vs
  | _, _ => false

/-- A preset that the four preset bytes can carry: 0xFFFFFFFE stands for TO_FULL (R185). -/
def Preset.wellFormed : Preset → Bool
  | .toFull => true
  | .volume v => fitsBytes 4 v && v != 4294967294

def AuthorizeReq.wellFormed (r : AuthorizeReq) : Bool :=
  fitsBytes 1 r.lane && fitsBytes 4 r.machine && fitsBytes 1 r.direction && r.preset.wellFormed
    && fitsOpt 4 r.hours && fitsBytes 1 r.lubeOverride

/-- A given optional item fits its bytes, absent included; a left item carries nothing. -/
def givenFits (n : Nat) : Option (Option Nat) → Bool
  | none => true
  | some v => fitsOpt n v

/-- A given item fits its bytes. -/
def givenNatFits (n : Nat) : Option Nat → Bool
  | none => true
  | some v => fitsBytes n v

def AccountSetReq.wellFormed (r : AccountSetReq) : Bool :=
  fitsBytes 4 r.machine && givenNatFits 1 r.cls && givenNatFits 1 r.priority && givenNatFits 4 r.hours
    && givenFits 4 r.service && givenFits 4 r.estimate

/-- An item of a known kind carries that kind's fields; an unknown kind carries any bytes (R185). -/
def ConfigureReq.wellFormed (r : ConfigureReq) : Bool :=
  fitsBytes 1 r.kind && fitsBytes 1 r.number &&
    match itemWidths r.kind with
    | some ws => fieldsFit ws r.fields
    | none => r.fields.all (fitsBytes 1)

def Request.wellFormed : Request → Bool
  | .authorize r => r.wellFormed
  | .cancel lane => fitsBytes 1 lane
  | .laneRead lane => fitsBytes 1 lane
  | .takeFill again => fitsBytes 1 again
  | .meterHealth lane => fitsBytes 1 lane
  | .tankRead tank => fitsBytes 1 tank
  | .accountRead machine => fitsBytes 4 machine
  | .accountSet r => r.wellFormed
  | .serviceDone machine service => fitsBytes 4 machine && fitsOpt 4 service
  | .clearFlags machine _ => fitsBytes 4 machine
  | .zoneRead => true
  | .rosterRead clear => fitsBytes 1 clear
  | .stationRead => true
  | .timeSet time => fitsBytes 4 time
  | .readAttention => true
  | .configure r => r.wellFormed
  | .start => true
  | .restart => true

/-- A sample fits two signed bytes (R189). -/
def Sample.wellFormed : Sample → Bool
  | .temp t => (-32768 ≤ t) && (t ≤ 32767)
  | .probeFault => true

/-- R64: a good reading holds 0 to 200,000,000 cL. -/
def GaugeReading.wellFormed : GaugeReading → Bool
  | .fault => true
  | .good g _ _ => g ≤ 200000000

def LanePicture.wellFormed (p : LanePicture) : Bool :=
  fitsBytes 2 p.demand && fitsBytes 4 p.delivered && fitsBytes 4 p.commitment && fitsBytes 4 p.machine

def ZoneReport.wellFormed (z : ZoneReport) : Bool := fitsBytes 2 z.epoch

def StatusContent.wellFormed (c : StatusContent) : Bool :=
  fitsBytes 4 c.bayTime && fitsBytes 4 c.drawSeq
    && (c.zones[0].wellFormed && c.zones[1].wellFormed && c.zones[2].wellFormed && c.zones[3].wellFormed)
    && (c.lanes[0].wellFormed && c.lanes[1].wellFormed && c.lanes[2].wellFormed && c.lanes[3].wellFormed)

def DrawContent.wellFormed (c : DrawContent) : Bool :=
  fitsBytes 4 c.seq && fitsBytes 4 c.machine && fitsBytes 4 c.net && fitsBytes 4 c.total && fitsOpt 4 c.hours
    && fitsOpt 4 c.prior && fitsBytes 4 c.start && fitsBytes 4 c.stop

def StockContent.wellFormed (c : StockContent) : Bool :=
  fitsBytes 4 c.g && fitsBytes 4 c.time && fitsBytes 4 c.delivery

/-- R159: TRIP copies are 1 to 3. -/
def TripContent.wellFormed (c : TripContent) : Bool :=
  fitsBytes 2 c.epoch && (1 ≤ c.copy && c.copy ≤ 3)

/-- R159: CLEAR copies are 1 and 2. -/
def ClearContent.wellFormed (c : ClearContent) : Bool :=
  fitsBytes 2 c.epoch && (1 ≤ c.copy && c.copy ≤ 2)

def Frame.wellFormed : Frame → Bool
  | .trip c => c.wellFormed
  | .clear c => c.wellFormed
  | .draw c => c.wellFormed
  | .stock c => c.wellFormed
  | .status c => c.wellFormed

/-- The commands that can exist. -/
def Instr.wellFormed : Instr → Bool
  | .powerOnReset _ => true
  | .authorize r => (Request.authorize r).wellFormed
  | .cancel lane => (Request.cancel lane).wellFormed
  | .laneRead lane => (Request.laneRead lane).wellFormed
  | .takeFill again => (Request.takeFill again).wellFormed
  | .meterHealth lane => (Request.meterHealth lane).wellFormed
  | .tankRead tank => (Request.tankRead tank).wellFormed
  | .accountRead machine => (Request.accountRead machine).wellFormed
  | .accountSet r => (Request.accountSet r).wellFormed
  | .serviceDone machine service => (Request.serviceDone machine service).wellFormed
  | .clearFlags machine flags => (Request.clearFlags machine flags).wellFormed
  | .zoneRead => true
  | .rosterRead clear => (Request.rosterRead clear).wellFormed
  | .stationRead => true
  | .timeSet time => (Request.timeSet time).wellFormed
  | .readAttention => true
  | .configure r => (Request.configure r).wellFormed
  | .start => true
  | .restart => true
  | .panelByteReceived _ => true
  | .panelByteTimeout => true
  | .panelFrameSent => true
  | .presenceTimerExpiry => true
  | .nozzleOut _ => true
  | .nozzleIn _ => true
  | .aPulse _ _ => true
  | .bPulse _ => true
  | .temperatureSample _ sample => sample.wellFormed
  | .sampleWatchExpiry _ => true
  | .liftTimerExpiry _ => true
  | .noFlowExpiry _ => true
  | .durationExpiry _ => true
  | .settleExpiry _ => true
  | .rateWindowEnd _ => true
  | .creepTimerExpiry _ => true
  | .spillInputActive _ => true
  | .spillInputInactive _ => true
  | .confirmTimerExpiry _ => true
  | .zoneLineAsserted _ => true
  | .zoneSettleExpiry => true
  | .releaseKey => true
  | .intervalTimerExpiry => true
  | .waitTimerExpiry _ => true
  | .listenTimerExpiry => true
  | .gaugeReading _ reading => reading.wellFormed
  | .basisAgeExpiry _ => true
  | .stockIntervalExpiry _ => true
  | .idleGapContend => true
  | .arbitrationWon => true
  | .arbitrationLost => true
  | .frameSent => true
  | .linkConflict => true
  | .tripHoldExpiry _ => true
  | .statusPeriodExpiry => true
  | .holdOffExpiry => true
  | .invalidFrame => true
  | .ownNumberFrame => true
  | .statusFrame _ content => content.wellFormed
  | .drawFrame _ content => content.wellFormed
  | .stockFrame _ content => content.wellFormed
  | .tripFrame _ content => content.wellFormed
  | .clearCopy1Frame _ _ epoch => fitsBytes 2 epoch
  | .clearCopy2Frame _ _ epoch => fitsBytes 2 epoch
  | .loopbackTestEnd _ => true
  | .rosterStale _ => true
  | .rosterLost _ => true
  | .bayClockSecond => true
  | .calibrationSwitchChange _ => true
  | .setPointStep _ => true

end Sys2Proof
end

