-- ==== Sys2Proof/Decode.lean ====
section
/-! DEFINITION. The bytes of the two links: numbers and enumerations (R182), the CRC-16 (R183), the frames of the
bay link with the five conditions of R159 (R149, R184), and the requests of the panel line (R185, R188), each with
its encoder. `decodeTableWord` answers none: spec/opcode_table.json gives no row any bits. -/

namespace Sys2Proof

/-! ## Numbers (R182) -/

/-- `n` bytes of `v`, most significant byte first. -/
def be : Nat → Nat → List Byte
  | 0, _ => []
  | n + 1, v => BitVec.ofNat 8 (v / 256 ^ n) :: be n v

/-- The number that bytes spell, most significant byte first. -/
def readBE (bs : List Byte) : Nat := bs.foldl (fun a b => a * 256 + b.toNat) 0

/-- The number in `n` bytes at offset `off`. -/
def num (bs : List Byte) (off n : Nat) : Nat := readBE ((bs.drop off).take n)

/-- Two's complement in `n` bytes. -/
def beInt (n : Nat) (v : Int) : List Byte := be n (v % (256 ^ n : Nat)).toNat

/-- An absent field: every byte 0xFF. -/
def absentBytes (n : Nat) : List Byte := List.replicate n 0xFF

/-- An optional number: absent is all 0xFF. -/
def beOpt (n : Nat) : Option Nat → List Byte
  | none => absentBytes n
  | some v => be n v

/-- A number read from an optional field of `n` bytes. -/
def optOf (n v : Nat) : Option Nat := if v = 256 ^ n - 1 then none else some v

def boolNat (b : Bool) : Nat := if b then 1 else 0

/-- A mark byte: 0 for clear, 1 for set. -/
def beMark (b : Bool) : List Byte := be 1 (boolNat b)

/-- The field numbers of bytes cut by widths; none unless the widths cover the bytes exactly. -/
def splitFields : List Nat → List Byte → Option (List Nat)
  | [], [] => some []
  | [], _ :: _ => none
  | w :: ws, bs =>
    if w ≤ bs.length then (splitFields ws (bs.drop w)).map (readBE (bs.take w) :: ·) else none

/-- Fields laid out by their widths. -/
def joinFields : List Nat → List Nat → List Byte
  | w :: ws, v :: vs => be w v ++ joinFields ws vs
  | _, _ => []

/-! ## Enumerations (R182) -/

def Direction.code : Direction → Nat
  | .draw => 0 | .ret => 1
def Direction.ofCode : Nat → Option Direction
  | 0 => some .draw | 1 => some .ret | _ => none

def Band.code : Band → Nat
  | .idle => 0 | .granted => 1 | .drawing => 2 | .returning => 3 | .closing => 4
def Band.ofCode : Nat → Option Band
  | 0 => some .idle | 1 => some .granted | 2 => some .drawing | 3 => some .returning | 4 => some .closing
  | _ => none

def ZoneState.code : ZoneState → Nat
  | .starting => 0 | .normal => 1 | .tripped => 2 | .clearing => 3
def ZoneState.ofCode : Nat → Option ZoneState
  | 0 => some .starting | 1 => some .normal | 2 => some .tripped | 3 => some .clearing | _ => none

def TripCause.code : TripCause → Nat
  | .none => 0 | .sump => 1 | .pit => 2 | .bund => 3 | .estop => 4 | .excessFlow => 5 | .creep => 6
  | .highHigh => 7 | .zoneLine => 8 | .retrip => 9 | .peerStatus => 10
def TripCause.ofCode : Nat → Option TripCause
  | 0 => some .none | 1 => some .sump | 2 => some .pit | 3 => some .bund | 4 => some .estop
  | 5 => some .excessFlow | 6 => some .creep | 7 => some .highHigh | 8 => some .zoneLine | 9 => some .retrip
  | 10 => some .peerStatus | _ => Option.none

def EndCause.code : EndCause → Nat
  | .preset => 1 | .hung => 2 | .noFlow => 3 | .duration => 4 | .cancel => 5 | .spill => 6 | .meterFault => 7
  | .dry => 8 | .restart => 9 | .lapsed => 10 | .panelLost => 11

/-- An optional end cause: none is 0. -/
def EndCause.optCode : Option EndCause → Nat
  | none => 0
  | some c => c.code

def ClampReason.code : ClampReason → Nat
  | .none => 0 | .presetMax => 1 | .stockLimit => 2 | .lubeLimit => 3 | .toFullLimit => 4

def Disposition.code : Disposition → Nat
  | .record => 0 | .unassigned => 1 | .bulk => 2

def LaneMode.code : LaneMode → Nat
  | .disabled => 0 | .drawOnly => 1 | .returnOnly => 2 | .both => 3
def LaneMode.ofCode : Nat → Option LaneMode
  | 0 => some .disabled | 1 => some .drawOnly | 2 => some .returnOnly | 3 => some .both | _ => none

def ProductClass.code : ProductClass → Nat
  | .fuel => 0 | .lube => 1 | .coolant => 2 | .waste => 3
def ProductClass.ofCode : Nat → Option ProductClass
  | 0 => some .fuel | 1 => some .lube | 2 => some .coolant | 3 => some .waste | _ => none

def TankClass.code : TankClass → Nat
  | .fuelSupply => 0 | .lubeSupply => 1 | .waste => 2
def TankClass.ofCode : Nat → Option TankClass
  | 0 => some .fuelSupply | 1 => some .lubeSupply | 2 => some .waste | _ => none

def InputKind.code : InputKind → Nat
  | .sump => 0 | .pit => 1 | .bund => 2 | .estop => 3
def InputKind.ofCode : Nat → Option InputKind
  | 0 => some .sump | 1 => some .pit | 2 => some .bund | 3 => some .estop | _ => none

/-- R182: the machine flags fill one byte, HOURS_BACK at bit 7 down to DOUBLE_FILL at bit 0. -/
def MachineFlag.bit : MachineFlag → Nat
  | .hoursBack => 7 | .hoursJump => 6 | .rateHigh => 5 | .rateLow => 4 | .serviceDue => 3 | .lubeHigh => 2
  | .resynced => 1 | .doubleFill => 0

/-- The number `v` as an index below `n`, where it is one. -/
def finOf (n v : Nat) : Option (Fin n) := if h : v < n then some ⟨v, h⟩ else none

/-- A tank field that can be none (R182): 0xFF, or a tank. -/
def optTankOf (v : Nat) : Option (Option TankId) :=
  if v = 255 then some none else (finOf 12 v).map some

/-! ## The CRC-16 (R183) -/

/-- One bit of the division by x^16 + x^12 + x^5 + 1. -/
def crcShift (r : CrcWord) : CrcWord := if r.msb then (r <<< 1) ^^^ 0x1021 else r <<< 1

/-- One byte enters, most significant bit first. -/
def crcByte (r : CrcWord) (b : Byte) : CrcWord :=
  crcShift (crcShift (crcShift (crcShift (crcShift (crcShift (crcShift (crcShift
    (r ^^^ (b.zeroExtend 16 <<< 8)))))))))

/-- The check sum of bytes, from 0xFFFF, nothing reflected and nothing added. -/
def crc16 (bs : List Byte) : CrcWord := bs.foldl crcByte 0xFFFF

/-- The two CRC bytes, high byte first. -/
def crcBytes (bs : List Byte) : List Byte := be 2 (crc16 bs).toNat

/-! ## Frames of the bay link (R149, R184) -/

/-- R150: the class of a frame kind; the lower class wins the line. -/
def Frame.linkClass : Frame → Nat
  | .trip _ => 0 | .clear _ => 1 | .draw _ => 2 | .stock _ => 3 | .status _ => 4

/-- The number of 1 bits among three. -/
def onesIn3 (n : Nat) : Nat := n % 2 + n / 2 % 2 + n / 4 % 2

/-- R149: class, station number and frame-kind check, as a number. -/
def arbitrationNat (cls station : Nat) : Nat := cls * 32 + station * 4 + (onesIn3 cls + onesIn3 station) % 4

/-- R149: the arbitration byte. -/
def arbitrationByte (cls : Nat) (station : StationId) : Byte := BitVec.ofNat 8 (arbitrationNat cls station.val)

/-- R184: the fixed body length of each class. -/
def frameBodyLength : Nat → Option Nat
  | 0 => some 5 | 1 => some 4 | 2 => some 38 | 3 => some 14 | 4 => some 85 | _ => none

def beTank : Option TankId → List Byte
  | none => [0xFF]
  | some t => be 1 t.val

def ZoneReport.bytes (z : ZoneReport) : List Byte := be 1 z.state.code ++ be 2 z.epoch

def LanePicture.bytes (p : LanePicture) : List Byte :=
  be 1 p.band.code ++ (beTank p.tank ++ (be 2 p.demand ++ (be 4 p.delivered ++ (be 4 p.commitment ++ be 4 p.machine))))

def StatusContent.bytes (c : StatusContent) : List Byte :=
  be 4 c.bayTime ++ (be 4 c.drawSeq ++ (be 1 (boolNat c.lockOpen + 2 * boolNat c.panelAbsent) ++
    (c.zones[0].bytes ++ (c.zones[1].bytes ++ (c.zones[2].bytes ++ (c.zones[3].bytes ++
      (c.lanes[0].bytes ++ (c.lanes[1].bytes ++ (c.lanes[2].bytes ++ c.lanes[3].bytes)))))))))

def DrawContent.bytes (c : DrawContent) : List Byte :=
  be 4 c.seq ++ (be 1 c.lane.val ++ (be 1 c.direction.code ++ (be 1 c.product.val ++ (be 1 c.tank.val ++
    (be 4 c.machine ++ (be 1 c.cls.val ++ (be 4 c.net ++ (be 4 c.total ++ (beOpt 4 c.hours ++ (beOpt 4 c.prior ++
      (beMark c.toFull ++ (be 4 c.start ++ be 4 c.stop))))))))))))

/-- R184. Four bytes hold a delivery volume modulo 2^32; the manual says nothing of one that needs more (DESIGN CHOICE,
notes/assumptions/53.md). -/
def StockContent.bytes (c : StockContent) : List Byte :=
  be 1 c.tank.val ++ (be 4 c.g ++ (be 4 c.time ++
    (be 1 (boolNat c.high + 2 * boolNat c.highHigh + 4 * boolNat c.delivering) ++ be 4 c.delivery)))

def TripContent.bytes (c : TripContent) : List Byte :=
  be 1 c.zone.val ++ (be 2 c.epoch ++ (be 1 c.cause.code ++ be 1 c.copy))

def ClearContent.bytes (c : ClearContent) : List Byte :=
  be 1 c.zone.val ++ (be 2 c.epoch ++ be 1 c.copy)

/-- The body of a frame (R184). -/
def Frame.body : Frame → List Byte
  | .trip c => c.bytes
  | .clear c => c.bytes
  | .draw c => c.bytes
  | .stock c => c.bytes
  | .status c => c.bytes

/-- The bytes of a frame on the line: arbitration byte, body, CRC over both (R149). -/
def encodeFrame (sender : StationId) (f : Frame) : List Byte :=
  let covered := arbitrationByte f.linkClass sender :: f.body
  covered ++ crcBytes covered

def decodeZone (bs : List Byte) (off : Nat) : Option ZoneReport :=
  (ZoneState.ofCode (num bs off 1)).map fun st => ⟨st, num bs (off + 1) 2⟩

def decodeLane (bs : List Byte) (off : Nat) : Option LanePicture :=
  (Band.ofCode (num bs off 1)).bind fun band =>
  (optTankOf (num bs (off + 1) 1)).map fun tank =>
    ⟨band, tank, num bs (off + 2) 2, num bs (off + 4) 4, num bs (off + 8) 4, num bs (off + 12) 4⟩

def decodeStatus (bs : List Byte) : Option StatusContent :=
  (decodeZone bs 9).bind fun z0 => (decodeZone bs 12).bind fun z1 => (decodeZone bs 15).bind fun z2 =>
  (decodeZone bs 18).bind fun z3 => (decodeLane bs 21).bind fun l0 => (decodeLane bs 37).bind fun l1 =>
  (decodeLane bs 53).bind fun l2 => (decodeLane bs 69).map fun l3 =>
    { bayTime := num bs 0 4, drawSeq := num bs 4 4
      lockOpen := num bs 8 1 % 2 = 1, panelAbsent := num bs 8 1 / 2 % 2 = 1
      zones := #v[z0, z1, z2, z3], lanes := #v[l0, l1, l2, l3] }

def decodeDraw (bs : List Byte) : Option DrawContent :=
  (finOf 4 (num bs 4 1)).bind fun lane => (Direction.ofCode (num bs 5 1)).bind fun direction =>
  (finOf 8 (num bs 6 1)).bind fun product => (finOf 12 (num bs 7 1)).bind fun tank =>
  (finOf 16 (num bs 12 1)).map fun cls =>
    { seq := num bs 0 4, lane, direction, product, tank, machine := num bs 8 4, cls
      net := num bs 13 4, total := num bs 17 4, hours := optOf 4 (num bs 21 4), prior := optOf 4 (num bs 25 4)
      toFull := num bs 29 1 ≠ 0, start := num bs 30 4, stop := num bs 34 4 }

def decodeStock (bs : List Byte) : Option StockContent :=
  (finOf 12 (num bs 0 1)).map fun tank =>
    { tank, g := num bs 1 4, time := num bs 5 4, high := num bs 9 1 % 2 = 1, highHigh := num bs 9 1 / 2 % 2 = 1
      delivering := num bs 9 1 / 4 % 2 = 1, delivery := num bs 10 4 }

def decodeTrip (bs : List Byte) : Option TripContent :=
  (finOf 4 (num bs 0 1)).bind fun zone => (TripCause.ofCode (num bs 3 1)).bind fun cause =>
    if 1 ≤ num bs 4 1 ∧ num bs 4 1 ≤ 3 then some ⟨zone, num bs 1 2, cause, num bs 4 1⟩ else none

def decodeClear (bs : List Byte) : Option ClearContent :=
  (finOf 4 (num bs 0 1)).bind fun zone =>
    if 1 ≤ num bs 3 1 ∧ num bs 3 1 ≤ 2 then some ⟨zone, num bs 1 2, num bs 3 1⟩ else none

/-- R159, condition 5: the body of a class, every field in its range. -/
def decodeBody : Nat → List Byte → Option Frame
  | 0, bs => (decodeTrip bs).map .trip
  | 1, bs => (decodeClear bs).map .clear
  | 2, bs => (decodeDraw bs).map .draw
  | 3, bs => (decodeStock bs).map .stock
  | 4, bs => (decodeStatus bs).map .status
  | _, _ => none

/-- R159: the five conditions on the bytes of a received frame. What passes is the sender and the content. -/
def decodeFrame (bytes : List Byte) : Option (StationId × Frame) :=
  match bytes with
  | [] => none
  | a :: rest =>
    let cls := a.toNat / 32
    let station := a.toNat / 4 % 8
    if rest.length < 2 then none
    else if a.toNat ≠ arbitrationNat cls station then none
    else if frameBodyLength cls ≠ some (rest.length - 2) then none
    else
      let body := rest.take (rest.length - 2)
      if rest.drop (rest.length - 2) ≠ crcBytes (a :: body) then none
      else (finOf 8 station).bind fun sender => (decodeBody cls body).map fun f => (sender, f)

/-- R159, R160: the command that the bytes of a frame, ended on the line, stand for at station `own`. -/
def frameCommand (own : StationId) (bytes : List Byte) : Instr :=
  match decodeFrame bytes with
  | none => .invalidFrame
  | some (sender, f) =>
    if sender = own then .ownNumberFrame
    else match f with
      | .trip c => .tripFrame sender c
      | .clear c => if c.copy = 1 then .clearCopy1Frame sender c.zone c.epoch else .clearCopy2Frame sender c.zone c.epoch
      | .draw c => .drawFrame sender c
      | .stock c => .stockFrame sender c
      | .status c => .statusFrame sender c

/-! ## Requests of the panel line (R185, R188) -/

/-- R185: the request codes, in the order of the table in section 8.3. -/
def Request.code : Request → Nat
  | .authorize _ => 0x01 | .cancel _ => 0x02 | .laneRead _ => 0x03 | .takeFill _ => 0x04 | .meterHealth _ => 0x05
  | .tankRead _ => 0x06 | .accountRead _ => 0x07 | .accountSet _ => 0x08 | .serviceDone _ _ => 0x09
  | .clearFlags _ _ => 0x0A | .zoneRead => 0x0B | .rosterRead _ => 0x0C | .stationRead => 0x0D | .timeSet _ => 0x0E
  | .readAttention => 0x0F | .configure _ => 0x10 | .start => 0x11 | .restart => 0x12

def Preset.number : Preset → Nat
  | .toFull => 0xFFFFFFFE
  | .volume v => v

def Preset.ofNumber (v : Nat) : Preset := if v = 0xFFFFFFFE then .toFull else .volume v

def AccountSetReq.given (r : AccountSetReq) : Nat :=
  boolNat r.cls.isSome + 2 * boolNat r.priority.isSome + 4 * boolNat r.hours.isSome
    + 8 * boolNat r.service.isSome + 16 * boolNat r.estimate.isSome

/-- The bytes of a given optional item; a left item's bytes are sent as 0. -/
def beGiven (n : Nat) : Option (Option Nat) → List Byte
  | none => be n 0
  | some v => beOpt n v

/-- The body of a request (R185). -/
def Request.body : Request → List Byte
  | .authorize r =>
    be 1 r.lane ++ (be 4 r.machine ++ (be 1 r.direction ++ (be 4 r.preset.number ++ (beOpt 4 r.hours ++ be 1 r.lubeOverride))))
  | .cancel lane => be 1 lane
  | .laneRead lane => be 1 lane
  | .takeFill again => be 1 again
  | .meterHealth lane => be 1 lane
  | .tankRead tank => be 1 tank
  | .accountRead machine => be 4 machine
  | .accountSet r =>
    be 4 r.machine ++ (be 1 r.given ++ (be 1 (r.cls.getD 0) ++ (be 1 (r.priority.getD 0) ++ (be 4 (r.hours.getD 0) ++
      (beGiven 4 r.service ++ beGiven 4 r.estimate)))))
  | .serviceDone machine service => be 4 machine ++ beOpt 4 service
  | .clearFlags machine flags => be 4 machine ++ [flags]
  | .zoneRead => []
  | .rosterRead clear => be 1 clear
  | .stationRead => []
  | .timeSet time => be 4 time
  | .readAttention => []
  | .configure r =>
    be 1 r.kind ++ (be 1 r.number ++
      match itemWidths r.kind with
      | some ws => joinFields ws r.fields
      | none => joinFields (r.fields.map fun _ => 1) r.fields)
  | .start => []
  | .restart => []

/-- What checks 2 and 3 of R164 make of a code and a body. -/
inductive Parsed where
  | unknownCode
  | badLength
  | request (r : Request)
  deriving DecidableEq, Repr

/-- A body of a fixed length. -/
def withLength (n : Nat) (body : List Byte) (r : Request) : Parsed :=
  if body.length = n then .request r else .badLength

def bitSet (v k : Nat) : Bool := v / 2 ^ k % 2 = 1

def whenGiven {α : Type} (given : Bool) (v : α) : Option α := if given then some v else none

/-- CONFIGURE's body (R185): a known kind has its item's length; an unknown kind passes the length check. A body
of the kind byte alone is read as naming item number 255 (notes/assumptions/20.md). -/
def parseConfigure (body : List Byte) : Parsed :=
  match body with
  | [] => .badLength
  | k :: rest =>
    match itemWidths k.toNat with
    | some ws =>
      match splitFields (1 :: ws) rest with
      | some (n :: fs) => .request (.configure ⟨k.toNat, n, fs⟩)
      | _ => .badLength
    | none =>
      match rest with
      | [] => .request (.configure ⟨k.toNat, 255, []⟩)
      | n :: fs => .request (.configure ⟨k.toNat, n.toNat, fs.map BitVec.toNat⟩)

/-- Checks 2 and 3 of R164 on a code and a body, and the items they carry (R185). -/
def parseRequest (code : Nat) (b : List Byte) : Parsed :=
  match code with
  | 0x01 => withLength 15 b (.authorize ⟨num b 0 1, num b 1 4, num b 5 1, Preset.ofNumber (num b 6 4), optOf 4 (num b 10 4), num b 14 1⟩)
  | 0x02 => withLength 1 b (.cancel (num b 0 1))
  | 0x03 => withLength 1 b (.laneRead (num b 0 1))
  | 0x04 => withLength 1 b (.takeFill (num b 0 1))
  | 0x05 => withLength 1 b (.meterHealth (num b 0 1))
  | 0x06 => withLength 1 b (.tankRead (num b 0 1))
  | 0x07 => withLength 4 b (.accountRead (num b 0 4))
  | 0x08 => withLength 19 b (.accountSet
      { machine := num b 0 4, cls := whenGiven (bitSet (num b 4 1) 0) (num b 5 1)
        priority := whenGiven (bitSet (num b 4 1) 1) (num b 6 1), hours := whenGiven (bitSet (num b 4 1) 2) (num b 7 4)
        service := whenGiven (bitSet (num b 4 1) 3) (optOf 4 (num b 11 4))
        estimate := whenGiven (bitSet (num b 4 1) 4) (optOf 4 (num b 15 4)) })
  | 0x09 => withLength 8 b (.serviceDone (num b 0 4) (optOf 4 (num b 4 4)))
  | 0x0A => withLength 5 b (.clearFlags (num b 0 4) (BitVec.ofNat 8 (num b 4 1)))
  | 0x0B => withLength 0 b .zoneRead
  | 0x0C => withLength 1 b (.rosterRead (num b 0 1))
  | 0x0D => withLength 0 b .stationRead
  | 0x0E => withLength 4 b (.timeSet (num b 0 4))
  | 0x0F => withLength 0 b .readAttention
  | 0x10 => parseConfigure b
  | 0x11 => withLength 0 b .start
  | 0x12 => withLength 0 b .restart
  | _ => .unknownCode

/-- R185: the length bytes of a count of code and body bytes, in its two forms. -/
def lengthBytes (count : Nat) : List Byte :=
  if count < 128 then be 1 count else be 1 (128 + count / 256) ++ be 1 (count % 256)

/-- The start mark (R185). -/
def startMark : Byte := 0x5A

/-- R164, R185: the bytes of a panel frame: start mark, length, code, body, CRC over what stands between. -/
def panelFrame (code : Nat) (body : List Byte) : List Byte :=
  let covered := lengthBytes (body.length + 1) ++ (be 1 code ++ body)
  startMark :: (covered ++ crcBytes covered)

/-- The bytes of a request on the panel line. -/
def encodeRequest (r : Request) : List Byte := panelFrame r.code r.body

/-- The length of a frame after its start mark, as its first bytes give it; none while they do not settle it.
A first length byte of 0 settles a length of 0 (R164). The two-byte form is taken at every count, one under 128 too
(DESIGN CHOICE, notes/assumptions/47.md). -/
def panelFrameLength : List Byte → Option Nat
  | [] => none
  | a :: rest =>
    if a = 0 then some 0
    else if a.toNat < 128 then some (1 + a.toNat + 2)
    else match rest with
      | [] => none
      | b :: _ => some (2 + ((a.toNat - 128) * 256 + b.toNat) + 2)

/-- The number of length bytes of a frame (R185). -/
def lengthByteCount (bytes : List Byte) : Nat :=
  match bytes with
  | [] => 1
  | a :: _ => if a.toNat < 128 then 1 else 2

/-- Check 1 of R164 on the bytes after the start mark: a complete frame whose CRC agrees. -/
def panelCrcAgrees (bytes : List Byte) : Bool :=
  panelFrameLength bytes = some bytes.length && bytes.length ≥ 3 &&
    bytes.drop (bytes.length - 2) = crcBytes (bytes.take (bytes.length - 2))

/-- Checks 2 and 3 of R164 on a frame that has passed check 1. A frame that carries no code at all (a two-byte
length of 0) has none of the eighteen codes (notes/assumptions/21.md). -/
def parsePanel (bytes : List Byte) : Parsed :=
  match (bytes.take (bytes.length - 2)).drop (lengthByteCount bytes) with
  | [] => .unknownCode
  | c :: body => parseRequest c.toNat body

/-- The command that a request is. -/
def Request.command : Request → Instr
  | .authorize r => .authorize r
  | .cancel lane => .cancel lane
  | .laneRead lane => .laneRead lane
  | .takeFill again => .takeFill again
  | .meterHealth lane => .meterHealth lane
  | .tankRead tank => .tankRead tank
  | .accountRead machine => .accountRead machine
  | .accountSet r => .accountSet r
  | .serviceDone machine service => .serviceDone machine service
  | .clearFlags machine flags => .clearFlags machine flags
  | .zoneRead => .zoneRead
  | .rosterRead clear => .rosterRead clear
  | .stationRead => .stationRead
  | .timeSet time => .timeSet time
  | .readAttention => .readAttention
  | .configure r => .configure r
  | .start => .start
  | .restart => .restart

/-- The command that a word spells by the table's bits: spec/opcode_table.json gives no row any bits, so no word
spells one. -/
def decodeTableWord (_nbits _w : Nat) : Option Instr := none

end Sys2Proof
end

