-- ==== Sys2Proof/Machine/State.lean ====
section
/-! DEFINITION. Everything the manual gives the part, as plain data, block by block (spec/00_scope.md section 2),
with the queue of waiting commands beside it; and the part right after power-on reset. Times are in milliseconds,
volumes in cL unless a field says otherwise. -/

namespace Sys2Proof.Machine

/-- Why a step stops. The manual stops no command of the part on any path, so no fault exists: there is nothing
to raise (safe). -/
inductive Fault where
  deriving DecidableEq, Repr

/-- Why a command has no meaning here. -/
inductive Refusal where
  /-- Raised by `exec`'s arm of a row that has no meaning yet, with the row's mnemonic. No arm raises it (safe). -/
  | notModelled (mnemonic : String)
  deriving DecidableEq, Repr

/-- A timer that counts down: at rest, or running with the time left. -/
inductive Timer where
  | rest
  | run (left : Nat)
  deriving DecidableEq, Repr

/-! ## Configuration store and metrology lock -/

/-- R1: a LANE item. -/
structure LaneCfg where
  mode : LaneMode
  drawProduct : ProductId
  drawTank : TankId
  returnTank : TankId
  meterFactor : Nat
  maxRate : Nat
  slowRate : Nat
  slowVolume : Nat
  stopLead : Nat
  checkOn : Bool
  deriving DecidableEq, Repr

/-- R176: a PRODUCT item. -/
structure ProductCfg where
  cls : ProductClass
  alpha : Nat
  deriving DecidableEq, Repr

/-- R52: a TANK item. -/
structure TankCfg where
  product : ProductId
  cls : TankClass
  zone : ZoneId
  gaugeStation : StationId
  gaugeInput : InputId
  capacity : Nat
  highHighMark : Nat
  highMark : Nat
  lowMark : Nat
  reserveMark : Nat
  suctionMark : Nat
  lowRation : Nat
  supply : Nat
  bayDemand : Nat
  deliveryThreshold : Nat
  tolerance : Nat
  deriving DecidableEq, Repr

/-- R83: a CLASS item. -/
structure ClassCfg where
  bandHigh : Nat
  bandLow : Nat
  allowance : Nat
  toFull : Nat
  deriving DecidableEq, Repr

/-- R112: an INPUT item. The confirm time is in tenths of a second. -/
structure InputCfg where
  enabled : Bool
  activeHigh : Bool
  zone : ZoneId
  kind : InputKind
  confirm : Nat
  deriving DecidableEq, Repr

/-- R175: the lock state. -/
inductive LockState where
  | opened | locked
  deriving DecidableEq, Repr

/-- R175, R176: the configuration store. An item is `none` until it is loaded; a GAUGE item may map no tank. -/
structure Store where
  number : StationId
  running : Bool
  ownZone : Option ZoneId
  lanes : Vector (Option LaneCfg) 4
  products : Vector (Option ProductCfg) 8
  tanks : Vector (Option TankCfg) 12
  classes : Vector (Option ClassCfg) 16
  inputs : Vector (Option InputCfg) 4
  gauges : Vector (Option (Option TankId)) 4
  lock : LockState
  calibrationOn : Bool
  violations : Nat
  deriving DecidableEq, Repr

/-- The field lines that the part senses as levels (notes/assumptions/3.md): each lane's nozzle switch (out of the
holster or in it), each spill input's line level (high or low), and whether another station drives the own zone's
line. The calibration switch level is the store's own (R175). -/
structure Pins where
  nozzleOut : Vector Bool 4
  inputHigh : Vector Bool 4
  zoneLine : Bool
  deriving DecidableEq, Repr

/-! ## Lane units -/

/-- R3: the session states. -/
inductive SessionState where
  | off | idle | authorized | lifted | flowing | slowing | closing | finished
  deriving DecidableEq, Repr

/-- Section 2.2: the states of the pulse check. -/
inductive CheckState where
  | nosync | forward | reverse
  deriving DecidableEq, Repr

/-- R32: the line of the last pulse taken. -/
inductive PulseLine where
  | none | a | b
  deriving DecidableEq, Repr

/-- R39: the sample watch: not running, running, or expired until a sample arrives. -/
inductive Watch where
  | idle
  | run (left : Nat)
  | expired
  deriving DecidableEq, Repr

/-- R11: the session parameters. A TO_FULL session's granted preset and commitment basis are K. -/
structure SessionParams where
  direction : Direction
  product : ProductId
  tank : TankId
  machine : Nat
  requested : Preset
  granted : Nat
  toFull : Bool
  clamp : ClampReason
  basis : Nat
  hours : Option Nat
  hoursInvalid : Bool
  disposition : Disposition
  lubeOverride : Bool
  deriving DecidableEq, Repr

/-- Section 2.2: the pulse check of a meter. -/
structure PulseCheck where
  state : CheckState
  run : Nat
  runReverse : Bool
  faults : Nat
  memory : PulseLine
  deriving DecidableEq, Repr

/-- What a running session, or the last one, has accumulated: R43's accumulators and counts, R41's temperatures
and marks, the times and causes of R17 and R18, and whether METER_FAULT has been taken (R37). -/
structure SessionData where
  gross : Int
  net : Int
  reverse : Nat
  pulses : Nat
  unchecked : Nat
  errors : Nat
  minTemp : Int
  maxTemp : Int
  tempDefault : Bool
  tempClamped : Bool
  start : Nat
  stop : Nat
  primary : Option EndCause
  secondary : Option EndCause
  faultTaken : Bool
  deriving DecidableEq, Repr

/-- One lane unit (chapters 1 and 2). -/
structure Lane where
  session : SessionState
  params : Option SessionParams
  data : SessionData
  check : PulseCheck
  /-- R42: the correction factor in force; none outside a session. -/
  cf : Option Nat
  /-- R49: creep volume, µL. -/
  creep : Nat
  creepTimer : Timer
  sample : Option Sample
  watch : Watch
  healthErrors : Nat
  healthUnchecked : Nat
  windowForward : Nat
  windowReverse : Nat
  windowTimer : Timer
  rate : Nat
  excessRun : Nat
  lift : Timer
  noFlow : Timer
  duration : Timer
  settle : Timer
  lapse : Option EndCause
  /-- R13: the recorded nozzle position. -/
  nozzleOut : Bool
  /-- R3, R76, R77: the outputs and the share they follow. -/
  mainOpen : Bool
  slowOpen : Bool
  cap : Nat
  capDuty : Nat
  duty : Nat
  /-- R77: the set-point output: the duty in force, the step of the period, and whether the output is on. -/
  dutyInForce : Nat
  step : Nat
  setPoint : Bool
  deriving DecidableEq, Repr

/-! ## Tank table -/

/-- R53: the states of a tank view. -/
inductive TankState where
  | unknown | normal | low | reserve | dry | high
  deriving DecidableEq, Repr

/-- R54, R64: the last reading of a gauge, with the bay time of its arrival. -/
inductive LastReading where
  | none
  | fault (time : Nat)
  | good (g : Nat) (high highHigh : Bool) (time : Nat)
  deriving DecidableEq, Repr

/-- R54: a basis: the volume and bay time of the last rebase. -/
structure Basis where
  g : Nat
  time : Nat
  deriving DecidableEq, Repr

/-- R54: a station's own view of one tank. The items from `reading` on belong to a gauged tank. -/
structure TankView where
  book : Int
  basis : Option Basis
  /-- R57: time since the last rebase; 10 min once it has aged; 0 at rest (notes/assumptions/56.md). -/
  age : Nat
  state : TankState
  drawTotal : Nat
  returnTotal : Nat
  delivered : Nat
  variances : Nat
  heardHigh : Bool
  heardHighHigh : Bool
  reading : LastReading
  /-- R74: the G of the last good reading, which a GAUGE_FAULT leaves in force. -/
  lastGood : Option Nat
  previous : Option Nat
  delivering : Bool
  high : Bool
  highHigh : Bool
  pump : Bool
  inlet : Bool
  lastStock : Option Nat
  /-- R71: time since the last STOCK frame was sent; it rests at, and stops at, 60 s. -/
  stockAge : Nat
  pendingDelivery : Nat
  deriving DecidableEq, Repr

/-! ## Account table -/

/-- R182: what created a machine record. -/
inductive Origin where
  | localGrant | heard | loaded
  deriving DecidableEq, Repr

/-- R82: a record's last fill. -/
structure LastFill where
  start : Nat
  stop : Nat
  station : StationId
  lane : LaneId
  deriving DecidableEq, Repr

/-- R82: a machine record. The flags are the byte of R182. -/
structure MachineRecord where
  machine : Nat
  cls : ClassId
  origin : Origin
  priority : Bool
  hours : Option Nat
  base : Option Nat
  created : Option Nat
  lastFill : Option LastFill
  service : Option Nat
  carry : Nat
  estimate : Option Nat
  runCount : Nat
  runLow : Bool
  sinceService : Vector Nat 8
  drained : Nat
  fuel : Nat
  flags : Byte
  inFlight : Option LaneId
  deriving DecidableEq, Repr

/-- R88: the items of the unassigned record and of the bulk totals. -/
structure ProductTotals where
  draws : Vector Nat 8
  returns : Vector Nat 8
  count : Nat
  deriving DecidableEq, Repr

/-- The account table; the most recent record first (R84). -/
structure Accounts where
  records : List MachineRecord
  evictions : Nat
  unassigned : ProductTotals
  bulk : ProductTotals
  deriving DecidableEq, Repr

/-! ## Spill unit -/

/-- R123: the stages of a sender's release. -/
inductive Stage where
  | copy1 | interval | copy2
  deriving DecidableEq, Repr

/-- R110, R122, R125: the clearing context, with its interval or wait timer. -/
inductive Clearing where
  | sender (epoch : Nat) (stage : Stage) (interval : Timer)
  | receiver (sender : StationId) (epoch : Nat) (wait : Timer)
  deriving DecidableEq, Repr

/-- R110: a zone view. -/
structure ZoneView where
  state : ZoneState
  epoch : Nat
  cause : TripCause
  origin : Option StationId
  held : Option TripCause
  clearing : Option Clearing
  deriving DecidableEq, Repr

/-- R113: the states of a spill input. -/
inductive InputState where
  | inactive | confirming | confirmed
  deriving DecidableEq, Repr

/-- R113: a spill input and its confirm timer. -/
structure SpillInput where
  state : InputState
  timer : Timer
  deriving DecidableEq, Repr

/-- The spill unit (chapter 5). -/
structure Spill where
  views : Vector ZoneView 4
  inputs : Vector SpillInput 4
  drive : Bool
  settle : Timer
  listen : Timer
  deriving DecidableEq, Repr

/-! ## Peer roster -/

/-- R136: the states of a roster entry. -/
inductive EntryState where
  | absent | live | stale | lost
  deriving DecidableEq, Repr

/-- R135: a station's cumulative totals for one tank, each known or unknown. -/
structure KnownTotals where
  draw : Option Nat
  ret : Option Nat
  deriving DecidableEq, Repr

/-- R135: a roster entry. -/
structure RosterEntry where
  state : EntryState
  age : Nat
  last : Option StatusContent
  seq : Option Nat
  totals : Vector KnownTotals 12
  missed : Nat
  disagree : Bool
  deriving DecidableEq, Repr

/-- R147: the STATUS builder. -/
structure Builder where
  period : Timer
  holdOff : Timer
  change : Bool
  due : Bool
  deriving DecidableEq, Repr

/-- The peer roster, the bay clock and the STATUS builder (chapter 6). -/
structure Roster where
  entries : Vector RosterEntry 8
  /-- R144: the bay clock; 0 is unset. -/
  clock : Nat
  /-- R144: time counted of the second that is running. -/
  clockMs : Nat
  /-- R28, R146: the last draw sequence number given; 0 for none. -/
  drawSeq : Nat
  builder : Builder
  deriving DecidableEq, Repr

/-! ## Bay link controller -/

/-- R161: why the station is isolated. -/
inductive IsolationCause where
  | loopback | dupStation
  deriving DecidableEq, Repr

/-- R153: what an entry of the transmit queue carries. A STOCK entry's delivery volume is taken at the win. -/
inductive EntryBody where
  | trip (zone : ZoneId) (epoch : Nat) (cause : TripCause) (remaining : Nat) (hold : Timer)
  | clear (zone : ZoneId) (epoch : Nat) (copy : Nat)
  | draw (content : DrawContent)
  | stock (tank : TankId) (g : Nat) (time : Nat) (high highHigh delivering : Bool)
  deriving DecidableEq, Repr

/-- R153: an entry with its time of entry, kept as a number that rises with every offer. -/
structure Entry where
  stamp : Nat
  body : EntryBody
  deriving DecidableEq, Repr

/-- What the station is contending with (R149, R150). -/
inductive Contender where
  | trip (zone : ZoneId)
  | clear (zone : ZoneId)
  | draw
  | stock (tank : TankId)
  | status
  deriving DecidableEq, Repr

/-- R151: the frame in the transmitter: a queue entry with the frame made of it at the win, or a STATUS. A
withdrawn entry is completed and does not return (R156). -/
inductive Sending where
  | entry (e : Entry) (frame : Frame) (withdrawn : Bool)
  | status (content : StatusContent)
  deriving DecidableEq, Repr

/-- The bay link controller (chapter 7). -/
structure Link where
  /-- R153: the transmit queue, ordered by class and then by time of entry. -/
  queue : List Entry
  /-- The next time of entry. -/
  stamp : Nat
  contending : Option Contender
  sending : Option Sending
  errors : Nat
  conflicts : Nat
  isolated : Option IsolationCause
  /-- R162: the self-test that runs, with the frame sent through the join. -/
  test : Option (List Byte)
  /-- R162, R163: whether the line driver is joined to the line. -/
  driver : Bool
  /-- R152: the rest of a frame in conflict is being received. -/
  restOfConflict : Bool
  deriving DecidableEq, Repr

/-! ## Panel port -/

/-- R172: the ten causes that blocks raise. FILL_READY is not raised: its mark follows the fill record queue. -/
inductive Cause where
  | zoneTripped | meterFault | lockViolation | stockState | variance | accountFlag | postingsMissed | authLapsed
  | linkErrors | timeDisagree
  deriving DecidableEq, Repr

/-- R172: pending mark, latest detail and raise count of a cause. -/
structure CauseCell where
  pending : Bool
  detail : Option Nat
  count : Nat
  deriving DecidableEq, Repr

/-- R27: the flags of a fill record. -/
structure FillFlags where
  toFull : Bool
  overrun : Bool
  unverified : Bool
  unchecked : Bool
  tempDefault : Bool
  tempClamped : Bool
  hoursInvalid : Bool
  calibration : Bool
  deriving DecidableEq, Repr

/-- R26: a fill record. -/
structure FillRecord where
  seq : Nat
  lane : LaneId
  direction : Direction
  product : ProductId
  tank : TankId
  machine : Nat
  requested : Preset
  granted : Nat
  toFull : Bool
  clamp : ClampReason
  net : Nat
  gross : Nat
  reverse : Nat
  start : Nat
  stop : Nat
  hours : Option Nat
  cause : Option EndCause
  secondary : Option EndCause
  minTemp : Int
  maxTemp : Int
  pulses : Nat
  unchecked : Nat
  errors : Nat
  flags : FillFlags
  disposition : Disposition
  deriving DecidableEq, Repr

/-- R185: the refusals and outcomes without detail, in the order of their outcome bytes 1 to 18. -/
inductive RefusalCode where
  | notRunning | laneOff | laneBusy | direction | zone | stockDry | stockReserve | tankFull | machineBusy
  | recordsFull | linkBacklog | presetSmall | lubeLimit | notInSession | empty | noRecord | tableFull
  | notUnconfigured
  deriving DecidableEq, Repr

/-- R177: the conditions START names. -/
inductive StartCondition where
  | notLoaded | slowRate | productMismatch | classMismatch | markOrder | supplyCapacity | demandSum
  | gaugeMismatch | gaugeDuplicate
  deriving DecidableEq, Repr

/-- The responses of the panel port (R185, R186, R189). A readout is held as the bytes of its body. -/
inductive Response where
  | busy
  | frameError
  | badRequest
  | refused (code : RefusalCode)
  | locked (kind number field : Nat)
  | badItem (kind number field : Nat)
  | inconsistent (kind number : Nat) (condition : StartCondition)
  | granted (preset : Nat) (toFull : Bool) (clamp : ClampReason) (disposition : Disposition)
  | cancelled (found : SessionState)
  | fill (record : FillRecord)
  | health (errors unchecked : Nat) (check : CheckState)
  | flags (flags : Byte)
  | clock (old new : Nat)
  | attention (cause : Nat) (detail : Option Nat) (count : Nat) (still : Nat)
  | taken
  | started (lock : LockState)
  | restarted (lock : LockState)
  | readout (code : Nat) (body : List Byte)
  deriving DecidableEq, Repr

/-- R164: the receiver of the panel line: WAITING, or FRAMING with the bytes after the start mark and the time
left until 10 ms without a byte. -/
inductive Receiver where
  | waiting
  | framing (bytes : List Byte) (left : Nat)
  deriving DecidableEq, Repr

/-- The panel port (chapter 8). -/
structure Panel where
  receiver : Receiver
  /-- R165: the response being sent; none while the transmitter is IDLE. -/
  sending : Option Response
  /-- R165: the short answers owed. -/
  owed : List Response
  present : Bool
  presence : Timer
  /-- The response to the last request taken (the model's own view of what the port sends). -/
  response : Option Response
  fills : List FillRecord
  lastTaken : Option FillRecord
  causes : Vector CauseCell 10
  attention : Bool
  /-- The raises of the event in progress, taken in order of detail at its end (R172); empty between events. -/
  raised : List (Cause × Nat)
  deriving DecidableEq, Repr

/-! ## The part -/

/-- Everything but the queue of commands. -/
structure Block where
  store : Store
  pins : Pins
  lanes : Vector Lane 4
  tanks : Vector TankView 12
  accounts : Accounts
  spill : Spill
  roster : Roster
  link : Link
  panel : Panel
  /-- The model's own count of events, to which the open values are applied (notes/assumptions/5.md). -/
  openDraws : Nat
  deriving DecidableEq, Repr

/-- The part and the commands that wait, first in first out. -/
structure State where
  block : Block
  pending : List Instr
  deriving DecidableEq, Repr

/-! ## Power-on
The items to which the manual gives no value at power-on take those of notes/assumptions/31.md. -/

def SessionData.zero : SessionData :=
  { gross := 0, net := 0, reverse := 0, pulses := 0, unchecked := 0, errors := 0, minTemp := 0, maxTemp := 0
    tempDefault := false, tempClamped := false, start := 0, stop := 0, primary := none, secondary := none
    faultTaken := false }

def PulseCheck.powerOn : PulseCheck :=
  { state := .nosync, run := 0, runReverse := false, faults := 0, memory := .none }

/-- R2: a lane at power-on. -/
def Lane.powerOn : Lane :=
  { session := .off, params := none, data := SessionData.zero, check := PulseCheck.powerOn, cf := none, creep := 0
    creepTimer := .rest, sample := none, watch := .idle, healthErrors := 0, healthUnchecked := 0, windowForward := 0
    windowReverse := 0, windowTimer := .rest, rate := 0, excessRun := 0, lift := .rest, noFlow := .rest
    duration := .rest, settle := .rest, lapse := none, nozzleOut := false, mainOpen := false, slowOpen := false
    cap := 0, capDuty := 0, duty := 0, dutyInForce := 0, step := 255, setPoint := false }

/-- R54: a view at power-on. -/
def TankView.powerOn : TankView :=
  { book := 0, basis := none, age := 0, state := .unknown, drawTotal := 0, returnTotal := 0, delivered := 0
    variances := 0, heardHigh := false, heardHighHigh := false, reading := .none, lastGood := none, previous := none
    delivering := false, high := false, highHigh := false, pump := false, inlet := false, lastStock := none
    stockAge := Config.stockIntervalMs, pendingDelivery := 0 }

def ProductTotals.zero : ProductTotals :=
  { draws := Vector.replicate 8 0, returns := Vector.replicate 8 0, count := 0 }

/-- R110: a zone view at power-on. -/
def ZoneView.powerOn : ZoneView :=
  { state := .starting, epoch := 0, cause := .none, origin := none, held := none, clearing := none }

def KnownTotals.unknown : KnownTotals := { draw := none, ret := none }

/-- R135: a roster entry at either reset. -/
def RosterEntry.reset : RosterEntry :=
  { state := .absent, age := 0, last := none, seq := none, totals := Vector.replicate 12 KnownTotals.unknown
    missed := 0, disagree := false }

def Builder.stopped : Builder := { period := .rest, holdOff := .rest, change := false, due := false }

def CauseCell.clear : CauseCell := { pending := false, detail := none, count := 0 }

/-- R175: the store at power-on, with the number the straps give. -/
def Store.powerOn (straps : StationId) (calibrationOn : Bool) : Store :=
  { number := straps, running := false, ownZone := none, lanes := Vector.replicate 4 none
    products := Vector.replicate 8 none, tanks := Vector.replicate 12 none, classes := Vector.replicate 16 none
    inputs := Vector.replicate 4 none, gauges := Vector.replicate 4 none, lock := .opened
    calibrationOn := calibrationOn, violations := 0 }

/-- R175 and the power-on columns of R2, R54, R84, R110, R135, R163, R165, R166, R170, R172: the part at power-on.
The levels of the field lines are what they are. -/
def Block.powerOn (straps : StationId) (pins : Pins) (calibrationOn : Bool) (openDraws : Nat) : Block :=
  { store := Store.powerOn straps calibrationOn
    pins := pins
    lanes := Vector.replicate 4 Lane.powerOn
    tanks := Vector.replicate 12 TankView.powerOn
    accounts := { records := [], evictions := 0, unassigned := ProductTotals.zero, bulk := ProductTotals.zero }
    spill := { views := Vector.replicate 4 ZoneView.powerOn, inputs := Vector.replicate 4 ⟨.inactive, .rest⟩
               drive := false, settle := .rest, listen := .rest }
    roster := { entries := Vector.replicate 8 RosterEntry.reset, clock := 0, clockMs := 0, drawSeq := 0
                builder := Builder.stopped }
    link := { queue := [], stamp := 0, contending := none, sending := none, errors := 0, conflicts := 0
              isolated := none, test := none, driver := false, restOfConflict := false }
    panel := { receiver := .waiting, sending := none, owed := [], present := false, presence := .rest
               response := none, fills := [], lastTaken := none, causes := Vector.replicate 10 CauseCell.clear
               attention := false, raised := [] }
    openDraws := openDraws }

/-- Right after power-on reset: the straps read 0, every field line is at its inactive or low level, the
calibration switch is off, and no command waits. DESIGN CHOICE (notes/assumptions/4.md): what the straps and the
field lines read; the manual leaves them to the cabinet. -/
def State.reset : State :=
  { block := Block.powerOn 0 ⟨Vector.replicate 4 false, Vector.replicate 4 false, false⟩ false 0
    pending := [] }

end Sys2Proof.Machine
end

