-- ==== Sys2Proof/Machine/Ops.lean ====
section
/-! DEFINITION. The shared operations over the part: reading and writing one lane, tank view, zone view or roster
entry, timers, open values, and raising attention (R172 to R174). -/

namespace Sys2Proof.Machine

def allLanes : List LaneId := [0, 1, 2, 3]
def allTanks : List TankId := [0, 1, 2, 3, 4, 5, 6, 7, 8, 9, 10, 11]
def allZones : List ZoneId := [0, 1, 2, 3]
def allInputs : List InputId := [0, 1, 2, 3]
def allStations : List StationId := [0, 1, 2, 3, 4, 5, 6, 7]
def allProducts : List ProductId := [0, 1, 2, 3, 4, 5, 6, 7]

/-! ## Timers -/

def Timer.running : Timer → Bool
  | .rest => false
  | .run _ => true

/-- The remaining time of a timer whose rest value is `start` (R12). -/
def Timer.remaining (start : Nat) : Timer → Nat
  | .rest => start
  | .run left => left

/-- One millisecond passes. -/
def Timer.tick : Timer → Timer
  | .rest => .rest
  | .run left => .run (left - 1)

/-- The timer has run down; its expiry is due. -/
def Timer.due : Timer → Bool
  | .run 0 => true
  | _ => false

/-! ## States of a session -/

/-- LIFTED, FLOWING or SLOWING. -/
def SessionState.active : SessionState → Bool
  | .lifted | .flowing | .slowing => true
  | _ => false

/-- LIFTED through CLOSING: pulses go to the session (R33). -/
def SessionState.metered : SessionState → Bool
  | .lifted | .flowing | .slowing | .closing => true
  | _ => false

/-- AUTHORIZED through CLOSING: an own session of R7. -/
def SessionState.reserved : SessionState → Bool
  | .authorized | .lifted | .flowing | .slowing | .closing => true
  | _ => false

/-- IDLE, AUTHORIZED or FINISHED: pulses are creep (R33). -/
def SessionState.creeping : SessionState → Bool
  | .idle | .authorized | .finished => true
  | _ => false

/-! ## Reading and writing one part of the block -/

def Block.lane (s : Block) (l : LaneId) : Lane := s.lanes[l]
def Block.setLane (s : Block) (l : LaneId) (x : Lane) : Block := { s with lanes := s.lanes.set l x }
def Block.modLane (s : Block) (l : LaneId) (f : Lane → Lane) : Block := s.setLane l (f (s.lane l))

def Block.tank (s : Block) (t : TankId) : TankView := s.tanks[t]
def Block.setTank (s : Block) (t : TankId) (x : TankView) : Block := { s with tanks := s.tanks.set t x }
def Block.modTank (s : Block) (t : TankId) (f : TankView → TankView) : Block := s.setTank t (f (s.tank t))

def Block.view (s : Block) (z : ZoneId) : ZoneView := s.spill.views[z]
def Block.setView (s : Block) (z : ZoneId) (x : ZoneView) : Block :=
  { s with spill := { s.spill with views := s.spill.views.set z x } }
def Block.modView (s : Block) (z : ZoneId) (f : ZoneView → ZoneView) : Block := s.setView z (f (s.view z))

def Block.input (s : Block) (i : InputId) : SpillInput := s.spill.inputs[i]
def Block.setInput (s : Block) (i : InputId) (x : SpillInput) : Block :=
  { s with spill := { s.spill with inputs := s.spill.inputs.set i x } }

def Block.entry (s : Block) (n : StationId) : RosterEntry := s.roster.entries[n]
def Block.setEntry (s : Block) (n : StationId) (x : RosterEntry) : Block :=
  { s with roster := { s.roster with entries := s.roster.entries.set n x } }
def Block.modEntry (s : Block) (n : StationId) (f : RosterEntry → RosterEntry) : Block := s.setEntry n (f (s.entry n))

def Block.setStore (s : Block) (x : Store) : Block := { s with store := x }
def Block.setPins (s : Block) (x : Pins) : Block := { s with pins := x }
def Block.setAccounts (s : Block) (x : Accounts) : Block := { s with accounts := x }
def Block.setSpill (s : Block) (x : Spill) : Block := { s with spill := x }
def Block.setRoster (s : Block) (x : Roster) : Block := { s with roster := x }
def Block.setLink (s : Block) (x : Link) : Block := { s with link := x }
def Block.setPanel (s : Block) (x : Panel) : Block := { s with panel := x }

/-- Every lane changed by one function of its number and itself. -/
def Block.mapLanes (s : Block) (f : LaneId → Lane → Lane) : Block :=
  { s with lanes := Vector.ofFn fun l => f l (s.lane l) }

/-- Every tank view changed by one function of its number and itself. -/
def Block.mapTanks (s : Block) (f : TankId → TankView → TankView) : Block :=
  { s with tanks := Vector.ofFn fun t => f t (s.tank t) }

/-! ## Configuration as the blocks read it -/

def Block.running (s : Block) : Bool := s.store.running
def Block.number (s : Block) : StationId := s.store.number
def Block.laneCfg (s : Block) (l : LaneId) : Option LaneCfg := s.store.lanes[l]
def Block.tankCfg (s : Block) (t : TankId) : Option TankCfg := s.store.tanks[t]
def Block.inputCfg (s : Block) (i : InputId) : Option InputCfg := s.store.inputs[i]
def Block.productCfg (s : Block) (p : ProductId) : Option ProductCfg := s.store.products[p]

/-- R83: the fields of a class; those of a class that no CLASS item loaded. -/
def Store.classCfg (st : Store) (c : ClassId) : ClassCfg :=
  st.classes[c].getD { bandHigh := 150, bandLow := 50, allowance := 0, toFull := 0 }

/-- R64: the tank that a gauge input is mapped to. -/
def Block.gaugeTank (s : Block) (i : InputId) : Option TankId := s.store.gauges[i].join

/-- A tank gauged at this station: RUNNING, and GAUGE maps an input to it (for UNCONFIGURED DESIGN CHOICE,
notes/assumptions/42.md). -/
def Block.gauges (s : Block) (t : TankId) : Bool :=
  s.running && allInputs.any fun i => s.gaugeTank i = some t

/-- R161: the station takes no part in the bay link. -/
def Block.isolated (s : Block) : Bool := s.link.isolated.isSome

/-- The station's view of its own zone; none before the STATION item is loaded. -/
def Block.ownView (s : Block) : Option ZoneView := s.store.ownZone.map s.view

/-- The zone is this station's own. -/
def Block.isOwnZone (s : Block) (z : ZoneId) : Bool := s.store.ownZone = some z

/-- The own zone view is NORMAL. -/
def Block.ownNormal (s : Block) : Bool :=
  match s.ownView with
  | some v => v.state = .normal
  | none => false

/-- R28, R179: fills made while the lock is OPEN are calibration fills. -/
def Block.lockOpen (s : Block) : Bool := s.store.lock = .opened

/-- The bay clock as an event stamps it: 0 while unset (R144). -/
def Block.now (s : Block) : Nat := s.roster.clock

/-! ## Open values (notes/assumptions/5.md) -/

/-- The open values of one event, told apart by what draws them. -/
def siteEpoch (z : ZoneId) : Nat := z.val
def siteDrawSeq : Nat := 4
def siteClock : Nat := 5
def sitePulses : Nat := 6
def siteUnchecked : Nat := 7
def siteErrors : Nat := 8
def siteGross : Nat := 9
def siteNet : Nat := 10
def siteReverse : Nat := 11

/-- A number below `bound` if it fits, else an open one below it. -/
def Block.fitNat (s : Block) (site bound v : Nat) : Nat :=
  if v < bound then v else Config.openNat s.openDraws site % bound

/-- A number in the signed 64-bit range if it fits, else an open one. -/
def Block.fitInt64 (s : Block) (site : Nat) (v : Int) : Int :=
  if -9223372036854775808 ≤ v ∧ v ≤ 9223372036854775807 then v else Config.openInt s.openDraws site

/-! ## Counts that hold -/

/-- A count raised by `n` and held at `hold`. -/
def holdAt (hold v : Nat) : Nat := min hold v

/-! ## Attention (R172 to R174) -/

/-- R172: the causes in priority order. -/
def Cause.index : Cause → Fin 10
  | .zoneTripped => 0 | .meterFault => 1 | .lockViolation => 2 | .stockState => 3 | .variance => 4
  | .accountFlag => 5 | .postingsMissed => 6 | .authLapsed => 7 | .linkErrors => 8 | .timeDisagree => 9

/-- R189: RELEASE_REFUSED as a detail of ZONE_TRIPPED. -/
def releaseRefused : Nat := 4

/-- A block raises a cause in the event in progress; the raise is taken at the event's end. -/
def Block.raise (s : Block) (c : Cause) (detail : Nat) : Block :=
  s.setPanel { s.panel with raised := s.panel.raised ++ [(c, detail)] }

/-- R172: the raises of one event in ascending order of detail. -/
def insertRaise (x : Cause × Nat) : List (Cause × Nat) → List (Cause × Nat)
  | [] => [x]
  | y :: ys => if x.2 ≤ y.2 then x :: y :: ys else y :: insertRaise x ys

def sortRaises (xs : List (Cause × Nat)) : List (Cause × Nat) := xs.foldr insertRaise []

/-- R172: a raise sets the mark, replaces the detail and counts up to 255. -/
def CauseCell.raised (detail : Nat) (c : CauseCell) : CauseCell :=
  { pending := true, detail := some detail, count := holdAt Config.raiseHold (c.count + 1) }

def takeRaise (cells : Vector CauseCell 10) (x : Cause × Nat) : Vector CauseCell 10 :=
  cells.set x.1.index (CauseCell.raised x.2 cells[x.1.index])

/-- R174: at least one mark is set, FILL_READY's among them. -/
def Panel.anyPending (p : Panel) : Bool :=
  !p.fills.isEmpty || [(0 : Fin 10), 1, 2, 3, 4, 5, 6, 7, 8, 9].any fun i => p.causes[i].pending

/-- The raises of the event are taken, and the attention line follows (R172, R174; notes/assumptions/9.md). -/
def Panel.settle (p : Panel) : Panel :=
  let q := { p with causes := (sortRaises p.raised).foldl takeRaise p.causes, raised := [] }
  { q with attention := q.anyPending }

end Sys2Proof.Machine
end

