-- ==== Sys2Proof/Machine/Operands.lean ====
section
/-! DEFINITION. The quantities a lane forms from its state: rounding (R44), the effective temperature and the
correction factor (R40, R42), the demand and the published picture (R15, R16), the duties (R77). -/

namespace Sys2Proof.Machine

/-! ## Rounding (spec/00_scope.md section 5) -/

/-- Round half up: the nearest integer, an exact half to the larger. -/
def roundHalfUp (n : Int) (d : Nat) : Int := (2 * n + d) / (2 * d : Nat)

/-- Round half up of a quotient of naturals. -/
def roundHalfUpNat (n d : Nat) : Nat := (2 * n + d) / (2 * d)

/-- Round half away from zero: an exact half to the integer of greater magnitude. -/
def roundHalfAway (n : Int) (d : Nat) : Int :=
  if 0 ≤ n then roundHalfUp n d else -(roundHalfUp (-n) d)

/-- R44: net cL of a session; a negative result is reported as 0. -/
def netCL (net : Int) : Nat := (roundHalfUp net Config.pLPerCL).toNat

/-- R44: gross cL of a session; a negative result is reported as 0. -/
def grossCL (gross : Int) : Nat := (roundHalfUp gross Config.uLPerCL).toNat

/-- R44: reverse gross cL; also the creep volume as LANE READ shows it (R49). -/
def microCL (uL : Nat) : Nat := roundHalfUpNat uL Config.uLPerCL

/-! ## Temperature (R40, R42) -/

/-- R40: the effective temperature. -/
def effectiveTemp : Option Sample → Int
  | none => 150
  | some .probeFault => 150
  | some (.temp t) => if t < -400 then -400 else if 700 < t then 700 else t

/-- R40: the effective temperature is the default. -/
def tempIsDefault : Option Sample → Bool
  | some (.temp _) => false
  | _ => true

/-- R40: the effective temperature was clamped. -/
def tempIsClamped : Option Sample → Bool
  | some (.temp t) => t < -400 || 700 < t
  | _ => false

/-- R42: the correction factor of a coefficient α at an effective temperature. -/
def correctionFactor (alpha : Nat) (t : Int) : Nat :=
  (max 900000 (min 1100000 (1000000 - roundHalfAway (alpha * (t - 150)) 10))).toNat

/-- R42: α of a product; an unloaded product has none and no session. -/
def Block.alpha (s : Block) (p : ProductId) : Nat :=
  match s.productCfg p with
  | some c => c.alpha
  | none => 0

/-- R42: the factor that a lane's session uses at its present effective temperature. -/
def Block.sessionFactor (s : Block) (l : LaneId) : Option Nat :=
  (s.lane l).params.map fun p => correctionFactor (s.alpha p.product) (effectiveTemp (s.lane l).sample)

/-! ## Directions (R1) -/

/-- R1: the directions of a lane mode. -/
def LaneCfg.allows (c : LaneCfg) : Direction → Bool
  | .draw => c.mode = .drawOnly || c.mode = .both
  | .ret => c.mode = .returnOnly || c.mode = .both

/-! ## Demand and the published picture (R15, R16) -/

/-- R15: max rate in LIFTED and FLOWING, slow rate in SLOWING, else 0. -/
def Block.demand (s : Block) (l : LaneId) : Nat :=
  match s.laneCfg l with
  | none => 0
  | some c =>
    match (s.lane l).session with
    | .lifted | .flowing => c.maxRate
    | .slowing => c.slowRate
    | _ => 0

/-- The direction of a lane's session. -/
def Lane.direction (x : Lane) : Option Direction := x.params.map (·.direction)

/-- R16: the band of a session state. -/
def Lane.band (x : Lane) : Band :=
  match x.session with
  | .off | .idle | .finished => .idle
  | .authorized => .granted
  | .closing => .closing
  | .lifted | .flowing | .slowing => if x.direction = some .ret then .returning else .drawing

/-- R16: the session's tank in GRANTED through CLOSING. -/
def Lane.sessionTank (x : Lane) : Option TankId :=
  if x.session.reserved then x.params.map (·.tank) else none

/-- R16: delivered cL, in LIFTED through CLOSING. -/
def Lane.delivered (x : Lane) : Nat := if x.session.metered then netCL x.data.net else 0

/-- The net accumulator as the tank table takes it; that nothing has been delivered in AUTHORIZED is DEDUCED (R13, R16,
R55, notes/assumptions/54.md). -/
def Lane.sessionNet (x : Lane) : Int := if x.session.metered then x.data.net else 0

/-- R16: the commitment of a DRAW session in AUTHORIZED through CLOSING. -/
def Lane.commitment (x : Lane) : Nat :=
  match x.params with
  | some p => if x.session.reserved && p.direction = .draw then p.basis - x.delivered else 0
  | none => 0

/-- R16: the session's machine in GRANTED through CLOSING; 0 in IDLE. -/
def Lane.heldMachine (x : Lane) : Nat :=
  match x.params with
  | some p => if x.session.reserved then p.machine else 0
  | none => 0

/-- R16: what the lane publishes. -/
def Block.picture (s : Block) (l : LaneId) : LanePicture :=
  let x := s.lane l
  { band := x.band, tank := x.sessionTank, demand := s.demand l, delivered := x.delivered
    commitment := x.commitment, machine := x.heldMachine }

/-- The picture a heard DRAW leaves of a peer lane (R56, R138). -/
def clearedPicture : LanePicture :=
  { band := .idle, tank := none, demand := 0, delivered := 0, commitment := 0, machine := 0 }

/-! ## Sessions in view of the lanes themselves -/

/-- R7: own sessions in AUTHORIZED through CLOSING. -/
def Block.ownSessions (s : Block) : Nat := (allLanes.filter fun l => (s.lane l).session.reserved).length

/-- R73: the lane is in LIFTED, FLOWING or SLOWING with a DRAW session on the tank. -/
def Lane.drawsOn (x : Lane) (t : TankId) : Bool :=
  match x.params with
  | some p => x.session.active && p.direction = .draw && p.tank = t
  | none => false

/-- R55: the lane is in AUTHORIZED through CLOSING with a DRAW session on the tank. -/
def Lane.holdsDrawOn (x : Lane) (t : TankId) : Bool :=
  match x.params with
  | some p => x.session.reserved && p.direction = .draw && p.tank = t
  | none => false

/-- R65: the lane is in LIFTED through CLOSING with a session on the tank. -/
def Lane.inFlightOn (x : Lane) (t : TankId) : Bool :=
  match x.params with
  | some p => x.session.metered && p.tank = t
  | none => false

/-! ## Duties (R77) -/

/-- R77: the duty of a rate at a max rate, the smaller of 255 and 255 × rate / max rate, rounded half up. -/
def dutyOf (rate maxRate : Nat) : Nat := min 255 (roundHalfUpNat (255 * rate) maxRate)

end Sys2Proof.Machine
end

