-- ==== Sys2Proof/Machine/Views.lean ====
section
/-! DEFINITION. What the tank table forms from the lanes in view each time a rule uses it (R55, R56, R65, R73,
R75, R76, R79), and the states of a tank view (R57 to R59). -/

namespace Sys2Proof.Machine

/-! ## Lanes in view (R56, R136) -/

/-- A LIVE or STALE entry's lanes are in view. -/
def RosterEntry.inView (e : RosterEntry) : Bool := e.state = .live || e.state = .stale

/-- The lane pictures of an entry in view. -/
def RosterEntry.pictures (e : RosterEntry) : List LanePicture :=
  match e.last with
  | some c => if e.inView then [c.lanes[0], c.lanes[1], c.lanes[2], c.lanes[3]] else []
  | none => []

/-- R135: the lanes of the seven other stations that are in view. -/
def Block.peerLanes (s : Block) : List LanePicture :=
  allStations.flatMap fun n => if n = s.number then [] else (s.entry n).pictures

/-- R143: a peer in view shows a lane with this machine in a band other than IDLE. -/
def Block.heldByPeer (s : Block) (machine : Nat) : Bool :=
  s.peerLanes.any fun p => p.band ≠ .idle && p.machine = machine

/-- R6: an own lane in AUTHORIZED through CLOSING holds this machine. -/
def Block.heldByOwnLane (s : Block) (machine : Nat) : Bool :=
  allLanes.any fun l => (s.lane l).session.reserved && (s.lane l).heldMachine = machine

/-! ## Commitments and available stock (R55) -/

/-- R55: what an own lane contributes to the commitments of a tank, in pL. -/
def Lane.commitmentPL (x : Lane) (t : TankId) : Int :=
  match x.params with
  | some p => if x.holdsDrawOn t then max 0 ((p.basis * Config.pLPerCL : Nat) - x.sessionNet) else 0
  | none => 0

/-- R55: the commitment sum of a tank, in pL. -/
def Block.commitmentPL (s : Block) (t : TankId) : Int :=
  (allLanes.map fun l => (s.lane l).commitmentPL t).sum
  + ((s.peerLanes.filter fun p => p.band ≠ .idle && p.tank = some t).map
      fun p => ((p.commitment * Config.pLPerCL : Nat) : Int)).sum

/-- R55: the commitment sum in cL. -/
def Block.commitmentSum (s : Block) (t : TankId) : Int := roundHalfUp (s.commitmentPL t) Config.pLPerCL

/-- R55: available stock. -/
def Block.available (s : Block) (t : TankId) : Int := (s.tank t).book - s.commitmentSum t

/-! ## Partials (R65) -/

/-- R65: a peer lane in flight on the tank. -/
def pictureInFlight (p : LanePicture) (t : TankId) : Bool :=
  (p.band = .drawing || p.band = .returning || p.band = .closing) && p.tank = some t

/-- R65: the partial sum P of a tank, in cL. -/
def Block.partialSum (s : Block) (t : TankId) : Int :=
  roundHalfUp
    ((allLanes.map fun l => if (s.lane l).inFlightOn t then (s.lane l).data.net else 0).sum
      + ((s.peerLanes.filter fun p => pictureInFlight p t).map
          fun p => ((p.delivered * Config.pLPerCL : Nat) : Int)).sum)
    Config.pLPerCL

/-- R67: a session is in flight on the tank as R65 counts it. -/
def Block.anyInFlight (s : Block) (t : TankId) : Bool :=
  (allLanes.any fun l => (s.lane l).inFlightOn t) || s.peerLanes.any fun p => pictureInFlight p t

/-- R65: the volume a rebase from G gives: G + P for a supply tank, G − P for a WASTE tank. -/
def Block.rebaseVolume (s : Block) (t : TankId) (c : TankCfg) (g : Nat) : Int :=
  if c.cls = .waste then g - s.partialSum t else g + s.partialSum t

/-! ## Drawing lanes, demand and caps (R73, R75, R76, R79) -/

/-- R73: a peer lane drawing on the tank. -/
def pictureDraws (p : LanePicture) (t : TankId) : Bool := p.band = .drawing && p.tank = some t

/-- R73: some lane in view is drawing on the tank. -/
def Block.anyDrawing (s : Block) (t : TankId) : Bool :=
  (allLanes.any fun l => (s.lane l).drawsOn t) || s.peerLanes.any fun p => pictureDraws p t

/-- R75: the sum of the demands of the lanes in view drawing on the tank. -/
def Block.demandInView (s : Block) (t : TankId) : Nat :=
  (allLanes.map fun l => if (s.lane l).drawsOn t then s.demand l else 0).sum
    + ((s.peerLanes.filter fun p => pictureDraws p t).map (·.demand)).sum

/-- R75, R79: D. While isolated, the bay demand sum of a supply tank. -/
def Block.demandSum (s : Block) (t : TankId) : Nat :=
  match s.tankCfg t with
  | some c => if s.isolated && c.cls ≠ .waste then c.bayDemand else s.demandInView t
  | none => s.demandInView t

/-- R76: the cap of a demand d at a supply capacity C and a demand sum D. -/
def capOf (supply demandSum d : Nat) : Nat :=
  if demandSum ≤ supply then d else supply * d / demandSum

/-- R15, R76: the cap of a lane: the tank table's for a DRAW session that draws, the demand for a RETURN session.
A lane that does not run has demand 0 and cap 0 (notes/assumptions/18.md). -/
def Block.capFor (s : Block) (l : LaneId) : Nat :=
  let x := s.lane l
  match x.params with
  | some p =>
    if x.session.active then
      match p.direction with
      | .draw =>
        match s.tankCfg p.tank with
        | some c => capOf c.supply (s.demandSum p.tank) (s.demand l)
        | none => 0
      | .ret => s.demand l
    else 0
  | none => 0

/-- R3, R77: the cap duty of a lane: 255 for a RETURN session, in AUTHORIZED through CLOSING; that a lane with neither
such a session nor a draw that runs has 0 is DEDUCED (notes/assumptions/18.md). -/
def Block.capDutyFor (s : Block) (l : LaneId) : Nat :=
  let x := s.lane l
  if x.session.reserved && x.direction = some .ret then 255
  else if x.session.active then
    match s.laneCfg l with
    | some c => dutyOf (s.capFor l) c.maxRate
    | none => 0
  else 0

/-- R3, R77: the set-point duty. -/
def Block.dutyFor (s : Block) (l : LaneId) : Nat :=
  match s.laneCfg l with
  | some c =>
    match (s.lane l).session with
    | .lifted | .flowing => s.capDutyFor l
    | .slowing => min (dutyOf c.slowRate c.maxRate) (s.capDutyFor l)
    | _ => 0
  | none => 0

/-! ## Stock states (R57 to R59) -/

/-- R53: the hysteresis width. -/
def TankCfg.h (c : TankCfg) : Int := (c.capacity / 100 : Nat)

/-- The order of the states of a supply tank, from lowest to highest (R58). -/
def TankState.rank : TankState → Nat
  | .dry => 0 | .reserve => 1 | .low => 2 | _ => 3

/-- R58: the target state. -/
def supplyTarget (c : TankCfg) (book available : Int) : TankState :=
  if book < c.suctionMark then .dry
  else if available < c.reserveMark then .reserve
  else if available < c.lowMark then .low
  else .normal

/-- R58: the climb out of LOW. -/
def climbLow (c : TankCfg) (available : Int) (target : TankState) : TankState :=
  if 2 < target.rank ∧ c.lowMark + c.h < available then .normal else .low

/-- R58: the climb out of RESERVE. -/
def climbReserve (c : TankCfg) (available : Int) (target : TankState) : TankState :=
  if 1 < target.rank ∧ c.reserveMark + c.h < available then climbLow c available target else .reserve

/-- R58: the climb out of DRY. -/
def climbDry (c : TankCfg) (book available : Int) (target : TankState) : TankState :=
  if 0 < target.rank ∧ c.suctionMark + c.h < book then climbReserve c available target else .dry

/-- R57, R58: the next state of a supply tank's view that has a basis. An UNKNOWN view takes the entry conditions
alone. -/
def nextSupply (c : TankCfg) (present : TankState) (book available : Int) : TankState :=
  let target := supplyTarget c book available
  match present with
  | .dry => climbDry c book available target
  | .reserve => if target.rank ≤ 1 then target else climbReserve c available target
  | .low => if target.rank ≤ 2 then target else climbLow c available target
  | _ => target

/-- R57, R59: the next state of a WASTE tank's view that has a basis. -/
def nextWaste (c : TankCfg) (present : TankState) (book : Int) (high : Bool) : TankState :=
  match present with
  | .high => if book < c.highMark - c.h ∧ high = false then .normal else .high
  | _ => if c.highMark ≤ book ∨ high = true then .high else .normal

/-- R59: the HIGH level a WASTE view uses: the switch level at the gauge station, else the heard level. -/
def Block.highLevel (s : Block) (t : TankId) : Bool :=
  if s.gauges t then (s.tank t).high else (s.tank t).heardHigh

/-- R57: the view has no basis, or its basis has aged 10 min. -/
def TankView.blind (v : TankView) : Bool := v.basis.isNone || decide (Config.basisAgeMs ≤ v.age)

/-- R57 to R59: the state a view takes at the end of an event. -/
def Block.nextTankState (s : Block) (t : TankId) : TankState :=
  let v := s.tank t
  match s.tankCfg t with
  | none => v.state
  | some c =>
    if v.blind then .unknown
    else if c.cls = .waste then nextWaste c v.state v.book (s.highLevel t)
    else nextSupply c v.state v.book (s.available t)

end Sys2Proof.Machine
end

