-- ==== Sys2Proof/Machine/Ends.lean ====
section
/-! DEFINITION. The ends of a grant and of a session (R17 to R24), and the end-of-event evaluation of the tank
views, whose entry to DRY ends own draws (R22, R60). -/

namespace Sys2Proof.Machine

/-- R87: the in-flight reference to a lane is cleared. -/
def Block.clearInFlight (s : Block) (l : LaneId) : Block :=
  s.setAccounts { s.accounts with
    records := s.accounts.records.map fun r => if r.inFlight = some l then { r with inFlight := none } else r }

/-- A lane returns to IDLE: no session parameters are held there (R31). -/
def Lane.toIdle (x : Lane) : Lane := { x with session := .idle, params := none }

/-- R19: a grant in AUTHORIZED ends without a record. -/
def Block.endGrant (s : Block) (l : LaneId) (cause : EndCause) : Block :=
  (s.modLane l fun x => { x.toIdle with lift := .rest, lapse := some cause }).clearInFlight l

/-- R19: the two causes for which the lane raises AUTH_LAPSED. -/
def Block.endGrantRaising (s : Block) (l : LaneId) (cause : EndCause) : Block :=
  (s.endGrant l cause).raise .authLapsed l.val

/-- R17: the primary end cause is fixed and the lane enters CLOSING. -/
def Lane.close (now : Nat) (cause : EndCause) (x : Lane) : Lane :=
  { x with
    session := .closing
    noFlow := .rest
    duration := .rest
    settle := .run Config.settleMs
    data := { x.data with primary := some cause, stop := now } }

/-- R18: the causes that may be stored as secondary. -/
def maySecond : EndCause → Bool
  | .spill | .meterFault | .dry | .restart => true
  | _ => false

/-- R18: a later cause is stored if none is stored yet. -/
def Lane.storeSecondary (cause : EndCause) (x : Lane) : Lane :=
  { x with data := { x.data with secondary := some cause } }

/-- R17, R18: a cause other than METER_FAULT reaches a session. -/
def Block.takeCause (s : Block) (l : LaneId) (cause : EndCause) : Block :=
  let x := s.lane l
  if x.session.active then s.setLane l (x.close s.now cause)
  else if x.session = .closing ∧ maySecond cause ∧ x.data.secondary = none then s.setLane l (x.storeSecondary cause)
  else s

/-- R37: METER_FAULT is taken once in a session, and is marked taken. -/
def Block.markFault (s : Block) (l : LaneId) : Block :=
  s.modLane l fun x => { x with data := { x.data with faultTaken := true } }

/-- R23, R37, R46: a session takes METER_FAULT, as primary or as secondary cause, and the lane raises it. A fault
disregarded in CLOSING, or after the first of a session, is not taken (notes/assumptions/12.md). -/
def Block.takeMeterFault (s : Block) (l : LaneId) : Block :=
  let x := s.lane l
  if x.data.faultTaken then s
  else if x.session.active ∨ (x.session = .closing ∧ x.data.secondary = none) then
    ((s.takeCause l .meterFault).markFault l).raise .meterFault l.val
  else s

/-- R21: what the own zone view's leaving NORMAL does to one lane. -/
def Block.laneSpill (s : Block) (l : LaneId) : Block :=
  if (s.lane l).session = .authorized then s.endGrant l .spill else s.takeCause l .spill

/-- R21: the own zone view leaves NORMAL. -/
def Block.lanesSpill (s : Block) : Block := allLanes.foldl Block.laneSpill s

/-- R22: what a tank's entry to DRY does to one lane. -/
def Block.laneDry (t : TankId) (s : Block) (l : LaneId) : Block :=
  if (s.lane l).holdsDrawOn t then
    if (s.lane l).session = .authorized then s.endGrant l .dry else s.takeCause l .dry
  else s

/-- R22: a supply tank's view enters DRY. -/
def Block.lanesDry (s : Block) (t : TankId) : Block := allLanes.foldl (Block.laneDry t) s

/-- R24: one lane at the panel's loss. -/
def Block.lanePanelLost (s : Block) (l : LaneId) : Block :=
  if (s.lane l).session = .authorized then s.endGrantRaising l .panelLost else s

/-- R24: the panel becomes ABSENT. -/
def Block.lanesPanelLost (s : Block) : Block := allLanes.foldl Block.lanePanelLost s

/-- R57 to R60: one tank view is evaluated; a change raises STOCK_STATE, and entry to DRY ends own draws. -/
def Block.evalTank (s : Block) (t : TankId) : Block :=
  let next := s.nextTankState t
  if next = (s.tank t).state then s
  else
    let s1 := (s.modTank t fun v => { v with state := next }).raise .stockState t.val
    if next = .dry then s1.lanesDry t else s1

/-- The tank views as the event leaves them (notes/assumptions/8.md). -/
def Block.evalTanks (s : Block) : Block := allTanks.foldl Block.evalTank s

end Sys2Proof.Machine
end

