-- ==== Sys2Proof/Machine/Link.lean ====
section
/-! DEFINITION. The transmit queue and the contention for the line (R149, R150, R153 to R157). -/

namespace Sys2Proof.Machine

/-! ## Entries -/

/-- R150: the class of an entry. -/
def EntryBody.linkClass : EntryBody → Nat
  | .trip _ _ _ _ _ => 0
  | .clear _ _ _ => 1
  | .draw _ => 2
  | .stock _ _ _ _ _ _ => 3

/-- What the station contends with when this entry is the head. -/
def EntryBody.contender : EntryBody → Contender
  | .trip z _ _ _ _ => .trip z
  | .clear z _ _ => .clear z
  | .draw _ => .draw
  | .stock t _ _ _ _ _ => .stock t

/-- R153, R154: a DRAW entry has no key for replacement. -/
def EntryBody.isDraw : EntryBody → Bool
  | .draw _ => true
  | _ => false

/-- R153: an entry of a key that replaces: a zone's TRIP or CLEAR, or a tank's STOCK. -/
def Entry.hasKey (k : Contender) (e : Entry) : Bool := !e.body.isDraw && e.body.contender = k

/-- R153: an entry is eligible unless it is a TRIP entry in its hold. -/
def Entry.eligible (e : Entry) : Bool :=
  match e.body with
  | .trip _ _ _ _ hold => !hold.running
  | _ => true

/-- The queue's order: by class, then by time of entry (R153). -/
def Entry.before (a b : Entry) : Bool :=
  a.body.linkClass < b.body.linkClass || (a.body.linkClass = b.body.linkClass && a.stamp ≤ b.stamp)

/-- An entry takes its place in the queue's order. -/
def insertEntry (e : Entry) : List Entry → List Entry
  | [] => [e]
  | x :: xs => if x.before e then x :: insertEntry e xs else e :: x :: xs

/-- R154: the waiting entry of a key is replaced in place: same time of entry, same place in the order. -/
def replaceEntry (b : EntryBody) (q : List Entry) : List Entry :=
  q.map fun e => if e.hasKey b.contender then { e with body := b } else e

/-- R154: an offered entry joins the queue in its class, or replaces the waiting entry of its key. -/
def Link.offer (k : Link) (b : EntryBody) : Link :=
  if !b.isDraw && k.queue.any (Entry.hasKey b.contender) then { k with queue := replaceEntry b k.queue }
  else { k with queue := insertEntry ⟨k.stamp, b⟩ k.queue, stamp := k.stamp + 1 }

def Block.offer (s : Block) (b : EntryBody) : Block := s.setLink (s.link.offer b)

/-- R153: the head is the first eligible entry. -/
def Link.head (k : Link) : Option Entry := k.queue.find? Entry.eligible

/-- R150, R157: what the station contends with: the head, or a due STATUS when nothing is eligible. -/
def Block.pick (s : Block) : Option Contender :=
  match s.link.head with
  | some e => some e.body.contender
  | none => if s.roster.builder.due then some .status else none

/-- R147: the STATUS builder runs while the station is RUNNING, not isolated, and past its self-test. -/
def Block.builderOn (s : Block) : Bool := s.running && !s.isolated && s.link.test.isNone

/-- The entry of a contender that is at the head of its class: the first eligible one (notes/assumptions/24.md). -/
def Link.entryOf (k : Link) (c : Contender) : Option Entry :=
  k.queue.find? fun e => e.eligible && decide (e.body.contender = c)

/-- R156: an entry in the transmitter that is withdrawn is completed and does not return. -/
def Sending.withdraw (k : Contender) : Sending → Sending
  | .entry e f w => if e.hasKey k then .entry e f true else .entry e f w
  | .status c => .status c

/-- R156: a key's waiting entry is removed. A station that was contending with it contends with the next head, or
with a due STATUS, looked for before any entry that the same event offers joins: DESIGN CHOICE (notes/assumptions/24.md). -/
def Block.withdraw (s : Block) (k : Contender) : Block :=
  let s1 := s.setLink { s.link with
    queue := s.link.queue.filter fun e => !e.hasKey k
    sending := s.link.sending.map (Sending.withdraw k) }
  if s1.link.contending = some k then s1.setLink { s1.link with contending := s1.pick } else s1

/-- R153: the DRAW entries waiting, one in the transmitter included. -/
def Link.drawsWaiting (k : Link) : Nat :=
  (k.queue.filter fun e => e.body.isDraw).length +
    match k.sending with
    | some (.entry e _ _) => if e.body.isDraw then 1 else 0
    | _ => 0

/-- A frame abandoned in the transmitter goes back to its place, unless it was withdrawn or a newer entry of its key
has joined (R152, R156). -/
def Link.returnEntry (k : Link) (e : Entry) (withdrawn : Bool) : Link :=
  if withdrawn || k.queue.any (fun x => e.hasKey x.body.contender) then k
  else { k with queue := insertEntry e k.queue }

/-! ## Frames made at the win (R70, R146, R155) -/

/-- R146: the content of a STATUS, taken when the frame wins the medium. -/
def Block.statusContent (s : Block) : StatusContent :=
  { bayTime := s.now
    drawSeq := s.roster.drawSeq
    lockOpen := s.lockOpen
    panelAbsent := !s.panel.present
    zones := Vector.ofFn fun z => ⟨(s.view z).state, (s.view z).epoch⟩
    lanes := Vector.ofFn fun l => s.picture l }

/-- The frame of an entry at its win: a TRIP copy is numbered 4 less the copies remaining (R155); a STOCK takes its
tank's pending delivery volume (R70), the whole of it though its four bytes cannot hold it (DESIGN CHOICE,
notes/assumptions/53.md). -/
def Block.frameOf (s : Block) : EntryBody → Frame
  | .trip z e c remaining _ => .trip ⟨z, e, c, 4 - remaining⟩
  | .clear z e copy => .clear ⟨z, e, copy⟩
  | .draw c => .draw c
  | .stock t g time high highHigh delivering =>
    .stock ⟨t, g, time, high, highHigh, delivering, (s.tank t).pendingDelivery⟩

end Sys2Proof.Machine
end

