-- ==== Sys2Proof/Machine/Spill.lean ====
section
/-! DEFINITION. The spill unit (chapter 5): presentations, trips, the release and its CLEAR copies, the start
listen, and what frames do to a zone view. -/

namespace Sys2Proof.Machine

/-! ## Quiet (R115) -/

/-- R112: a spill input is enabled; one that is not loaded is disabled. -/
def Block.inputEnabled (s : Block) (i : InputId) : Bool :=
  match s.inputCfg i with
  | some c => c.enabled
  | none => false

/-- R115, condition 1: every enabled spill input of the zone is INACTIVE. -/
def Block.inputsQuiet (s : Block) (z : ZoneId) : Bool :=
  allInputs.all fun i =>
    match s.inputCfg i with
    | some c => !(c.enabled && c.zone = z) || (s.input i).state = .inactive
    | none => true

/-- R115, condition 2, for the own zone: every own lane is OFF, IDLE, AUTHORIZED or FINISHED with no creep. -/
def Block.lanesQuiet (s : Block) (z : ZoneId) : Bool :=
  !s.isOwnZone z || allLanes.all fun l => !(s.lane l).session.metered && (s.lane l).creep = 0

/-- A tank gauged here stands in the zone with its HIGH_HIGH level active. -/
def Block.highHighIn (s : Block) (z : ZoneId) : Bool :=
  allTanks.any fun t =>
    s.gauges t && (s.tank t).highHigh &&
      match s.tankCfg t with
      | some c => c.zone = z
      | none => false

/-- R115: the local sources of the zone are quiet. -/
def Block.quiet (s : Block) (z : ZoneId) : Bool := s.inputsQuiet z && s.lanesQuiet z && !s.highHighIn z

/-! ## Entering TRIPPED (R116, R118, R130) -/

/-- R117: the zone's waiting TRIP entry is withdrawn. -/
def Block.withdrawTrip (s : Block) (z : ZoneId) : Block := s.withdraw (.trip z)

/-- R124: the zone's waiting CLEAR entry is withdrawn. -/
def Block.withdrawClear (s : Block) (z : ZoneId) : Block := s.withdraw (.clear z)

/-- R128: a view that is CLEARING abandons its release: the context goes with its timer, and the zone's waiting
CLEAR entry is withdrawn. -/
def Block.abandon (s : Block) (z : ZoneId) : Block :=
  if (s.view z).state = .clearing then s.withdrawClear z else s

/-- The own zone view leaves NORMAL: the lanes act (R21), and the settle timer returns to rest (R121). -/
def Block.leaveNormal (s : Block) (z : ZoneId) (before : ZoneState) : Block :=
  if s.isOwnZone z ∧ before = .normal then (s.setSpill { s.spill with settle := .rest }).lanesSpill else s

/-- A view is TRIPPED at an epoch, with a cause and an originating station. ZONE_TRIPPED is raised when it was not
TRIPPED, or was TRIPPED at a smaller epoch (R119). A held cause is dropped (notes/assumptions/15.md). -/
def Block.enterTripped (s : Block) (z : ZoneId) (epoch : Nat) (cause : TripCause) (origin : StationId) : Block :=
  let v := s.view z
  let s1 := (s.abandon z).setView z
    { state := .tripped, epoch := epoch, cause := cause, origin := some origin, held := none, clearing := none }
  let s2 := s1.leaveNormal z v.state
  if v.state ≠ .tripped ∨ v.epoch < epoch then s2.raise .zoneTripped z.val else s2

/-- R116: the epoch of a trip made here, own epoch + 1. Past 65,534 the manual gives no value
(notes/assumptions/6.md). -/
def Block.nextEpoch (s : Block) (z : ZoneId) : Nat :=
  if (s.view z).epoch < Config.epochMax then (s.view z).epoch + 1
  else Config.openNat s.openDraws (siteEpoch z) % 65536

/-- R116: the station trips a zone. -/
def Block.tripZone (s : Block) (z : ZoneId) (cause : TripCause) : Block :=
  let epoch := s.nextEpoch z
  let v := s.view z
  let s1 := (s.abandon z).setView z
    { state := .tripped, epoch := epoch, cause := cause, origin := some s.number, held := none, clearing := none }
  let s2 := s1.leaveNormal z v.state
  let s3 := if s2.isolated then s2 else s2.offer (.trip z epoch cause Config.tripCopies .rest)
  s3.raise .zoneTripped z.val

/-- R114: a source is presented on a zone's view. -/
def Block.present (s : Block) (z : ZoneId) (cause : TripCause) : Block :=
  match (s.view z).state with
  | .normal | .clearing => s.tripZone z cause
  | .tripped => s.modView z fun v => { v with cause := cause, origin := some s.number }
  | .starting => s.modView z fun v => { v with held := some cause }

/-- A source of the own zone is presented (R48, R49, R121). -/
def Block.presentOwn (s : Block) (cause : TripCause) : Block :=
  match s.store.ownZone with
  | some z => s.present z cause
  | none => s

/-! ## The release (R122 to R129) -/

/-- R129: a view enters NORMAL by a release; the own zone's settle timer starts. -/
def Block.enterNormal (s : Block) (z : ZoneId) : Block :=
  let s1 := s.modView z fun v => { v with state := .normal, clearing := none }
  if s.isOwnZone z then s1.setSpill { s1.spill with settle := .run Config.zoneSettleMs } else s1

/-- R123, R158: a CLEAR copy is reported sent, or is taken as sent (R132). -/
def Block.clearSent (s : Block) (z : ZoneId) (epoch copy : Nat) : Block :=
  let v := s.view z
  match v.state, v.clearing with
  | .clearing, some (.sender e .copy1 _) =>
    if copy = 1 ∧ epoch = e then
      s.setView z { v with clearing := some (.sender e .interval (.run Config.intervalMs)) }
    else s
  | .clearing, some (.sender e .copy2 _) => if copy = 2 ∧ epoch = e then s.enterNormal z else s
  | _, _ => s

/-- R122: the own zone's view enters CLEARING as sender. While isolated, copy 1 is taken as sent (R132). -/
def Block.becomeSender (s : Block) (z : ZoneId) : Block :=
  let e := (s.view z).epoch
  let s1 := (s.modView z fun v => { v with state := .clearing, clearing := some (.sender e .copy1 .rest) }).withdrawTrip z
  if s1.isolated then s1.clearSent z e 1 else s1.offer (.clear z e 1)

/-- R122: the release key is turned. That it acts on a view which has become TRIPPED while the listen still runs is
DEDUCED (R131, notes/assumptions/52.md). -/
def Block.turnKey (s : Block) : Block :=
  match s.store.ownZone with
  | none => s
  | some z =>
    if s.running ∧ (s.view z).state = .tripped then
      if s.quiet z then s.becomeSender z else s.raise .zoneTripped releaseRefused
    else s

/-- R123: the sender's interval ends. While isolated, copy 2 is taken as sent (R132). -/
def Block.endInterval (s : Block) (z : ZoneId) : Block :=
  let v := s.view z
  match v.state, v.clearing with
  | .clearing, some (.sender e .interval (.run _)) =>
    if s.quiet z then
      let s1 := s.setView z { v with clearing := some (.sender e .copy2 .rest) }
      if s1.isolated then s1.clearSent z e 2 else s1.offer (.clear z e 2)
    else s.tripZone z .retrip
  | _, _ => s

/-- R125: entry to CLEARING as receiver. -/
def Block.becomeReceiver (s : Block) (z : ZoneId) (sender : StationId) : Block :=
  (s.modView z fun v =>
    { v with state := .clearing, clearing := some (.receiver sender v.epoch (.run Config.waitMs)) }).withdrawTrip z

/-- R125: a CLEAR frame with copy number 1. That it acts on a view which has become TRIPPED while the listen still runs
is DEDUCED (R131, notes/assumptions/52.md). -/
def Block.takeCopy1 (s : Block) (sender : StationId) (z : ZoneId) (epoch : Nat) : Block :=
  let v := s.view z
  if epoch ≠ v.epoch then s
  else match v.state, v.clearing with
    | .tripped, _ => s.becomeReceiver z sender
    | .clearing, some (.sender _ _ _) => (s.withdrawClear z).becomeReceiver z sender
    | .clearing, _ => s.becomeReceiver z sender
    | _, _ => s

/-- R126: a CLEAR frame with copy number 2. -/
def Block.takeCopy2 (s : Block) (sender : StationId) (z : ZoneId) (epoch : Nat) : Block :=
  let v := s.view z
  match v.state, v.clearing with
  | .clearing, some (.receiver from_ e _) =>
    if sender = from_ ∧ epoch = e then (if s.quiet z then s.enterNormal z else s.tripZone z .retrip) else s
  | _, _ => s

/-- R127: a receiver's wait runs out: the view is TRIPPED again, at its epoch, cause and origin. -/
def Block.endWait (s : Block) (z : ZoneId) : Block :=
  let v := s.view z
  match v.state, v.clearing with
  | .clearing, some (.receiver _ _ (.run _)) =>
    (s.setView z { v with state := .tripped, clearing := none }).raise .zoneTripped z.val
  | _, _ => s

/-! ## Frames (R118, R130) -/

/-- R118: a TRIP frame. -/
def Block.takeTrip (s : Block) (sender : StationId) (z : ZoneId) (epoch : Nat) (cause : TripCause) : Block :=
  let v := s.view z
  match v.state with
  | .starting => s.enterTripped z (max v.epoch epoch) cause sender
  | .normal | .clearing => if v.epoch ≤ epoch then s.enterTripped z epoch cause sender else s
  | .tripped => if v.epoch < epoch then s.enterTripped z epoch cause sender else s

/-- R130: one zone of a peer's STATUS. -/
def Block.takeZoneReport (s : Block) (sender : StationId) (z : ZoneId) (r : ZoneReport) : Block :=
  let v := s.view z
  if r.state = .tripped ∨ r.state = .clearing then
    match v.state with
    | .starting => s.enterTripped z (max v.epoch r.epoch) .peerStatus sender
    | _ => if v.epoch < r.epoch then s.enterTripped z r.epoch .peerStatus sender else s
  else if v.epoch < r.epoch then
    match v.state with
    | .tripped => s.enterTripped z r.epoch .peerStatus sender
    | _ => s.setView z { v with epoch := r.epoch }
  else s

/-- R130, R137: the four zones of a peer's STATUS. -/
def Block.takeZoneReports (s : Block) (sender : StationId) (c : StatusContent) : Block :=
  allZones.foldl (fun b z => b.takeZoneReport sender z c.zones[z]) s

/-! ## Inputs (R112, R113) -/

/-- R113: the source that an input's confirmation presents. -/
def causeOfKind : InputKind → TripCause
  | .sump => .sump | .pit => .pit | .bund => .bund | .estop => .estop

/-- R112: an ESTOP input's confirm time is 0. In milliseconds. -/
def InputCfg.confirmMs (c : InputCfg) : Nat := if c.kind = .estop then 0 else c.confirm * 100

/-- R113: an input is CONFIRMED and its source is presented. Its confirm timer goes to rest, at the full confirm time:
DESIGN CHOICE (notes/assumptions/51.md). -/
def Block.confirmInput (s : Block) (i : InputId) (c : InputCfg) : Block :=
  (s.setInput i ⟨.confirmed, .rest⟩).present c.zone (causeOfKind c.kind)

/-- R113: an enabled input's line becomes active. -/
def Block.inputBecomesActive (s : Block) (i : InputId) (c : InputCfg) : Block :=
  if (s.input i).state = .inactive then
    if c.confirmMs = 0 then s.confirmInput i c else s.setInput i ⟨.confirming, .run c.confirmMs⟩
  else s

/-- The line level of an input is its active level. -/
def Block.inputLineActive (s : Block) (i : InputId) (c : InputCfg) : Bool := s.pins.inputHigh[i] = c.activeHigh

/-- R113: at START and at restart an input is set to INACTIVE, and one whose line is active is taken as just
becoming active. -/
def Block.retakeInput (s : Block) (i : InputId) : Block :=
  match s.inputCfg i with
  | some c =>
    if c.enabled then
      let s1 := s.setInput i ⟨.inactive, .rest⟩
      if s1.inputLineActive i c then s1.inputBecomesActive i c else s1
    else s
  | none => s

/-- R113, R131, R133, R178: every view is STARTING with its epoch, cause and origin kept; the listen timer runs;
the settle timer rests; the inputs are taken anew. -/
def Block.startListen (s : Block) : Block :=
  let s1 := s.setSpill { s.spill with
    views := Vector.ofFn fun z => { s.view z with state := .starting, held := none, clearing := none }
    settle := .rest
    listen := .run Config.listenMs }
  allInputs.foldl Block.retakeInput s1

/-! ## The end of the listen (R131) -/

/-- R131: one view still STARTING is settled. -/
def Block.settleView (s : Block) (z : ZoneId) : Block :=
  let v := s.view z
  if v.state = .starting then
    match v.held with
    | some cause => s.tripZone z cause
    | none =>
      if s.isOwnZone z ∧ s.pins.zoneLine = true then s.tripZone z .zoneLine
      else if s.highHighIn z then s.tripZone z .highHigh
      else s.setView z { v with state := .normal }
  else s

/-- R131: the listen timer expires. The views are settled in ascending zone number, which is the order in which their
TRIP entries join the queue (DESIGN CHOICE, notes/assumptions/44.md). -/
def Block.endListen (s : Block) : Block :=
  allZones.foldl Block.settleView (s.setSpill { s.spill with listen := .rest })

end Sys2Proof.Machine
end

