-- ==== Sys2Proof/Machine/Tank.lean ====
section
/-! DEFINITION. The tank table (chapter 3): postings, rebases, gauge readings, deliveries, STOCK frames and the
restart of the views. -/

namespace Sys2Proof.Machine

/-- R54: book stock is held at ±2,147,483,647. -/
def clampBook (v : Int) : Int := max (-Config.bookHold) (min Config.bookHold v)

/-- A volume enters or leaves book stock: a draw is subtracted, a return added (R61, R62). -/
def TankView.move (d : Direction) (amount : Nat) (v : TankView) : TankView :=
  match d with
  | .draw => { v with book := clampBook (v.book - amount) }
  | .ret => { v with book := clampBook (v.book + amount) }

/-- R61: the own cumulative total of a direction, after a posting. -/
def TankView.addOwnTotal (d : Direction) (net : Nat) (v : TankView) : TankView :=
  match d with
  | .draw => { v with drawTotal := (v.drawTotal + net) % Config.two32 }
  | .ret => { v with returnTotal := (v.returnTotal + net) % Config.two32 }

def TankView.ownTotal (d : Direction) (v : TankView) : Nat :=
  match d with
  | .draw => v.drawTotal
  | .ret => v.returnTotal

/-- R61: an own fill record is posted to its tank. -/
def Block.postOwn (s : Block) (t : TankId) (d : Direction) (net : Nat) : Block :=
  s.modTank t fun v => (v.move d net).addOwnTotal d net

/-- R62: the amount of a heard posting. -/
def heardAmount (v : TankView) (known : Option Nat) (total net stop : Nat) : Nat :=
  let raw :=
    match known with
    | some k => (total + Config.two32 - k % Config.two32) % Config.two32
    | none => net
  match v.basis with
  | some b => if b.time ≠ 0 ∧ stop ≠ 0 ∧ stop < b.time then raw - net else raw
  | none => raw

/-- R62: a heard posting; one for an unused tank is disregarded. -/
def Block.postHeard (s : Block) (c : DrawContent) (known : Option Nat) : Block :=
  match s.tankCfg c.tank with
  | some _ =>
    s.modTank c.tank fun v => v.move c.direction (heardAmount v known c.total c.net c.stop)
  | none => s

/-- R65: book stock is set from a gauge volume and the partials; the variance is counted when the view had a basis.
`carried` is the delivery volume carried with the rebase. The state follows at the end of the event. -/
def Block.rebase (s : Block) (t : TankId) (c : TankCfg) (g time carried : Nat) : Block :=
  let v := s.tank t
  let book := clampBook (s.rebaseVolume t c g)
  let variance := book - v.book - carried
  let s1 := s.setTank t { v with book := book, basis := some ⟨g, time⟩, age := 0 }
  if v.basis.isSome ∧ (c.tolerance : Int) < variance.natAbs then
    (s1.modTank t fun w => { w with variances := holdAt Config.hold32 (w.variances + 1) }).raise .variance t.val
  else s1

/-- R71: the STOCK interval timer has reached 60 s, or no STOCK was sent. -/
def TankView.stockDue (v : TankView) : Bool := v.lastStock.isNone || decide (Config.stockIntervalMs ≤ v.stockAge)

/-- R67: a reading in IDLE starts a delivery. -/
def Block.startsDelivery (s : Block) (t : TankId) (c : TankCfg) (g : Nat) : Bool :=
  (s.tank t).basis.isSome && decide ((c.deliveryThreshold : Int) < s.rebaseVolume t c g - (s.tank t).book)
    && (c.cls ≠ .waste || !s.anyInFlight t)

/-- R68: a reading in DELIVERING ends the delivery. -/
def TankView.endsDelivery (g : Nat) (v : TankView) : Bool :=
  match v.previous with
  | some p => decide (((g : Int) - p).natAbs < Config.deliveryStable)
  | none => false

/-- R68: the end of a delivery: the view rebases with the delivery volume carried, and the totals rise by it. -/
def Block.endDelivery (s : Block) (t : TankId) (c : TankCfg) (g time : Nat) : Block :=
  let volume := (s.rebaseVolume t c g - (s.tank t).book).toNat
  (s.rebase t c g time volume).modTank t fun v =>
    { v with delivered := v.delivered + volume, pendingDelivery := v.pendingDelivery + volume, delivering := false }

/-- R64, step 2: the reading is used according to the gauge state. -/
def Block.useReading (s : Block) (t : TankId) (c : TankCfg) (g time : Nat) : Block :=
  let v := s.tank t
  if v.delivering then (if v.endsDelivery g then s.endDelivery t c g time else s)
  else if s.startsDelivery t c g then s.modTank t fun w => { w with delivering := true }
  else s.rebase t c g time 0

/-- R64, R66, R70: a good reading. -/
def Block.goodReading (s : Block) (t : TankId) (c : TankCfg) (g : Nat) (high highHigh : Bool) : Block :=
  let v := s.tank t
  let time := s.now
  let changed := v.high ≠ high ∨ v.highHigh ≠ highHigh
  let s1 := s.setTank t
    { v with reading := .good g high highHigh time, lastGood := some g, high := high, highHigh := highHigh }
  let s2 := if v.highHigh = false ∧ highHigh = true then s1.present c.zone .highHigh else s1
  let s3 := s2.useReading t c g time
  let s4 := s3.modTank t fun w => { w with previous := some g }
  let routine := v.delivering = false ∧ v.stockDue
  let ended := v.delivering = true ∧ v.endsDelivery g
  if ¬ s4.isolated ∧ (routine ∨ changed ∨ ended) then
    s4.offer (.stock t g time high highHigh (s4.tank t).delivering)
  else s4

/-- R64: a GAUGE_FAULT reading. -/
def Block.faultReading (s : Block) (t : TankId) : Block :=
  let time := s.now
  s.modTank t fun v => { v with reading := .fault time, previous := none }

/-- R64: a reading from a gauge input; disregarded in UNCONFIGURED, or from an input that maps no tank. -/
def Block.takeReading (s : Block) (i : InputId) (r : GaugeReading) : Block :=
  match s.gaugeTank i with
  | some t =>
    match s.tankCfg t with
    | some c =>
      if s.running then
        match r with
        | .fault => s.faultReading t
        | .good g high highHigh => s.goodReading t c g high highHigh
      else s
    | none => s
  | none => s

/-- R72: the frame's reading is older than the view's basis. -/
def staleFor (f : StockContent) (v : TankView) : Bool :=
  match v.basis with
  | some b => f.time ≠ 0 && decide (f.time < b.time)
  | none => false

/-- R72: a STOCK frame is taken when the tank is loaded, its sender is the tank's gauge station, and this station
is not (notes/assumptions/40.md). -/
def Block.takeStock (s : Block) (sender : StationId) (f : StockContent) : Block :=
  match s.tankCfg f.tank with
  | some c =>
    if sender = c.gaugeStation ∧ s.number ≠ c.gaugeStation then
      let v := s.tank f.tank
      let s1 := s.setTank f.tank
        { v with heardHigh := f.high, heardHighHigh := f.highHigh, delivered := v.delivered + f.delivery }
      if f.delivering || staleFor f v then s1 else s1.rebase f.tank c f.g f.time f.delivery
    else s
  | none => s

/-- R71: a STOCK frame of the tank is reported sent, having carried a delivery volume. -/
def Block.stockSent (s : Block) (t : TankId) (carried : Nat) : Block :=
  let time := s.now
  s.modTank t fun v =>
    { v with lastStock := some time, pendingDelivery := v.pendingDelivery - carried, stockAge := 0 }

/-- R80: one view at RESTART. -/
def TankView.restart (v : TankView) : TankView :=
  { v with basis := none, age := 0, state := .unknown, previous := none, delivering := false, lastStock := none
           stockAge := Config.stockIntervalMs }

/-- R80: STOCK_STATE is raised for a view that was not already UNKNOWN. -/
def Block.restartTank (s : Block) (t : TankId) : Block :=
  let v := s.tank t
  let s1 := s.setTank t v.restart
  if v.state = .unknown then s1 else s1.raise .stockState t.val

/-- R80: the tank table at RESTART. -/
def Block.restartTanks (s : Block) : Block := allTanks.foldl Block.restartTank s

/-! ## Pump and inlet (R73, R74) -/

/-- R73: the pump output of a gauged tank: the three conditions for a supply tank, and off for a WASTE tank. That the
rule's last sentence holds of a WASTE tank on which a peer shows a draw, too, is DEDUCED (notes/assumptions/49.md). -/
def Block.pumpOn (s : Block) (t : TankId) : Bool :=
  match s.tankCfg t with
  | some c =>
    s.gauges t && c.cls ≠ .waste && (s.view c.zone).state = .normal && (s.tank t).state ≠ .dry
      && (s.isolated || s.anyDrawing t)
  | none => false

/-- R74: the inlet output of a gauged tank. -/
def Block.inletOpen (s : Block) (t : TankId) : Bool :=
  match s.tankCfg t with
  | some c =>
    s.gauges t && (s.view c.zone).state = .normal && !(s.tank t).highHigh
      && (match (s.tank t).lastGood with
          | some g => decide (g < c.highHighMark)
          | none => false)
  | none => false

end Sys2Proof.Machine
end

