-- ==== Sys2Proof/Machine/Bus.lean ====
section
/-! DEFINITION. The bay link controller's events (R149 to R163) and the STATUS builder's (R147): contention, the
transmitter, reception, link conflicts, isolation and the loopback self-test. -/

namespace Sys2Proof.Machine

/-! ## The STATUS builder (R147) -/

def Block.setBuilder (s : Block) (b : Builder) : Block := s.setRoster { s.roster with builder := b }

/-- R147: START, or a restart after which the station is not isolated. -/
def Block.startBuilder (s : Block) : Block :=
  s.setBuilder { period := .run Config.statusPeriodMs, holdOff := .rest, change := false, due := true }

/-- R147: a STATUS of this station has won the medium and is not yet reported. -/
def Link.statusInTransmitter (k : Link) : Bool :=
  match k.sending with
  | some (.status _) => true
  | _ => false

/-- R147: a change for the STATUS builder. One made between the win and the report of sending waits for the hold-off
timer that the report starts (notes/assumptions/41.md). -/
def Block.markChange (s : Block) : Block :=
  if s.builderOn then
    let b := s.roster.builder
    s.setBuilder { b with
      change := true, due := b.due || (!b.holdOff.running && !s.link.statusInTransmitter) }
  else s

/-- R147: the period timer expires. -/
def Block.endPeriod (s : Block) : Block :=
  let b := s.roster.builder
  if b.period.running then s.setBuilder { b with period := .rest, due := true } else s

/-- R147: the hold-off timer expires. -/
def Block.endHoldOff (s : Block) : Block :=
  let b := s.roster.builder
  if b.holdOff.running then s.setBuilder { b with holdOff := .rest, due := b.due || b.change } else s

/-- R136, R147, R158: a STATUS of this station is reported sent. -/
def Block.statusSent (s : Block) (c : StatusContent) : Block :=
  let s1 := s.setBuilder
    { s.roster.builder with period := .run Config.statusPeriodMs, holdOff := .run Config.holdOffMs }
  s1.modEntry s1.number fun e => { e with state := .live, age := 0, last := some c }

/-! ## Isolation (R161) -/

/-- R161: the CLEAR copy of an entry, which is taken as sent when the station becomes isolated. -/
def clearCopyOf (e : Entry) : Option (ZoneId × Nat × Nat) :=
  match e.body with
  | .clear z epoch copy => some (z, epoch, copy)
  | _ => none

/-- The entry in the transmitter. -/
def Link.entryInSending (k : Link) : Option Entry :=
  match k.sending with
  | some (.entry e _ _) => some e
  | _ => none

/-- A DRAW abandoned in the transmitter goes back to its place (R161, R163). -/
def Link.drawReturned (k : Link) : List Entry :=
  match k.entryInSending with
  | some e => if e.body.isDraw then insertEntry e k.queue else k.queue
  | none => k.queue

/-- R189: the cause as a detail of LINK_ERRORS. -/
def IsolationCause.detail : IsolationCause → Nat
  | .loopback => 1
  | .dupStation => 2

/-- R161: the station becomes ISOLATED, once between resets. -/
def Block.isolate (s : Block) (cause : IsolationCause) : Block :=
  if s.isolated then s
  else
    let k := s.link
    let copies := (k.entryInSending.toList ++ k.queue).filterMap clearCopyOf
    let s1 := (s.setLink
      { k with
        queue := k.drawReturned.filter fun e => e.body.isDraw
        sending := none
        contending := none
        isolated := some cause }).setBuilder Builder.stopped
    (copies.foldl (fun b x => b.clearSent x.1 x.2.1 x.2.2) s1).raise .linkErrors cause.detail

/-- R152: a conflict is counted; the third isolates the station. -/
def Block.countConflict (s : Block) : Block :=
  let s1 := s.setLink { s.link with conflicts := s.link.conflicts + 1 }
  if Config.conflictLimit ≤ s1.link.conflicts then s1.isolate .dupStation else s1

/-! ## Contention and the transmitter (R149 to R158) -/

/-- R149, R157: the line goes idle; the station begins a frame with the head, or with a due STATUS. -/
def Block.contend (s : Block) : Block :=
  let s0 := s.setLink { s.link with restOfConflict := false }
  if s0.builderOn ∧ s0.link.sending = none then s0.setLink { s0.link with contending := s0.pick } else s0

/-- R146, R150, R151: the medium is won; the entry passes to the transmitter, or the STATUS content is taken. -/
def Block.win (s : Block) : Block :=
  match s.link.contending with
  | none => s
  | some .status =>
    let c := s.statusContent
    (s.setLink { s.link with contending := none, sending := some (.status c) }).setBuilder
      { s.roster.builder with change := false, due := false }
  | some k =>
    match s.link.entryOf k with
    | some e =>
      s.setLink { s.link with
        contending := none
        queue := s.link.queue.erase e
        sending := some (.entry e (s.frameOf e.body) false) }
    | none => s.setLink { s.link with contending := none }

/-- R150: the medium is lost; the entry stays in its place, or the STATUS stays due. -/
def Block.lose (s : Block) : Block := s.setLink { s.link with contending := none }

/-- R155: a TRIP copy is reported sent. -/
def Link.tripSent (k : Link) (e : Entry) (withdrawn : Bool) : Link :=
  match e.body with
  | .trip z epoch cause remaining _ =>
    if withdrawn || remaining ≤ 1 || k.queue.any (Entry.hasKey (.trip z)) then k
    else { k with queue := insertEntry ⟨e.stamp, .trip z epoch cause (remaining - 1) (.run Config.tripHoldMs)⟩ k.queue }
  | _ => k

/-- R158: an entry's frame is reported sent to the block that owns it. -/
def Block.entrySent (s : Block) (e : Entry) (f : Frame) (withdrawn : Bool) : Block :=
  match e.body with
  | .trip _ _ _ _ _ => s.setLink (s.link.tripSent e withdrawn)
  | .clear z epoch copy => s.clearSent z epoch copy
  | .draw _ => s
  | .stock t _ _ _ _ _ =>
    match f with
    | .stock c => s.stockSent t c.delivery
    | _ => s

/-- R151: the frame is read back whole. -/
def Block.completeFrame (s : Block) : Block :=
  match s.link.sending with
  | none => s
  | some x =>
    let s1 := s.setLink { s.link with sending := none, conflicts := 0 }
    match x with
    | .status c => s1.statusSent c
    | .entry e f w => s1.entrySent e f w

/-- R152: a link conflict in the frame being sent. -/
def Block.conflict (s : Block) : Block :=
  match s.link.sending with
  | none => s
  | some x =>
    let s1 := s.setLink { s.link with sending := none, restOfConflict := true }
    let s2 :=
      match x with
      | .status _ => s1.setBuilder { s1.roster.builder with due := true }
      | .entry e _ w => s1.setLink (s1.link.returnEntry e w)
    s2.countConflict

/-- The hold of a TRIP entry of the zone ends (R155). -/
def endHold (z : ZoneId) (e : Entry) : Entry :=
  match e.body with
  | .trip z' epoch cause remaining _ => if z' = z then { e with body := .trip z' epoch cause remaining .rest } else e
  | _ => e

/-- R155: a TRIP entry's hold ends. -/
def Block.endTripHold (s : Block) (z : ZoneId) : Block := s.setLink { s.link with queue := s.link.queue.map (endHold z) }

/-! ## Reception (R152, R159, R160) -/

/-- R159: the receiver takes frames: RUNNING, and not in the self-test. -/
def Block.receiving (s : Block) : Bool := s.running && s.link.test.isNone

/-- R152: the rest of a frame in conflict ends with the frame (notes/assumptions/25.md). -/
def Block.frameEnded (s : Block) : Block := s.setLink { s.link with restOfConflict := false }

/-- R159: a frame that fails validation. -/
def Block.takeInvalid (s : Block) : Block :=
  if s.receiving then
    let old := s.link.errors
    let s1 := s.frameEnded.setLink { s.frameEnded.link with errors := holdAt Config.hold16 (old + 1) }
    if old + 1 = Config.linkErrorLimit then s1.raise .linkErrors 0 else s1
  else s

/-- R152, R160: a valid frame with this station's number: a conflict, unless it is the rest of the frame in which
this station has found one. An isolated station counts none (R161). -/
def Block.takeOwnNumber (s : Block) : Block :=
  if s.receiving ∧ s.link.sending = none then
    if s.isolated ∨ s.link.restOfConflict = true then s.frameEnded else s.frameEnded.countConflict
  else s

/-- R160: a valid frame is handled by its station number; an isolated station dispatches none
(notes/assumptions/27.md). -/
def Block.dispatch (s : Block) (sender : StationId) (take : Block → Block) : Block :=
  if sender = s.number then s.takeOwnNumber
  else if s.receiving then (if s.isolated then s.frameEnded else take s.frameEnded)
  else s

/-! ## The loopback self-test (R162) -/

/-- R162, R163: the self-test begins: the driver is disconnected, and one STATUS goes through the join. -/
def Block.beginTest (s : Block) : Block :=
  (s.setLink { s.link with
    test := some (encodeFrame s.number (.status s.statusContent))
    driver := false
    contending := none
    restOfConflict := false }).setBuilder Builder.stopped

/-- R162: the test passes when the frame comes back whole, bit for bit the same, and passes R159
(notes/assumptions/26.md). -/
def loopbackPasses (sent : List Byte) (returned : Option (List Byte)) : Bool :=
  returned = some sent && (decodeFrame sent).isSome

/-- R162: the self-test ends. -/
def Block.endTest (s : Block) (returned : Option (List Byte)) : Block :=
  match s.link.test with
  | none => s
  | some sent =>
    let s1 := s.setLink { s.link with test := none, driver := true }
    if loopbackPasses sent returned then s1.startBuilder else s1.isolate .loopback

/-- R163: the controller at RESTART, before its self-test. -/
def Block.restartLink (s : Block) : Block :=
  s.setLink { s.link with
    queue := s.link.drawReturned.filter fun e => e.body.isDraw
    sending := none
    conflicts := 0
    isolated := none }

end Sys2Proof.Machine
end

