-- ==== Sys2Proof/Machine/Flags.lean ====
section
/-! DEFINITION. Flags: the eight flags of a machine record (R82, R104, R182) and the eight of a fill record (R27,
R38). -/

namespace Sys2Proof.Machine

def allFlags : List MachineFlag :=
  [.hoursBack, .hoursJump, .rateHigh, .rateLow, .serviceDue, .lubeHigh, .resynced, .doubleFill]

/-- The byte with one flag set (R182). -/
def flagMask (f : MachineFlag) : Byte := 1#8 <<< f.bit

/-- The flag is set. -/
def hasFlag (flags : Byte) (f : MachineFlag) : Bool := flags &&& flagMask f ≠ 0#8

/-- The record with a flag set; one found set stays set (R104). -/
def MachineRecord.set (r : MachineRecord) (f : MachineFlag) : MachineRecord := { r with flags := r.flags ||| flagMask f }

/-- The record with every flag of a set cleared (R108, R109). -/
def MachineRecord.clear (r : MachineRecord) (named : Byte) : MachineRecord :=
  { r with flags := r.flags &&& ~~~named }

/-- The flags that pass from clear to set (R104). -/
def newFlags (old new : Byte) : List MachineFlag := allFlags.filter fun f => !hasFlag old f && hasFlag new f

/-- R104: each flag that passes from clear to set raises ACCOUNT_FLAG with the machine as detail. -/
def Block.raiseFlags (s : Block) (machine : Nat) (old new : Byte) : Block :=
  (newFlags old new).foldl (fun b _ => b.raise .accountFlag machine) s

/-- R27: a numeric session's net exceeds the granted preset by more than the larger of 200 cL and one percent. -/
def overrun (toFull : Bool) (granted net : Nat) : Bool :=
  !toFull && granted + max 200 (granted / 100) < net

/-- R38: more than 2 % of the session's A pulses were taken in NOSYNC. -/
def unverified (unchecked pulses : Nat) : Bool := pulses < unchecked * 50

/-- R27: the flags of the record of a finished session. -/
def fillFlags (p : SessionParams) (d : SessionData) (checkOn calibration : Bool) : FillFlags :=
  { toFull := p.toFull
    overrun := overrun p.toFull p.granted (netCL d.net)
    unverified := unverified d.unchecked d.pulses
    unchecked := !checkOn
    tempDefault := d.tempDefault
    tempClamped := d.tempClamped
    hoursInvalid := p.hoursInvalid
    calibration := calibration }

/-- R186: the record flags fill one byte, TO_FULL at bit 7 down to CALIBRATION at bit 0 (R182). -/
def FillFlags.number (f : FillFlags) : Nat :=
  128 * boolNat f.toFull + 64 * boolNat f.overrun + 32 * boolNat f.unverified + 16 * boolNat f.unchecked
    + 8 * boolNat f.tempDefault + 4 * boolNat f.tempClamped + 2 * boolNat f.hoursInvalid + boolNat f.calibration

end Sys2Proof.Machine
end

