-- ==== Sys2Proof/Machine/Accounts.lean ====
section
/-! DEFINITION. The account table (chapter 4): finding, making and evicting records, the eight steps of a posting,
and the requests' effects on a record. -/

namespace Sys2Proof.Machine

/-! ## The list (R84 to R87) -/

/-- R82: a record as it is created; the direction of its run of 0 is a DESIGN CHOICE (notes/assumptions/43.md). -/
def MachineRecord.fresh (machine : Nat) (cls : ClassId) (origin : Origin) : MachineRecord :=
  { machine := machine, cls := cls, origin := origin, priority := false, hours := none, base := none, created := none
    lastFill := none, service := none, carry := 0, estimate := none, runCount := 0, runLow := false
    sinceService := Vector.replicate 8 0, drained := 0, fuel := 0, flags := 0, inFlight := none }

/-- The machine's record. -/
def Accounts.find (a : Accounts) (machine : Nat) : Option MachineRecord := a.records.find? fun r => r.machine = machine

/-- R86: a record with no reference and no flag may be evicted. -/
def MachineRecord.evictable (r : MachineRecord) : Bool := r.inFlight.isNone && r.flags = 0

/-- The list without the evictable record nearest the least recent end; none if there is none. -/
def evictFrom : List MachineRecord → Option (List MachineRecord)
  | [] => none
  | r :: rs =>
    match evictFrom rs with
    | some rs' => some (r :: rs')
    | none => if r.evictable then some rs else none

/-- R84: a record moves to the most recent end, its contents replaced by `r`. -/
def Accounts.toFront (a : Accounts) (r : MachineRecord) : Accounts :=
  { a with records := r :: a.records.filter fun x => x.machine ≠ r.machine }

/-- R85, R91, R106: the machine's record at the most recent end, made if there is none and room can be had; none if
384 are held and none is evictable. -/
def Accounts.findOrCreate (a : Accounts) (machine : Nat) (cls : ClassId) (origin : Origin) :
    Option (Accounts × MachineRecord) :=
  match a.find machine with
  | some r => some (a.toFront r, r)
  | none =>
    let r := MachineRecord.fresh machine cls origin
    if a.records.length < Config.accountRoom then some ({ a with records := r :: a.records }, r)
    else
      match evictFrom a.records with
      | some rs => some ({ a with records := r :: rs, evictions := holdAt Config.hold16 (a.evictions + 1) }, r)
      | none => none

/-- A record's contents change; it keeps its place. -/
def Accounts.update (a : Accounts) (r : MachineRecord) : Accounts :=
  { a with records := a.records.map fun x => if x.machine = r.machine then r else x }

/-! ## A posting (R89, R90) -/

/-- R89, R90: a fill as the account table takes it. -/
structure Posting where
  machine : Nat
  product : ProductId
  cls : Option ProductClass
  direction : Direction
  net : Nat
  hours : Option Nat
  toFull : Bool
  start : Nat
  stop : Nat
  station : StationId
  lane : LaneId
  prior : Option Nat
  deriving DecidableEq, Repr

/-- R92: a FUEL draw. -/
def Posting.fuelDraw (p : Posting) : Bool := p.direction = .draw && p.cls = some .fuel

/-- R100: a draw of a LUBE or COOLANT product. -/
def Posting.lubeDraw (p : Posting) : Bool := p.direction = .draw && (p.cls = some .lube || p.cls = some .coolant)

/-- A record in the course of a posting: whether the posting is marked no-sample, whether step 2 or 3 has settled
the carry, and whether step 3 took the reading without a jump. -/
structure Work where
  record : MachineRecord
  noSample : Bool
  carrySettled : Bool
  taken : Bool
  deriving DecidableEq, Repr

/-- R96: hours to service fall by a rise of the hours; a fall from above 0 to 0 sets SERVICE_DUE. -/
def MachineRecord.countDown (rise : Nat) (r : MachineRecord) : MachineRecord :=
  match r.service with
  | none => r
  | some v =>
    let r1 := { r with service := some (v - rise) }
    if 0 < v ∧ v - rise = 0 then r1.set .serviceDue else r1

/-- Hours and base hours become a value; hours at creation too if absent. -/
def MachineRecord.setHours (h : Nat) (r : MachineRecord) : MachineRecord :=
  { r with hours := some h, base := some h, created := some (r.created.getD h) }

/-- R93: step 2, resync by prior hours. -/
def stepResync (p : Posting) (w : Work) : Work :=
  match p.prior with
  | none => w
  | some P =>
    match w.record.hours with
    | none => { w with record := { w.record.setHours P with carry := 0 }, noSample := true, carrySettled := true }
    | some h =>
      if P = h then w
      else if h < P then
        { w with
          record := ({ w.record.set .resynced with carry := 0, hours := some P, base := some P }).countDown (P - h)
          noSample := true, carrySettled := true }
      else { w with record := { w.record.set .resynced with carry := 0 }, noSample := true, carrySettled := true }

/-- R97: the carry rises by the net volume of a FUEL draw, held at its greatest value. -/
def MachineRecord.addCarry (net : Nat) (r : MachineRecord) : MachineRecord :=
  { r with carry := holdAt Config.hold32 (r.carry + net) }

/-- R95: a jump. -/
def isJump (r : MachineRecord) (p : Posting) (rise : Nat) : Bool :=
  match r.lastFill with
  | some f =>
    p.stop ≠ 0 && f.stop ≠ 0 && decide (((p.stop : Int) - f.stop) + 720 < ((rise * 360 : Nat) : Int))
  | none => false

/-- R94: step 3, the hour reading, against what step 2 left (notes/assumptions/16.md). -/
def stepHours (p : Posting) (w : Work) : Work :=
  match p.hours with
  | none =>
    { w with record := if p.fuelDraw then w.record.addCarry p.net else w.record, carrySettled := true }
  | some H =>
    match w.record.hours with
    | none => { w with record := { w.record.setHours H with carry := 0 }, noSample := true, carrySettled := true }
    | some h =>
      if H < h then
        { w with
          record := (if p.fuelDraw then w.record.addCarry p.net else w.record).set .hoursBack
          noSample := true, carrySettled := true }
      else if isJump w.record p (H - h) then
        { w with
          record := (({ w.record with hours := some H, base := some H, carry := 0 }).countDown (H - h)).set .hoursJump
          noSample := true, carrySettled := true }
      else { w with record := ({ w.record with hours := some H }).countDown (H - h), taken := true }

/-- R97: the sample of a posting, if it yields one: (carry + net) / (H − base hours), rounded half up. -/
def sampleOf (p : Posting) (w : Work) : Option Nat :=
  match w.record.hours, w.record.base with
  | some H, some b =>
    if p.fuelDraw ∧ p.toFull ∧ w.taken ∧ ¬ w.noSample ∧ b + 10 ≤ H then
      some (roundHalfUpNat (w.record.carry + p.net) (H - b))
    else none
  | _, _ => none

/-- R99: a flagged sample of a direction. The third in a row is taken as the estimate. A run of 0 keeps the last
direction (DESIGN CHOICE, notes/assumptions/43.md). -/
def MachineRecord.flagSample (low : Bool) (sample : Nat) (r : MachineRecord) : MachineRecord :=
  let r1 := r.set (if low then .rateLow else .rateHigh)
  let n := if r.runLow = low ∧ 1 ≤ r.runCount then r.runCount + 1 else 1
  if 3 ≤ n then { r1 with estimate := some sample, runCount := 0, runLow := low }
  else { r1 with runCount := n, runLow := low }

/-- R98: step 5, the sample moves the estimate or is flagged. -/
def stepEstimate (band : ClassCfg) (sample : Nat) (r : MachineRecord) : MachineRecord :=
  match r.estimate with
  | none => { r with estimate := some sample, runCount := 0 }
  | some e =>
    if e * band.bandHigh < sample * 100 then r.flagSample false sample
    else if sample * 100 < e * band.bandLow then r.flagSample true sample
    else { r with estimate := some ((3 * e + sample + 2) / 4), runCount := 0 }

/-- R97, R98: steps 4 and 5. -/
def stepSample (band : ClassCfg) (p : Posting) (w : Work) : Work :=
  if p.fuelDraw then
    match sampleOf p w with
    | some sample => { w with record := stepEstimate band sample { w.record with carry := 0, base := w.record.hours } }
    | none => if w.carrySettled then w else { w with record := w.record.addCarry p.net }
  else w

/-- R100: step 6, lube, coolant and drain totals. -/
def stepTotals (band : ClassCfg) (p : Posting) (r : MachineRecord) : MachineRecord :=
  if p.lubeDraw then
    let total := holdAt Config.hold32 (r.sinceService[p.product] + p.net)
    let r1 := { r with sinceService := r.sinceService.set p.product total }
    if band.allowance < total then r1.set .lubeHigh else r1
  else if p.direction = .ret then { r with drained := holdAt Config.hold32 (r.drained + p.net) }
  else r

/-- R101: the posting overlaps the record's last fill, from another station or lane. -/
def overlaps (r : MachineRecord) (p : Posting) : Bool :=
  match r.lastFill with
  | some f =>
    p.start ≠ 0 && p.stop ≠ 0 && f.start ≠ 0 && f.stop ≠ 0 && decide (p.start ≤ f.stop) && decide (f.start ≤ p.stop)
      && (p.station ≠ f.station || p.lane ≠ f.lane)
  | none => false

/-- R101, R103: steps 7 and 8. -/
def stepClose (p : Posting) (r : MachineRecord) : MachineRecord :=
  let r1 := if overlaps r p then r.set .doubleFill else r
  { r1 with
    lastFill := some ⟨p.start, p.stop, p.station, p.lane⟩
    fuel := if p.fuelDraw then holdAt Config.hold32 (r1.fuel + p.net) else r1.fuel }

/-- R92: the steps 2 to 8 of a posting on a record, with the fields of the record's class. -/
def postRecord (band : ClassCfg) (p : Posting) (r : MachineRecord) : MachineRecord :=
  let w := stepSample band p (stepHours p (stepResync p ⟨r, false, false, false⟩))
  stepClose p (stepTotals band p w.record)

/-- R88: a posting to the unassigned record or the bulk totals. -/
def ProductTotals.add (p : Posting) (u : ProductTotals) : ProductTotals :=
  match p.direction with
  | .draw =>
    { u with draws := u.draws.set p.product ((u.draws[p.product] + p.net) % Config.two32)
             count := holdAt Config.hold32 (u.count + 1) }
  | .ret =>
    { u with returns := u.returns.set p.product ((u.returns[p.product] + p.net) % Config.two32)
             count := holdAt Config.hold32 (u.count + 1) }

/-- R92, R104: a posting on the record found for it, which stands at the most recent end of `a`. -/
def Block.postTo (s : Block) (a : Accounts) (r : MachineRecord) (p : Posting) : Block :=
  let r1 := postRecord (s.store.classCfg r.cls) p r
  (s.setAccounts (a.update r1)).raiseFlags r.machine r.flags r1.flags

def Block.postUnassigned (s : Block) (p : Posting) : Block :=
  s.setAccounts { s.accounts with unassigned := s.accounts.unassigned.add p }

def Block.postBulk (s : Block) (p : Posting) : Block :=
  s.setAccounts { s.accounts with bulk := s.accounts.bulk.add p }

/-- R89: an own posting goes where the grant disposed it. A granted record is always found (R87;
notes/assumptions/37.md). -/
def Block.postAccount (s : Block) (d : Disposition) (p : Posting) : Block :=
  match d with
  | .bulk => s.postBulk p
  | .unassigned => s.postUnassigned p
  | .record =>
    match s.accounts.find p.machine with
    | some r => s.postTo (s.accounts.toFront r) r p
    | none => s.postUnassigned p

/-- R91: a heard posting. -/
def Block.postHeardAccount (s : Block) (cls : ClassId) (p : Posting) : Block :=
  if p.machine = 0 then s.postBulk p
  else
    match s.accounts.findOrCreate p.machine cls .heard with
    | some (a, r) => s.postTo a r p
    | none => s.postUnassigned p

/-- R89: the prior hours and class that an own posting hands back to its DRAW entry. -/
def Block.handedBack (s : Block) (d : Disposition) (machine : Nat) : Option Nat × ClassId :=
  match d with
  | .record =>
    match s.accounts.find machine with
    | some r => (r.hours, r.cls)
    | none => (none, 0)
  | _ => (none, 0)

/-- R85: the account table at a grant. -/
def Block.accountGrant (s : Block) (machine : Nat) (l : LaneId) : Block × Disposition :=
  if machine = 0 then (s, .bulk)
  else
    match s.accounts.findOrCreate machine 0 .localGrant with
    | some (a, r) => (s.setAccounts (a.update { r with inFlight := some l }), .record)
    | none => (s, .unassigned)

end Sys2Proof.Machine
end

