-- ==== Sys2Proof/Machine/Meter.lean ====
section
/-! DEFINITION. The meter front end (chapter 2) and the lane events that rest on it: pulses, temperature samples,
rate windows, creep, and the nozzle switch (R13, R30). -/

namespace Sys2Proof.Machine

/-! ## The pulse check (R32, R34 to R36) -/

/-- What the pulse check gives of a pulse. -/
structure PulseResult where
  check : PulseCheck
  forward : Bool
  unchecked : Bool
  error : Bool
  deriving DecidableEq, Repr

/-- R36: a faulty pulse in sync: the fourth consecutive fault enters NOSYNC. -/
def PulseCheck.fault (c : PulseCheck) : PulseCheck :=
  if 4 ≤ c.faults + 1 then { c with state := .nosync, run := 0, faults := 0 } else { c with faults := c.faults + 1 }

/-- R35: the run after a sound A pulse of a read direction; a run of 8 enters sync in its direction. -/
def PulseCheck.extendRun (bHigh : Bool) (c : PulseCheck) : PulseCheck :=
  let n := if 1 ≤ c.run ∧ c.runReverse = bHigh then c.run + 1 else 1
  if 8 ≤ n then { c with state := if bHigh then .reverse else .forward, run := 0, runReverse := bHigh, faults := 0 }
  else { c with run := n, runReverse := bHigh }

/-- R35, R36: an A pulse, with the B level read at it (high is reverse). -/
def PulseCheck.takeA (bHigh : Bool) (c : PulseCheck) : PulseResult :=
  let faulty : Bool := c.memory = .a
  let d := { c with memory := .a }
  match c.state with
  | .nosync =>
    { check := if faulty then { d with run := 0 } else d.extendRun bHigh, forward := true, unchecked := true, error := false }
  | _ =>
    let named := { d with state := if bHigh then .reverse else .forward }
    { check := if faulty then named.fault else { named with faults := 0 }, forward := !bHigh, unchecked := false, error := faulty }

/-- R35, R36: a B pulse. -/
def PulseCheck.takeB (c : PulseCheck) : PulseResult :=
  let faulty : Bool := c.memory = .b
  let d := { c with memory := .b }
  match c.state with
  | .nosync => { check := if faulty then { d with run := 0 } else d, forward := true, unchecked := false, error := false }
  | _ => { check := if faulty then d.fault else d, forward := true, unchecked := false, error := faulty }

/-- R34: with the check off every A pulse is forward, and counts as neither unchecked nor an error. -/
def PulseCheck.takeUncheckedLane (c : PulseCheck) : PulseResult :=
  { check := c, forward := true, unchecked := false, error := false }

/-- Entry to LIFTED (R13): NOSYNC, run 0, fault count 0, alternation memory none. -/
def PulseCheck.restart (c : PulseCheck) : PulseCheck :=
  { c with state := .nosync, run := 0, faults := 0, memory := .none }

/-! ## Session accumulators and causes (R37, R43, R45, R46) -/

/-- R37: the fault budget. -/
def faultBudget (pulses : Nat) : Nat := 8 + pulses / 1000

/-- R43: the session counts of an A pulse. A count past 32 bits is open (notes/assumptions/7.md). -/
def Block.countPulse (s : Block) (r : PulseResult) (d : SessionData) : SessionData :=
  { d with
    pulses := s.fitNat sitePulses Config.two32 (d.pulses + 1)
    unchecked := s.fitNat siteUnchecked Config.two32 (d.unchecked + boolNat r.unchecked)
    errors := s.fitNat siteErrors Config.two32 (d.errors + boolNat r.error) }

/-- R43: the volume of an A pulse, with the factor in force. -/
def Block.addVolume (s : Block) (mf cf : Nat) (forward : Bool) (d : SessionData) : SessionData :=
  if forward then
    { d with gross := s.fitInt64 siteGross (d.gross + mf), net := s.fitInt64 siteNet (d.net + (mf * cf : Nat)) }
  else
    { d with
      gross := s.fitInt64 siteGross (d.gross - mf)
      net := s.fitInt64 siteNet (d.net - (mf * cf : Nat))
      reverse := s.fitNat siteReverse (Config.two32 * Config.two32) (d.reverse + mf) }

/-- R41: the marks of the effective temperature that a pulse was taken with. -/
def markTemperature (sample : Option Sample) (d : SessionData) : SessionData :=
  { d with
    tempDefault := d.tempDefault || tempIsDefault sample
    tempClamped := d.tempClamped || tempIsClamped sample }

/-- R37: the error count has risen; past the budget the session takes METER_FAULT (notes/assumptions/12.md). -/
def Block.checkBudget (s : Block) (l : LaneId) : Block :=
  let d := (s.lane l).data
  if faultBudget d.pulses < d.errors then s.takeMeterFault l else s

/-- R46: reverse gross has risen; past 200 cL the session takes METER_FAULT. -/
def Block.checkReverse (s : Block) (l : LaneId) : Block :=
  if Config.reverseLimit < (s.lane l).data.reverse then s.takeMeterFault l else s

/-- R45: net has reached a point of so many cL. -/
def reached (net : Int) (point : Int) : Bool := point * (Config.pLPerCL : Nat) ≤ net

/-- R14, R45: the points of a numeric session in FLOWING or SLOWING; the stop point first. -/
def Block.comparePoints (s : Block) (l : LaneId) (c : LaneCfg) : Block :=
  let x := s.lane l
  match x.params with
  | none => s
  | some p =>
    if p.toFull then s
    else if x.session = .flowing ∨ x.session = .slowing then
      if reached x.data.net ((p.granted : Int) - c.stopLead) then s.takeCause l .preset
      else if x.session = .flowing ∧ reached x.data.net ((p.granted : Int) - c.slowVolume) then
        s.setLane l { x with session := .slowing }
      else s
    else s

/-- R14: the lane acts on the new net accumulator. -/
def Block.actOnPulse (s : Block) (l : LaneId) (c : LaneCfg) (forward : Bool) : Block :=
  if (s.lane l).session = .lifted then
    if forward then (s.modLane l fun x => { x with session := .flowing }).comparePoints l c else s
  else s.comparePoints l c

/-- R51: the lifetime counts, held. -/
def Lane.countHealth (r : PulseResult) (x : Lane) : Lane :=
  { x with
    check := r.check
    healthErrors := holdAt Config.hold32 (x.healthErrors + boolNat r.error)
    healthUnchecked := holdAt Config.hold32 (x.healthUnchecked + boolNat r.unchecked) }

/-- R47: the open rate window counts a pulse. -/
def Lane.countWindow (forward : Bool) (x : Lane) : Lane :=
  if forward then { x with windowForward := x.windowForward + 1 } else { x with windowReverse := x.windowReverse + 1 }

/-- R12: a pulse in FLOWING or SLOWING restarts the no-flow timer. -/
def Lane.restartNoFlow (x : Lane) : Lane :=
  if x.session = .flowing ∨ x.session = .slowing then { x with noFlow := .run Config.noFlowMs } else x

/-- R33, R43: an A pulse taken in LIFTED through CLOSING. -/
def Block.sessionPulse (s : Block) (l : LaneId) (c : LaneCfg) (r : PulseResult) : Block :=
  let x := s.lane l
  let counted := (x.countHealth r).restartNoFlow
  let s1 := s.setLane l { counted with data := s.countPulse r x.data }
  let s2 := if r.error then s1.checkBudget l else s1
  let s3 := s2.modLane l fun y =>
    { y with data := markTemperature y.sample (s.addVolume c.meterFactor (x.cf.getD 1000000) r.forward y.data) }
  let s4 := if r.forward then s3 else s3.checkReverse l
  (s4.modLane l (Lane.countWindow r.forward)).actOnPulse l c r.forward

/-- R49, R50: an A pulse taken in IDLE, AUTHORIZED or FINISHED is creep. -/
def Block.creepPulse (s : Block) (l : LaneId) (c : LaneCfg) (r : PulseResult) : Block :=
  let x := ((s.lane l).countHealth r).countWindow r.forward
  let volume := x.creep + c.meterFactor
  if Config.creepLimit ≤ volume then
    (s.setLane l { x with creep := 0, creepTimer := .run Config.creepMs }).presentOwn .creep
  else s.setLane l { x with creep := volume, creepTimer := .run Config.creepMs }

/-- R33: an A pulse. -/
def Block.takeAPulse (s : Block) (l : LaneId) (bHigh : Bool) : Block :=
  match s.laneCfg l with
  | none => s
  | some c =>
    let x := s.lane l
    let r := if c.checkOn then x.check.takeA bHigh else x.check.takeUncheckedLane
    if x.session.metered then s.sessionPulse l c r
    else if x.session.creeping then s.creepPulse l c r
    else s

/-- R32, R36: a B pulse goes to the pulse check alone; an error in a session counts against its budget. -/
def Block.takeBPulse (s : Block) (l : LaneId) : Block :=
  match s.laneCfg l with
  | none => s
  | some c =>
    let x := s.lane l
    if x.session = .off ∨ c.checkOn = false then s
    else
      let r := x.check.takeB
      let y := x.countHealth r
      if r.error ∧ x.session.metered then
        (s.setLane l { y with data := { y.data with
          errors := s.fitNat siteErrors Config.two32 (y.data.errors + 1) } }).checkBudget l
      else s.setLane l y

/-! ## Temperature (R39 to R42) -/

/-- R41, R42: an effective temperature comes into force in a session: the factor is formed anew, and the minimum
and maximum take it in. -/
def Block.takeTemperature (s : Block) (l : LaneId) : Block :=
  let x := s.lane l
  if x.session.metered then
    let t := effectiveTemp x.sample
    s.setLane l { x with
      cf := s.sessionFactor l
      data := { x.data with minTemp := min x.data.minTemp t, maxTemp := max x.data.maxTemp t } }
  else s

/-- R39: a sample arrives; an OFF lane disregards its converter. -/
def Block.takeSample (s : Block) (l : LaneId) (v : Sample) : Block :=
  if (s.lane l).session = .off then s
  else (s.modLane l fun x => { x with sample := some v, watch := .run Config.sampleWatchMs }).takeTemperature l

/-- R39: the watch expires: PROBE_FAULT is taken, and the watch stays expired. -/
def Block.missSample (s : Block) (l : LaneId) : Block :=
  match (s.lane l).watch with
  | .run _ => (s.modLane l fun x => { x with sample := some .probeFault, watch := .expired }).takeTemperature l
  | _ => s

/-! ## The rate window (R47, R48) -/

/-- R47: the raw rate of a window, L/min. -/
def rawRate (forward reverse mf : Nat) : Nat := (forward - reverse) * mf * 60 / 1000000

/-- R47, R48: a rate window ends. -/
def Block.endWindow (s : Block) (l : LaneId) : Block :=
  match s.laneCfg l with
  | none => s
  | some c =>
    let x := s.lane l
    if x.session = .off then s
    else
      let raw := rawRate x.windowForward x.windowReverse c.meterFactor
      let high : Bool := c.maxRate * 125 < raw * 100
      let run := if high then x.excessRun + 1 else 0
      let s1 := s.setLane l
        { x with
          rate := min raw 1500, excessRun := run, windowForward := 0, windowReverse := 0
          windowTimer := .run Config.rateWindowMs }
      if 2 ≤ run then s1.presentOwn .excessFlow else s1

/-- R50: the creep timer expires. -/
def Block.endCreep (s : Block) (l : LaneId) : Block :=
  if (s.lane l).creepTimer.running then s.modLane l fun x => { x with creep := 0, creepTimer := .rest } else s

/-! ## The nozzle (R13, R17, R30) -/

/-- R13: the session accumulators at LIFTED, with the start time and the temperature then in force (R41). -/
def SessionData.lifted (now : Nat) (t : Int) : SessionData :=
  { SessionData.zero with minTemp := t, maxTemp := t, start := now }

/-- R13: the granted preset of a numeric session is at or below the slow-down volume. -/
def startsSlow (p : SessionParams) (c : LaneCfg) : Bool := !p.toFull && p.granted ≤ c.slowVolume

/-- R13: nozzle out in AUTHORIZED. -/
def Block.liftLane (s : Block) (l : LaneId) (c : LaneCfg) (p : SessionParams) : Block :=
  let x := s.lane l
  s.setLane l
    { x with
      session := if startsSlow p c then .slowing else .lifted
      lift := .rest
      noFlow := .run Config.noFlowMs
      duration := .run Config.durationMs
      check := x.check.restart
      creep := 0
      creepTimer := .rest
      cf := s.sessionFactor l
      data := SessionData.lifted s.now (effectiveTemp x.sample) }

/-- The nozzle switch's position as a field line (notes/assumptions/3.md). -/
def Block.setNozzlePin (s : Block) (l : LaneId) (out : Bool) : Block :=
  s.setPins { s.pins with nozzleOut := s.pins.nozzleOut.set l out }

/-- R13: the nozzle leaves the holster. An OFF lane disregards its switch (R2). A nozzle recorded as out has not been
returned, so a report of it lifts nothing (notes/assumptions/32.md). -/
def Block.takeNozzleOut (s : Block) (l : LaneId) : Block :=
  let s0 := s.setNozzlePin l true
  let x := s0.lane l
  if x.session = .off ∨ x.nozzleOut = true then s0
  else
    let s1 := s0.setLane l { x with nozzleOut := true }
    match x.session, s1.laneCfg l, x.params with
    | .authorized, some c, some p => s1.liftLane l c p
    | _, _, _ => s1

/-- R17, R30: the nozzle returns to the holster. -/
def Block.takeNozzleIn (s : Block) (l : LaneId) : Block :=
  let s0 := s.setNozzlePin l false
  if (s0.lane l).session = .off then s0
  else
    let s1 := s0.modLane l fun x => { x with nozzleOut := false }
    match (s1.lane l).session with
    | .lifted | .flowing | .slowing => s1.takeCause l .hung
    | .finished => s1.modLane l Lane.toIdle
    | _ => s1

end Sys2Proof.Machine
end

