-- ==== Sys2Proof/Machine/Records.lean ====
section
/-! DEFINITION. The fill record: its building, its hand-off to four blocks, and what RESTART does to the lanes
(R25 to R30). -/

namespace Sys2Proof.Machine

/-- R28: the number of the next record: 0 for a calibration fill. A number past 32 bits is open
(notes/assumptions/7.md). -/
def Block.nextSeq (s : Block) : Nat :=
  if s.lockOpen then 0 else s.fitNat siteDrawSeq Config.two32 (s.roster.drawSeq + 1)

/-- The lane's pulse check is enabled (R27, UNCHECKED). -/
def Block.checkOn (s : Block) (l : LaneId) : Bool :=
  match s.laneCfg l with
  | some c => c.checkOn
  | none => false

/-- R26, R27: the fill record of a lane's session. -/
def Block.fillOf (s : Block) (l : LaneId) (p : SessionParams) : FillRecord :=
  let d := (s.lane l).data
  { seq := s.nextSeq
    lane := l
    direction := p.direction
    product := p.product
    tank := p.tank
    machine := p.machine
    requested := p.requested
    granted := p.granted
    toFull := p.toFull
    clamp := p.clamp
    net := netCL d.net
    gross := grossCL d.gross
    reverse := microCL d.reverse
    start := d.start
    stop := d.stop
    hours := p.hours
    cause := d.primary
    secondary := d.secondary
    minTemp := d.minTemp
    maxTemp := d.maxTemp
    pulses := d.pulses
    unchecked := d.unchecked
    errors := d.errors
    flags := fillFlags p d (s.checkOn l) s.lockOpen
    disposition := p.disposition }

/-- R89: the posting of an own fill record. -/
def Block.postingOf (s : Block) (r : FillRecord) : Posting :=
  { machine := r.machine, product := r.product, cls := (s.productCfg r.product).map (·.cls), direction := r.direction
    net := r.net, hours := r.hours, toFull := r.toFull, start := r.start, stop := r.stop, station := s.number
    lane := r.lane, prior := none }

/-- R89, R153: the DRAW entry of a record, with the prior hours and class handed back and the total after the
posting (R61). -/
def drawOf (r : FillRecord) (prior : Option Nat) (cls : ClassId) (total : Nat) : DrawContent :=
  { seq := r.seq, lane := r.lane, direction := r.direction, product := r.product, tank := r.tank, machine := r.machine
    cls := cls, net := r.net, total := total, hours := r.hours, prior := prior, toFull := r.toFull, start := r.start
    stop := r.stop }

/-- R170: a record joins the end of the fill record queue. -/
def Block.pushFill (s : Block) (r : FillRecord) : Block := s.setPanel { s.panel with fills := s.panel.fills ++ [r] }

/-- R30: once the record is handed off the lane is IDLE, or FINISHED with its nozzle out. -/
def Lane.handedOff (x : Lane) : Lane :=
  let y := { x with settle := .rest, cf := none }
  if x.nozzleOut then { y with session := .finished } else y.toIdle

/-- R29, items 2 to 4, for a record that is not a calibration fill. -/
def Block.postRecordOut (s : Block) (r : FillRecord) : Block :=
  let back := s.handedBack r.disposition r.machine
  let s1 := (s.setRoster { s.roster with drawSeq := r.seq }).postOwn r.tank r.direction r.net
  let s2 := s1.postAccount r.disposition (s1.postingOf r)
  if s2.isolated then s2
  else s2.offer (.draw (drawOf r back.1 back.2 ((s2.tank r.tank).ownTotal r.direction)))

/-- R26, R29, R30: the lane builds its record and hands it off. -/
def Block.handOff (s : Block) (l : LaneId) : Block :=
  match (s.lane l).params with
  | none => s
  | some p =>
    let r := s.fillOf l p
    let s1 := (s.pushFill r).modLane l Lane.handedOff
    let s2 := if s.lockOpen then s1 else s1.postRecordOut r
    s2.clearInFlight l

/-- R26: the settle timer of a lane in CLOSING expires. -/
def Block.endSettle (s : Block) (l : LaneId) : Block :=
  if (s.lane l).session = .closing then s.handOff l else s

/-- R25, R181: what RESTART does to one lane. The tank views stand until their own part of the restart
(notes/assumptions/11.md). -/
def Block.restartLane (s : Block) (l : LaneId) : Block :=
  match (s.lane l).session with
  | .authorized => s.endGrant l .restart
  | .lifted | .flowing | .slowing | .closing => (s.takeCause l .restart).handOff l
  | _ => s

/-- R25: the lanes act on RESTART in ascending lane number. -/
def Block.restartLanes (s : Block) : Block := allLanes.foldl Block.restartLane s

end Sys2Proof.Machine
end

