-- ==== Sys2Proof/Machine/Roster.lean ====
section
/-! DEFINITION. The peer roster (chapter 6): entries and their ages, the draw sequence check, the bay clock, and
taking STATUS and DRAW frames. -/

namespace Sys2Proof.Machine

/-! ## The draw sequence (R139, R140) -/

/-- R139: every cumulative total of the entry becomes unknown. -/
def RosterEntry.forget (e : RosterEntry) : RosterEntry :=
  { e with totals := Vector.replicate 12 KnownTotals.unknown }

/-- R139: missed postings rise, held at 65,535, and the last sequence becomes n. -/
def RosterEntry.missedBy (k n : Nat) (e : RosterEntry) : RosterEntry :=
  { e with missed := holdAt Config.hold16 (e.missed + k), seq := some n }

/-- R139: the check of a STATUS's sequence. -/
def RosterEntry.checkStatus (n : Nat) (e : RosterEntry) : RosterEntry :=
  match e.seq with
  | none => { e with seq := some n }
  | some L => if n < L then e.forget.missedBy n n else e.missedBy (n - L) n

/-- R139: the sender has restarted from power-on, found at a DRAW: L is taken as 0. -/
def RosterEntry.restartedAt (n : Nat) (e : RosterEntry) : RosterEntry := e.forget.missedBy (n - 1) n

/-- R135: the entry's cumulative total for a tank and direction. -/
def RosterEntry.total (e : RosterEntry) (t : TankId) (d : Direction) : Option Nat :=
  match d with
  | .draw => e.totals[t].draw
  | .ret => e.totals[t].ret

/-- R142: a total becomes known. -/
def RosterEntry.setTotal (t : TankId) (d : Direction) (v : Nat) (e : RosterEntry) : RosterEntry :=
  match d with
  | .draw => { e with totals := e.totals.set t { e.totals[t] with draw := some v } }
  | .ret => { e with totals := e.totals.set t { e.totals[t] with ret := some v } }

/-- R139: the check of a DRAW's sequence; none for a repeat (notes/assumptions/17.md for a sequence of 0). -/
def RosterEntry.checkDraw (c : DrawContent) (e : RosterEntry) : Option RosterEntry :=
  match e.seq with
  | none => some { e with seq := some c.seq }
  | some L =>
    if c.seq < L then some (e.restartedAt c.seq)
    else if c.seq = L then
      if e.total c.tank c.direction = some c.total then none else some (e.restartedAt c.seq)
    else some (e.missedBy (c.seq - L - 1) c.seq)

/-- R140: a rise of an entry's missed postings raises POSTINGS_MISSED. -/
def Block.storeChecked (s : Block) (n : StationId) (old new : RosterEntry) : Block :=
  let s1 := s.setEntry n new
  if old.missed < new.missed then s1.raise .postingsMissed n.val else s1

/-! ## The bay clock (R144, R145) -/

def Block.setClock (s : Block) (v : Nat) : Block := s.setRoster { s.roster with clock := v, clockMs := 0 }

/-- R145: two bay times differ by 60 s or less. -/
def closeTimes (a b : Nat) : Bool := a ≤ b + 60 && b ≤ a + 60

/-- R145: the frame's bay time against the clock. -/
def Block.compareClock (s : Block) (n : StationId) (t : Nat) : Block :=
  if s.now = 0 then (if t = 0 then s else s.setClock t)
  else if t = 0 then s
  else if closeTimes t s.now then s.modEntry n fun e => { e with disagree := false }
  else if (s.entry n).disagree then s
  else (s.modEntry n fun e => { e with disagree := true }).raise .timeDisagree n.val

/-- R144: a second ends. Past the last 32-bit second the manual gives no value (notes/assumptions/7.md). -/
def Block.clockSecond (s : Block) : Block :=
  if s.now = 0 then s else s.setClock (s.fitNat siteClock Config.two32 (s.now + 1))

/-! ## Taking a STATUS and a DRAW (R137, R141) -/

/-- R136, R137: the content is stored and the entry is LIVE. -/
def RosterEntry.takeStatus (c : StatusContent) (e : RosterEntry) : RosterEntry :=
  { e with state := .live, age := 0, last := some c }

/-- R137: a STATUS is taken; the tank table and the lanes follow at the end of the event. -/
def Block.takeStatus (n : StationId) (c : StatusContent) (s : Block) : Block :=
  let e := s.entry n
  let s1 := s.storeChecked n e (e.checkStatus c.drawSeq)
  let s2 := s1.compareClock n c.bayTime
  (s2.modEntry n (RosterEntry.takeStatus c)).takeZoneReports n c

/-- R56, R138: the lane's picture is cleared. -/
def RosterEntry.clearLane (l : LaneId) (e : RosterEntry) : RosterEntry :=
  { e with last := e.last.map fun c => { c with lanes := c.lanes.set l clearedPicture } }

/-- R90: the posting of a DRAW frame, with this station's class for the product (notes/assumptions/33.md for its
hours). -/
def Block.heardPosting (s : Block) (n : StationId) (c : DrawContent) : Posting :=
  { machine := c.machine, product := c.product, cls := (s.productCfg c.product).map (·.cls), direction := c.direction
    net := c.net, hours := c.hours, toFull := c.toFull, start := c.start, stop := c.stop, station := n, lane := c.lane
    prior := c.prior }

/-- R141: a DRAW is taken. -/
def Block.takeDraw (n : StationId) (c : DrawContent) (s : Block) : Block :=
  let e := s.entry n
  match e.checkDraw c with
  | none => s
  | some e1 =>
    let s1 := s.storeChecked n e e1
    let s2 := s1.postHeard c (e1.total c.tank c.direction)
    let s3 := s2.modEntry n fun x => (x.setTotal c.tank c.direction c.total).clearLane c.lane
    s3.postHeardAccount c.cls (s3.heardPosting n c)

/-! ## Ages (R136) -/

/-- R136: an entry's age reaches 1.5 s. -/
def RosterEntry.goStale (e : RosterEntry) : RosterEntry :=
  if e.state = .live then { e with state := .stale, age := max e.age Config.staleMs } else e

/-- R136: an entry's age reaches 10 s; its totals become unknown. -/
def RosterEntry.goLost (e : RosterEntry) : RosterEntry :=
  if e.state = .stale then { e.forget with state := .lost, age := max e.age Config.lostMs } else e

/-- R135: every entry at RESTART. -/
def Block.restartRoster (s : Block) : Block :=
  s.setRoster { s.roster with entries := Vector.replicate 8 RosterEntry.reset }

end Sys2Proof.Machine
end

