-- ==== Sys2Proof/Machine/Finish.lean ====
section
/-! DEFINITION. The end of an event: the tank views follow what the event changed (R57 to R60), the STATUS builder is
told of a change (R147), the outputs follow the state (R3, R73, R74, R77, R120), and the raises of the event are
taken (R172, R174). -/

namespace Sys2Proof.Machine

/-- R16: band, tank or demand of two pictures of a lane differ. -/
def pictureChanged (a b : LanePicture) : Bool := a.band ≠ b.band || a.tank ≠ b.tank || a.demand ≠ b.demand

/-- R111: state or epoch of two zone views differ. -/
def viewChanged (a b : ZoneView) : Bool := a.state ≠ b.state || a.epoch ≠ b.epoch

/-- R147: between the start and the end of the event there is a change for the STATUS builder
(notes/assumptions/10.md). -/
def changedForStatus (before after : Block) : Bool :=
  (allLanes.any fun l => pictureChanged (before.picture l) (after.picture l))
    || allZones.any fun z => viewChanged (before.view z) (after.view z)

def Block.noteChange (before s : Block) : Block := if changedForStatus before s then s.markChange else s

/-- R3: the main valve output. -/
def SessionState.mainValve : SessionState → Bool
  | .lifted | .flowing => true
  | _ => false

/-- R3: the outputs of a lane follow its session state and its share. -/
def Block.driveLane (s : Block) (l : LaneId) (x : Lane) : Lane :=
  { x with
    mainOpen := x.session.mainValve
    slowOpen := x.session.active
    cap := s.capFor l
    capDuty := s.capDutyFor l
    duty := s.dutyFor l }

/-- R73, R74: the outputs of a gauged tank. -/
def Block.driveTank (s : Block) (t : TankId) (v : TankView) : TankView :=
  { v with pump := s.pumpOn t, inlet := s.inletOpen t }

/-- R120: the zone line is driven exactly while the own view is TRIPPED or CLEARING. -/
def Block.lineDriven (s : Block) : Bool :=
  match s.ownView with
  | some v => v.state = .tripped || v.state = .clearing
  | none => false

def Block.driveLine (s : Block) : Block := s.setSpill { s.spill with drive := s.lineDriven }

/-- Every output follows the state that the event leaves. -/
def Block.driveOutputs (s : Block) : Block :=
  ((s.mapLanes s.driveLane).mapTanks s.driveTank).driveLine

/-- The raises of the event are taken, and the attention line follows (R172, R174). -/
def Block.settlePanel (s : Block) : Block := s.setPanel s.panel.settle

/-- One more event has passed (notes/assumptions/5.md). -/
def Block.countEvent (s : Block) : Block := { s with openDraws := s.openDraws + 1 }

/-- The end of an event that began at `before` and has done its own work at `s`. -/
def Block.finish (before s : Block) : Block :=
  (Block.noteChange before s.evalTanks).driveOutputs.settlePanel.countEvent

end Sys2Proof.Machine
end

