-- ==== Sys2Proof/Machine/Clock.lean ====
section
/-! DEFINITION. The part's own time (notes/assumptions/1.md, notes/assumptions/29.md): one millisecond passes, every timer that runs
counts, and each that has run down has its expiry join the queue of commands. -/

namespace Sys2Proof.Machine

def Watch.tick : Watch → Watch
  | .run left => .run (left - 1)
  | w => w

def Watch.due : Watch → Bool
  | .run 0 => true
  | _ => false

def Lane.tick (x : Lane) : Lane :=
  { x with
    lift := x.lift.tick, noFlow := x.noFlow.tick, duration := x.duration.tick, settle := x.settle.tick
    windowTimer := x.windowTimer.tick, creepTimer := x.creepTimer.tick, watch := x.watch.tick }

/-- R57: the next millisecond brings the view's basis to its 10 min. -/
def TankView.agesOut (v : TankView) : Bool := v.basis.isSome && decide (v.age + 1 = Config.basisAgeMs)

/-- R57, R71: a basis ages, and the STOCK interval runs to 60 s. The last millisecond of a basis is its expiry's, which
is an event of its own (BASIS_AGE_EXPIRY). An interval that runs when the station becomes isolated runs on to its 60 s:
DESIGN CHOICE (notes/assumptions/48.md). -/
def TankView.tick (v : TankView) : TankView :=
  { v with
    age := if v.basis.isSome && decide (v.age + 1 < Config.basisAgeMs) then v.age + 1 else v.age
    stockAge := min Config.stockIntervalMs (v.stockAge + 1) }

def SpillInput.tick (x : SpillInput) : SpillInput := { x with timer := x.timer.tick }

def Clearing.tick : Clearing → Clearing
  | .sender e stage t => .sender e stage t.tick
  | .receiver n e t => .receiver n e t.tick

def ZoneView.tick (v : ZoneView) : ZoneView := { v with clearing := v.clearing.map Clearing.tick }

def Spill.tick (x : Spill) : Spill :=
  { x with
    views := Vector.ofFn fun z => x.views[z].tick
    inputs := Vector.ofFn fun i => x.inputs[i].tick
    settle := x.settle.tick
    listen := x.listen.tick }

/-- R135, R136: an entry's age counts, held at 65,535 s; it rests in ABSENT. -/
def RosterEntry.tick (e : RosterEntry) : RosterEntry :=
  if e.state = .absent then e else { e with age := min Config.ageHoldMs (e.age + 1) }

def Builder.tick (b : Builder) : Builder := { b with period := b.period.tick, holdOff := b.holdOff.tick }

def Roster.tick (r : Roster) : Roster :=
  { r with
    entries := Vector.ofFn fun n => r.entries[n].tick
    clockMs := if r.clock = 0 then r.clockMs else min 1000 (r.clockMs + 1)
    builder := r.builder.tick }

def Entry.tick (e : Entry) : Entry :=
  match e.body with
  | .trip z epoch cause remaining hold => { e with body := .trip z epoch cause remaining hold.tick }
  | _ => e

def Receiver.tick : Receiver → Receiver
  | .waiting => .waiting
  | .framing bytes left => .framing bytes (left - 1)

def Panel.tick (p : Panel) : Panel := { p with receiver := p.receiver.tick, presence := p.presence.tick }

/-- One millisecond passes for every timer that runs. -/
def Block.tick (s : Block) : Block :=
  { s with
    lanes := Vector.ofFn fun l => (s.lane l).tick
    tanks := Vector.ofFn fun t => (s.tank t).tick
    spill := s.spill.tick
    roster := s.roster.tick
    link := { s.link with queue := s.link.queue.map Entry.tick }
    panel := s.panel.tick }

/-! ## What is due
An expiry that comes by itself acts only where its timer has run down (notes/assumptions/30.md). -/

def issueWhen (due : Bool) (i : Instr) : List Instr := if due then [i] else []

def Clearing.intervalDue : Clearing → Bool
  | .sender _ .interval t => t.due
  | _ => false

def Clearing.waitDue : Clearing → Bool
  | .receiver _ _ t => t.due
  | _ => false

/-- A TRIP entry of the zone whose hold has run down (R155). -/
def Entry.holdDue (z : ZoneId) (e : Entry) : Bool :=
  match e.body with
  | .trip z' _ _ _ hold => z' = z && hold.due
  | _ => false

def Receiver.due : Receiver → Bool
  | .framing _ 0 => true
  | _ => false

/-- The expiries of one lane. -/
def Block.laneDue (s : Block) (l : LaneId) : List Instr :=
  let x := s.lane l
  issueWhen x.lift.due (.liftTimerExpiry l) ++ issueWhen x.noFlow.due (.noFlowExpiry l)
    ++ issueWhen x.duration.due (.durationExpiry l) ++ issueWhen x.settle.due (.settleExpiry l)
    ++ issueWhen x.windowTimer.due (.rateWindowEnd l) ++ issueWhen x.creepTimer.due (.creepTimerExpiry l)
    ++ issueWhen x.watch.due (.sampleWatchExpiry l)

/-- The expiries of the spill unit. -/
def Block.spillDue (s : Block) : List Instr :=
  (allInputs.flatMap fun i => issueWhen (s.input i).timer.due (.confirmTimerExpiry i))
    ++ issueWhen s.spill.settle.due .zoneSettleExpiry
    ++ issueWhen (allZones.any fun z => (s.view z).clearing.any Clearing.intervalDue) .intervalTimerExpiry
    ++ (allZones.flatMap fun z => issueWhen ((s.view z).clearing.any Clearing.waitDue) (.waitTimerExpiry z))
    ++ issueWhen s.spill.listen.due .listenTimerExpiry

/-- The expiries of one tank: each when its time is reached, and not again while it stands there. -/
def tankDue (t : TankId) (before after : TankView) : List Instr :=
  issueWhen before.agesOut (.basisAgeExpiry t)
    ++ issueWhen (decide (before.stockAge < Config.stockIntervalMs) && decide (Config.stockIntervalMs ≤ after.stockAge))
      (.stockIntervalExpiry t)

/-- R136: the passages of one roster entry. -/
def entryDue (n : StationId) (e : RosterEntry) : List Instr :=
  issueWhen (e.state = .live && decide (Config.staleMs ≤ e.age)) (.rosterStale n)
    ++ issueWhen (e.state = .stale && decide (Config.lostMs ≤ e.age)) (.rosterLost n)

/-- The expiries that are due at `s`, one millisecond after `before`. -/
def Block.due (before s : Block) : List Instr :=
  allLanes.flatMap s.laneDue ++ s.spillDue ++ (allTanks.flatMap fun t => tankDue t (before.tank t) (s.tank t))
    ++ (allZones.flatMap fun z => issueWhen (s.link.queue.any (Entry.holdDue z)) (.tripHoldExpiry z))
    ++ issueWhen s.roster.builder.period.due .statusPeriodExpiry
    ++ issueWhen s.roster.builder.holdOff.due .holdOffExpiry
    ++ (allStations.flatMap fun n => entryDue n (s.entry n))
    ++ issueWhen s.panel.presence.due .presenceTimerExpiry
    ++ issueWhen s.panel.receiver.due .panelByteTimeout
    ++ issueWhen (decide (s.now ≠ 0 ∧ 1000 ≤ s.roster.clockMs)) .bayClockSecond

/-- One millisecond passes, and what has run down waits as commands. -/
def tick (s : State) : State := { block := s.block.tick, pending := Block.due s.block s.block.tick }

end Sys2Proof.Machine
end

