-- ==== Sys2Proof/Machine/Authorize.lean ====
section
/-! DEFINITION. AUTHORIZE and CANCEL (R4 to R11, R20): the ordered checks, the clamps, the final check and the
grant. -/

namespace Sys2Proof.Machine

/-- What an AUTHORIZE asks of its lane, once the port has found its items in range (R4). -/
structure Ask where
  lane : LaneId
  machine : Nat
  direction : Direction
  preset : Preset
  hours : Option Nat
  lubeOverride : Bool
  deriving DecidableEq, Repr

/-- R1: the tank of a lane's sessions of a direction. -/
def LaneCfg.tankOf (c : LaneCfg) : Direction → TankId
  | .draw => c.drawTank
  | .ret => c.returnTank

/-- R1: the product of a lane's sessions of a direction; that of the return tank for a RETURN session. -/
def Block.productOf (s : Block) (c : LaneCfg) : Direction → ProductId
  | .draw => c.drawProduct
  | .ret =>
    match s.tankCfg c.returnTank with
    | some t => t.product
    | none => 0

/-- R5: the machine has a record that carries the priority mark. -/
def Block.priorityMachine (s : Block) (machine : Nat) : Bool :=
  machine ≠ 0 &&
    match s.accounts.find machine with
    | some r => r.priority
    | none => false

/-- R82, R85: the class of a machine; class 0 without a record. -/
def Block.classOf (s : Block) (machine : Nat) : ClassId :=
  match s.accounts.find machine with
  | some r => if machine = 0 then 0 else r.cls
  | none => 0

/-- R8: the lane minimum. -/
def LaneCfg.minimum (c : LaneCfg) : Nat := c.stopLead + Config.laneMinimumMargin

/-- R5, check 1: the station is RUNNING and its own zone view has left STARTING. -/
def Block.notRunning (s : Block) : Bool :=
  !s.running ||
    match s.ownView with
    | some v => v.state = .starting
    | none => true

/-- R6: a session in view holds this machine. -/
def Block.machineBusy (s : Block) (machine : Nat) : Bool :=
  machine ≠ 0 && (s.heldByOwnLane machine || s.heldByPeer machine)

/-- R5, check 12. -/
def presetSmall (c : LaneCfg) : Preset → Bool
  | .toFull => false
  | .volume v => v < c.minimum

/-- R5: the twelve checks, in their order. `none`: every check passes. -/
def Block.refusalOf (s : Block) (c : LaneCfg) (a : Ask) : Option RefusalCode :=
  if s.notRunning then some .notRunning
  else if (s.lane a.lane).session = .off then some .laneOff
  else if (s.lane a.lane).session ≠ .idle then some .laneBusy
  else if c.allows a.direction = false then some .direction
  else if s.ownNormal = false then some .zone
  else if a.direction = .draw ∧ (s.tank c.drawTank).state = .dry then some .stockDry
  else if a.direction = .draw ∧ (s.tank c.drawTank).state = .reserve ∧ s.priorityMachine a.machine = false then
    some .stockReserve
  else if a.direction = .ret ∧ (s.tank c.returnTank).state = .high then some .tankFull
  else if s.machineBusy a.machine then some .machineBusy
  else if ¬ s.panel.fills.length + s.ownSessions < Config.fillRoom then some .recordsFull
  else if ¬ (s.isolated = true ∨ s.link.drawsWaiting + s.ownSessions < Config.drawRoom) then some .linkBacklog
  else if presetSmall c a.preset then some .presetSmall
  else none

/-! ## Clamps (R9, R10) -/

/-- R9: the stock limit of a draw tank's view. -/
def Block.stockLimit (s : Block) (t : TankId) (c : TankCfg) : Int :=
  match (s.tank t).state with
  | .normal => s.available t - c.reserveMark
  | .low => min (s.available t - c.reserveMark) c.lowRation
  | .reserve => min (c.lowRation : Int) (s.available t - c.suctionMark)
  | _ => c.lowRation

/-- R9: the lube clamp applies: a draw of a LUBE or COOLANT product for a machine, without the override. -/
def Block.lubeApplies (s : Block) (a : Ask) (p : ProductId) : Bool :=
  a.direction = .draw && a.machine ≠ 0 && !a.lubeOverride &&
    match s.productCfg p with
    | some c => c.cls = .lube || c.cls = .coolant
    | none => false

/-- R9: the lube limit. -/
def Block.lubeLimit (s : Block) (machine : Nat) (p : ProductId) : Int :=
  let total : Nat :=
    match s.accounts.find machine with
    | some r => r.sinceService[p]
    | none => 0
  (s.store.classCfg (s.classOf machine)).allowance - total

/-- A value with the reason of the last clamp that lowered it. -/
structure Clamped where
  value : Nat
  reason : ClampReason
  deriving DecidableEq, Repr

/-- R9: one clamp, a negative limit taken as 0. -/
def Clamped.clamp (v : Clamped) (limit : Int) (reason : ClampReason) : Clamped :=
  if limit.toNat < v.value then ⟨limit.toNat, reason⟩ else v

/-- What the clamps make of a request. -/
structure Terms where
  granted : Nat
  toFull : Bool
  reason : ClampReason
  deriving DecidableEq, Repr

/-- What the clamps and the final check give (R11): terms, or LUBE_LIMIT if the lube limit set the value, else
STOCK_RESERVE. -/
inductive Granting where
  | refused (code : RefusalCode)
  | terms (t : Terms)
  deriving DecidableEq, Repr

/-- R9, R11: a numeric request. -/
def Block.clampNumeric (s : Block) (c : LaneCfg) (a : Ask) (v : Nat) : Granting :=
  let v1 := (Clamped.mk v .none).clamp Config.presetMax .presetMax
  let v2 :=
    match a.direction, s.tankCfg c.drawTank with
    | .draw, some t => v1.clamp (s.stockLimit c.drawTank t) .stockLimit
    | _, _ => v1
  let v3 := if s.lubeApplies a c.drawProduct then v2.clamp (s.lubeLimit a.machine c.drawProduct) .lubeLimit else v2
  if v3.value < c.minimum then .refused (if v3.reason = .lubeLimit then .lubeLimit else .stockReserve)
  else .terms ⟨v3.value, false, v3.reason⟩

/-- R10, R11: a DRAW request with the TO_FULL mark, against the limits as they stand, negative ones too
(notes/assumptions/13.md). A class that is not loaded has K 0 and allowance 0, and its TO_FULL draw of a LUBE or COOLANT
product follows the same comparison: DEDUCED (notes/assumptions/50.md). -/
def Block.clampToFull (s : Block) (c : LaneCfg) (a : Ask) (t : TankCfg) : Granting :=
  let k := (s.store.classCfg (s.classOf a.machine)).toFull
  let stock := s.stockLimit c.drawTank t
  let lube := s.lubeLimit a.machine c.drawProduct
  let byLube : Bool := s.lubeApplies a c.drawProduct && lube < stock
  let limit := if byLube then lube else stock
  if (k : Int) ≤ limit then .terms ⟨k, true, .none⟩
  else if limit < c.minimum then .refused (if byLube then .lubeLimit else .stockReserve)
  else .terms ⟨limit.toNat, false, .toFullLimit⟩

/-- R9 to R11: the clamps and the final check. -/
def Block.clampAsk (s : Block) (c : LaneCfg) (a : Ask) : Granting :=
  match a.preset with
  | .volume v => s.clampNumeric c a v
  | .toFull =>
    match a.direction, s.tankCfg c.drawTank with
    | .draw, some t => s.clampToFull c a t
    | _, _ => .terms ⟨0, true, .none⟩

/-! ## The grant (R11) -/

/-- R4: an hour reading above 9,999,999 marks the session HOURS_INVALID. -/
def hoursInvalid (h : Option Nat) : Bool :=
  match h with
  | some v => Config.hoursMax < v
  | none => false

/-- R11: the session parameters of a grant. -/
def Block.paramsOf (s : Block) (c : LaneCfg) (a : Ask) (t : Terms) (d : Disposition) : SessionParams :=
  { direction := a.direction
    product := s.productOf c a.direction
    tank := c.tankOf a.direction
    machine := a.machine
    requested := a.preset
    granted := t.granted
    toFull := t.toFull
    clamp := t.reason
    basis := t.granted
    hours := if hoursInvalid a.hours then none else a.hours
    hoursInvalid := hoursInvalid a.hours
    disposition := d
    lubeOverride := a.lubeOverride }

/-- R11: the grant takes effect. -/
def Block.grant (s : Block) (c : LaneCfg) (a : Ask) (t : Terms) : Block × Response :=
  let made := s.accountGrant a.machine a.lane
  let p := s.paramsOf c a t made.2
  (made.1.modLane a.lane fun x => { x with session := .authorized, params := some p, lift := .run Config.liftMs },
    .granted t.granted t.toFull t.reason made.2)

/-- R5 to R11: the lane's answer to an AUTHORIZE. A lane with no LANE item is DISABLED, and so OFF (R2, R176). -/
def Block.authorize (s : Block) (a : Ask) : Block × Response :=
  match s.laneCfg a.lane with
  | none => (s, .refused (if s.notRunning then .notRunning else .laneOff))
  | some c =>
    match s.refusalOf c a with
    | some code => (s, .refused code)
    | none =>
      match s.clampAsk c a with
      | .refused code => (s, .refused code)
      | .terms t => s.grant c a t

/-- R20: CANCEL, by the lane's state. -/
def Block.cancel (s : Block) (l : LaneId) : Block × Response :=
  match (s.lane l).session with
  | .off => (s, .refused .laneOff)
  | .authorized => (s.endGrant l .cancel, .cancelled .authorized)
  | .lifted => (s.takeCause l .cancel, .cancelled .lifted)
  | .flowing => (s.takeCause l .cancel, .cancelled .flowing)
  | .slowing => (s.takeCause l .cancel, .cancelled .slowing)
  | .idle | .closing | .finished => (s, .refused .notInSession)

end Sys2Proof.Machine
end

