-- ==== Sys2Proof/Machine/Setup.lean ====
section
/-! DEFINITION. Start-up and the metrology lock (chapter 9): CONFIGURE, START, RESTART and the calibration switch. -/

namespace Sys2Proof.Machine

/-! ## CONFIGURE (R176, R188) -/

/-- R176: the numbers of a kind of item; none for an unknown kind. -/
def itemCount : Nat → Option Nat
  | 0 => some 1 | 1 => some 4 | 2 => some 8 | 3 => some 12 | 4 => some 16 | 5 => some 4 | 6 => some 4
  | _ => none

def within (lo hi v : Nat) : Bool := lo ≤ v && v ≤ hi

/-- R1: the ranges of a LANE item's fields, in layout order. -/
def laneRanges (f : List Nat) : List Bool :=
  [within 0 3 (f.getD 0 0), within 0 7 (f.getD 1 0), within 0 11 (f.getD 2 0), within 0 11 (f.getD 3 0)
  , within 1000 500000 (f.getD 4 0), within 10 1200 (f.getD 5 0), within 1 1200 (f.getD 6 0)
  , within 0 100000 (f.getD 7 0), within 0 20000 (f.getD 8 0), within 0 1 (f.getD 9 0)]

/-- R176: the ranges of a PRODUCT item. -/
def productRanges (f : List Nat) : List Bool := [within 0 3 (f.getD 0 0), within 0 1500 (f.getD 1 0)]

/-- R52: the ranges of a TANK item; each mark below the one before it. -/
def tankRanges (f : List Nat) : List Bool :=
  [within 0 7 (f.getD 0 0), within 0 2 (f.getD 1 0), within 0 3 (f.getD 2 0), within 0 7 (f.getD 3 0)
  , within 0 3 (f.getD 4 0), within 10000 200000000 (f.getD 5 0), f.getD 6 0 ≤ f.getD 5 0, f.getD 7 0 < f.getD 6 0
  , f.getD 8 0 < f.getD 7 0, f.getD 9 0 < f.getD 8 0, f.getD 10 0 < f.getD 9 0, within 0 600000 (f.getD 11 0)
  , within 0 10000 (f.getD 12 0), within 0 38400 (f.getD 13 0), within 10000 10000000 (f.getD 14 0)
  , within 0 10000000 (f.getD 15 0)]

/-- R83: the ranges of a CLASS item. -/
def classRanges (f : List Nat) : List Bool :=
  [within 100 1000 (f.getD 0 0), within 0 100 (f.getD 1 0), within 0 10000000 (f.getD 2 0), within 0 600000 (f.getD 3 0)]

/-- R112: the ranges of an INPUT item. The confirm time of an ESTOP is disregarded (notes/assumptions/14.md). -/
def inputRanges (f : List Nat) : List Bool :=
  [ within 0 1 (f.getD 0 0), within 0 1 (f.getD 1 0), within 0 3 (f.getD 2 0), within 0 3 (f.getD 3 0)
  , f.getD 3 0 = InputKind.estop.code || within 5 100 (f.getD 4 0) ]

/-- R176: the ranges of an item's fields, in layout order. -/
def itemRanges (kind : Nat) (f : List Nat) : List Bool :=
  match kind with
  | 0 => [within 0 3 (f.getD 0 0)]
  | 1 => laneRanges f
  | 2 => productRanges f
  | 3 => tankRanges f
  | 4 => classRanges f
  | 5 => inputRanges f
  | 6 => [within 0 11 (f.getD 0 0) || f.getD 0 0 = 255]
  | _ => []

/-- The place of the first `false`. -/
def firstFalse : List Bool → Option Nat
  | [] => none
  | true :: bs => (firstFalse bs).map (· + 1)
  | false :: _ => some 0

/-- A LANE item from its fields, once in range. -/
def laneItem (f : List Nat) : LaneCfg :=
  { mode := (LaneMode.ofCode (f.getD 0 0)).getD .disabled
    drawProduct := Fin.ofNat 8 (f.getD 1 0), drawTank := Fin.ofNat 12 (f.getD 2 0)
    returnTank := Fin.ofNat 12 (f.getD 3 0), meterFactor := f.getD 4 0, maxRate := f.getD 5 0, slowRate := f.getD 6 0
    slowVolume := f.getD 7 0, stopLead := f.getD 8 0, checkOn := f.getD 9 0 = 1 }

def productItem (f : List Nat) : ProductCfg :=
  { cls := (ProductClass.ofCode (f.getD 0 0)).getD .fuel, alpha := f.getD 1 0 }

def tankItem (f : List Nat) : TankCfg :=
  { product := Fin.ofNat 8 (f.getD 0 0), cls := (TankClass.ofCode (f.getD 1 0)).getD .fuelSupply
    zone := Fin.ofNat 4 (f.getD 2 0), gaugeStation := Fin.ofNat 8 (f.getD 3 0), gaugeInput := Fin.ofNat 4 (f.getD 4 0)
    capacity := f.getD 5 0, highHighMark := f.getD 6 0, highMark := f.getD 7 0, lowMark := f.getD 8 0
    reserveMark := f.getD 9 0, suctionMark := f.getD 10 0, lowRation := f.getD 11 0, supply := f.getD 12 0
    bayDemand := f.getD 13 0, deliveryThreshold := f.getD 14 0, tolerance := f.getD 15 0 }

def classItem (f : List Nat) : ClassCfg :=
  { bandHigh := f.getD 0 0, bandLow := f.getD 1 0, allowance := f.getD 2 0, toFull := f.getD 3 0 }

def inputItem (f : List Nat) : InputCfg :=
  { enabled := f.getD 0 0 = 1, activeHigh := f.getD 1 0 = 1, zone := Fin.ofNat 4 (f.getD 2 0)
    kind := (InputKind.ofCode (f.getD 3 0)).getD .sump, confirm := f.getD 4 0 }

def gaugeItem (f : List Nat) : Option TankId := if f.getD 0 0 = 255 then none else some (Fin.ofNat 12 (f.getD 0 0))

/-- R176: a taken item replaces any earlier load of its kind and number, whole. -/
def Store.load (st : Store) (kind number : Nat) (f : List Nat) : Store :=
  match kind with
  | 0 => { st with ownZone := some (Fin.ofNat 4 (f.getD 0 0)) }
  | 1 => { st with lanes := st.lanes.set (Fin.ofNat 4 number) (some (laneItem f)) }
  | 2 => { st with products := st.products.set (Fin.ofNat 8 number) (some (productItem f)) }
  | 3 => { st with tanks := st.tanks.set (Fin.ofNat 12 number) (some (tankItem f)) }
  | 4 => { st with classes := st.classes.set (Fin.ofNat 16 number) (some (classItem f)) }
  | 5 => { st with inputs := st.inputs.set (Fin.ofNat 4 number) (some (inputItem f)) }
  | 6 => { st with gauges := st.gauges.set (Fin.ofNat 4 number) (some (gaugeItem f)) }
  | _ => st

/-- R180: the locked fields of an item with the values held, in layout order. A LANE or PRODUCT item that is not
loaded holds the mode DISABLED and nothing else (notes/assumptions/19.md). -/
def Store.lockedFields (st : Store) (kind number : Nat) : List (Nat × Option Nat) :=
  match kind with
  | 1 =>
    match st.lanes[Fin.ofNat 4 number] with
    | some c =>
      [(0, some c.mode.code), (1, some c.drawProduct.val), (2, some c.drawTank.val), (3, some c.returnTank.val)
      , (4, some c.meterFactor), (9, some (boolNat c.checkOn))]
    | none => [(0, some 0), (1, none), (2, none), (3, none), (4, none), (9, none)]
  | 2 =>
    match st.products[Fin.ofNat 8 number] with
    | some c => [(1, some c.alpha)]
    | none => [(1, none)]
  | _ => []

/-- R180: the first locked field whose value differs from the value held; 255 for UNCHANGED. -/
def Store.firstLocked (st : Store) (kind number : Nat) (f : List Nat) : Nat :=
  match (st.lockedFields kind number).find? fun x => x.2 ≠ some (f.getD x.1 0) with
  | some x => x.1
  | none => 255

/-- R176: the item number is in range for its kind. -/
def numberInRange (kind number : Nat) : Bool :=
  match itemCount kind with
  | some n => number < n
  | none => false

/-- R176, condition 1: the store guards this item. -/
def Store.guards (st : Store) (r : ConfigureReq) : Bool :=
  st.running && st.lock = .locked && (r.kind = 1 || r.kind = 2) && numberInRange r.kind r.number

/-- R180, R189: the detail of LOCK_VIOLATION: the item kind, the item number and the field index in its three low
bytes. -/
def lockDetail (kind number field : Nat) : Nat := kind * 65536 + number * 256 + field

/-- R180: an item the lock refuses. -/
def Block.violate (s : Block) (r : ConfigureReq) : Block × Response :=
  let field := s.store.firstLocked r.kind r.number r.fields
  ((s.setStore { s.store with violations := holdAt Config.hold16 (s.store.violations + 1) }).raise .lockViolation
      (lockDetail r.kind r.number field),
    .locked r.kind r.number field)

/-- R176: CONFIGURE, by its five conditions in their order. -/
def Block.configure (s : Block) (r : ConfigureReq) : Block × Response :=
  if s.store.guards r then s.violate r
  else if s.running then (s, .refused .notUnconfigured)
  else if itemCount r.kind = none then (s, .badItem r.kind 255 255)
  else if numberInRange r.kind r.number = false then (s, .badItem r.kind r.number 255)
  else
    match firstFalse (itemRanges r.kind r.fields) with
    | some k => (s, .badItem r.kind r.number k)
    | none => (s.setStore (s.store.load r.kind r.number r.fields), .taken)

/-! ## START (R177, R178) -/

/-- A failing item, with the condition that names it (notes/assumptions/38.md). -/
structure Failing where
  kind : Nat
  number : Nat
  condition : StartCondition
  deriving DecidableEq, Repr

/-- The condition is named on the item when the test fails. -/
def failWhen (bad : Bool) (kind number : Nat) (c : StartCondition) : Option Failing :=
  if bad then some ⟨kind, number, c⟩ else none

/-- The first that fails. -/
def firstFailing : List (Option Failing) → Option Failing
  | [] => none
  | some f :: _ => some f
  | none :: fs => firstFailing fs

/-- R177, step 2. -/
def Store.slowRateFault (st : Store) (l : LaneId) : Option Failing :=
  match st.lanes[l] with
  | some c => failWhen (c.maxRate < c.slowRate) 1 l .slowRate
  | none => none

/-- R177, step 3. -/
def Store.drawFault (st : Store) (l : LaneId) : Option Failing :=
  match st.lanes[l] with
  | some c =>
    if c.allows .draw then
      match st.products[c.drawProduct], st.tanks[c.drawTank] with
      | some _, some t =>
        if t.product ≠ c.drawProduct then some ⟨1, l, .productMismatch⟩
        else failWhen (t.cls = .waste) 1 l .classMismatch
      | _, _ => some ⟨1, l, .notLoaded⟩
    else none
  | none => none

/-- R177, step 4. -/
def Store.returnFault (st : Store) (l : LaneId) : Option Failing :=
  match st.lanes[l] with
  | some c =>
    if c.allows .ret then
      match st.tanks[c.returnTank] with
      | some t => failWhen (t.cls ≠ .waste) 1 l .classMismatch
      | none => some ⟨1, l, .notLoaded⟩
    else none
  | none => none

/-- R52: the tank class that a product class calls for. -/
def tankClassOf : ProductClass → TankClass
  | .fuel => .fuelSupply
  | .lube => .lubeSupply
  | .coolant => .lubeSupply
  | .waste => .waste

/-- R52: the marks stand in their order. -/
def TankCfg.marksInOrder (c : TankCfg) : Bool :=
  c.suctionMark < c.reserveMark && c.reserveMark < c.lowMark && c.lowMark < c.highMark && c.highMark < c.highHighMark
    && c.highHighMark ≤ c.capacity

/-- R52: the supply capacity fits the class. -/
def TankCfg.supplyFits (c : TankCfg) : Bool := if c.cls = .waste then c.supply = 0 else 1 ≤ c.supply

/-- R52: the sum of the max rates of this station's lanes that may draw on the tank. -/
def Store.ownDrawRates (st : Store) (t : TankId) : Nat :=
  (allLanes.map fun l =>
    match st.lanes[l] with
    | some c => if c.allows .draw && c.drawTank = t then c.maxRate else 0
    | none => 0).sum

/-- R177, step 5: a lane names the tank, or a GAUGE item maps it. A lane names the tank of a direction that its mode
allows (DEDUCED, notes/assumptions/45.md). -/
def Store.usesTank (st : Store) (t : TankId) : Bool :=
  (allLanes.any fun l =>
    match st.lanes[l] with
    | some c => (c.allows .draw && c.drawTank = t) || (c.allows .ret && c.returnTank = t)
    | none => false)
  || allInputs.any fun i => st.gauges[i].join = some t

/-- R177, step 5. -/
def Store.tankFault (st : Store) (t : TankId) : Option Failing :=
  if st.usesTank t then
    match st.tanks[t] with
    | none => some ⟨3, t, .notLoaded⟩
    | some c =>
      match st.products[c.product] with
      | none => some ⟨3, t, .notLoaded⟩
      | some p =>
        if c.cls ≠ tankClassOf p.cls then some ⟨3, t, .classMismatch⟩
        else if c.marksInOrder = false then some ⟨3, t, .markOrder⟩
        else if c.supplyFits = false then some ⟨3, t, .supplyCapacity⟩
        else failWhen (c.bayDemand < st.ownDrawRates t) 3 t .demandSum
  else none

/-- R177, step 6. -/
def Store.gaugeFault (st : Store) (i : InputId) : Option Failing :=
  match st.gauges[i].join with
  | none => none
  | some t =>
    match st.tanks[t] with
    | none => some ⟨6, i, .gaugeMismatch⟩
    | some c =>
      if c.gaugeStation ≠ st.number ∨ c.gaugeInput ≠ i then some ⟨6, i, .gaugeMismatch⟩
      else failWhen (allInputs.any fun j => j ≠ i && st.gauges[j].join = some t) 6 i .gaugeDuplicate

/-- R177: the first item and condition that fail. Its table is followed over the wider sentence of R176 on products
that are not loaded (DEDUCED, notes/assumptions/46.md). -/
def Store.startFault (st : Store) : Option Failing :=
  firstFailing
    ([failWhen st.ownZone.isNone 0 0 .notLoaded] ++ allLanes.map st.slowRateFault ++ allLanes.map st.drawFault
      ++ allLanes.map st.returnFault ++ allTanks.map st.tankFault ++ allInputs.map st.gaugeFault)

/-- R178: a lane at START: IDLE unless its mode is DISABLED, its recorded nozzle position the switch's. -/
def Block.startLane (s : Block) (l : LaneId) (x : Lane) : Lane :=
  match s.laneCfg l with
  | some c =>
    if c.mode = .disabled then x
    else
      { x with
        session := .idle
        nozzleOut := s.pins.nozzleOut[l]
        check := { x.check with memory := .none }
        windowForward := 0
        windowReverse := 0
        windowTimer := .run Config.rateWindowMs
        watch := .run Config.sampleWatchMs }
  | none => x

/-- R178: the lock as START sets it. -/
def Store.lockAtStart (st : Store) : LockState := if st.calibrationOn then .opened else .locked

/-- R178: every block begins. -/
def Block.begin (s : Block) : Block :=
  let s1 := s.setStore { s.store with running := true, lock := s.store.lockAtStart }
  ((s1.mapLanes s1.startLane).startListen).beginTest

/-- R177, R178: START. -/
def Block.start (s : Block) : Block × Response :=
  if s.running then (s, .refused .notUnconfigured)
  else
    match s.store.startFault with
    | some f => (s, .inconsistent f.kind f.number f.condition)
    | none => (s.begin, .started s.begin.store.lock)

/-! ## RESTART (R181) and the calibration switch (R175, R179) -/

/-- R181: the work of a RESTART, in its order. -/
def Block.restartWork (s : Block) : Block :=
  s.restartLanes.restartTanks.startListen.restartRoster.restartLink.beginTest

/-- R181: RESTART. -/
def Block.restart (s : Block) : Block × Response :=
  if s.running then (s.restartWork, .restarted s.restartWork.store.lock) else (s, .refused .notRunning)

/-- R175: the calibration switch input is sensed at all times. -/
def Block.setCalibration (s : Block) (on : Bool) : Block := s.setStore { s.store with calibrationOn := on }

end Sys2Proof.Machine
end

