-- ==== Sys2Proof/Machine/Readout.lean ====
section
/-! DEFINITION. The readouts of the panel port as the bytes of their bodies (R31, R81, R105, R134, R148, R169, R186,
R187, R189). A byte to which the manual gives no value is open (notes/assumptions/22.md). -/

namespace Sys2Proof.Machine

/-! ## Codes (R182) -/

def SessionState.code : SessionState → Nat
  | .off => 0 | .idle => 1 | .authorized => 2 | .lifted => 3 | .flowing => 4 | .slowing => 5 | .closing => 6
  | .finished => 7

def CheckState.code : CheckState → Nat
  | .nosync => 0 | .forward => 1 | .reverse => 2

def TankState.code : TankState → Nat
  | .unknown => 0 | .normal => 1 | .low => 2 | .reserve => 3 | .dry => 4 | .high => 5

def Origin.code : Origin → Nat
  | .localGrant => 0 | .heard => 1 | .loaded => 2

def EntryState.code : EntryState → Nat
  | .absent => 0 | .live => 1 | .stale => 2 | .lost => 3

def LockState.code : LockState → Nat
  | .opened => 0 | .locked => 1

/-- Isolation cause; none is 0. -/
def IsolationCause.optCode : Option IsolationCause → Nat
  | none => 0
  | some c => c.detail

def InputState.code : InputState → Nat
  | .inactive => 0 | .confirming => 1 | .confirmed => 2

def Stage.code : Stage → Nat
  | .copy1 => 0 | .interval => 1 | .copy2 => 2

/-! ## Fields -/

/-- An open byte of this event's readout, by its place (notes/assumptions/22.md). -/
def Block.openAt (s : Block) (site : Nat) : Byte := Config.openByte s.openDraws site

/-- `n` open bytes. -/
def Block.openBytes (s : Block) (site n : Nat) : List Byte := (List.range n).map fun k => s.openAt (site + k)

/-- A number in `n` bytes; one too wide for its field is open. -/
def Block.beFit (s : Block) (site n v : Nat) : List Byte := if v < 256 ^ n then be n v else s.openBytes site n

/-- A signed number in `n` bytes; one too wide for its field is open. -/
def Block.beFitInt (s : Block) (site n : Nat) (v : Int) : List Byte :=
  if -((128 * 256 ^ (n - 1) : Nat) : Int) ≤ v ∧ v < (128 * 256 ^ (n - 1) : Nat) then beInt n v else s.openBytes site n

/-- A time in whole units. Which of the two whole numbers a part of a unit goes to is open
(notes/assumptions/23.md). -/
def Block.inUnits (s : Block) (site unit v : Nat) : Nat :=
  if v % unit = 0 then v / unit else v / unit + Config.openNat s.openDraws site % 2

/-- A running timer's time in units, in `n` bytes; the manual gives no value at rest. -/
def Block.beTimer (s : Block) (site unit n : Nat) : Timer → List Byte
  | .rest => s.openBytes site n
  | .run left => s.beFit site n (s.inUnits site unit left)

/-! ## LANE READ (R31, R189) -/

/-- R189: the session parameters, bytes 3 to 30 of the lane picture. -/
def SessionParams.bytes (p : SessionParams) : List Byte :=
  be 1 p.direction.code ++ be 1 p.product.val ++ be 1 p.tank.val ++ be 4 p.machine ++ be 4 p.requested.number
    ++ be 4 p.granted ++ beMark p.toFull ++ be 1 p.clamp.code ++ be 4 p.basis ++ beOpt 4 p.hours
    ++ be 1 p.disposition.code ++ beMark p.lubeOverride ++ beMark p.hoursInvalid

/-- R189: the last temperature sample. -/
def sampleBytes : Option Sample → List Byte
  | none => be 1 0 ++ be 2 0
  | some (.temp t) => be 1 1 ++ beInt 2 t
  | some .probeFault => be 1 2 ++ be 2 0

/-- R31, R189: the lane picture, 101 bytes. -/
def Block.laneReadout (s : Block) (l : LaneId) : List Byte :=
  let x := s.lane l
  be 1 x.session.code ++ be 1 (EndCause.optCode x.lapse) ++ beMark x.params.isSome
    ++ (match x.params with
        | some p => p.bytes
        | none => absentBytes 28)
    ++ (s.picture l).bytes
    ++ be 4 (x.lift.remaining Config.liftMs) ++ be 4 (x.noFlow.remaining Config.noFlowMs)
    ++ be 4 (x.duration.remaining Config.durationMs) ++ be 4 (x.settle.remaining Config.settleMs)
    ++ be 2 x.rate ++ be 2 x.cap ++ be 1 x.capDuty ++ be 1 x.duty
    ++ s.beFit 69 4 (grossCL x.data.gross) ++ s.beFit 73 4 (netCL x.data.net) ++ s.beFit 77 4 (microCL x.data.reverse)
    ++ be 4 x.data.pulses ++ be 4 x.data.unchecked ++ be 4 x.data.errors
    ++ be 1 x.check.state.code ++ s.beFit 94 4 (microCL x.creep) ++ sampleBytes x.sample

/-! ## TANK READ (R81, R187) -/

/-- R188: the fields of a TANK item. -/
def TankCfg.fields (c : TankCfg) : List Nat :=
  [c.product.val, c.cls.code, c.zone.val, c.gaugeStation.val, c.gaugeInput.val, c.capacity, c.highHighMark, c.highMark
  , c.lowMark, c.reserveMark, c.suctionMark, c.lowRation, c.supply, c.bayDemand, c.deliveryThreshold, c.tolerance]

/-- R188: the 45 bytes of a TANK item. -/
def TankCfg.bytes (c : TankCfg) : List Byte :=
  joinFields [1, 1, 1, 1, 1, 4, 4, 4, 4, 4, 4, 4, 2, 2, 4, 4] c.fields

/-- R182, R187: the last reading; a GAUGE_FAULT and none have no G, and the time of none is unset. -/
def Block.readingBytes (s : Block) : LastReading → List Byte
  | .none => s.openBytes 200 4 ++ be 4 0
  | .fault time => s.openBytes 200 4 ++ be 4 time
  | .good g _ _ time => be 4 g ++ be 4 time

/-- R187: the gauge byte at the gauge station. -/
def TankView.gaugeByte (v : TankView) : Nat :=
  1 + 2 * boolNat v.delivering + 4 * boolNat v.high + 8 * boolNat v.highHigh + 16 * boolNat v.pump + 32 * boolNat v.inlet
    + 64 * boolNat (match v.reading with
        | .fault _ => true
        | _ => false)
    + 128 * boolNat (match v.reading with
        | .none => true
        | _ => false)

/-- R187: the gauge byte and the four fields after it; 0 and all 0xFF at a station that does not gauge the tank. -/
def Block.gaugeBytes (s : Block) (t : TankId) : List Byte :=
  let v := s.tank t
  if s.gauges t then
    be 1 v.gaugeByte ++ s.readingBytes v.reading ++ s.beFit 208 4 v.pendingDelivery ++ beOpt 4 v.lastStock
  else be 1 0 ++ absentBytes 16

/-- R187: one own lane's cap and cap duty; 0xFFFF and 0 for a lane not drawing on the tank. -/
def Block.capBytes (s : Block) (t : TankId) (l : LaneId) : List Byte :=
  let x := s.lane l
  if x.drawsOn t then be 2 x.cap ++ be 1 x.capDuty else absentBytes 2 ++ be 1 0

/-- R54, R187: the basis; G absent and a time of 0 for none. -/
def basisBytes : Option Basis → List Byte
  | none => absentBytes 4 ++ be 4 0
  | some b => be 4 b.g ++ be 4 b.time

/-- R187: the items of a view that every tank has. The basis age of a view with no basis, whose time is at rest (R54), is
given as 0 (DESIGN CHOICE, notes/assumptions/56.md). -/
def Block.viewBytes (s : Block) (v : TankView) (unused : Bool) (commitment available : Int) : List Byte :=
  be 1 (v.state.code + 128 * boolNat unused) ++ s.beFitInt 212 4 v.book ++ basisBytes v.basis
    ++ be 2 (s.inUnits 216 1000 v.age)
    ++ s.beFit 218 4 commitment.toNat ++ s.beFitInt 222 4 available
    ++ be 4 v.drawTotal ++ be 4 v.returnTotal ++ s.beFit 226 4 v.delivered ++ be 4 v.variances
    ++ be 1 (boolNat v.heardHigh + 2 * boolNat v.heardHighHigh)

/-- R187: D, and the mark of D being the bay demand sum (notes/assumptions/35.md). -/
def Block.shareBytes (s : Block) (t : TankId) (c : TankCfg) : List Byte :=
  s.beFit 230 2 (s.demandSum t) ++ beMark (s.isolated && c.cls ≠ .waste)

/-- R81, R187: the tank readout; an unused tank with its reset values and the unused mark. -/
def Block.tankReadout (s : Block) (t : TankId) : List Byte :=
  match s.tankCfg t with
  | some c =>
    c.bytes ++ s.viewBytes (s.tank t) false (s.commitmentSum t) (s.available t) ++ s.gaugeBytes t
      ++ s.capBytes t 0 ++ s.capBytes t 1 ++ s.capBytes t 2 ++ s.capBytes t 3 ++ s.shareBytes t c
  | none =>
    s.openBytes 240 45 ++ s.viewBytes TankView.powerOn true 0 0 ++ be 1 0 ++ absentBytes 16
      ++ absentBytes 2 ++ be 1 0 ++ absentBytes 2 ++ be 1 0 ++ absentBytes 2 ++ be 1 0 ++ absentBytes 2 ++ be 1 0
      ++ be 2 0 ++ beMark false

/-! ## ACCOUNT READ (R105, R187) -/

/-- R105: the place of a record in the list, 1 for the most recent end. -/
def placeOf (machine : Nat) : List MachineRecord → Nat
  | [] => 0
  | r :: rs => if r.machine = machine then 1 else placeOf machine rs + 1

/-- R182, R187: the last fill; station 0xFF and times unset for none. -/
def Block.lastFillBytes (s : Block) : Option LastFill → List Byte
  | some f => be 4 f.start ++ be 4 f.stop ++ be 1 f.station.val ++ be 1 f.lane.val
  | none => be 4 0 ++ be 4 0 ++ absentBytes 1 ++ s.openBytes 31 1

def ClassCfg.bytes (c : ClassCfg) : List Byte := be 2 c.bandHigh ++ be 1 c.bandLow ++ be 4 c.allowance ++ be 4 c.toFull

def vectorBytes (v : Vector Nat 8) : List Byte :=
  be 4 v[0] ++ be 4 v[1] ++ be 4 v[2] ++ be 4 v[3] ++ be 4 v[4] ++ be 4 v[5] ++ be 4 v[6] ++ be 4 v[7]

/-- R187: the machine record, 97 bytes. Bit 7 of the run byte at the count 0 is a DESIGN CHOICE
(notes/assumptions/43.md). -/
def Block.recordReadout (s : Block) (r : MachineRecord) : List Byte :=
  be 4 r.machine ++ be 2 (placeOf r.machine s.accounts.records)
    ++ be 1 r.cls.val ++ be 1 r.origin.code ++ beMark r.priority ++ [r.flags]
    ++ beOpt 4 r.hours ++ beOpt 4 r.base ++ beOpt 4 r.created
    ++ s.lastFillBytes r.lastFill
    ++ beOpt 4 r.service ++ be 4 r.carry ++ beOpt 4 r.estimate
    ++ be 1 (r.runCount + 128 * boolNat r.runLow)
    ++ vectorBytes r.sinceService ++ be 4 r.drained ++ be 4 r.fuel
    ++ (match r.inFlight with
        | some l => be 1 l.val
        | none => absentBytes 1)
    ++ (s.store.classCfg r.cls).bytes

def ProductTotals.bytes (u : ProductTotals) : List Byte := vectorBytes u.draws ++ vectorBytes u.returns ++ be 4 u.count

/-- R105, R187: the table summary, 140 bytes. -/
def Accounts.summary (a : Accounts) : List Byte :=
  be 2 a.records.length ++ be 2 a.evictions ++ a.unassigned.bytes ++ a.bulk.bytes

/-! ## ZONE READ (R134, R187) -/

/-- R187: the clearing context: role, sender, release epoch, stage, time remaining. The layout gives no value to the
stage of a RECEIVER context, nor to the fields of an absent one: open bytes (DESIGN CHOICE, notes/assumptions/22.md). -/
def Block.contextBytes (s : Block) (site : Nat) : Option Clearing → List Byte
  | none => be 1 0 ++ s.openBytes site 6
  | some (.sender e stage interval) =>
    be 1 1 ++ be 1 s.number.val ++ be 2 e ++ be 1 stage.code ++ s.beTimer (site + 4) 10 2 interval
  | some (.receiver n e wait) =>
    be 1 2 ++ be 1 n.val ++ be 2 e ++ s.openBytes (site + 3) 1 ++ s.beTimer (site + 4) 10 2 wait

/-- R187: one zone, 13 bytes. -/
def Block.zoneBytes (s : Block) (z : ZoneId) : List Byte :=
  let v := s.view z
  be 1 v.state.code ++ be 2 v.epoch ++ be 1 v.cause.code
    ++ (match v.origin with
        | some n => be 1 n.val
        | none => absentBytes 1)
    ++ be 1 (v.held.getD .none).code ++ s.contextBytes (13 * z.val + 7) v.clearing

/-- R115, R187: the quiet byte: bit 7 quiet, bits 0 to 2 the conditions that fail, the first at bit 0. -/
def Block.quietByte (s : Block) (z : ZoneId) : Nat :=
  boolNat (!s.inputsQuiet z) + 2 * boolNat (!s.lanesQuiet z) + 4 * boolNat (s.highHighIn z) + 128 * boolNat (s.quiet z)

/-- R134, R187: one spill input, 5 bytes. One that is not loaded is disabled and has no zone, kind or active level. Bit 0
of a loaded but disabled input is its line's present level, as R134 has it, though R112 says that such an input is never
active for any rule of its chapter (DEDUCED, notes/assumptions/55.md). -/
def Block.inputBytes (s : Block) (i : InputId) : List Byte :=
  let x := s.input i
  let site := 56 + 5 * i.val
  match s.inputCfg i with
  | some c =>
    beMark c.enabled ++ be 1 c.zone.val ++ be 1 c.kind.code
      ++ be 1 (boolNat (s.inputLineActive i c) + 2 * x.state.code)
      ++ be 1 (s.inUnits (site + 4) 100 (x.timer.remaining c.confirmMs))
  | none =>
    beMark false ++ s.openBytes (site + 1) 2 ++ be 1 (Config.openNat s.openDraws (site + 3) % 2 + 2 * x.state.code)
      ++ s.openBytes (site + 4) 1

/-- The sensed level of the zone line: this station's drive or another's (R120). -/
def Block.lineSensed (s : Block) : Bool := s.spill.drive || s.pins.zoneLine

/-- R134, R187: the spill unit's picture, 83 bytes. -/
def Block.zoneReadout (s : Block) : List Byte :=
  s.zoneBytes 0 ++ s.zoneBytes 1 ++ s.zoneBytes 2 ++ s.zoneBytes 3
    ++ be 1 (s.quietByte 0) ++ be 1 (s.quietByte 1) ++ be 1 (s.quietByte 2) ++ be 1 (s.quietByte 3)
    ++ s.inputBytes 0 ++ s.inputBytes 1 ++ s.inputBytes 2 ++ s.inputBytes 3
    ++ (match s.store.ownZone with
        | some z => be 1 z.val
        | none => s.openBytes 76 1)
    ++ beMark s.spill.drive ++ beMark s.lineSensed
    ++ s.beTimer 79 10 2 s.spill.settle ++ s.beTimer 81 10 2 s.spill.listen

/-! ## ROSTER READ (R148, R189) -/

/-- R189: the known mask as a number: the bit numbered 2 × tank + direction code. -/
def RosterEntry.knownMask (e : RosterEntry) : Nat :=
  (allTanks.map fun t =>
    2 ^ (2 * t.val) * boolNat e.totals[t].draw.isSome + 2 ^ (2 * t.val + 1) * boolNat e.totals[t].ret.isSome).sum

/-- R189: the age, s; 0 in ABSENT. -/
def Block.ageSeconds (s : Block) (n : StationId) : Nat :=
  if (s.entry n).state = .absent then 0 else s.inUnits (300 + n.val) 1000 (s.entry n).age

/-- R189: a roster entry, 196 bytes. -/
def Block.entryBytes (s : Block) (n : StationId) : List Byte :=
  let e := s.entry n
  be 1 e.state.code ++ s.beFit (310 + 2 * n.val) 2 (s.ageSeconds n) ++ beMark (n = s.number) ++ beMark e.last.isSome
    ++ (match e.last with
        | some c => c.bytes
        | none => absentBytes 85)
    ++ beOpt 4 e.seq ++ be 2 e.missed ++ beMark e.disagree ++ be 3 e.knownMask
    ++ allTanks.flatMap fun t => be 4 (e.totals[t].draw.getD 0) ++ be 4 (e.totals[t].ret.getD 0)

/-- R148, R189: the roster and the bay clock, 1,572 bytes. -/
def Block.rosterReadout (s : Block) : List Byte := allStations.flatMap s.entryBytes ++ be 4 s.now

/-! ## STATION READ (R169, R189) -/

/-- R153: the entries of a class that wait in the transmit queue. -/
def Link.waiting (k : Link) (cls : Nat) : Nat := (k.queue.filter fun e => e.body.linkClass = cls).length

/-- A DRAW is in the transmitter. -/
def Link.drawInTransmitter (k : Link) : Bool :=
  match k.entryInSending with
  | some e => e.body.isDraw
  | none => false

/-- R189: an attention detail; none is 0xFFFFFFFF. -/
def detailBytes : Option Nat → List Byte
  | some d => be 4 d
  | none => absentBytes 4

def CauseCell.bytes (c : CauseCell) : List Byte := beMark c.pending ++ detailBytes c.detail ++ be 1 c.count

/-- R172, R189: FILL_READY: its mark follows the queue, its detail is the records waiting, none while
there are none (notes/assumptions/39.md), its raise count 0. -/
def fillReadyCell (fills : List FillRecord) : CauseCell :=
  { pending := !fills.isEmpty, detail := if fills.isEmpty then none else some fills.length, count := 0 }

/-- R169, R189: the station picture, 92 bytes. -/
def Block.stationReadout (s : Block) : List Byte :=
  be 1 s.number.val
    ++ (match s.store.ownZone with
        | some z => be 1 z.val
        | none => absentBytes 1)
    ++ be 1 (boolNat s.running) ++ be 1 s.store.lock.code ++ beMark s.store.calibrationOn ++ be 2 s.store.violations
    ++ be 1 (IsolationCause.optCode s.link.isolated) ++ be 2 s.link.errors ++ be 1 s.link.conflicts
    ++ be 1 (s.link.waiting 2) ++ be 1 (s.link.waiting 3) ++ be 1 (s.link.waiting 0) ++ be 1 (s.link.waiting 1)
    ++ beMark s.link.drawInTransmitter ++ be 4 s.roster.drawSeq
    ++ be 1 s.panel.fills.length ++ be 1 s.ownSessions ++ be 4 s.now
    ++ ([(0 : Fin 10), 1, 2, 3, 4, 5, 6, 7, 8, 9].flatMap fun i => s.panel.causes[i].bytes)
    ++ (fillReadyCell s.panel.fills).bytes

end Sys2Proof.Machine
end

