-- ==== Sys2Proof/Machine/Requests.lean ====
section
/-! DEFINITION. The requests of the panel port (chapter 8): panel presence (R166), the range check (R168), the fill
record queue (R171), attention (R173), the account requests (R105 to R109), and the bytes of the responses (R185,
R186, R189). -/

namespace Sys2Proof.Machine

/-! ## Presence and the range check -/

/-- R166: a well-formed request makes the panel PRESENT and starts the presence timer again. -/
def Block.touchPanel (s : Block) : Block :=
  s.setPanel { s.panel with present := true, presence := .run Config.presenceMs }

/-- R168: a lane above 3. -/
def badLane (lane : Nat) : Bool := 3 < lane

/-- R168: a mark byte that is neither 0 nor 1. -/
def badMark (v : Nat) : Bool := 1 < v

/-- R4, R168: an AUTHORIZE out of range. -/
def badAuthorize (r : AuthorizeReq) : Bool :=
  badLane r.lane || 1 < r.direction || r.preset = .volume 0 || badMark r.lubeOverride

/-- A given item above its greatest value. -/
def givenAbove (hi : Nat) : Option Nat → Bool
  | some v => hi < v
  | none => false

/-- A given item that is present and above its greatest value. -/
def presentAbove (hi : Nat) : Option (Option Nat) → Bool
  | some (some v) => hi < v
  | _ => false

/-- R106, R168: an ACCOUNT SET out of range. -/
def badAccountSet (r : AccountSetReq) : Bool :=
  r.machine = 0 || givenAbove 15 r.cls || givenAbove 1 r.priority || givenAbove Config.hoursMax r.hours
    || presentAbove 99999 r.service || presentAbove 1000000 r.estimate

/-- R108, R168: a SERVICE DONE out of range. -/
def badServiceDone (machine : Nat) (service : Option Nat) : Bool := machine = 0 || givenAbove 99999 service

/-! ## Lanes and accounts -/

/-- The request's items as the lane sees them. -/
def askOf (r : AuthorizeReq) : Ask :=
  { lane := Fin.ofNat 4 r.lane, machine := r.machine, direction := if r.direction = 0 then .draw else .ret
    preset := r.preset, hours := r.hours, lubeOverride := r.lubeOverride = 1 }

/-- R51: METER HEALTH answers with both counts and sets them to 0. -/
def Block.meterHealth (s : Block) (l : LaneId) : Block × Response :=
  let x := s.lane l
  (s.setLane l { x with healthErrors := 0, healthUnchecked := 0 }, .health x.healthErrors x.healthUnchecked x.check.state)

/-- R171: TAKE FILL. -/
def Block.takeFill (s : Block) (again : Bool) : Block × Response :=
  if again then
    match s.panel.lastTaken with
    | some r => (s, .fill r)
    | none => (s, .refused .empty)
  else
    match s.panel.fills with
    | r :: rs => (s.setPanel { s.panel with fills := rs, lastTaken := some r }, .fill r)
    | [] => (s, .refused .empty)

/-- R105: ACCOUNT READ. -/
def Block.readAccount (s : Block) (machine : Nat) : Response :=
  if machine = 0 then .readout 0x87 s.accounts.summary
  else
    match s.accounts.find machine with
    | some r => .readout 0x87 (s.recordReadout r)
    | none => .refused .noRecord

/-- R106, R108: hours to service become a value; 0 sets SERVICE_DUE if it is clear. -/
def MachineRecord.setService (v : Option Nat) (r : MachineRecord) : MachineRecord :=
  let r1 := { r with service := v }
  if v = some 0 then r1.set .serviceDue else r1

/-- R106: the given items of an ACCOUNT SET take effect on a record. -/
def applySet (q : AccountSetReq) (r : MachineRecord) : MachineRecord :=
  let r1 := match q.cls with
    | some v => { r with cls := Fin.ofNat 16 v }
    | none => r
  let r2 := match q.priority with
    | some v => { r1 with priority := v = 1 }
    | none => r1
  let r3 := match q.hours with
    | some v => { r2.setHours v with carry := 0 }
    | none => r2
  let r4 := match q.service with
    | some v => r3.setService v
    | none => r3
  match q.estimate with
  | some v => { r4 with estimate := v, runCount := 0 }
  | none => r4

/-- R106, R107: ACCOUNT SET. -/
def Block.setAccount (s : Block) (q : AccountSetReq) : Block × Response :=
  if s.running then
    match s.accounts.findOrCreate q.machine 0 .loaded with
    | none => (s, .refused .tableFull)
    | some (a, r) =>
      let r1 := applySet q r
      let s1 := (s.setAccounts (a.update r1)).raiseFlags r.machine r.flags r1.flags
      (s1, .readout 0x88 (s1.recordReadout r1))
  else (s, .refused .notRunning)

/-- R108: SERVICE DONE on a record. SERVICE_DUE and LUBE_HIGH are cleared before the new value is looked at. -/
def serviceRecord (service : Option Nat) (r : MachineRecord) : MachineRecord :=
  ({ r with sinceService := Vector.replicate 8 0, drained := 0 }.clear (flagMask .serviceDue ||| flagMask .lubeHigh)).setService
    service

/-- R108: SERVICE DONE. When it sets SERVICE_DUE again it raises ACCOUNT_FLAG, though the flag was set before. -/
def Block.serviceDone (s : Block) (machine : Nat) (service : Option Nat) : Block × Response :=
  match s.accounts.find machine with
  | none => (s, .refused .noRecord)
  | some r =>
    let r1 := serviceRecord service r
    let s1 := s.setAccounts (s.accounts.update r1)
    let s2 := if service = some 0 then s1.raise .accountFlag machine else s1
    (s2, .readout 0x89 (s2.recordReadout r1))

/-- R109: CLEAR FLAGS. -/
def Block.clearFlags (s : Block) (machine : Nat) (named : Byte) : Block × Response :=
  match s.accounts.find machine with
  | none => (s, .refused .noRecord)
  | some r => (s.setAccounts (s.accounts.update (r.clear named)), .flags (r.clear named).flags)

/-! ## Station -/

/-- R148: ROSTER READ; with the clear mark the missed postings go to 0 after they are reported. -/
def Block.readRoster (s : Block) (clear : Bool) : Block × Response :=
  let body := s.rosterReadout
  let s1 :=
    if clear then
      s.setRoster { s.roster with entries := Vector.ofFn fun n => { s.entry n with missed := 0 } }
    else s
  (s1, .readout 0x8C body)

/-- R159, R169: STATION READ; the link error count goes to 0 after it is reported. -/
def Block.readStation (s : Block) : Block × Response :=
  (s.setLink { s.link with errors := 0 }, .readout 0x8D s.stationReadout)

/-- R144: TIME SET. -/
def Block.setTime (s : Block) (t : Nat) : Block × Response :=
  let s1 := s.setRoster { s.roster with entries := Vector.ofFn fun n => { s.entry n with disagree := false } }
  (s1.setClock t, .clock s.now t)

/-! ## READ ATTENTION (R173) -/

/-- R173: the pending cause of highest priority among the ten that blocks raise. -/
def Panel.firstCause (p : Panel) : Option (Fin 10) :=
  [(0 : Fin 10), 1, 2, 3, 4, 5, 6, 7, 8, 9].find? fun i => p.causes[i].pending

/-- R189: the pending set, one bit for each cause. -/
def Panel.pendingSet (p : Panel) : Nat :=
  ([(0 : Fin 10), 1, 2, 3, 4, 5, 6, 7, 8, 9].map fun i => 2 ^ i.val * boolNat p.causes[i].pending).sum
    + 1024 * boolNat (!p.fills.isEmpty)

/-- R173: READ ATTENTION. FILL_READY is reported and left pending. -/
def Block.readAttention (s : Block) : Block × Response :=
  match s.panel.firstCause with
  | some i =>
    let cell := s.panel.causes[i]
    let s1 := s.setPanel { s.panel with causes := s.panel.causes.set i CauseCell.clear }
    (s1, .attention (i.val + 1) cell.detail cell.count s1.panel.pendingSet)
  | none =>
    if s.panel.fills.isEmpty then (s, .attention 0 none 0 0)
    else (s, .attention 11 (some s.panel.fills.length) 0 s.panel.pendingSet)

/-! ## A request taken (R164 to R168) -/

/-- Check 4 of R164: a request out of range is answered BAD_REQUEST and does nothing more. -/
def unlessBad (bad : Bool) (s : Block) (act : Block × Response) : Block × Response :=
  if bad then (s, .badRequest) else act

/-- The port's work on each request once the presence has been updated: the range check of R168, then the block that
owns the request. -/
def Block.doAuthorize (s : Block) (r : AuthorizeReq) : Block × Response := unlessBad (badAuthorize r) s (s.authorize (askOf r))
def Block.doCancel (s : Block) (lane : Nat) : Block × Response := unlessBad (badLane lane) s (s.cancel (Fin.ofNat 4 lane))
def Block.doLaneRead (s : Block) (lane : Nat) : Block × Response :=
  unlessBad (badLane lane) s (s, .readout 0x83 (s.laneReadout (Fin.ofNat 4 lane)))
def Block.doTakeFill (s : Block) (again : Nat) : Block × Response := unlessBad (badMark again) s (s.takeFill (again = 1))
def Block.doMeterHealth (s : Block) (lane : Nat) : Block × Response := unlessBad (badLane lane) s (s.meterHealth (Fin.ofNat 4 lane))
def Block.doTankRead (s : Block) (tank : Nat) : Block × Response :=
  unlessBad (11 < tank) s (s, .readout 0x86 (s.tankReadout (Fin.ofNat 12 tank)))
def Block.doAccountRead (s : Block) (machine : Nat) : Block × Response := (s, s.readAccount machine)
def Block.doAccountSet (s : Block) (r : AccountSetReq) : Block × Response := unlessBad (badAccountSet r) s (s.setAccount r)
def Block.doServiceDone (s : Block) (machine : Nat) (service : Option Nat) : Block × Response :=
  unlessBad (badServiceDone machine service) s (s.serviceDone machine service)
def Block.doClearFlags (s : Block) (machine : Nat) (flags : Byte) : Block × Response :=
  unlessBad (machine = 0) s (s.clearFlags machine flags)
def Block.doZoneRead (s : Block) : Block × Response := (s, .readout 0x8B s.zoneReadout)
def Block.doRosterRead (s : Block) (clear : Nat) : Block × Response := unlessBad (badMark clear) s (s.readRoster (clear = 1))
def Block.doStationRead (s : Block) : Block × Response := s.readStation
def Block.doTimeSet (s : Block) (time : Nat) : Block × Response := unlessBad (time = 0) s (s.setTime time)
def Block.doReadAttention (s : Block) : Block × Response := s.readAttention
def Block.doConfigure (s : Block) (r : ConfigureReq) : Block × Response := s.configure r
def Block.doStart (s : Block) : Block × Response := s.start
def Block.doRestart (s : Block) : Block × Response := s.restart

/-- R167: a request, once the presence has been updated. -/
def Block.doRequest (s : Block) : Request → Block × Response
  | .authorize r => s.doAuthorize r
  | .cancel lane => s.doCancel lane
  | .laneRead lane => s.doLaneRead lane
  | .takeFill again => s.doTakeFill again
  | .meterHealth lane => s.doMeterHealth lane
  | .tankRead tank => s.doTankRead tank
  | .accountRead machine => s.doAccountRead machine
  | .accountSet r => s.doAccountSet r
  | .serviceDone machine service => s.doServiceDone machine service
  | .clearFlags machine flags => s.doClearFlags machine flags
  | .zoneRead => s.doZoneRead
  | .rosterRead clear => s.doRosterRead clear
  | .stationRead => s.doStationRead
  | .timeSet time => s.doTimeSet time
  | .readAttention => s.doReadAttention
  | .configure r => s.doConfigure r
  | .start => s.doStart
  | .restart => s.doRestart

/-- The response to a request is formed (notes/assumptions/2.md). -/
def Block.answer (x : Block × Response) : Block := x.1.setPanel { x.1.panel with response := some x.2 }

/-- A request that the port takes: presence, the range check and the owner's work, and its response. -/
def Block.request (s : Block) (work : Block → Block × Response) : Block := Block.answer (work s.touchPanel)

/-- R185: a CONFIGURE of a known kind whose fields are not that kind's has not its code's length. -/
def configureBadLength (r : ConfigureReq) : Bool :=
  match itemWidths r.kind with
  | some ws => ws.length ≠ r.fields.length
  | none => false

/-! ## The bytes of the responses (R185, R186, R189) -/

/-- R185: the outcome byte of a refusal without detail. -/
def RefusalCode.outcome : RefusalCode → Nat
  | .notRunning => 1 | .laneOff => 2 | .laneBusy => 3 | .direction => 4 | .zone => 5 | .stockDry => 6
  | .stockReserve => 7 | .tankFull => 8 | .machineBusy => 9 | .recordsFull => 10 | .linkBacklog => 11
  | .presetSmall => 12 | .lubeLimit => 13 | .notInSession => 14 | .empty => 15 | .noRecord => 16 | .tableFull => 17
  | .notUnconfigured => 18

/-- R185: the code of a START condition. -/
def StartCondition.code : StartCondition → Nat
  | .notLoaded => 1 | .slowRate => 2 | .productMismatch => 3 | .classMismatch => 4 | .markOrder => 5
  | .supplyCapacity => 6 | .demandSum => 7 | .gaugeMismatch => 8 | .gaugeDuplicate => 9

/-- A number in `n` bytes; one too wide for its field is open (notes/assumptions/22.md). -/
def beWide (n v : Nat) : List Byte := if v < 256 ^ n then be n v else (List.range n).map (Config.openByte v)

/-- R186: the fill record, 65 bytes. -/
def FillRecord.bytes (r : FillRecord) : List Byte :=
  be 4 r.seq ++ be 1 r.lane.val ++ be 1 r.direction.code ++ be 1 r.product.val ++ be 1 r.tank.val ++ be 4 r.machine
    ++ be 4 r.requested.number ++ be 4 r.granted ++ be 1 r.clamp.code ++ beWide 4 r.net ++ beWide 4 r.gross ++ beWide 4 r.reverse
    ++ be 4 r.start ++ be 4 r.stop ++ beOpt 4 r.hours ++ be 1 (EndCause.optCode r.cause)
    ++ be 1 (EndCause.optCode r.secondary) ++ beInt 2 r.minTemp ++ beInt 2 r.maxTemp
    ++ be 4 r.pulses ++ be 4 r.unchecked ++ be 4 r.errors ++ be 1 r.flags.number ++ be 1 r.disposition.code

/-- R185: the code a response travels under. -/
def Response.code : Response → Nat
  | .busy => 0xF1 | .frameError => 0xF2 | .badRequest => 0xF3
  | .refused _ => 0xF0 | .locked _ _ _ => 0xF0 | .badItem _ _ _ => 0xF0 | .inconsistent _ _ _ => 0xF0
  | .granted _ _ _ _ => 0x81 | .cancelled _ => 0x82 | .fill _ => 0x84 | .health _ _ _ => 0x85 | .flags _ => 0x8A
  | .clock _ _ => 0x8E | .attention _ _ _ _ => 0x8F | .taken => 0x90 | .started _ => 0x91 | .restarted _ => 0x92
  | .readout code _ => code

/-- R185, R189: the body of a response. -/
def Response.body : Response → List Byte
  | .busy => [] | .frameError => [] | .badRequest => []
  | .refused code => be 1 code.outcome
  | .locked kind number field => be 1 19 ++ be 1 kind ++ be 1 number ++ be 1 field
  | .badItem kind number field => be 1 20 ++ be 1 kind ++ be 1 number ++ be 1 field
  | .inconsistent kind number c => be 1 21 ++ be 1 kind ++ be 1 number ++ be 1 c.code
  | .granted preset toFull clamp d => be 4 preset ++ beMark toFull ++ be 1 clamp.code ++ be 1 d.code
  | .cancelled found => be 1 found.code
  | .fill r => r.bytes
  | .health errors unchecked check => be 4 errors ++ be 4 unchecked ++ be 1 check.code
  | .flags f => [f]
  | .clock old new => be 4 old ++ be 4 new
  | .attention cause detail count still => be 1 cause ++ detailBytes detail ++ be 1 count ++ be 2 still
  | .taken => []
  | .started lock => be 1 lock.code
  | .restarted lock => be 1 lock.code
  | .readout _ body => body

/-- The bytes of a response on the panel line. -/
def Response.frame (r : Response) : List Byte := panelFrame r.code r.body

end Sys2Proof.Machine
end

