-- ==== Sys2Proof/Machine/Panel.lean ====
section
/-! DEFINITION. The panel line (R164 to R166): framing, the checks of a frame that has ended, the transmitter with
its owed list, and the loss of the panel. -/

namespace Sys2Proof.Machine

/-- The transmitter starts a response (R165). -/
def Block.startSending (s : Block) (r : Response) : Block := s.setPanel { s.panel with sending := some r }

/-- A short answer joins the end of the owed list (R165). -/
def Block.owe (s : Block) (r : Response) : Block := s.setPanel { s.panel with owed := s.panel.owed ++ [r] }

/-- R165: a response starts sending, or joins the owed list while the transmitter is SENDING. -/
def Block.shortAnswer (s : Block) (r : Response) : Block :=
  if s.panel.sending = none then s.startSending r else s.owe r

/-- R164, R167: a request is taken and its response starts sending. -/
def Block.takeRequest (s : Block) (r : Request) : Block :=
  let x := s.touchPanel.doRequest r
  (Block.answer x).startSending x.2

/-- R164: a frame that ended while the transmitter is IDLE and that passed check 1. -/
def Block.handleFrame (s : Block) (bytes : List Byte) : Block :=
  match parsePanel bytes with
  | .unknownCode => s.startSending .badRequest
  | .badLength => s.startSending .frameError
  | .request r => s.takeRequest r

/-- R165: a frame that ended while the transmitter is SENDING and that passed check 1. -/
def Block.refuseFrame (s : Block) (bytes : List Byte) : Block :=
  match parsePanel bytes with
  | .request _ => s.touchPanel.owe .busy
  | _ => s.owe .busy

def Block.setReceiver (s : Block) (r : Receiver) : Block := s.setPanel { s.panel with receiver := r }

/-- R164: a frame ends as a bad frame. -/
def Block.endBadFrame (s : Block) : Block := (s.setReceiver .waiting).shortAnswer .frameError

/-- R164, R165: a frame ends with its last byte, and is checked in that event. -/
def Block.endFrame (s : Block) (bytes : List Byte) : Block :=
  if panelCrcAgrees bytes then
    if s.panel.sending = none then (s.setReceiver .waiting).handleFrame bytes
    else (s.setReceiver .waiting).refuseFrame bytes
  else s.endBadFrame

/-- The bytes after a start mark are all that their length calls for. -/
def frameComplete (bytes : List Byte) : Bool :=
  match panelFrameLength bytes with
  | some n => n ≤ bytes.length
  | none => false

/-- R164: a byte arrives on the panel line. -/
def Block.takeByte (s : Block) (b : Byte) : Block :=
  match s.panel.receiver with
  | .waiting => if b = startMark then s.setReceiver (.framing [] Config.panelByteMs) else s
  | .framing bytes _ =>
    if frameComplete (bytes ++ [b]) then s.endFrame (bytes ++ [b])
    else s.setReceiver (.framing (bytes ++ [b]) Config.panelByteMs)

/-- R164: no byte for 10 ms in FRAMING. -/
def Block.byteTimeout (s : Block) : Block :=
  match s.panel.receiver with
  | .framing _ _ => s.endBadFrame
  | .waiting => s

/-- R165: the last byte of a frame has been sent; the first owed answer starts. -/
def Block.panelSent (s : Block) : Block :=
  if s.panel.sending = none then s
  else s.setPanel { s.panel with sending := s.panel.owed.head?, owed := s.panel.owed.drop 1 }

/-- R24, R166: the presence timer expires. -/
def Block.losePanel (s : Block) : Block :=
  if s.panel.presence.running then
    (s.setPanel { s.panel with present := false, presence := .rest }).lanesPanelLost
  else s

end Sys2Proof.Machine
end

