-- ==== Sys2Proof/Machine/Event.lean ====
section
/-! DEFINITION. What every command is: one event of the part, taken to its end (spec/00_scope.md section 4). -/

namespace Sys2Proof.Machine

/-- A command's own work on the part, and then the end of the event. The queue of commands stands. -/
def event (s : State) (work : Block → Block) : Host.Outcome State Fault Refusal :=
  .next { s with block := Block.finish s.block (work s.block) }

end Sys2Proof.Machine
end

