-- ==== Sys2Proof/Machine/LaneEvents.lean ====
section
/-! DEFINITION. The events of a lane: nozzle, pulses, samples, timers and the set-point step, as commands (chapters
1 and 2, R77). -/

namespace Sys2Proof.Machine

/-- R19: the lift timer expires; a grant in AUTHORIZED lapses. -/
def Block.lapse (s : Block) (l : LaneId) : Block :=
  if (s.lane l).session = .authorized then s.endGrantRaising l .lapsed else s

/-- R12, R17: the no-flow timer runs in LIFTED, FLOWING and SLOWING. -/
def Block.stopNoFlow (s : Block) (l : LaneId) : Block :=
  if (s.lane l).session.active then s.takeCause l .noFlow else s

/-- R12, R17: the duration timer runs in LIFTED, FLOWING and SLOWING. -/
def Block.stopDuration (s : Block) (l : LaneId) : Block :=
  if (s.lane l).session.active then s.takeCause l .duration else s

/-- R77: the set-point output at a duty is on in a step. -/
def setPointOn (duty step : Nat) : Bool := step * duty / 256 < (step + 1) * duty / 256

/-- R77: the next step of the set-point period begins; the duty that the lane has by then is in force
(notes/assumptions/28.md). -/
def Lane.stepSetPoint (x : Lane) : Lane :=
  let k := (x.step + 1) % 256
  { x with step := k, dutyInForce := x.duty, setPoint := setPointOn x.duty k }

/-- R13: the nozzle leaves the holster. -/
def execNozzleOut (lane : LaneId) (s : State) : Host.Outcome State Fault Refusal := event s fun b => b.takeNozzleOut lane

/-- R17, R30: the nozzle returns to the holster. -/
def execNozzleIn (lane : LaneId) (s : State) : Host.Outcome State Fault Refusal := event s fun b => b.takeNozzleIn lane

/-- R33: an A pulse, with the level of the B line at it. -/
def execAPulse (lane : LaneId) (bHigh : Bool) (s : State) : Host.Outcome State Fault Refusal := event s fun b => b.takeAPulse lane bHigh

/-- R32, R36: a B pulse. -/
def execBPulse (lane : LaneId) (s : State) : Host.Outcome State Fault Refusal := event s fun b => b.takeBPulse lane

/-- R39 to R42: a temperature sample. -/
def execTemperatureSample (lane : LaneId) (sample : Sample) (s : State) : Host.Outcome State Fault Refusal :=
  event s fun b => b.takeSample lane sample

/-- R39: the sample watch expires. -/
def execSampleWatchExpiry (lane : LaneId) (s : State) : Host.Outcome State Fault Refusal := event s fun b => b.missSample lane

/-- R12, R19: the lift timer expires. -/
def execLiftTimerExpiry (lane : LaneId) (s : State) : Host.Outcome State Fault Refusal := event s fun b => b.lapse lane

/-- R12, R17: the no-flow timer expires. -/
def execNoFlowExpiry (lane : LaneId) (s : State) : Host.Outcome State Fault Refusal := event s fun b => b.stopNoFlow lane

/-- R12, R17: the duration timer expires. -/
def execDurationExpiry (lane : LaneId) (s : State) : Host.Outcome State Fault Refusal := event s fun b => b.stopDuration lane

/-- R12, R26: the settle timer expires. -/
def execSettleExpiry (lane : LaneId) (s : State) : Host.Outcome State Fault Refusal := event s fun b => b.endSettle lane

/-- R47, R48: a rate window ends. -/
def execRateWindowEnd (lane : LaneId) (s : State) : Host.Outcome State Fault Refusal := event s fun b => b.endWindow lane

/-- R50: the creep timer expires. -/
def execCreepTimerExpiry (lane : LaneId) (s : State) : Host.Outcome State Fault Refusal := event s fun b => b.endCreep lane

/-- R77: a step of the set-point period. -/
def execSetPointStep (lane : LaneId) (s : State) : Host.Outcome State Fault Refusal := event s fun b => b.modLane lane Lane.stepSetPoint

end Sys2Proof.Machine
end

