-- ==== Sys2Proof/Machine/LinkEvents.lean ====
section
/-! DEFINITION. The events of the bay link, the STATUS builder and the roster, as commands (chapters 6 and 7). -/

namespace Sys2Proof.Machine

/-- R149, R150, R157: an idle gap in which the station contends. -/
def execIdleGapContend (s : State) : Host.Outcome State Fault Refusal := event s fun b => b.contend

/-- R146, R150: the arbitration byte is won. -/
def execArbitrationWon (s : State) : Host.Outcome State Fault Refusal := event s fun b => b.win

/-- R150: the arbitration byte is lost. -/
def execArbitrationLost (s : State) : Host.Outcome State Fault Refusal := event s fun b => b.lose

/-- R151, R155, R158: the frame in the transmitter has been read back whole. -/
def execFrameSent (s : State) : Host.Outcome State Fault Refusal := event s fun b => b.completeFrame

/-- R152: a read-back mismatch after the arbitration byte. -/
def execLinkConflict (s : State) : Host.Outcome State Fault Refusal := event s fun b => b.conflict

/-- R155: the hold between two copies of a zone's trip ends. -/
def execTripHoldExpiry (zone : ZoneId) (s : State) : Host.Outcome State Fault Refusal := event s fun b => b.endTripHold zone

/-- R147: the STATUS period ends. -/
def execStatusPeriodExpiry (s : State) : Host.Outcome State Fault Refusal := event s fun b => b.endPeriod

/-- R147: the STATUS hold-off ends. -/
def execHoldOffExpiry (s : State) : Host.Outcome State Fault Refusal := event s fun b => b.endHoldOff

/-- R159: a frame that fails validation. -/
def execInvalidFrame (s : State) : Host.Outcome State Fault Refusal := event s fun b => b.takeInvalid

/-- R152, R160: a valid frame with this station's number. -/
def execOwnNumberFrame (s : State) : Host.Outcome State Fault Refusal := event s fun b => b.takeOwnNumber

/-- R137, R160: a valid STATUS frame. -/
def execStatusFrame (sender : StationId) (content : StatusContent) (s : State) : Host.Outcome State Fault Refusal :=
  event s fun b => b.dispatch sender (Block.takeStatus sender content)

/-- R141, R160: a valid DRAW frame. -/
def execDrawFrame (sender : StationId) (content : DrawContent) (s : State) : Host.Outcome State Fault Refusal :=
  event s fun b => b.dispatch sender (Block.takeDraw sender content)

/-- R72, R160: a valid STOCK frame. -/
def execStockFrame (sender : StationId) (content : StockContent) (s : State) : Host.Outcome State Fault Refusal :=
  event s fun b => b.dispatch sender fun x => x.takeStock sender content

/-- R118, R160: a valid TRIP frame. -/
def execTripFrame (sender : StationId) (content : TripContent) (s : State) : Host.Outcome State Fault Refusal :=
  event s fun b => b.dispatch sender fun x => x.takeTrip sender content.zone content.epoch content.cause

/-- R125, R160: a valid CLEAR frame with copy number 1. -/
def execClearCopy1Frame (sender : StationId) (zone : ZoneId) (epoch : Nat) (s : State) : Host.Outcome State Fault Refusal :=
  event s fun b => b.dispatch sender fun x => x.takeCopy1 sender zone epoch

/-- R126, R160: a valid CLEAR frame with copy number 2. -/
def execClearCopy2Frame (sender : StationId) (zone : ZoneId) (epoch : Nat) (s : State) : Host.Outcome State Fault Refusal :=
  event s fun b => b.dispatch sender fun x => x.takeCopy2 sender zone epoch

/-- R162: the loopback self-test ends, with the bytes that came back through the join, or none. -/
def execLoopbackTestEnd (returned : Option (List Byte)) (s : State) : Host.Outcome State Fault Refusal := event s fun b => b.endTest returned

/-- R136: an entry's age reaches 1.5 s. -/
def execRosterStale (station : StationId) (s : State) : Host.Outcome State Fault Refusal := event s fun b => b.modEntry station RosterEntry.goStale

/-- R136: an entry's age reaches 10 s. -/
def execRosterLost (station : StationId) (s : State) : Host.Outcome State Fault Refusal := event s fun b => b.modEntry station RosterEntry.goLost

end Sys2Proof.Machine
end

