-- ==== Sys2Proof/Machine/PanelEvents.lean ====
section
/-! DEFINITION. The events of the panel line, as commands (R164 to R166). -/

namespace Sys2Proof.Machine

/-- R164, R165: a byte on the panel line. -/
def execPanelByteReceived (byte : Byte) (s : State) : Host.Outcome State Fault Refusal := event s fun b => b.takeByte byte

/-- R164: no byte for 10 ms. -/
def execPanelByteTimeout (s : State) : Host.Outcome State Fault Refusal := event s fun b => b.byteTimeout

/-- R165: the last byte of a frame has been sent on the panel line. -/
def execPanelFrameSent (s : State) : Host.Outcome State Fault Refusal := event s fun b => b.panelSent

/-- R166, R24: the presence timer expires. -/
def execPresenceTimerExpiry (s : State) : Host.Outcome State Fault Refusal := event s fun b => b.losePanel

end Sys2Proof.Machine
end

