-- ==== Sys2Proof/Machine/PanelRequests.lean ====
section
/-! DEFINITION. The requests of the panel port that leave the configuration alone, as commands (R167). -/

namespace Sys2Proof.Machine

/-! A well-formed request that the port takes (notes/assumptions/2.md): presence (R166), the range check (R168), the
owner's work and the response. -/

/-- R4 to R11: AUTHORIZE. -/
def execAuthorize (r : AuthorizeReq) (s : State) : Host.Outcome State Fault Refusal :=
  event s fun x => x.request fun b => b.doAuthorize r

/-- R20: CANCEL. -/
def execCancel (lane : Nat) (s : State) : Host.Outcome State Fault Refusal :=
  event s fun x => x.request fun b => b.doCancel lane

/-- R31: LANE READ. -/
def execLaneRead (lane : Nat) (s : State) : Host.Outcome State Fault Refusal :=
  event s fun x => x.request fun b => b.doLaneRead lane

/-- R171: TAKE FILL. -/
def execTakeFill (again : Nat) (s : State) : Host.Outcome State Fault Refusal :=
  event s fun x => x.request fun b => b.doTakeFill again

/-- R51: METER HEALTH. -/
def execMeterHealth (lane : Nat) (s : State) : Host.Outcome State Fault Refusal :=
  event s fun x => x.request fun b => b.doMeterHealth lane

/-- R81: TANK READ. -/
def execTankRead (tank : Nat) (s : State) : Host.Outcome State Fault Refusal :=
  event s fun x => x.request fun b => b.doTankRead tank

/-- R105: ACCOUNT READ. -/
def execAccountRead (machine : Nat) (s : State) : Host.Outcome State Fault Refusal :=
  event s fun x => x.request fun b => b.doAccountRead machine

/-- R106, R107: ACCOUNT SET. -/
def execAccountSet (r : AccountSetReq) (s : State) : Host.Outcome State Fault Refusal :=
  event s fun x => x.request fun b => b.doAccountSet r

/-- R108: SERVICE DONE. -/
def execServiceDone (machine : Nat) (service : Option Nat) (s : State) : Host.Outcome State Fault Refusal :=
  event s fun x => x.request fun b => b.doServiceDone machine service

/-- R109: CLEAR FLAGS. -/
def execClearFlags (machine : Nat) (flags : Byte) (s : State) : Host.Outcome State Fault Refusal :=
  event s fun x => x.request fun b => b.doClearFlags machine flags

/-- R134: ZONE READ. -/
def execZoneRead (s : State) : Host.Outcome State Fault Refusal :=
  event s fun x => x.request fun b => b.doZoneRead

/-- R148: ROSTER READ. -/
def execRosterRead (clear : Nat) (s : State) : Host.Outcome State Fault Refusal :=
  event s fun x => x.request fun b => b.doRosterRead clear

/-- R169: STATION READ. -/
def execStationRead (s : State) : Host.Outcome State Fault Refusal :=
  event s fun x => x.request fun b => b.doStationRead

/-- R144: TIME SET. -/
def execTimeSet (time : Nat) (s : State) : Host.Outcome State Fault Refusal :=
  event s fun x => x.request fun b => b.doTimeSet time

/-- R173: READ ATTENTION. -/
def execReadAttention (s : State) : Host.Outcome State Fault Refusal :=
  event s fun x => x.request fun b => b.doReadAttention

end Sys2Proof.Machine
end

