-- ==== Sys2Proof/Machine/SpillEvents.lean ====
section
/-! DEFINITION. The events of the spill unit, as commands (chapter 5). -/

namespace Sys2Proof.Machine

/-- The line level of a spill input (notes/assumptions/3.md): its active level or the other; an input that no INPUT
item has loaded is taken to be active when high. -/
def Block.setInputPin (s : Block) (i : InputId) (active : Bool) : Block :=
  let activeHigh :=
    match s.inputCfg i with
    | some c => c.activeHigh
    | none => true
  s.setPins { s.pins with inputHigh := s.pins.inputHigh.set i (active == activeHigh) }

/-- R110, R113: an input's line becomes active; disregarded in UNCONFIGURED and by a disabled input. -/
def Block.inputActive (s : Block) (i : InputId) : Block :=
  let s1 := s.setInputPin i true
  match s1.inputCfg i with
  | some c => if s1.running && c.enabled then s1.inputBecomesActive i c else s1
  | none => s1

/-- R113: an input's line becomes inactive. -/
def Block.inputInactive (s : Block) (i : InputId) : Block :=
  let s1 := s.setInputPin i false
  if s1.running && s1.inputEnabled i then s1.setInput i ⟨.inactive, .rest⟩ else s1

/-- R113: an input's confirm timer expires. -/
def Block.confirmExpires (s : Block) (i : InputId) : Block :=
  match s.inputCfg i with
  | some c =>
    if s.running && c.enabled && (s.input i).state = .confirming && (s.input i).timer.running then s.confirmInput i c
    else s
  | none => s

/-- R121: the own zone's line is sensed. -/
def Block.senseLine (s : Block) : Block :=
  if s.running && s.ownNormal && !s.spill.settle.running && s.pins.zoneLine then s.presentOwn .zoneLine else s

/-- R121: another station's drive of the own zone's line rises or falls (notes/assumptions/34.md). -/
def Block.zoneLineChanges (s : Block) (asserted : Bool) : Block :=
  (s.setPins { s.pins with zoneLine := asserted }).senseLine

/-- R121: the settle timer expires, and a line still asserted is presented. -/
def Block.endZoneSettle (s : Block) : Block :=
  if s.spill.settle.running then (s.setSpill { s.spill with settle := .rest }).senseLine else s

/-- R123: the interval of this station's release, which is of its own zone, ends. -/
def Block.ownIntervalEnds (s : Block) : Block :=
  match s.store.ownZone with
  | some z => s.endInterval z
  | none => s

/-- R131: the listen timer expires. -/
def Block.listenEnds (s : Block) : Block := if s.spill.listen.running then s.endListen else s

/-- R113: a spill input's line becomes active. -/
def execSpillInputActive (input : InputId) (s : State) : Host.Outcome State Fault Refusal := event s fun b => b.inputActive input

/-- R113: a spill input's line becomes inactive. -/
def execSpillInputInactive (input : InputId) (s : State) : Host.Outcome State Fault Refusal := event s fun b => b.inputInactive input

/-- R113: a confirm timer expires. -/
def execConfirmTimerExpiry (input : InputId) (s : State) : Host.Outcome State Fault Refusal := event s fun b => b.confirmExpires input

/-- R121: the zone line is asserted by another station, or let go by it. -/
def execZoneLineAsserted (asserted : Bool) (s : State) : Host.Outcome State Fault Refusal := event s fun b => b.zoneLineChanges asserted

/-- R121: the zone line's settle timer expires. -/
def execZoneSettleExpiry (s : State) : Host.Outcome State Fault Refusal := event s fun b => b.endZoneSettle

/-- R122: the release key is turned. -/
def execReleaseKey (s : State) : Host.Outcome State Fault Refusal := event s fun b => b.turnKey

/-- R123: the interval timer expires. -/
def execIntervalTimerExpiry (s : State) : Host.Outcome State Fault Refusal := event s fun b => b.ownIntervalEnds

/-- R127: a wait timer expires. -/
def execWaitTimerExpiry (zone : ZoneId) (s : State) : Host.Outcome State Fault Refusal := event s fun b => b.endWait zone

/-- R131: the listen timer expires. -/
def execListenTimerExpiry (s : State) : Host.Outcome State Fault Refusal := event s fun b => b.listenEnds

end Sys2Proof.Machine
end

