-- ==== Sys2Proof/Machine/StationEvents.lean ====
section
/-! DEFINITION. Power-on, configuration, start, restart, the calibration switch and the bay clock, as commands
(chapters 6 and 9). -/

namespace Sys2Proof.Machine

/-- R175: power is applied. The field lines and the calibration switch are what they are
(notes/assumptions/36.md). -/
def execPowerOnReset (straps : StationId) (s : State) : Host.Outcome State Fault Refusal :=
  .next { s with block := Block.powerOn straps s.block.pins s.block.store.calibrationOn (s.block.openDraws + 1) }

/-- R176, R180: CONFIGURE. A body that is not its kind's is answered FRAME_ERROR, and no request is taken (R164,
R185). -/
def execConfigure (r : ConfigureReq) (s : State) : Host.Outcome State Fault Refusal :=
  event s fun x => if configureBadLength r then Block.answer (x, .frameError) else x.request fun b => b.doConfigure r

/-- R177, R178: START. -/
def execStart (s : State) : Host.Outcome State Fault Refusal := event s fun x => x.request fun b => b.doStart

/-- R181: RESTART. -/
def execRestart (s : State) : Host.Outcome State Fault Refusal := event s fun x => x.request fun b => b.doRestart

/-- R175, R179: the level of the calibration switch input changes; the lock state does not follow it. -/
def execCalibrationSwitchChange (on : Bool) (s : State) : Host.Outcome State Fault Refusal := event s fun b => b.setCalibration on

/-- R144: a second of the bay clock ends. -/
def execBayClockSecond (s : State) : Host.Outcome State Fault Refusal := event s fun b => b.clockSecond

end Sys2Proof.Machine
end

