-- ==== Sys2Proof/Machine/TankEvents.lean ====
section
/-! DEFINITION. The events of the tank table, as commands (chapter 3). -/

namespace Sys2Proof.Machine

/-- R57: the age of a view's basis reaches 10 min. -/
def TankView.ageOut (v : TankView) : TankView :=
  if v.basis.isSome then { v with age := max v.age Config.basisAgeMs } else v

/-- R71: the STOCK interval timer reaches 60 s, and rests there. -/
def TankView.intervalOut (v : TankView) : TankView := { v with stockAge := max v.stockAge Config.stockIntervalMs }

/-- R64 to R70: a reading from a gauge input. -/
def execGaugeReading (input : InputId) (reading : GaugeReading) (s : State) : Host.Outcome State Fault Refusal :=
  event s fun b => b.takeReading input reading

/-- R57: a basis has aged 10 min. -/
def execBasisAgeExpiry (tank : TankId) (s : State) : Host.Outcome State Fault Refusal := event s fun b => b.modTank tank TankView.ageOut

/-- R70, R71: a tank's STOCK interval timer has run to 60 s. -/
def execStockIntervalExpiry (tank : TankId) (s : State) : Host.Outcome State Fault Refusal := event s fun b => b.modTank tank TankView.intervalOut

end Sys2Proof.Machine
end

