-- ==== Sys2Proof/Machine/Dispatch.lean ====
section
/-! DEFINITION. The command a queue holds and the meaning it has: one arm per row of spec/opcode_table.json. -/

namespace Sys2Proof.Machine

def exec (i : Instr) (s : State) : Host.Outcome State Fault Refusal :=
  match i with
  | .powerOnReset straps => Sys2Proof.Machine.execPowerOnReset straps s
  | .authorize r => Sys2Proof.Machine.execAuthorize r s
  | .cancel lane => Sys2Proof.Machine.execCancel lane s
  | .laneRead lane => Sys2Proof.Machine.execLaneRead lane s
  | .takeFill again => Sys2Proof.Machine.execTakeFill again s
  | .meterHealth lane => Sys2Proof.Machine.execMeterHealth lane s
  | .tankRead tank => Sys2Proof.Machine.execTankRead tank s
  | .accountRead machine => Sys2Proof.Machine.execAccountRead machine s
  | .accountSet r => Sys2Proof.Machine.execAccountSet r s
  | .serviceDone machine service => Sys2Proof.Machine.execServiceDone machine service s
  | .clearFlags machine flags => Sys2Proof.Machine.execClearFlags machine flags s
  | .zoneRead => Sys2Proof.Machine.execZoneRead s
  | .rosterRead clear => Sys2Proof.Machine.execRosterRead clear s
  | .stationRead => Sys2Proof.Machine.execStationRead s
  | .timeSet time => Sys2Proof.Machine.execTimeSet time s
  | .readAttention => Sys2Proof.Machine.execReadAttention s
  | .configure r => Sys2Proof.Machine.execConfigure r s
  | .start => Sys2Proof.Machine.execStart s
  | .restart => Sys2Proof.Machine.execRestart s
  | .panelByteReceived byte => Sys2Proof.Machine.execPanelByteReceived byte s
  | .panelByteTimeout => Sys2Proof.Machine.execPanelByteTimeout s
  | .panelFrameSent => Sys2Proof.Machine.execPanelFrameSent s
  | .presenceTimerExpiry => Sys2Proof.Machine.execPresenceTimerExpiry s
  | .nozzleOut lane => Sys2Proof.Machine.execNozzleOut lane s
  | .nozzleIn lane => Sys2Proof.Machine.execNozzleIn lane s
  | .aPulse lane bHigh => Sys2Proof.Machine.execAPulse lane bHigh s
  | .bPulse lane => Sys2Proof.Machine.execBPulse lane s
  | .temperatureSample lane sample => Sys2Proof.Machine.execTemperatureSample lane sample s
  | .sampleWatchExpiry lane => Sys2Proof.Machine.execSampleWatchExpiry lane s
  | .liftTimerExpiry lane => Sys2Proof.Machine.execLiftTimerExpiry lane s
  | .noFlowExpiry lane => Sys2Proof.Machine.execNoFlowExpiry lane s
  | .durationExpiry lane => Sys2Proof.Machine.execDurationExpiry lane s
  | .settleExpiry lane => Sys2Proof.Machine.execSettleExpiry lane s
  | .rateWindowEnd lane => Sys2Proof.Machine.execRateWindowEnd lane s
  | .creepTimerExpiry lane => Sys2Proof.Machine.execCreepTimerExpiry lane s
  | .spillInputActive input => Sys2Proof.Machine.execSpillInputActive input s
  | .spillInputInactive input => Sys2Proof.Machine.execSpillInputInactive input s
  | .confirmTimerExpiry input => Sys2Proof.Machine.execConfirmTimerExpiry input s
  | .zoneLineAsserted asserted => Sys2Proof.Machine.execZoneLineAsserted asserted s
  | .zoneSettleExpiry => Sys2Proof.Machine.execZoneSettleExpiry s
  | .releaseKey => Sys2Proof.Machine.execReleaseKey s
  | .intervalTimerExpiry => Sys2Proof.Machine.execIntervalTimerExpiry s
  | .waitTimerExpiry zone => Sys2Proof.Machine.execWaitTimerExpiry zone s
  | .listenTimerExpiry => Sys2Proof.Machine.execListenTimerExpiry s
  | .gaugeReading input reading => Sys2Proof.Machine.execGaugeReading input reading s
  | .basisAgeExpiry tank => Sys2Proof.Machine.execBasisAgeExpiry tank s
  | .stockIntervalExpiry tank => Sys2Proof.Machine.execStockIntervalExpiry tank s
  | .idleGapContend => Sys2Proof.Machine.execIdleGapContend s
  | .arbitrationWon => Sys2Proof.Machine.execArbitrationWon s
  | .arbitrationLost => Sys2Proof.Machine.execArbitrationLost s
  | .frameSent => Sys2Proof.Machine.execFrameSent s
  | .linkConflict => Sys2Proof.Machine.execLinkConflict s
  | .tripHoldExpiry zone => Sys2Proof.Machine.execTripHoldExpiry zone s
  | .statusPeriodExpiry => Sys2Proof.Machine.execStatusPeriodExpiry s
  | .holdOffExpiry => Sys2Proof.Machine.execHoldOffExpiry s
  | .invalidFrame => Sys2Proof.Machine.execInvalidFrame s
  | .ownNumberFrame => Sys2Proof.Machine.execOwnNumberFrame s
  | .statusFrame sender content => Sys2Proof.Machine.execStatusFrame sender content s
  | .drawFrame sender content => Sys2Proof.Machine.execDrawFrame sender content s
  | .stockFrame sender content => Sys2Proof.Machine.execStockFrame sender content s
  | .tripFrame sender content => Sys2Proof.Machine.execTripFrame sender content s
  | .clearCopy1Frame sender zone epoch => Sys2Proof.Machine.execClearCopy1Frame sender zone epoch s
  | .clearCopy2Frame sender zone epoch => Sys2Proof.Machine.execClearCopy2Frame sender zone epoch s
  | .loopbackTestEnd returned => Sys2Proof.Machine.execLoopbackTestEnd returned s
  | .rosterStale station => Sys2Proof.Machine.execRosterStale station s
  | .rosterLost station => Sys2Proof.Machine.execRosterLost station s
  | .bayClockSecond => Sys2Proof.Machine.execBayClockSecond s
  | .calibrationSwitchChange on => Sys2Proof.Machine.execCalibrationSwitchChange on s
  | .setPointStep lane => Sys2Proof.Machine.execSetPointStep lane s

end Sys2Proof.Machine
end

