-- ==== Sys2Proof/Machine/Step.lean ====
section
/-! DEFINITION. One step of the part with its queue of commands: the command at the front acts; on an empty queue one
millisecond passes (notes/assumptions/1.md). -/

namespace Sys2Proof.Machine

def step (s : State) : Host.Outcome State Fault Refusal :=
  match s.pending with
  | [] => .next (tick s)
  | c :: rest => exec c { s with pending := rest }

/-- The state with the command that a word spells at the front of its queue; spec/opcode_table.json gives no row any
bits, so no word spells one and the state stands. -/
def State.withFetchWord (s : State) (nbits w : Nat) : State :=
  match decodeTableWord nbits w with
  | some c => { s with pending := c :: s.pending }
  | none => s

end Sys2Proof.Machine
end

