-- ==== Sys2Proof/Safety.lean ====
section
/-! DEFINITION. What a safe part is, in the terms of the statements: the part between two events, the invariants of
the manual's chapters, and what it means that a command leaves a part of the state as it was. -/

namespace Sys2Proof.Machine

/-! ## Between events -/

/-- The part between two events: each tank view stands in the state its rules give (R57 to R60), each output follows
the state (R3, R73, R74, R77, R120), no raise waits, and the attention line follows the marks (R174). -/
structure Settled (s : Block) : Prop where
  stock : ∀ t, s.nextTankState t = (s.tank t).state
  lanes : ∀ l, s.driveLane l (s.lane l) = s.lane l
  tanks : ∀ t, s.driveTank t (s.tank t) = s.tank t
  line : s.spill.drive = s.lineDriven
  raised : s.panel.raised = []
  attention : s.panel.attention = s.panel.anyPending

/-! ## What stands through an event
Outputs follow the state at the end of every event, and a tank view its rules; the relations below leave them out, and
`Settled` says what they are. In each, `a` is before and `b` after. -/

/-- The lane stands, but for the outputs that follow the state. -/
def sameLane (a b : Lane) : Prop :=
  b = { a with mainOpen := b.mainOpen, slowOpen := b.slowOpen, cap := b.cap, capDuty := b.capDuty, duty := b.duty }

/-- The tank view stands, but for the pump and inlet outputs. -/
def sameTank (a b : TankView) : Prop := b = { a with pump := b.pump, inlet := b.inlet }

/-- The tank view stands, but for its state and its outputs: book stock, basis, totals and gauge items are as they
were. -/
def sameStock (a b : TankView) : Prop := b = { a with state := b.state, pump := b.pump, inlet := b.inlet }

/-- The spill unit stands, but for the drive of the zone line. -/
def sameSpill (a b : Spill) : Prop := b = { a with drive := b.drive }

/-- The roster, the bay clock and the draw sequence stand; the STATUS builder may have been told of a change. -/
def sameRoster (a b : Roster) : Prop :=
  b = { a with builder := { a.builder with change := b.builder.change, due := b.builder.due } }

/-- The panel port stands, but for the marks of the named causes and the attention line. -/
def samePanel (causes : List Cause) (a b : Panel) : Prop :=
  b = { a with causes := b.causes, attention := b.attention } ∧
  ∀ c, c ∉ causes → b.causes[c.index] = a.causes[c.index]

/-- R17: a session that has taken its primary end cause at `s`. -/
def closed (s : Block) (cause : EndCause) (x : Lane) : Lane :=
  { x with
    session := .closing, noFlow := .rest, duration := .rest, settle := .run 2000,
    data := { x.data with primary := some cause, stop := s.roster.clock } }

/-- R17 to R19: what SPILL or DRY, taken at `s`, makes of a lane: in AUTHORIZED the grant ends with the cause, in LIFTED
to SLOWING it is the primary end cause, and in CLOSING the secondary one if none is stored. -/
def endedBy (s : Block) (cause : EndCause) (x : Lane) : Lane :=
  match x.session with
  | .authorized => { x with session := .idle, params := none, lift := .rest, lapse := some cause }
  | .lifted | .flowing | .slowing => closed s cause x
  | .closing => { x with data := { x.data with secondary := some (x.data.secondary.getD cause) } }
  | .off | .idle | .finished => x

/-- R22: from one part to the other the view of a tank that the lane has a DRAW session on enters DRY. -/
abbrev drawDried (a b : Block) (x : Lane) : Prop :=
  ∃ p ∈ x.params, p.direction = .draw ∧ (a.tank p.tank).state ≠ .dry ∧ (b.tank p.tank).state = .dry

/-- R22, R60: a lane after the tank views have followed the event: DRY ends its DRAW session where the view of its tank
has entered DRY, and nothing else happens to it. -/
def dried (a b : Block) (x : Lane) : Lane := if drawDried a b x then endedBy b .dry x else x

/-- The lanes but those named stand, but for the DRAW sessions on a tank whose view has entered DRY, which end (R22). -/
def sameLanesBut (ls : List LaneId) (a b : Block) : Prop := ∀ k, k ∉ ls → sameLane (dried a b (a.lane k)) (b.lane k)

/-- R60, R172: STOCK_STATE is raised, with the tank as detail, for each view that has changed its state; the highest
detail is left. -/
def stockRaised (a b : Block) : Prop :=
  ∀ u, (b.tank u).state ≠ (a.tank u).state →
    b.panel.causes[Cause.stockState.index].pending = true ∧
      ∃ d, b.panel.causes[Cause.stockState.index].detail = some d ∧ u.val ≤ d

/-- The tank views but those named keep all but state and outputs. -/
def sameStockBut (ts : List TankId) (a b : Block) : Prop := ∀ t, t ∉ ts → sameStock (a.tank t) (b.tank t)

/-- What an event of the named lanes leaves alone: the configuration, the other lanes (but for draws that a tank view's
entry to DRY ends), the spill unit, the roster and the bay link. -/
structure AsideLanes (ls : List LaneId) (a b : Block) : Prop where
  store : b.store = a.store
  lanes : sameLanesBut ls a b
  spill : sameSpill a.spill b.spill
  roster : sameRoster a.roster b.roster
  link : b.link = a.link

/-- R14, R45: what a forward pulse, counted at `y`, makes of a session: FLOWING, SLOWING from the slow-down point of a
numeric session, CLOSING with PRESET from its stop point; CLOSING stays. -/
def forwarded (s : Block) (c : LaneCfg) (p : SessionParams) (y : Lane) : Lane :=
  if y.session = .closing then y
  else if p.toFull = false ∧ ((p.granted : Int) - c.stopLead) * 10000000000 ≤ y.data.net then closed s .preset y
  else if y.session = .slowing ∨ (p.toFull = false ∧ ((p.granted : Int) - c.slowVolume) * 10000000000 ≤ y.data.net) then
    { y with session := .slowing }
  else { y with session := .flowing }

/-- R14, R45: what a reverse pulse, counted at `y`, makes of a session: in FLOWING and SLOWING the points are compared
with the volume after it, and LIFTED and CLOSING stay. -/
def reversed (s : Block) (c : LaneCfg) (p : SessionParams) (y : Lane) : Lane :=
  if y.session = .flowing ∨ y.session = .slowing then forwarded s c p y else y

/-- R56: lane `l` of a peer that is LIVE or STALE is shown, with the tank, in a band of which `P` holds. -/
def peerShows (P : Band → Prop) (s : Block) (u : TankId) (n : StationId) (l : LaneId) : Prop :=
  n ≠ s.store.number ∧ ((s.entry n).state = .live ∨ (s.entry n).state = .stale) ∧
    ∃ m ∈ (s.entry n).last, P m.lanes[l].band ∧ m.lanes[l].tank = some u

/-- R65: an own session is in flight on the tank, in LIFTED to CLOSING. -/
def ownFlies (s : Block) (u : TankId) (l : LaneId) : Prop :=
  (s.lane l).session.metered = true ∧ ∃ p ∈ (s.lane l).params, p.tank = u

/-- R65: lane `l` of a peer in view is in flight on the tank. -/
def peerFlies : Block → TankId → StationId → LaneId → Prop :=
  peerShows fun x => x = .drawing ∨ x = .returning ∨ x = .closing

/-- R65: a session is in flight on the tank. -/
def flightOn (s : Block) (u : TankId) : Prop := (∃ l, ownFlies s u l) ∨ ∃ n l, peerFlies s u n l

/-- R54: book stock moves by an amount, held at ±2,147,483,647: down by a draw, up by a return (R61, R62). -/
def bookMoved (d : Direction) (amount : Nat) (v : TankView) : TankView :=
  { v with
    book := max (-2147483647) (min 2147483647 (match d with
      | .draw => v.book - (amount : Int)
      | .ret => v.book + (amount : Int))) }

/-- R88: a posting of a net volume to the unassigned record or the bulk totals. -/
def totalsPosted (d : Direction) (product : ProductId) (net : Nat) (u : ProductTotals) : ProductTotals :=
  match d with
  | .draw => { u with
      draws := u.draws.set product ((u.draws[product] + net) % 4294967296), count := min 4294967295 (u.count + 1) }
  | .ret => { u with
      returns := u.returns.set product ((u.returns[product] + net) % 4294967296), count := min 4294967295 (u.count + 1) }

/-- R19, R87: a machine record after the lanes of which `P` holds have let go of theirs. -/
def letGo (P : LaneId → Prop) [DecidablePred P] (r : MachineRecord) : MachineRecord :=
  match r.inFlight with
  | some l => if P l then { r with inFlight := none } else r
  | none => r

/-- R19, R87: the account table after the grants and sessions of the lanes of which `P` holds have ended: their in-flight
references are cleared, and all else in the table stands. -/
def letGoBy (P : LaneId → Prop) [DecidablePred P] (a : Accounts) : Accounts :=
  { a with records := a.records.map (letGo P) }

/-- R19, R87: a machine record after every own grant and session has ended: no such lane holds it any more. -/
def released (s : Block) : MachineRecord → MachineRecord := letGo fun l => (s.lane l).session.reserved = true

/-- R19, R22: the own grant of a lane ends DRY from one part to the other. -/
abbrev grantDried (a b : Block) (l : LaneId) : Prop := (a.lane l).session = .authorized ∧ drawDried a b (a.lane l)

/-- R19, R21: the own zone's view is that of zone `z` and NORMAL, and the lane holds a grant: a trip of `z` ends it SPILL. -/
abbrev grantSpilled (a : Block) (z : ZoneId) (l : LaneId) : Prop :=
  a.store.ownZone = some z ∧ (a.view z).state = .normal ∧ (a.lane l).session = .authorized

/-- R83: the fields of a class, 150, 50, 0 and 0 for one that no CLASS item loaded. -/
def classFields (st : Store) (c : ClassId) : ClassCfg := (st.classes[c]).getD ⟨150, 50, 0, 0⟩

/-- R104: how many of the eight flags pass from clear to set. -/
def newlySet (before after : Byte) : Nat :=
  ((List.range 8).filter fun k => after.getLsbD k && !before.getLsbD k).length

/-- R104, R172: ACCOUNT_FLAG is raised with the machine, once for each flag of its record that passes from clear to set,
and not otherwise. -/
def flagsRaised (before after : MachineRecord) (a b : Panel) : Prop :=
  (after.flags ≠ before.flags → b.causes[Cause.accountFlag.index] = ⟨true, some before.machine,
    min 255 (a.causes[Cause.accountFlag.index].count + newlySet before.flags after.flags)⟩) ∧
  (after.flags = before.flags → b.causes[Cause.accountFlag.index] = a.causes[Cause.accountFlag.index])

/-- The part right after a request that the port has taken: the panel PRESENT with its timer started again (R166), and
the response formed. Everything else is as `b` has it, and one more event has passed. -/
def answered (b : Block) (r : Response) : Block :=
  { b with
    panel := { b.panel with present := true, presence := .run Config.presenceMs, response := some r }
    openDraws := b.openDraws + 1 }

/-- The command has its effect: the part becomes `b`, and the queue stands. -/
def becomes (s : State) (b : Block) : Host.Outcome State Fault Refusal := .next { s with block := b }

/-- The part one event later, with nothing else changed. -/
def later (b : Block) : Block := { b with openDraws := b.openDraws + 1 }

/-- The raises the tank views make as the event ends (R60). -/
def Block.stockRaises (s : Block) : List (Cause × Nat) :=
  (allTanks.filter fun t => s.nextTankState t ≠ (s.tank t).state).map fun t => (.stockState, t.val)

/-- No tank view is about to enter DRY. -/
def Block.NoNewDry (s : Block) : Prop := ∀ t, s.nextTankState t = .dry → (s.tank t).state = .dry

/-- The bits of a byte, most significant first (R183). -/
def bitsOf (b : Byte) : List Bool := (List.range 8).map fun k => b.getLsbD (7 - k)

/-! ## A millisecond of the part's own time (notes/assumptions/1.md) -/

/-- A timer has run a millisecond: one at rest rests, and one that runs has a millisecond less left. -/
def Ran (a b : Timer) : Prop := (a = .rest → b = .rest) ∧ ∀ n, a = .run n → b = .run (n - 1)

/-- A lane's timers and its sample watch have run, and the rest of the lane stands. -/
structure LaneRan (a b : Lane) : Prop where
  lift : Ran a.lift b.lift
  noFlow : Ran a.noFlow b.noFlow
  duration : Ran a.duration b.duration
  settle : Ran a.settle b.settle
  window : Ran a.windowTimer b.windowTimer
  creep : Ran a.creepTimer b.creepTimer
  watch : ∀ n, a.watch = .run n → b.watch = .run (n - 1)
  idle : (∀ n, a.watch ≠ .run n) → b.watch = a.watch
  rest : b = { a with
    lift := b.lift, noFlow := b.noFlow, duration := b.duration, settle := b.settle, windowTimer := b.windowTimer
    creepTimer := b.creepTimer, watch := b.watch }

/-- A zone view's interval or wait timer has run, and the rest of the view stands. -/
structure ViewRan (a b : ZoneView) : Prop where
  none : a.clearing = none → b.clearing = none
  sender : ∀ e stage x, a.clearing = some (.sender e stage x) → ∃ y, b.clearing = some (.sender e stage y) ∧ Ran x y
  receiver : ∀ n e x, a.clearing = some (.receiver n e x) → ∃ y, b.clearing = some (.receiver n e y) ∧ Ran x y
  rest : b = { a with clearing := b.clearing }

/-- A queue entry's hold has run, if it is a TRIP, and the entry stands otherwise. -/
structure EntryRan (a b : Entry) : Prop where
  trip : ∀ z epoch cause remaining x, a.body = .trip z epoch cause remaining x →
    ∃ y, b = { a with body := .trip z epoch cause remaining y } ∧ Ran x y
  other : (∀ z epoch cause remaining x, a.body ≠ .trip z epoch cause remaining x) → b = a

/-- What a millisecond makes of the part: the timers have run, the ages have grown, and all else stands. -/
structure Millisecond (a b : Block) : Prop where
  store : b.store = a.store
  pins : b.pins = a.pins
  accounts : b.accounts = a.accounts
  openDraws : b.openDraws = a.openDraws
  lanes : ∀ l, LaneRan (a.lane l) (b.lane l)
  tanks : ∀ u, b.tank u = { a.tank u with
    age := if (a.tank u).basis ≠ none ∧ (a.tank u).age + 1 < 600000 then (a.tank u).age + 1 else (a.tank u).age
    stockAge := min 60000 ((a.tank u).stockAge + 1) }
  views : ∀ z, ViewRan (a.view z) (b.view z)
  inputs : ∀ i, (b.input i).state = (a.input i).state ∧ Ran (a.input i).timer (b.input i).timer
  drive : b.spill.drive = a.spill.drive
  settle : Ran a.spill.settle b.spill.settle
  listen : Ran a.spill.listen b.spill.listen
  entries : ∀ n, b.entry n = { a.entry n with
    age := if (a.entry n).state = .absent then (a.entry n).age else min 65535000 ((a.entry n).age + 1) }
  period : Ran a.roster.builder.period b.roster.builder.period
  holdOff : Ran a.roster.builder.holdOff b.roster.builder.holdOff
  roster : b.roster = { a.roster with
    entries := b.roster.entries
    clockMs := if a.roster.clock = 0 then a.roster.clockMs else min 1000 (a.roster.clockMs + 1)
    builder := { a.roster.builder with period := b.roster.builder.period, holdOff := b.roster.builder.holdOff } }
  queue : b.link.queue.length = a.link.queue.length ∧
    ∀ (k : Nat) (e f : Entry), a.link.queue[k]? = some e → b.link.queue[k]? = some f → EntryRan e f
  link : b.link = { a.link with queue := b.link.queue }
  presence : Ran a.panel.presence b.panel.presence
  waiting : a.panel.receiver = .waiting → b.panel.receiver = .waiting
  framing : ∀ bytes n, a.panel.receiver = .framing bytes n → b.panel.receiver = .framing bytes (n - 1)
  panel : b.panel = { a.panel with receiver := b.panel.receiver, presence := b.panel.presence }

/-- The expiries of a lane that are due at `b`. -/
def LaneDue (b : Block) (c : Instr) : Prop :=
  ∃ l, c = .liftTimerExpiry l ∧ (b.lane l).lift = .run 0 ∨ c = .noFlowExpiry l ∧ (b.lane l).noFlow = .run 0 ∨
    c = .durationExpiry l ∧ (b.lane l).duration = .run 0 ∨ c = .settleExpiry l ∧ (b.lane l).settle = .run 0 ∨
    c = .rateWindowEnd l ∧ (b.lane l).windowTimer = .run 0 ∨ c = .creepTimerExpiry l ∧ (b.lane l).creepTimer = .run 0 ∨
    c = .sampleWatchExpiry l ∧ (b.lane l).watch = .run 0

/-- The expiries of the spill unit that are due at `b`. -/
def SpillDue (b : Block) (c : Instr) : Prop :=
  (∃ i, c = .confirmTimerExpiry i ∧ (b.input i).timer = .run 0) ∨
    c = .zoneSettleExpiry ∧ b.spill.settle = .run 0 ∨
    c = .intervalTimerExpiry ∧ (∃ z e, (b.view z).clearing = some (.sender e .interval (.run 0))) ∨
    (∃ z n e, c = .waitTimerExpiry z ∧ (b.view z).clearing = some (.receiver n e (.run 0))) ∨
    c = .listenTimerExpiry ∧ b.spill.listen = .run 0

/-- The expiries of tanks, link, roster, panel and clock that are due at `b`, a millisecond after `a`. -/
def StationDue (a b : Block) (c : Instr) : Prop :=
  (∃ u, c = .basisAgeExpiry u ∧ (a.tank u).basis ≠ none ∧ (a.tank u).age + 1 = 600000 ∨
      c = .stockIntervalExpiry u ∧ (a.tank u).stockAge + 1 = 60000) ∨
    (∃ z, c = .tripHoldExpiry z ∧
      ∃ e ∈ b.link.queue, ∃ epoch cause remaining, e.body = .trip z epoch cause remaining (.run 0)) ∨
    c = .statusPeriodExpiry ∧ b.roster.builder.period = .run 0 ∨
    c = .holdOffExpiry ∧ b.roster.builder.holdOff = .run 0 ∨
    (∃ n, c = .rosterStale n ∧ (b.entry n).state = .live ∧ 1500 ≤ (b.entry n).age ∨
      c = .rosterLost n ∧ (b.entry n).state = .stale ∧ 10000 ≤ (b.entry n).age) ∨
    c = .presenceTimerExpiry ∧ b.panel.presence = .run 0 ∨
    c = .panelByteTimeout ∧ (∃ bytes, b.panel.receiver = .framing bytes 0) ∨
    c = .bayClockSecond ∧ b.roster.clock ≠ 0 ∧ 1000 ≤ b.roster.clockMs

/-! ## Trips and releases -/

/-- R21: what the own zone view's leaving NORMAL makes of a lane. -/
def spilled (s : Block) : Lane → Lane := endedBy s .spill

/-- What follows when the view of zone `z` has become TRIPPED: the own lanes act if the view is the own zone's and was
NORMAL (R21), the records of the grants that end so are let go and all else in the account table stands (R19, R87), the
zone line is driven for the own zone (R120), ZONE_TRIPPED is raised (R119), no CLEAR of the zone waits
(R128), and the other views, the configuration, the books and the rest of the panel port stand. -/
structure TripFollows (z : ZoneId) (a b : Block) : Prop where
  views : ∀ k, k ≠ z → b.view k = a.view k
  lanes : ∀ l, sameLane
    (if a.store.ownZone = some z ∧ (a.view z).state = .normal then spilled a (a.lane l) else a.lane l) (b.lane l)
  drive : a.store.ownZone = some z → b.spill.drive = true
  settle : a.store.ownZone = some z → (a.view z).state = .normal → b.spill.settle = .rest
  raised : b.panel.causes[Cause.zoneTripped.index] =
    ⟨true, some z.val, min 255 (a.panel.causes[Cause.zoneTripped.index].count + 1)⟩
  noClear : (a.view z).state = .clearing → ∀ e ∈ b.link.queue, e.body.isDraw = false → e.body.contender ≠ .clear z
  store : b.store = a.store
  tanks : sameStockBut [] a b
  accounts : b.accounts = letGoBy (grantSpilled a z) a.accounts
  roster : sameRoster a.roster b.roster
  panel : samePanel [.zoneTripped, .stockState] a.panel b.panel

/-- R116: the station has tripped zone `z` with a cause: the view is TRIPPED at the next epoch, and a TRIP entry of three
copies is offered unless the station is isolated. -/
structure TripMade (z : ZoneId) (cause : TripCause) (a b : Block) : Prop where
  view : b.view z = ⟨.tripped, (a.view z).epoch + 1, cause, some a.store.number, none, none⟩
  offered : a.link.isolated = none → ∃ e ∈ b.link.queue, e.body = .trip z ((a.view z).epoch + 1) cause 3 .rest
  follows : TripFollows z a b

/-- What the passages of a release of zone `z` leave alone: lanes, books, accounts, configuration, the other views and
the inputs. -/
structure ReleaseFrame (z : ZoneId) (a b : Block) : Prop where
  views : ∀ k, k ≠ z → b.view k = a.view k
  inputs : ∀ i, b.input i = a.input i
  lanes : ∀ l, sameLane (a.lane l) (b.lane l)
  tanks : ∀ u, sameTank (a.tank u) (b.tank u)
  store : b.store = a.store
  pins : b.pins = a.pins
  accounts : b.accounts = a.accounts
  roster : sameRoster a.roster b.roster
  panel : samePanel [.zoneTripped] a.panel b.panel

/-- R114: a source has been presented on the view of zone `z`, in a part that is otherwise as the event left it at `a`:
a NORMAL or CLEARING view is tripped, a TRIPPED one takes the cause, and a STARTING one holds it. -/
structure Presented (z : ZoneId) (cause : TripCause) (a b : Block) : Prop where
  trips : (a.view z).state = .normal ∨ (a.view z).state = .clearing → (a.view z).epoch < 65534 → TripMade z cause a b
  refreshes : (a.view z).state = .tripped →
    b = later (a.setView z { a.view z with cause := cause, origin := some a.store.number })
  holds : (a.view z).state = .starting →
    b = later (a.setView z { a.view z with held := some cause })

/-- A CLEAR copy of zone `z` waits in the queue or stands in the transmitter, and the link holds no other CLEAR of the
zone. -/
def clearWaits (k : Link) (z : ZoneId) (epoch copy : Nat) : Prop :=
  ((∃ x ∈ k.queue, x.body = .clear z epoch copy) ∨
    ∃ x f, k.sending = some (.entry x f false) ∧ x.body = .clear z epoch copy) ∧
  (∀ x ∈ k.queue, x.body.contender = .clear z → x.body = .clear z epoch copy) ∧
  ∀ x f w, k.sending = some (.entry x f w) → x.body.contender = .clear z → x.body = .clear z epoch copy ∧ w = false

/-- R159, R160, R161: frames of other stations are taken. -/
def Receiving (s : Block) : Prop := s.running = true ∧ s.link.test = none ∧ s.link.isolated = none

/-- A frame has ended on the line (R152). -/
def heardFrame (s : Block) : Block := s.setLink { s.link with restOfConflict := false }

/-! ## Rules spelled out for the statements -/

/-- What ACCOUNT SET makes of a record: the given items take effect (R106). -/
def setRecord (q : AccountSetReq) (r : MachineRecord) : MachineRecord :=
  { r with
    cls := (q.cls.map (Fin.ofNat 16)).getD r.cls, priority := (q.priority.map (· == 1)).getD r.priority,
    hours := q.hours.orElse fun _ => r.hours, base := q.hours.orElse fun _ => r.base,
    created := r.created.orElse fun _ => q.hours, carry := if q.hours.isSome then 0 else r.carry,
    service := q.service.getD r.service, estimate := q.estimate.getD r.estimate,
    runCount := if q.estimate.isSome then 0 else r.runCount,
    flags := if q.service = some (some 0) then r.flags ||| 0x08 else r.flags }

/-- R5: the twelve checks of AUTHORIZE with their codes, in their order; each with what makes it fail. -/
def authorizeChecks (s : Block) (c : LaneCfg) (a : Ask) : List (Prop × RefusalCode) :=
  [ (s.running = false ∨ ∀ z ∈ s.store.ownZone, (s.view z).state = .starting, .notRunning)
  , ((s.lane a.lane).session = .off, .laneOff)
  , ((s.lane a.lane).session ≠ .idle, .laneBusy)
  , (¬ match a.direction with
      | .draw => c.mode = .drawOnly ∨ c.mode = .both
      | .ret => c.mode = .returnOnly ∨ c.mode = .both, .direction)
  , (¬ ∃ z ∈ s.store.ownZone, (s.view z).state = .normal, .zone)
  , (a.direction = .draw ∧ (s.tank c.drawTank).state = .dry, .stockDry)
  , (a.direction = .draw ∧ (s.tank c.drawTank).state = .reserve ∧
      ¬ (a.machine ≠ 0 ∧ ∃ r ∈ s.accounts.find a.machine, r.priority = true), .stockReserve)
  , (a.direction = .ret ∧ (s.tank c.returnTank).state = .high, .tankFull)
  , (a.machine ≠ 0 ∧ ((∃ l, (s.lane l).session.reserved = true ∧ ∃ p ∈ (s.lane l).params, p.machine = a.machine) ∨
      ∃ n, n ≠ s.store.number ∧ ((s.entry n).state = .live ∨ (s.entry n).state = .stale) ∧
        ∃ m ∈ (s.entry n).last, ∃ l : Fin 4, m.lanes[l].band ≠ .idle ∧ m.lanes[l].machine = a.machine), .machineBusy)
  , (16 ≤ s.panel.fills.length + s.ownSessions, .recordsFull)
  , (s.link.isolated = none ∧ 12 ≤ s.link.drawsWaiting + s.ownSessions, .linkBacklog)
  , (∃ v, a.preset = .volume v ∧ v < c.stopLead + 100, .presetSmall) ]

/-- The first check that fails has this code. -/
def firstFails {α : Type} : List (Prop × α) → α → Prop
  | [], _ => False
  | (p, c) :: rest, code => (p ∧ code = c) ∨ (¬ p ∧ firstFails rest code)

/-- R1: a lane of this mode may draw. -/
def mayDraw (c : LaneCfg) : Prop := c.mode = .drawOnly ∨ c.mode = .both

/-- R1: a lane of this mode may return. -/
def mayReturn (c : LaneCfg) : Prop := c.mode = .returnOnly ∨ c.mode = .both

/-- R52: the sum of the max rates of this station's lanes that may draw on the tank. -/
def drawRates (st : Store) (t : TankId) : Nat :=
  (allLanes.map fun l =>
    match st.lanes[l] with
    | some c => if (c.mode = .drawOnly ∨ c.mode = .both) ∧ c.drawTank = t then c.maxRate else 0
    | none => 0).sum

/-- R177, step 5: the tanks it looks at (the model's reading, notes/assumptions/45.md). -/
def startNames (st : Store) (t : TankId) : Prop :=
  (∃ l, ∃ c ∈ st.lanes[(l : LaneId)], (mayDraw c ∧ c.drawTank = t) ∨ (mayReturn c ∧ c.returnTank = t)) ∨
    ∃ i, st.gauges[(i : InputId)] = some (some t)

/-- R52: the class of a tank agrees with the class of its product. -/
def classesAgree (product : ProductClass) (tank : TankClass) : Prop :=
  product = .fuel ∧ tank = .fuelSupply ∨ (product = .lube ∨ product = .coolant) ∧ tank = .lubeSupply ∨
    product = .waste ∧ tank = .waste

/-- R177: the checks of START in their order, each with what makes it fail and what is then named
(notes/assumptions/38.md for the item). -/
def startChecks (st : Store) : List (Prop × Failing) :=
  [(st.ownZone = none, ⟨0, 0, .notLoaded⟩)] ++
  (allLanes.map fun l => (∃ c ∈ st.lanes[l], c.maxRate < c.slowRate, ⟨1, l, .slowRate⟩)) ++
  (allLanes.flatMap fun l =>
    [ (∃ c ∈ st.lanes[l], mayDraw c ∧ (st.products[c.drawProduct] = none ∨ st.tanks[c.drawTank] = none), ⟨1, l, .notLoaded⟩)
    , (∃ c ∈ st.lanes[l], mayDraw c ∧ ∃ t ∈ st.tanks[c.drawTank], t.product ≠ c.drawProduct, ⟨1, l, .productMismatch⟩)
    , (∃ c ∈ st.lanes[l], mayDraw c ∧ ∃ t ∈ st.tanks[c.drawTank], t.cls = .waste, ⟨1, l, .classMismatch⟩) ]) ++
  (allLanes.flatMap fun l =>
    [ (∃ c ∈ st.lanes[l], mayReturn c ∧ st.tanks[c.returnTank] = none, ⟨1, l, .notLoaded⟩)
    , (∃ c ∈ st.lanes[l], mayReturn c ∧ ∃ t ∈ st.tanks[c.returnTank], t.cls ≠ .waste, ⟨1, l, .classMismatch⟩) ]) ++
  (allTanks.flatMap fun u =>
    [ (startNames st u ∧ ∀ t ∈ st.tanks[u], st.products[t.product] = none, ⟨3, u, .notLoaded⟩)
    , (startNames st u ∧ ∃ t ∈ st.tanks[u], ∃ p ∈ st.products[t.product], ¬ classesAgree p.cls t.cls, ⟨3, u, .classMismatch⟩)
    , (startNames st u ∧ ∃ t ∈ st.tanks[u], ¬ (t.suctionMark < t.reserveMark ∧ t.reserveMark < t.lowMark ∧
        t.lowMark < t.highMark ∧ t.highMark < t.highHighMark ∧ t.highHighMark ≤ t.capacity), ⟨3, u, .markOrder⟩)
    , (startNames st u ∧ ∃ t ∈ st.tanks[u], (t.cls = .waste ∧ t.supply ≠ 0) ∨ (t.cls ≠ .waste ∧ t.supply = 0),
        ⟨3, u, .supplyCapacity⟩)
    , (startNames st u ∧ ∃ t ∈ st.tanks[u], t.bayDemand < drawRates st u, ⟨3, u, .demandSum⟩) ]) ++
  (allInputs.flatMap fun i =>
    [ (∃ u, st.gauges[i] = some (some u) ∧ ∀ t ∈ st.tanks[(u : TankId)], t.gaugeStation ≠ st.number ∨ t.gaugeInput ≠ i,
        ⟨6, i, .gaugeMismatch⟩)
    , (∃ u, st.gauges[i] = some (some u) ∧ ∃ j, j ≠ i ∧ st.gauges[(j : InputId)] = some (some u), ⟨6, i, .gaugeDuplicate⟩) ])

/-- R185, R188: the bytes that the body of a request has: none for a code outside the list, and for a CONFIGURE of an
unknown kind, which has no length of its own. -/
def requestBytes (code : Nat) (kind : Option Nat) : Option Nat :=
  match code with
  | 0x01 => some 15 | 0x02 => some 1 | 0x03 => some 1 | 0x04 => some 1 | 0x05 => some 1 | 0x06 => some 1
  | 0x07 => some 4 | 0x08 => some 19 | 0x09 => some 8 | 0x0A => some 5 | 0x0B => some 0 | 0x0C => some 1
  | 0x0D => some 0 | 0x0E => some 4 | 0x0F => some 0
  | 0x10 =>
    match kind with
    | some 0 => some 3 | some 1 => some 23 | some 2 => some 5 | some 3 => some 47 | some 4 => some 13
    | some 5 => some 7 | some 6 => some 3 | none => some 3 | _ => none
  | 0x11 => some 0 | 0x12 => some 0
  | _ => none

/-! ## A posting on a machine record (R92 to R103) -/

/-- R93: the hours after step 2: a prior hours above the record's are taken. -/
def hoursResynced (q : Posting) (r : MachineRecord) : Option Nat :=
  match q.prior, r.hours with
  | some p, some h => some (max h p)
  | some p, none => some p
  | none, x => x

/-- R94: the hours after step 3: a reading above them is taken. -/
def hoursTaken (q : Posting) (r : MachineRecord) : Option Nat :=
  match q.hours, hoursResynced q r with
  | some H, some h => some (max h H)
  | some H, none => some H
  | none, x => x

/-- R96: the rise of the hours in a posting: from the first hours that the record has to the last. -/
def hoursRise (q : Posting) (r : MachineRecord) : Nat :=
  (hoursTaken q r).getD 0 - (r.hours.orElse fun _ => q.prior.orElse fun _ => q.hours).getD 0

/-- R93: prior hours that are not the record's. -/
def priorDiffers (q : Posting) (r : MachineRecord) : Prop := ∃ p, q.prior = some p ∧ r.hours ≠ some p

/-- R93: the base hours after step 2: P with a record's first hours, and with hours below P. -/
def baseResynced (q : Posting) (r : MachineRecord) : Option Nat :=
  match q.prior, r.hours with
  | some p, some h => if h < p then some p else r.base
  | some p, none => some p
  | none, _ => r.base

/-- R93: the carry after step 2: 0 wherever P is not the record's hours. -/
def carryResynced (q : Posting) (r : MachineRecord) : Nat :=
  match q.prior with
  | some p => if r.hours = some p then r.carry else 0
  | none => r.carry

/-- R94: a reading below the hours. -/
def readsBack (q : Posting) (r : MachineRecord) : Prop := ∃ H h, q.hours = some H ∧ hoursResynced q r = some h ∧ H < h

/-- R95: a jump: the reading's rise, in seconds, exceeds the bay time since the last fill's end by more than 720. -/
def readsJump (q : Posting) (r : MachineRecord) : Prop :=
  ∃ H h f, q.hours = some H ∧ hoursResynced q r = some h ∧ h ≤ H ∧ r.lastFill = some f ∧ q.stop ≠ 0 ∧ f.stop ≠ 0 ∧
    (q.stop : Int) - f.stop + 720 < (H - h) * 360

/-- R92: a FUEL draw. -/
def drawsFuel (q : Posting) : Prop := q.direction = .draw ∧ q.cls = some .fuel

/-- R97: the posting yields a sample, from base hours `b` to the reading `H`. -/
def yields (q : Posting) (r : MachineRecord) (b H : Nat) : Prop :=
  drawsFuel q ∧ q.toFull = true ∧ ¬ priorDiffers q r ∧ q.hours = some H ∧ (∃ h, r.hours = some h ∧ h ≤ H) ∧
    r.base = some b ∧ b + 10 ≤ H ∧ ¬ readsJump q r

/-- R97: the sample's value, rounded half up. -/
def sampleValue (q : Posting) (r : MachineRecord) (b H : Nat) : Nat :=
  (2 * (r.carry + q.net) + (H - b)) / (2 * (H - b))

/-- R100: a draw of a LUBE or COOLANT product. -/
def drawsLube (q : Posting) : Prop := q.direction = .draw ∧ (q.cls = some .lube ∨ q.cls = some .coolant)

/-- R101: the posting's interval overlaps the last fill's, from another station or lane. -/
def overlapsLast (q : Posting) (r : MachineRecord) : Prop :=
  ∃ f, r.lastFill = some f ∧ q.start ≠ 0 ∧ q.stop ≠ 0 ∧ f.start ≠ 0 ∧ f.stop ≠ 0 ∧ q.start ≤ f.stop ∧ f.start ≤ q.stop ∧
    (q.station ≠ f.station ∨ q.lane ≠ f.lane)

/-- R99: what the estimate, the run and the two rate flags of a record become by a flagged sample of a direction. -/
structure Flagged (low : Bool) (sample : Nat) (r p : MachineRecord) : Prop where
  flag : p.flags.getLsbD (if low = true then 4 else 5) = true
  other : p.flags.getLsbD (if low = true then 5 else 4) = r.flags.getLsbD (if low = true then 5 else 4)
  third : r.runLow = low → 2 ≤ r.runCount → p.estimate = some sample ∧ p.runCount = 0
  grows : r.runLow = low → r.runCount < 2 → p.estimate = r.estimate ∧ p.runCount = r.runCount + 1 ∧ p.runLow = low
  starts : r.runLow ≠ low → p.estimate = r.estimate ∧ p.runCount = 1 ∧ p.runLow = low

/-- R92 to R103: what a posting `q` makes of a machine record: `r` before and `p` after, with the fields `band` of the
record's class. -/
structure Posted (band : ClassCfg) (q : Posting) (r p : MachineRecord) : Prop where
  hours : p.hours = hoursTaken q r
  created : p.created = if r.hours = none then r.created.orElse (fun _ => q.prior.orElse fun _ => q.hours) else r.created
  resynced : p.flags.getLsbD 1 = true ↔ r.flags.getLsbD 1 = true ∨ (r.hours ≠ none ∧ priorDiffers q r)
  back : p.flags.getLsbD 7 = true ↔ r.flags.getLsbD 7 = true ∨ readsBack q r
  jump : p.flags.getLsbD 6 = true ↔ r.flags.getLsbD 6 = true ∨ readsJump q r
  jumped : readsJump q r → p.base = q.hours ∧ p.carry = 0
  /-- R94: the record's first hours, by the reading. -/
  firstRead : hoursResynced q r = none → q.hours ≠ none → p.base = q.hours ∧ p.carry = 0
  /-- R93, R97: the record's first hours by P, or a resync, with the reading then taken without a jump. -/
  resyncedRead : priorDiffers q r → (∃ H h, q.hours = some H ∧ hoursResynced q r = some h ∧ h ≤ H) → ¬ readsJump q r →
    p.base = baseResynced q r ∧ p.carry = 0
  service : p.service = r.service.map (· - hoursRise q r)
  due : p.flags.getLsbD 3 = true ↔
    r.flags.getLsbD 3 = true ∨ ∃ v, r.service = some v ∧ 0 < v ∧ v ≤ hoursRise q r
  /-- R93, R94, R97: no reading, or one below the hours: the base hours stand as step 2 has left them, and a FUEL draw
  joins the carry that it has left (notes/assumptions/16.md). -/
  noReading : q.hours = none ∨ readsBack q r → p.base = baseResynced q r ∧
    (drawsFuel q → p.carry = min 4294967295 (carryResynced q r + q.net)) ∧
    (¬ drawsFuel q → p.carry = carryResynced q r)
  /-- R97: a reading taken in a posting that yields no sample. -/
  noSample : ∀ h, ¬ priorDiffers q r → r.hours = some h → (∃ H, q.hours = some H ∧ h ≤ H) → ¬ readsJump q r →
    (∀ b H, ¬ yields q r b H) → drawsFuel q → p.carry = min 4294967295 (r.carry + q.net) ∧ p.base = r.base
  notFuel : ¬ drawsFuel q → r.hours ≠ none → ¬ priorDiffers q r → ¬ readsJump q r → p.carry = r.carry ∧ p.base = r.base
  noneYielded : (∀ b H, ¬ yields q r b H) →
    p.estimate = r.estimate ∧ p.runCount = r.runCount ∧ p.runLow = r.runLow ∧
      p.flags.getLsbD 5 = r.flags.getLsbD 5 ∧ p.flags.getLsbD 4 = r.flags.getLsbD 4
  sampled : ∀ b H, yields q r b H → p.base = some H ∧ p.carry = 0
  first : ∀ b H, yields q r b H → r.estimate = none →
    p.estimate = some (sampleValue q r b H) ∧ p.runCount = 0 ∧ p.flags.getLsbD 5 = r.flags.getLsbD 5 ∧
      p.flags.getLsbD 4 = r.flags.getLsbD 4
  inBand : ∀ b H e, yields q r b H → r.estimate = some e → sampleValue q r b H * 100 ≤ e * band.bandHigh →
    e * band.bandLow ≤ sampleValue q r b H * 100 →
    p.estimate = some ((3 * e + sampleValue q r b H + 2) / 4) ∧ p.runCount = 0 ∧
      p.flags.getLsbD 5 = r.flags.getLsbD 5 ∧ p.flags.getLsbD 4 = r.flags.getLsbD 4
  high : ∀ b H e, yields q r b H → r.estimate = some e → e * band.bandHigh < sampleValue q r b H * 100 →
    Flagged false (sampleValue q r b H) r p
  low : ∀ b H e, yields q r b H → r.estimate = some e → sampleValue q r b H * 100 < e * band.bandLow →
    sampleValue q r b H * 100 ≤ e * band.bandHigh → Flagged true (sampleValue q r b H) r p
  lube : drawsLube q →
    p.sinceService = r.sinceService.set q.product (min 4294967295 (r.sinceService[q.product] + q.net)) ∧
      (p.flags.getLsbD 2 = true ↔
        r.flags.getLsbD 2 = true ∨ band.allowance < min 4294967295 (r.sinceService[q.product] + q.net))
  notLube : ¬ drawsLube q → p.sinceService = r.sinceService ∧ p.flags.getLsbD 2 = r.flags.getLsbD 2
  drained : p.drained = if q.direction = .ret then min 4294967295 (r.drained + q.net) else r.drained
  double : p.flags.getLsbD 0 = true ↔ r.flags.getLsbD 0 = true ∨ overlapsLast q r
  last : p.lastFill = some ⟨q.start, q.stop, q.station, q.lane⟩
  fuel : drawsFuel q → p.fuel = min 4294967295 (r.fuel + q.net)
  noFuel : ¬ drawsFuel q → p.fuel = r.fuel
  kept : p.machine = r.machine ∧ p.cls = r.cls ∧ p.origin = r.origin ∧ p.priority = r.priority ∧ p.inFlight = r.inFlight

/-! ## Tank views and shares between events (R57 to R59, R73 to R77) -/

/-- R64: the tank is gauged at this station, which has started (notes/assumptions/42.md). -/
def gaugedHere (s : Block) (u : TankId) : Prop := s.store.running = true ∧ ∃ i, s.store.gauges[(i : InputId)] = some (some u)

/-- R73: an own lane draws on the tank. -/
def ownDraws (s : Block) (u : TankId) (l : LaneId) : Prop :=
  ((s.lane l).session = .lifted ∨ (s.lane l).session = .flowing ∨ (s.lane l).session = .slowing) ∧
    ∃ p ∈ (s.lane l).params, p.direction = .draw ∧ p.tank = u

/-- R73: lane `l` of a peer in view draws on the tank. -/
def peerDraws : Block → TankId → StationId → LaneId → Prop := peerShows (· = .drawing)

/-- R55: an own lane holds a DRAW session on the tank, in AUTHORIZED to CLOSING. -/
def ownCommits (s : Block) (u : TankId) (l : LaneId) : Prop :=
  (s.lane l).session.reserved = true ∧ ∃ p ∈ (s.lane l).params, p.direction = .draw ∧ p.tank = u

/-- R55: lane `l` of a peer in view has a commitment on the tank. -/
def peerCommits : Block → TankId → StationId → LaneId → Prop := peerShows (· ≠ .idle)

/-- Each peer lane of which `P` holds is given an item of its last picture, and every other 0. -/
def peerItem (s : Block) (P : StationId → LaneId → Prop) (item : LanePicture → Nat) (f : StationId → LaneId → Nat) : Prop :=
  ∀ n l, (P n l → ∀ m ∈ (s.entry n).last, f n l = item m.lanes[l]) ∧ (¬ P n l → f n l = 0)

/-- The sum over the lanes of the other stations. -/
def peerSum (f : StationId → LaneId → Nat) : Nat := (allStations.map fun n => (allLanes.map (f n)).sum).sum

/-- R57, R58: the state of a supply tank's view that has a basis younger than 10 min: each state by the marks and, in
climbing, the hysteresis width of a hundredth of the capacity (R53). -/
structure SupplyState (s : Block) (u : TankId) (c : TankCfg) : Prop where
  dry : (s.tank u).state = .dry → (s.tank u).book ≤ c.suctionMark + (c.capacity / 100 : Nat)
  reserve : (s.tank u).state = .reserve →
    c.suctionMark ≤ (s.tank u).book ∧ s.available u ≤ c.reserveMark + (c.capacity / 100 : Nat)
  low : (s.tank u).state = .low → c.suctionMark ≤ (s.tank u).book ∧ c.reserveMark ≤ s.available u ∧
    s.available u ≤ c.lowMark + (c.capacity / 100 : Nat)
  normal : (s.tank u).state = .normal →
    c.suctionMark ≤ (s.tank u).book ∧ c.reserveMark ≤ s.available u ∧ c.lowMark ≤ s.available u
  one : (s.tank u).state = .dry ∨ (s.tank u).state = .reserve ∨ (s.tank u).state = .low ∨ (s.tank u).state = .normal

/-- R57, R59: the state of a WASTE tank's view that has a basis younger than 10 min. -/
structure WasteState (s : Block) (u : TankId) (c : TankCfg) (high : Bool) : Prop where
  normal : (s.tank u).state = .normal → (s.tank u).book < c.highMark ∧ high = false
  high : (s.tank u).state = .high → c.highMark - (c.capacity / 100 : Nat) ≤ (s.tank u).book ∨ high = true
  one : (s.tank u).state = .normal ∨ (s.tank u).state = .high

/-- R15: the demand of a lane. -/
def demandOf (s : Block) (l : LaneId) : Nat :=
  match s.laneCfg l, (s.lane l).session with
  | some c, .lifted => c.maxRate
  | some c, .flowing => c.maxRate
  | some c, .slowing => c.slowRate
  | _, _ => 0

/-- R16: what an own lane publishes, item by item. Net volume is rounded half up to cL, and a negative one is 0 (R44). -/
def published (s : Block) (l : LaneId) : LanePicture :=
  let x := s.lane l
  let net := if x.session.metered = true then ((2 * x.data.net + 10000000000) / 20000000000).toNat else 0
  { band := match x.session with
      | .off | .idle | .finished => .idle
      | .authorized => .granted
      | .closing => .closing
      | .lifted | .flowing | .slowing => if ∃ p ∈ x.params, p.direction = .ret then .returning else .drawing
    tank := if x.session.reserved = true then x.params.map (·.tank) else none
    demand := demandOf s l
    delivered := net
    commitment := match x.params with
      | some p => if x.session.reserved = true ∧ p.direction = .draw then p.basis - net else 0
      | none => 0
    machine := match x.params with
      | some p => if x.session.reserved = true then p.machine else 0
      | none => 0 }

/-- R111, R147: from one part to the other there is a change for the STATUS builder: of an own lane's band, tank or
demand, or of a zone view's state or epoch (notes/assumptions/10.md). -/
def statusChange (a b : Block) : Prop :=
  (∃ l, (published b l).band ≠ (published a l).band ∨ (published b l).tank ≠ (published a l).tank ∨
      (published b l).demand ≠ (published a l).demand) ∨
    ∃ z, (b.view z).state ≠ (a.view z).state ∨ (b.view z).epoch ≠ (a.view z).epoch

/-- R115: the local sources of a zone are quiet. -/
structure SourcesQuiet (s : Block) (z : ZoneId) : Prop where
  inputs : ∀ i c, s.inputCfg i = some c → c.enabled = true → c.zone = z → (s.input i).state = .inactive
  lanes : s.store.ownZone = some z → ∀ l, ((s.lane l).session = .off ∨ (s.lane l).session = .idle ∨
    (s.lane l).session = .authorized ∨ (s.lane l).session = .finished) ∧ (s.lane l).creep = 0
  tanks : ∀ u c, gaugedHere s u → s.tankCfg u = some c → c.zone = z → (s.tank u).highHigh = false

/-! ## Invariants -/

/-- The part is UNCONFIGURED as power-on leaves it: no lane runs, no view has a basis or has left UNKNOWN, every zone
view is STARTING with no listen running, and no view has left it (R2, R54, R110, R131). -/
structure Unconfigured (s : Block) : Prop where
  lanes : ∀ l, (s.lane l).session = .off ∧ (s.lane l).params = none
  tanks : ∀ t, (s.tank t).basis = none ∧ (s.tank t).state = .unknown
  views : ∀ z, (s.view z).state = .starting
  listen : s.spill.listen = .rest

/-- R3, R21, R24: a session whose valves may be open is one of a RUNNING station whose own zone view is NORMAL; and an
UNCONFIGURED station has none at all. -/
structure SessionSafe (s : Block) : Prop where
  running : ∀ l, (s.lane l).session = .authorized ∨ (s.lane l).session.active = true → s.running = true ∧ s.ownNormal = true
  params : ∀ l, (s.lane l).session.reserved = true → (s.lane l).params.isSome = true
  unconfigured : s.running = false → Unconfigured s

/-- R22, R60: no grant and no running session of this station draws on a tank whose view is DRY. -/
def NoDrawOnDry (s : Block) : Prop :=
  ∀ l t, (s.lane l).holdsDrawOn t = true → (s.lane l).session ≠ .closing → (s.tank t).state ≠ .dry

/-- R7: the room that own sessions will need stands reserved. -/
structure RoomKept (s : Block) : Prop where
  fills : s.panel.fills.length + s.ownSessions ≤ Config.fillRoom
  draws : s.isolated = false → s.link.drawsWaiting + s.ownSessions ≤ Config.drawRoom
  waiting : s.link.drawsWaiting ≤ Config.drawRoom
  params : ∀ l, (s.lane l).session.reserved = true → (s.lane l).params.isSome = true

/-- R82, R84: the account table holds at most 384 records, one for a machine, and none for machine 0. -/
structure TableKept (a : Accounts) : Prop where
  room : a.records.length ≤ Config.accountRoom
  distinct : (a.records.map (·.machine)).Nodup
  nonzero : ∀ r ∈ a.records, r.machine ≠ 0

/-- R153, R154: the transmit queue stands in its order, and holds at most one entry of a zone's TRIP, of a zone's
CLEAR and of a tank's STOCK. -/
structure QueueKept (k : Link) : Prop where
  ordered : k.queue.Pairwise fun a b => a.before b = true
  single : k.queue.Pairwise fun a b => a.body.isDraw = true ∨ a.body.contender ≠ b.body.contender

end Sys2Proof.Machine
end

