-- ==== Sys2Proof/Certificates/Slice0/Obligations.lean ====
section
/-! DEFINITION. The statements about the part. Each says what an event does to the whole of it; `sameLane`, `later`,
`answered` and the other words of Sys2Proof/Safety.lean say what stands. Times are in milliseconds. -/

open Sys2Proof Sys2Proof.Machine

/-! ## The queue of commands and the part's own time -/

/-- A step takes the command at the front of the queue and runs it with the rest (the queue and the step are the
model's own: DESIGN CHOICE, notes/assumptions/1.md). -/
def Obligations.StepRunsTheFrontCommand : Prop :=
  ∀ (c : Instr) (rest : List Instr) (s : State), s.pending = c :: rest → step s = exec c { s with pending := rest }

/-- The model's own time (DESIGN CHOICE, notes/assumptions/1.md): on an empty queue a millisecond passes. Every timer
that runs has a millisecond less left, one at rest stays, ages grow, and nothing else in any block changes; and the
expiries that wait as commands are exactly those of the timers that have run down and of the ages that have been
reached (an expiry waits for its own timer alone: DESIGN CHOICE, notes/assumptions/30.md). -/
def Obligations.IdleStepPassesAMillisecond : Prop :=
  ∀ s : State, s.pending = [] → ∃ t, step s = .next t ∧ Millisecond s.block t.block ∧
    ∀ c, c ∈ t.pending ↔ LaneDue t.block c ∨ SpillDue t.block c ∨ StationDue s.block t.block c

/-! ## Invariants of every step -/

/-- R3, R57 to R60, R73, R74, R77, R120, R174: between events each tank view stands in the state its rules give, each
output follows the state, no raise waits, and the attention line follows the marks. -/
def Obligations.SettledKept : Prop :=
  ∀ s t : State, Settled s.block → step s = .next t → Settled t.block

/-- R3, R21, R22, R60: a grant or a running session stands only in a RUNNING station whose own zone view is NORMAL, a
session that has a place reserved has its parameters, an UNCONFIGURED station has no session at all, and no own draw
stands on a tank whose view is DRY. -/
def Obligations.SessionSafeKept : Prop :=
  (∀ s t : State, SessionSafe s.block → step s = .next t → SessionSafe t.block) ∧
  (∀ s t : State, NoDrawOnDry s.block → step s = .next t → NoDrawOnDry t.block)

/-- R7: fill records and own sessions are never more than 16; waiting DRAW entries and own sessions never more than 12
while the station is not isolated. -/
def Obligations.RoomKeptByEveryStep : Prop :=
  ∀ s t : State, RoomKept s.block → step s = .next t → RoomKept t.block

/-- R82, R84, R86: the account table keeps to its 384 records, one for a machine and none for machine 0. -/
def Obligations.TableKeptByEveryStep : Prop :=
  ∀ s t : State, TableKept s.block.accounts → step s = .next t → TableKept t.block.accounts

/-- R153, R154: the transmit queue keeps its order and its one entry of a key. -/
def Obligations.QueueKeptByEveryStep : Prop :=
  ∀ s t : State, QueueKept s.block.link → step s = .next t → QueueKept t.block.link

/-- The part right after reset meets every invariant. -/
def Obligations.ResetMeetsTheInvariants : Prop :=
  Settled State.reset.block ∧ SessionSafe State.reset.block ∧ NoDrawOnDry State.reset.block ∧
  RoomKept State.reset.block ∧ TableKept State.reset.block.accounts ∧ QueueKept State.reset.block.link ∧
  State.reset.pending = []

/-- R110, R116, R118, R130: but for power-on, no event lowers the epoch of a zone view (epochs within the range that
R110 gives the service life). -/
def Obligations.EpochsNeverFall : Prop :=
  ∀ (c : Instr) (s t : State) (z : ZoneId), (∀ straps, c ≠ .powerOnReset straps) →
    (∀ k, (s.block.view k).epoch < Config.epochMax) → exec c s = .next t →
    (s.block.view z).epoch ≤ (t.block.view z).epoch

/-- R1, R176, R179: but for power-on, nothing changes what a RUNNING station has loaded, nor its lock. -/
def Obligations.ConfigurationFixedWhileRunning : Prop :=
  ∀ (c : Instr) (s t : State), (∀ straps, c ≠ .powerOnReset straps) → s.block.running = true → exec c s = .next t →
    t.block.store = { s.block.store with
      calibrationOn := t.block.store.calibrationOn, violations := t.block.store.violations }

/-- R93 to R96, R106: a record's hours fall at an ACCOUNT SET only. -/
def Obligations.HoursFallOnlyWhenSet : Prop :=
  ∀ (c : Instr) (s t : State) (m h h' : Nat) (r r' : MachineRecord),
    (∀ straps, c ≠ .powerOnReset straps) → (∀ q, c ≠ .accountSet q) → (∀ b, c ≠ .panelByteReceived b) →
    TableKept s.block.accounts → exec c s = .next t →
    s.block.accounts.find m = some r → t.block.accounts.find m = some r' → r.hours = some h → r'.hours = some h' →
    h ≤ h'

/-! ## Encodings -/

/-- R149, R159, R184: every frame that can exist is received as it was sent, with its sender. -/
def Obligations.BayFrameRoundTrip : Prop :=
  ∀ (sender : StationId) (f : Frame), f.wellFormed = true → decodeFrame (encodeFrame sender f) = some (sender, f)

/-- R164, R185, R188: every request that can exist, in a frame that the length bytes can count, passes checks 1 to 3
and is read as it was sent. -/
def Obligations.RequestRoundTrip : Prop :=
  ∀ r : Request, r.wellFormed = true → r.body.length + 1 < 32768 →
    ∃ bytes, encodeRequest r = startMark :: bytes ∧ panelFrameLength bytes = some bytes.length ∧
      panelCrcAgrees bytes = true ∧ parsePanel bytes = .request r

/-- R183: the check sum is the register of x^16 + x^12 + x^5 + 1, started at 0xFFFF, with each byte's bits entering
most significant first; over the digits 1 to 9 it is 0x29B1. -/
def Obligations.CrcIsBitSerial : Prop :=
  (∀ bs : List Byte, crc16 bs =
    (bs.flatMap bitsOf).foldl
      (fun (r : CrcWord) b => if (r.msb ^^ b) = true then (r <<< 1) ^^^ 0x1021 else r <<< 1) 0xFFFF) ∧
  crc16 ([0x31, 0x32, 0x33, 0x34, 0x35, 0x36, 0x37, 0x38, 0x39] : List Byte) = 0x29B1

/-! ## The panel line -/

/-- R164, R165, R167: the last byte of a well-formed request, at an idle transmitter, has the effect of the request as
a command (notes/assumptions/2.md), and starts its response. -/
def Obligations.LastByteRunsTheRequest : Prop :=
  ∀ (s : State) (r : Request) (bytes : List Byte) (b : Byte) (left : Nat),
    r.wellFormed = true → r.body.length + 1 < 32768 → encodeRequest r = startMark :: (bytes ++ [b]) →
    s.block.panel.receiver = .framing bytes left → s.block.panel.sending = none →
    ∃ t u, exec (.panelByteReceived b) s = .next t ∧
      exec r.command { s with block := s.block.setPanel { s.block.panel with receiver := .waiting } } = .next u ∧
      u.block.panel.response.isSome = true ∧
      t = { u with block := u.block.setPanel { u.block.panel with sending := u.block.panel.response } }

/-- R164, R165, R166, R185: framing. A byte that starts no frame is disregarded; a start mark opens one; a byte that
does not complete a frame joins it and starts the 10 ms again; a first length byte of 0 ends a bad frame; a frame whose
CRC fails is answered FRAME_ERROR, and so is one whose body has not its code's length; a code that is none of the
eighteen is answered BAD_REQUEST; what ends with a good CRC while a response is being sent is answered BUSY. Only a
well-formed request makes the panel PRESENT. -/
def Obligations.PanelBytesAreFramed : Prop :=
  ∀ (s : State) (b : Byte), Settled s.block →
    (s.block.panel.receiver = .waiting → b ≠ startMark →
      exec (.panelByteReceived b) s = becomes s (later s.block)) ∧
    (s.block.panel.receiver = .waiting → b = startMark →
      exec (.panelByteReceived b) s = becomes s (later
        (s.block.setPanel { s.block.panel with receiver := .framing [] Config.panelByteMs }))) ∧
    (∀ bytes left, s.block.panel.receiver = .framing bytes left →
      (∀ n, panelFrameLength (bytes ++ [b]) = some n → bytes.length + 1 < n) →
      exec (.panelByteReceived b) s = becomes s (later
        (s.block.setPanel { s.block.panel with receiver := .framing (bytes ++ [b]) Config.panelByteMs }))) ∧
    (∀ bytes left, s.block.panel.receiver = .framing bytes left →
      panelFrameLength (bytes ++ [b]) = some (bytes.length + 1) → panelCrcAgrees (bytes ++ [b]) = false →
      exec (.panelByteReceived b) s = becomes s (later (s.block.setPanel
        (if s.block.panel.sending = none then
          { s.block.panel with receiver := .waiting, sending := some .frameError }
        else { s.block.panel with receiver := .waiting, owed := s.block.panel.owed ++ [.frameError] })))) ∧
    (∀ left, s.block.panel.receiver = .framing [] left → b = 0 →
      exec (.panelByteReceived b) s = becomes s (later (s.block.setPanel
        (if s.block.panel.sending = none then
          { s.block.panel with receiver := .waiting, sending := some .frameError }
        else { s.block.panel with receiver := .waiting, owed := s.block.panel.owed ++ [.frameError] })))) ∧
    (∀ bytes left code body, s.block.panel.receiver = .framing bytes left → code < 256 → body.length + 1 < 32768 →
      startMark :: (bytes ++ [b]) = panelFrame code body →
      (code = 0 ∨ 18 < code →
        exec (.panelByteReceived b) s = becomes s (later (s.block.setPanel
          (if s.block.panel.sending = none then
            { s.block.panel with receiver := .waiting, sending := some .badRequest }
          else { s.block.panel with receiver := .waiting, owed := s.block.panel.owed ++ [.busy] })))) ∧
      (∀ n, requestBytes code (body.head?.map BitVec.toNat) = some n → body.length ≠ n →
        exec (.panelByteReceived b) s = becomes s (later (s.block.setPanel
          (if s.block.panel.sending = none then
            { s.block.panel with receiver := .waiting, sending := some .frameError }
          else { s.block.panel with receiver := .waiting, owed := s.block.panel.owed ++ [.busy] }))))) ∧
    (∀ bytes left r, s.block.panel.receiver = .framing bytes left →
      panelFrameLength (bytes ++ [b]) = some (bytes.length + 1) → panelCrcAgrees (bytes ++ [b]) = true →
      parsePanel (bytes ++ [b]) = .request r → s.block.panel.sending ≠ none →
      exec (.panelByteReceived b) s = becomes s (later (s.block.setPanel
        { s.block.panel with
          receiver := .waiting, present := true, presence := .run Config.presenceMs,
          owed := s.block.panel.owed ++ [.busy] }))) ∧
    (∀ bytes left, s.block.panel.receiver = .framing bytes left → s.block.panel.sending = none →
      exec .panelByteTimeout s = becomes s (later
        (s.block.setPanel { s.block.panel with receiver := .waiting, sending := some .frameError }))) ∧
    (∀ bytes left, s.block.panel.receiver = .framing bytes left → s.block.panel.sending ≠ none →
      exec .panelByteTimeout s = becomes s (later
        (s.block.setPanel { s.block.panel with receiver := .waiting, owed := s.block.panel.owed ++ [.frameError] }))) ∧
    (∀ r rs, s.block.panel.sending ≠ none → s.block.panel.owed = r :: rs →
      exec .panelFrameSent s = becomes s (later
        (s.block.setPanel { s.block.panel with sending := some r, owed := rs }))) ∧
    (s.block.panel.sending ≠ none → s.block.panel.owed = [] →
      exec .panelFrameSent s = becomes s (later
        (s.block.setPanel { s.block.panel with sending := none })))

/-- R19, R24, R87, R166: the presence timer's expiry makes the panel ABSENT and ends every grant in AUTHORIZED with
PANEL_LOST, whose machine records are let go; lanes in every other state stand, and so does all else in the account
table. -/
def Obligations.PanelLostEndsGrants : Prop :=
  ∀ (s : State), Settled s.block → s.block.panel.presence.running = true →
    ∃ t, exec .presenceTimerExpiry s = .next t ∧ t.pending = s.pending ∧
      t.block.panel.present = false ∧ t.block.panel.presence = .rest ∧
      (∀ l, sameLane
        (if (s.block.lane l).session = .authorized then
          { s.block.lane l with session := .idle, params := none, lift := .rest, lapse := some .panelLost }
        else s.block.lane l) (t.block.lane l)) ∧
      (∀ l, (s.block.lane l).session = .authorized →
        t.block.panel.causes[Cause.authLapsed.index].pending = true ∧
        ∃ d, t.block.panel.causes[Cause.authLapsed.index].detail = some d ∧ l.val ≤ d) ∧
      t.block.accounts = letGoBy (fun l => (s.block.lane l).session = .authorized) s.block.accounts ∧
      t.block.store = s.block.store ∧ t.block.pins = s.block.pins ∧ sameStockBut [] s.block t.block ∧
      sameSpill s.block.spill t.block.spill ∧ sameRoster s.block.roster t.block.roster ∧
      t.block.link = s.block.link ∧
      samePanel [.authLapsed, .stockState] { s.block.panel with present := false, presence := .rest } t.block.panel

/-! ## Requests of the panel port -/

/-- R31, R81, R105, R134, R186 to R189: LANE READ, TANK READ, ACCOUNT READ and ZONE READ answer with readouts of the
lengths of chapter 10 and change nothing but the panel's presence. -/
def Obligations.ReadsChangeNothing : Prop :=
  ∀ s : State, Settled s.block →
    (∀ l : LaneId, (s.block.laneReadout l).length = 101 ∧
      exec (.laneRead l.val) s = becomes s (answered s.block (.readout 0x83 (s.block.laneReadout l)))) ∧
    (∀ u : TankId, (s.block.tankReadout u).length = 117 ∧
      exec (.tankRead u.val) s = becomes s (answered s.block (.readout 0x86 (s.block.tankReadout u)))) ∧
    (s.block.accounts.summary.length = 140 ∧
      exec (.accountRead 0) s = becomes s (answered s.block (.readout 0x87 s.block.accounts.summary))) ∧
    (∀ m r, m ≠ 0 → s.block.accounts.find m = some r → (s.block.recordReadout r).length = 97 ∧
      exec (.accountRead m) s = becomes s (answered s.block (.readout 0x87 (s.block.recordReadout r)))) ∧
    (∀ m, m ≠ 0 → s.block.accounts.find m = none →
      exec (.accountRead m) s = becomes s (answered s.block (.refused .noRecord))) ∧
    (s.block.zoneReadout.length = 83 ∧
      exec .zoneRead s = becomes s (answered s.block (.readout 0x8B s.block.zoneReadout)))

/-- R189: where the lane picture and the station picture hold some of their items. -/
def Obligations.ReadoutsHoldTheirItems : Prop :=
  ∀ (s : Block) (l : LaneId),
    (num (s.laneReadout l) 0 1 = (s.lane l).session.code ∧
      num (s.laneReadout l) 1 1 = EndCause.optCode (s.lane l).lapse ∧
      num (s.laneReadout l) 2 1 = boolNat (s.lane l).params.isSome ∧
      num (s.laneReadout l) 31 1 = (s.lane l).band.code ∧
      num (s.laneReadout l) 93 1 = (s.lane l).check.state.code) ∧
    ((s.lane l).data.pulses < 4294967296 → num (s.laneReadout l) 81 4 = (s.lane l).data.pulses) ∧
    (netCL (s.lane l).data.net < 4294967296 → num (s.laneReadout l) 73 4 = netCL (s.lane l).data.net) ∧
    (num s.stationReadout 0 1 = s.number.val ∧ num s.stationReadout 2 1 = boolNat s.running ∧
      num s.stationReadout 3 1 = s.store.lock.code ∧ s.stationReadout.length = 92) ∧
    (s.link.errors ≤ 65535 → num s.stationReadout 8 2 = s.link.errors)

/-- R171: TAKE FILL takes the oldest record and keeps it as the last taken; the repeat mark returns that one again;
EMPTY where there is none. -/
def Obligations.TakeFillTakesTheOldest : Prop :=
  ∀ s : State, Settled s.block →
    (∀ r rs, s.block.panel.fills = r :: rs →
      exec (.takeFill 0) s = becomes s (answered (s.block.setPanel
        { s.block.panel with
          fills := rs, lastTaken := some r,
          attention := { s.block.panel with fills := rs }.anyPending }) (.fill r))) ∧
    (s.block.panel.fills = [] → exec (.takeFill 0) s = becomes s (answered s.block (.refused .empty))) ∧
    (∀ r, s.block.panel.lastTaken = some r → exec (.takeFill 1) s = becomes s (answered s.block (.fill r))) ∧
    (s.block.panel.lastTaken = none → exec (.takeFill 1) s = becomes s (answered s.block (.refused .empty)))

/-- R109: CLEAR FLAGS clears the named flags of the machine's record and nothing else, and answers with the flags that
stand; NO_RECORD without a record. -/
def Obligations.ClearFlagsClearsTheNamed : Prop :=
  ∀ (s : State) (m : Nat) (named : Byte), Settled s.block → m ≠ 0 →
    (∀ r, s.block.accounts.find m = some r →
      exec (.clearFlags m named) s = becomes s (answered
        (s.block.setAccounts { s.block.accounts with
          records := s.block.accounts.records.map fun x =>
            if x.machine = m then { r with flags := r.flags &&& ~~~named } else x })
        (.flags (r.flags &&& ~~~named)))) ∧
    (s.block.accounts.find m = none →
      exec (.clearFlags m named) s = becomes s (answered s.block (.refused .noRecord)))

/-- R108: SERVICE DONE sets the hours to service, returns every since-service total and the drained total to 0, and
clears SERVICE_DUE (bit 3) and LUBE_HIGH (bit 2); everything else stands. A value of 0 sets SERVICE_DUE again and
raises ACCOUNT_FLAG. NO_RECORD without a record. -/
def Obligations.ServiceDoneZeroesTheTotals : Prop :=
  ∀ (s : State) (m : Nat) (v : Option Nat), Settled s.block → m ≠ 0 → (∀ n ∈ v, n ≤ 99999) →
    (∀ r, s.block.accounts.find m = some r →
      ∃ t, exec (.serviceDone m v) s = .next t ∧ t.pending = s.pending ∧
        (∀ r', r' = { r with
            service := v, sinceService := Vector.replicate 8 0, drained := 0,
            flags := if v = some 0 then (r.flags &&& 0xF3) ||| 0x08 else r.flags &&& 0xF3 } →
          t.block.accounts = { s.block.accounts with
            records := s.block.accounts.records.map fun x => if x.machine = m then r' else x } ∧
          t.block.panel.response = some (.readout 0x89 (t.block.recordReadout r'))) ∧
        (v = some 0 → t.block.panel.causes[Cause.accountFlag.index] =
          ⟨true, some m, min 255 (s.block.panel.causes[Cause.accountFlag.index].count + 1)⟩) ∧
        (v ≠ some 0 → t.block.panel.causes = s.block.panel.causes) ∧
        { t.block with accounts := s.block.accounts, panel := s.block.panel } = later s.block ∧
        samePanel [.accountFlag]
          { s.block.panel with present := true, presence := .run Config.presenceMs, response := t.block.panel.response }
          t.block.panel) ∧
    (s.block.accounts.find m = none →
      exec (.serviceDone m v) s = becomes s (answered s.block (.refused .noRecord)))

/-- R86, R104, R106, R107: ACCOUNT SET in range. The machine's record, or one newly made with origin LOADED and class 0,
stands at the most recent end with the given items, and ACCOUNT_FLAG is raised with the machine when hours to service of
0 newly set SERVICE_DUE, and not otherwise; at a full table the evictable record nearest the least recent end goes for a
new one, and where none is evictable the request is refused TABLE_FULL and nothing changes; in UNCONFIGURED it is
refused NOT_RUNNING. -/
def Obligations.AccountSetSetsTheRecord : Prop :=
  ∀ (s : State) (q : AccountSetReq), Settled s.block → TableKept s.block.accounts → badAccountSet q = false →
    (s.block.running = false → exec (.accountSet q) s = becomes s (answered s.block (.refused .notRunning))) ∧
    (∀ r rest, s.block.running = true →
      (s.block.accounts.find q.machine = some r ∧
          rest = s.block.accounts.records.filter (fun x => x.machine ≠ q.machine) ∨
        s.block.accounts.find q.machine = none ∧ s.block.accounts.records.length < 384 ∧
          r = MachineRecord.fresh q.machine 0 .loaded ∧ rest = s.block.accounts.records) →
      ∃ t, exec (.accountSet q) s = .next t ∧ t.pending = s.pending ∧
        t.block.accounts = { s.block.accounts with records := setRecord q r :: rest } ∧
        t.block.panel.response = some (.readout 0x88 (t.block.recordReadout (setRecord q r))) ∧
        { t.block with accounts := s.block.accounts, panel := s.block.panel } = later s.block ∧
        flagsRaised r (setRecord q r) s.block.panel t.block.panel ∧
        samePanel [.accountFlag]
          { s.block.panel with present := true, presence := .run Config.presenceMs, response := t.block.panel.response }
          t.block.panel) ∧
    (∀ r front out back, s.block.running = true → s.block.accounts.find q.machine = none →
      s.block.accounts.records.length = 384 → s.block.accounts.records = front ++ out :: back →
      out.inFlight = none → out.flags = 0 → (∀ x ∈ back, x.inFlight ≠ none ∨ x.flags ≠ 0) →
      r = setRecord q (MachineRecord.fresh q.machine 0 .loaded) →
      ∃ t, exec (.accountSet q) s = .next t ∧ t.pending = s.pending ∧
        t.block.accounts = { s.block.accounts with
          evictions := min 65535 (s.block.accounts.evictions + 1), records := r :: (front ++ back) } ∧
        t.block.panel.response = some (.readout 0x88 (t.block.recordReadout r)) ∧
        { t.block with accounts := s.block.accounts, panel := s.block.panel } = later s.block ∧
        flagsRaised (MachineRecord.fresh q.machine 0 .loaded) r s.block.panel t.block.panel ∧
        samePanel [.accountFlag]
          { s.block.panel with present := true, presence := .run Config.presenceMs, response := t.block.panel.response }
          t.block.panel) ∧
    (s.block.running = true → s.block.accounts.find q.machine = none → s.block.accounts.records.length = 384 →
      (∀ x ∈ s.block.accounts.records, x.inFlight ≠ none ∨ x.flags ≠ 0) →
      exec (.accountSet q) s = becomes s (answered s.block (.refused .tableFull)))

/-- R51, R144, R148, R159, R169: METER HEALTH, ROSTER READ with the clear mark, STATION READ and TIME SET answer, and
change the two counts, the missed postings, the link error count, and the clock with its disagree marks. -/
def Obligations.StationRequestsDoWhatTheyReport : Prop :=
  ∀ s : State, Settled s.block →
    (∀ l : LaneId,
      exec (.meterHealth l.val) s = becomes s (answered
        (s.block.setLane l { s.block.lane l with healthErrors := 0, healthUnchecked := 0 })
        (.health (s.block.lane l).healthErrors (s.block.lane l).healthUnchecked (s.block.lane l).check.state))) ∧
    exec (.rosterRead 0) s = becomes s (answered s.block (.readout 0x8C s.block.rosterReadout)) ∧
    exec (.rosterRead 1) s = becomes s (answered
      (s.block.setRoster { s.block.roster with entries := Vector.ofFn fun n => { s.block.entry n with missed := 0 } })
      (.readout 0x8C s.block.rosterReadout)) ∧
    s.block.rosterReadout.length = 1572 ∧
    exec .stationRead s = becomes s (answered (s.block.setLink { s.block.link with errors := 0 })
      (.readout 0x8D s.block.stationReadout)) ∧
    (∀ v, v ≠ 0 → exec (.timeSet v) s = becomes s (answered
      (s.block.setRoster { s.block.roster with
        clock := v, clockMs := 0,
        entries := Vector.ofFn fun n => { s.block.entry n with disagree := false } })
      (.clock s.block.roster.clock v))) ∧
    exec (.timeSet 0) s = becomes s (answered s.block .badRequest)

/-- R173: READ ATTENTION reports the pending cause of highest priority (the first of the ten), with its detail, its
count and what is still pending, and clears it; FILL_READY, after the ten, is reported and left; with none, NONE. -/
def Obligations.ReadAttentionTakesTheHighest : Prop :=
  ∀ s : State, Settled s.block →
    (∀ i : Fin 10, s.block.panel.causes[i].pending = true → (∀ j, j < i → s.block.panel.causes[j].pending = false) →
      ∃ t, exec .readAttention s = .next t ∧ t.pending = s.pending ∧
        t.block.panel.causes = s.block.panel.causes.set i ⟨false, none, 0⟩ ∧
        (∃ still, t.block.panel.response = some (.attention (i.val + 1) s.block.panel.causes[i].detail
            s.block.panel.causes[i].count still) ∧
          (∀ j : Fin 10, still / 2 ^ j.val % 2 = boolNat t.block.panel.causes[j].pending) ∧
          still / 2 ^ 10 = boolNat (!s.block.panel.fills.isEmpty)) ∧
        t.block = answered (s.block.setPanel
          { s.block.panel with causes := t.block.panel.causes, attention := t.block.panel.anyPending })
          (t.block.panel.response.getD .busy)) ∧
    ((∀ j : Fin 10, s.block.panel.causes[j].pending = false) → s.block.panel.fills ≠ [] →
      exec .readAttention s = becomes s (answered s.block
        (.attention 11 (some s.block.panel.fills.length) 0 1024))) ∧
    ((∀ j : Fin 10, s.block.panel.causes[j].pending = false) → s.block.panel.fills = [] →
      exec .readAttention s = becomes s (answered s.block (.attention 0 none 0 0)))

/-- R168: a request out of range is answered BAD_REQUEST and does nothing more. -/
def Obligations.OutOfRangeIsBadRequest : Prop :=
  ∀ s : State, Settled s.block →
    (∀ r : AuthorizeReq, (3 < r.lane ∨ 1 < r.direction ∨ r.preset = .volume 0 ∨ 1 < r.lubeOverride) →
      exec (.authorize r) s = becomes s (answered s.block .badRequest)) ∧
    (∀ l, 3 < l → exec (.cancel l) s = becomes s (answered s.block .badRequest) ∧
      exec (.laneRead l) s = becomes s (answered s.block .badRequest) ∧
      exec (.meterHealth l) s = becomes s (answered s.block .badRequest)) ∧
    (∀ u, 11 < u → exec (.tankRead u) s = becomes s (answered s.block .badRequest)) ∧
    (∀ v, 1 < v → exec (.takeFill v) s = becomes s (answered s.block .badRequest) ∧
      exec (.rosterRead v) s = becomes s (answered s.block .badRequest)) ∧
    (∀ f, exec (.clearFlags 0 f) s = becomes s (answered s.block .badRequest)) ∧
    (∀ m v, m = 0 ∨ (∃ n, v = some n ∧ 99999 < n) →
      exec (.serviceDone m v) s = becomes s (answered s.block .badRequest)) ∧
    exec (.timeSet 0) s = becomes s (answered s.block .badRequest) ∧
    (∀ q : AccountSetReq, q.machine = 0 ∨ (∃ n, q.cls = some n ∧ 15 < n) ∨ (∃ n, q.priority = some n ∧ 1 < n) ∨
        (∃ n, q.hours = some n ∧ 9999999 < n) ∨ (∃ n, q.service = some (some n) ∧ 99999 < n) ∨
        (∃ n, q.estimate = some (some n) ∧ 1000000 < n) →
      exec (.accountSet q) s = becomes s (answered s.block .badRequest))

/-! ## Grants -/


/-- R2, R5, R7, R8: an AUTHORIZE in range is refused with the code of the first check that fails, and nothing changes;
a lane with no LANE item is OFF; one that passes every check is answered as the clamps give. -/
def Obligations.AuthorizeRefusedByTheFirstCheck : Prop :=
  ∀ (s : State) (r : AuthorizeReq), Settled s.block → badAuthorize r = false →
    (∀ c code, s.block.laneCfg (askOf r).lane = some c → firstFails (authorizeChecks s.block c (askOf r)) code →
      exec (.authorize r) s = becomes s (answered s.block (.refused code))) ∧
    (s.block.laneCfg (askOf r).lane = none →
      exec (.authorize r) s = becomes s (answered s.block (.refused
        (if s.block.running = false ∨ (∀ z ∈ s.block.store.ownZone, (s.block.view z).state = .starting) then
          .notRunning else .laneOff)))) ∧
    (∀ c, s.block.laneCfg (askOf r).lane = some c → (∀ x ∈ authorizeChecks s.block c (askOf r), ¬ x.1) →
      (∀ code, s.block.clampAsk c (askOf r) = .refused code →
        exec (.authorize r) s = becomes s (answered s.block (.refused code))) ∧
      (∀ tm, s.block.clampAsk c (askOf r) = .terms tm → ∃ t d, exec (.authorize r) s = .next t ∧
        t.block.panel.response = some (.granted tm.granted tm.toFull tm.reason d)))

/-- R4, R8, R9, R11, R13: a numeric DRAW for machine 0 from a NORMAL tank, granted: the clamps, the session
parameters, the lift timer, and what stands. -/
def Obligations.BulkDrawIsGranted : Prop :=
  ∀ (s : State) (l : LaneId) (c : LaneCfg) (tk : TankCfg) (z : ZoneId) (v g : Nat) (h : Option Nat) (why : ClampReason),
    Settled s.block → s.block.laneCfg l = some c → s.block.tankCfg c.drawTank = some tk →
    s.block.running = true → s.block.store.ownZone = some z → (s.block.view z).state = .normal →
    (s.block.lane l).session = .idle → (c.mode = .drawOnly ∨ c.mode = .both) →
    (s.block.tank c.drawTank).state = .normal →
    s.block.panel.fills.length + s.block.ownSessions < 16 →
    (s.block.link.isolated = none → s.block.link.drawsWaiting + s.block.ownSessions < 12) →
    g = min (min v 600000) (s.block.available c.drawTank - tk.reserveMark).toNat → c.stopLead + 100 ≤ g →
    why = (if g < min v 600000 then .stockLimit else if 600000 < v then .presetMax else .none) →
    ∃ t, exec (.authorize ⟨l.val, 0, 0, .volume v, h, 0⟩) s = .next t ∧ t.pending = s.pending ∧
      sameLane { s.block.lane l with
        session := .authorized, lift := .run 120000,
        params := some {
          direction := .draw, product := c.drawProduct, tank := c.drawTank, machine := 0, requested := .volume v,
          granted := g, toFull := false, clamp := why, basis := g,
          hours := h.filter (fun x => x ≤ 9999999), hoursInvalid := h.any (fun x => 9999999 < x),
          disposition := .bulk, lubeOverride := false } } (t.block.lane l) ∧
      t.block.panel.response = some (.granted g false why .bulk) ∧
      t.block.pins = s.block.pins ∧ t.block.accounts = s.block.accounts ∧ sameStockBut [] s.block t.block ∧
      AsideLanes [l] s.block t.block ∧
      samePanel [.stockState]
        { s.block.panel with present := true, presence := .run Config.presenceMs, response := t.block.panel.response }
        t.block.panel

/-- R1, R4, R11, R85, R86: what any grant does to its lane and to the account table. The lane enters AUTHORIZED with the
lift timer at 120 s and the session parameters: the direction with its tank and product (for RETURN, the return tank's
product), the machine, the preset asked and the terms granted, the hour reading with its HOURS_INVALID mark, the
disposition and the lube override mark. All else stands. -/
def Obligations.GrantReachesLaneAndTable : Prop :=
  ∀ (s : State) (r : AuthorizeReq) (l : LaneId) (c : LaneCfg) (tm : Terms),
    Settled s.block → TableKept s.block.accounts → badAuthorize r = false → l = (askOf r).lane →
    s.block.laneCfg l = some c → (∀ x ∈ authorizeChecks s.block c (askOf r), ¬ x.1) →
    s.block.clampAsk c (askOf r) = .terms tm →
    ∃ t d p, exec (.authorize r) s = .next t ∧ t.pending = s.pending ∧
      t.block.panel.response = some (.granted tm.granted tm.toFull tm.reason d) ∧
      sameLane { s.block.lane l with session := .authorized, lift := .run 120000, params := some p } (t.block.lane l) ∧
      p = { direction := if r.direction = 0 then .draw else .ret, product := p.product,
            tank := if r.direction = 0 then c.drawTank else c.returnTank, machine := r.machine, requested := r.preset,
            granted := tm.granted, toFull := tm.toFull, clamp := tm.reason, basis := tm.granted,
            hours := r.hours.filter (fun x => x ≤ 9999999), hoursInvalid := r.hours.any (fun x => 9999999 < x),
            disposition := d, lubeOverride := decide (r.lubeOverride = 1) } ∧
      (r.direction = 0 → p.product = c.drawProduct) ∧
      (∀ tk, r.direction = 1 → s.block.tankCfg c.returnTank = some tk → p.product = tk.product) ∧
      t.block.pins = s.block.pins ∧ sameStockBut [] s.block t.block ∧ AsideLanes [l] s.block t.block ∧
      samePanel [.stockState]
        { s.block.panel with present := true, presence := .run Config.presenceMs, response := t.block.panel.response }
        t.block.panel ∧
      (r.machine = 0 → d = .bulk ∧ t.block.accounts = s.block.accounts) ∧
      (∀ rec, r.machine ≠ 0 → s.block.accounts.find r.machine = some rec →
        d = .record ∧ t.block.accounts = { s.block.accounts with
          records := { rec with inFlight := some l } ::
            s.block.accounts.records.filter fun x => x.machine ≠ r.machine }) ∧
      (r.machine ≠ 0 → s.block.accounts.find r.machine = none → s.block.accounts.records.length < 384 →
        d = .record ∧ t.block.accounts = { s.block.accounts with
          records := { MachineRecord.fresh r.machine 0 .localGrant with inFlight := some l } ::
            s.block.accounts.records }) ∧
      (r.machine ≠ 0 → s.block.accounts.find r.machine = none → s.block.accounts.records.length = 384 →
        (∀ x ∈ s.block.accounts.records, x.inFlight ≠ none ∨ x.flags ≠ 0) →
        d = .unassigned ∧ t.block.accounts = s.block.accounts) ∧
      (∀ front out back, r.machine ≠ 0 → s.block.accounts.find r.machine = none →
        s.block.accounts.records.length = 384 → s.block.accounts.records = front ++ out :: back →
        out.inFlight = none → out.flags = 0 → (∀ x ∈ back, x.inFlight ≠ none ∨ x.flags ≠ 0) →
        d = .record ∧ t.block.accounts = { s.block.accounts with
          evictions := min 65535 (s.block.accounts.evictions + 1),
          records := { MachineRecord.fresh r.machine 0 .localGrant with inFlight := some l } :: (front ++ back) })

/-- R9, R10: what a DRAW grant never exceeds, by the state of the draw tank's view; a TO_FULL grant is the machine
class's commitment. -/
def Obligations.DrawGrantStaysWithinStock : Prop :=
  ∀ (s t : State) (r : AuthorizeReq) (l : LaneId) (c : LaneCfg) (tk : TankCfg) (g : Nat) (full : Bool)
    (why : ClampReason) (d : Disposition),
    badAuthorize r = false → r.direction = 0 → l = (askOf r).lane → s.block.laneCfg l = some c →
    s.block.tankCfg c.drawTank = some tk → exec (.authorize r) s = .next t →
    t.block.panel.response = some (.granted g full why d) →
    ((s.block.tank c.drawTank).state = .normal → (g : Int) ≤ s.block.available c.drawTank - tk.reserveMark) ∧
    ((s.block.tank c.drawTank).state = .low →
      (g : Int) ≤ s.block.available c.drawTank - tk.reserveMark ∧ g ≤ tk.lowRation) ∧
    ((s.block.tank c.drawTank).state = .reserve →
      (g : Int) ≤ s.block.available c.drawTank - tk.suctionMark ∧ g ≤ tk.lowRation ∧
        s.block.priorityMachine r.machine = true) ∧
    ((s.block.tank c.drawTank).state = .unknown → g ≤ tk.lowRation) ∧
    (s.block.tank c.drawTank).state ≠ .dry ∧
    (full = true → r.preset = .toFull ∧ g = (s.block.store.classCfg (s.block.classOf r.machine)).toFull) ∧
    (full = false → c.stopLead + 100 ≤ g)

/-- R20: CANCEL by the lane's state: LANE_OFF, NOT_IN_SESSION, the end of a grant, or the end of a running session,
with the state found, and everything else as it was. -/
def Obligations.CancelFollowsTheState : Prop :=
  ∀ (s : State) (l : LaneId), Settled s.block →
    ((s.block.lane l).session = .off → exec (.cancel l.val) s = becomes s (answered s.block (.refused .laneOff))) ∧
    ((s.block.lane l).session = .idle ∨ (s.block.lane l).session = .closing ∨ (s.block.lane l).session = .finished →
      exec (.cancel l.val) s = becomes s (answered s.block (.refused .notInSession))) ∧
    ((s.block.lane l).session = .authorized →
      ∃ t, exec (.cancel l.val) s = .next t ∧ t.pending = s.pending ∧
        t.block.panel.response = some (.cancelled .authorized) ∧
        sameLane { s.block.lane l with session := .idle, params := none, lift := .rest, lapse := some .cancel }
          (t.block.lane l) ∧
        t.block.accounts = { s.block.accounts with
          records := s.block.accounts.records.map fun r =>
            if r.inFlight = some l then { r with inFlight := none } else r } ∧
        t.block.pins = s.block.pins ∧ sameStockBut [] s.block t.block ∧ AsideLanes [l] s.block t.block ∧
        samePanel [.stockState]
          { s.block.panel with present := true, presence := .run Config.presenceMs, response := t.block.panel.response }
          t.block.panel) ∧
    (∀ found, found = (s.block.lane l).session → found = .lifted ∨ found = .flowing ∨ found = .slowing →
      ∃ t, exec (.cancel l.val) s = .next t ∧ t.pending = s.pending ∧
        t.block.panel.response = some (.cancelled found) ∧
        sameLane (closed s.block .cancel (s.block.lane l)) (t.block.lane l) ∧
        t.block.accounts = s.block.accounts ∧ t.block.pins = s.block.pins ∧
        (∀ u, sameTank (s.block.tank u) (t.block.tank u)) ∧ AsideLanes [l] s.block t.block ∧
        samePanel []
          { s.block.panel with present := true, presence := .run Config.presenceMs, response := t.block.panel.response }
          t.block.panel)

/-! ## Configuration, start and restart -/

/-- R1, R52, R83, R112, R176, R188: CONFIGURE in UNCONFIGURED. An item of each kind in range is loaded whole; the ranges
of every kind's fields; the number out of range, and the first field out of range, are named. An unknown kind is named
with number 255, and the confirm time of an ESTOP item is disregarded: both are the model's choice
(notes/assumptions/20.md, notes/assumptions/14.md). -/
def Obligations.ConfigureLoadsItems : Prop :=
  (∀ s : State, Settled s.block → s.block.running = false → Unconfigured s.block →
    (∀ z : ZoneId, exec (.configure ⟨0, 0, [z.val]⟩) s =
      becomes s (answered (s.block.setStore { s.block.store with ownZone := some z }) .taken)) ∧
    (∀ (l : LaneId) (mode check : Nat) (m : LaneMode) (p : ProductId) (dt rt : TankId) (mf mr sr sv sl : Nat),
      LaneMode.ofCode mode = some m → 1000 ≤ mf → mf ≤ 500000 → 10 ≤ mr → mr ≤ 1200 → 1 ≤ sr → sr ≤ 1200 →
      sv ≤ 100000 → sl ≤ 20000 → check ≤ 1 →
      exec (.configure ⟨1, l.val, [mode, p.val, dt.val, rt.val, mf, mr, sr, sv, sl, check]⟩) s =
        becomes s (answered (s.block.setStore { s.block.store with
          lanes := s.block.store.lanes.set l (some ⟨m, p, dt, rt, mf, mr, sr, sv, sl, check = 1⟩) }) .taken)) ∧
    (∀ (p : ProductId) (code alpha : Nat) (k : ProductClass), ProductClass.ofCode code = some k → alpha ≤ 1500 →
      exec (.configure ⟨2, p.val, [code, alpha]⟩) s = becomes s (answered (s.block.setStore { s.block.store with
        products := s.block.store.products.set p (some ⟨k, alpha⟩) }) .taken)) ∧
    (∀ (u : TankId) (p : ProductId) (code : Nat) (k : TankClass) (z : ZoneId) (n : StationId) (i : InputId)
        (cap hh hi lo re su ration supply demand threshold tolerance : Nat),
      TankClass.ofCode code = some k → 10000 ≤ cap → cap ≤ 200000000 → hh ≤ cap → hi < hh → lo < hi → re < lo → su < re →
      ration ≤ 600000 → supply ≤ 10000 → demand ≤ 38400 → 10000 ≤ threshold → threshold ≤ 10000000 →
      tolerance ≤ 10000000 →
      exec (.configure ⟨3, u.val, [p.val, code, z.val, n.val, i.val, cap, hh, hi, lo, re, su, ration, supply, demand,
          threshold, tolerance]⟩) s =
        becomes s (answered (s.block.setStore { s.block.store with
          tanks := s.block.store.tanks.set u (some ⟨p, k, z, n, i, cap, hh, hi, lo, re, su, ration, supply, demand,
            threshold, tolerance⟩) }) .taken)) ∧
    (∀ (k : ClassId) (high low allowance full : Nat), 100 ≤ high → high ≤ 1000 → low ≤ 100 → allowance ≤ 10000000 →
      full ≤ 600000 →
      exec (.configure ⟨4, k.val, [high, low, allowance, full]⟩) s =
        becomes s (answered (s.block.setStore { s.block.store with
          classes := s.block.store.classes.set k (some ⟨high, low, allowance, full⟩) }) .taken)) ∧
    (∀ (i : InputId) (on level : Nat) (z : ZoneId) (code confirm : Nat) (k : InputKind), on ≤ 1 → level ≤ 1 →
      InputKind.ofCode code = some k → k = .estop ∨ (5 ≤ confirm ∧ confirm ≤ 100) →
      exec (.configure ⟨5, i.val, [on, level, z.val, code, confirm]⟩) s =
        becomes s (answered (s.block.setStore { s.block.store with
          inputs := s.block.store.inputs.set i (some ⟨on = 1, level = 1, z, k, confirm⟩) }) .taken)) ∧
    (∀ i : InputId, (∀ u : TankId, exec (.configure ⟨6, i.val, [u.val]⟩) s =
        becomes s (answered (s.block.setStore { s.block.store with
          gauges := s.block.store.gauges.set i (some (some u)) }) .taken)) ∧
      exec (.configure ⟨6, i.val, [255]⟩) s =
        becomes s (answered (s.block.setStore { s.block.store with
          gauges := s.block.store.gauges.set i (some none) }) .taken)) ∧
    (∀ k n f, 6 < k → exec (.configure ⟨k, n, f⟩) s = becomes s (answered s.block (.badItem k 255 255))) ∧
    (∀ (k n count : Nat) (f : List Nat) (ws : List Nat), itemWidths k = some ws → f.length = ws.length →
      ([1, 4, 8, 12, 16, 4, 4] : List Nat)[k]? = some count → count ≤ n →
      exec (.configure ⟨k, n, f⟩) s = becomes s (answered s.block (.badItem k n 255))) ∧
    (∀ (k n count i : Nat) (f : List Nat) (ws : List Nat), itemWidths k = some ws → f.length = ws.length →
      ([1, 4, 8, 12, 16, 4, 4] : List Nat)[k]? = some count → n < count →
      (itemRanges k f)[i]? = some false → (∀ j < i, (itemRanges k f)[j]? = some true) →
      exec (.configure ⟨k, n, f⟩) s = becomes s (answered s.block (.badItem k n i)))) ∧
  (∀ a, itemRanges 0 [a] = [decide (a ≤ 3)]) ∧
  (∀ a b c d e f g h i j, itemRanges 1 [a, b, c, d, e, f, g, h, i, j] =
    [decide (a ≤ 3), decide (b ≤ 7), decide (c ≤ 11), decide (d ≤ 11), decide (1000 ≤ e ∧ e ≤ 500000),
      decide (10 ≤ f ∧ f ≤ 1200), decide (1 ≤ g ∧ g ≤ 1200), decide (h ≤ 100000), decide (i ≤ 20000), decide (j ≤ 1)]) ∧
  (∀ a b, itemRanges 2 [a, b] = [decide (a ≤ 3), decide (b ≤ 1500)]) ∧
  (∀ a b c d e cap hh hi lo re su l m n o p, itemRanges 3 [a, b, c, d, e, cap, hh, hi, lo, re, su, l, m, n, o, p] =
    [decide (a ≤ 7), decide (b ≤ 2), decide (c ≤ 3), decide (d ≤ 7), decide (e ≤ 3),
      decide (10000 ≤ cap ∧ cap ≤ 200000000), decide (hh ≤ cap), decide (hi < hh), decide (lo < hi), decide (re < lo),
      decide (su < re), decide (l ≤ 600000), decide (m ≤ 10000), decide (n ≤ 38400),
      decide (10000 ≤ o ∧ o ≤ 10000000), decide (p ≤ 10000000)]) ∧
  (∀ a b c d, itemRanges 4 [a, b, c, d] =
    [decide (100 ≤ a ∧ a ≤ 1000), decide (b ≤ 100), decide (c ≤ 10000000), decide (d ≤ 600000)]) ∧
  (∀ a b c d e, itemRanges 5 [a, b, c, d, e] =
    [decide (a ≤ 1), decide (b ≤ 1), decide (c ≤ 3), decide (d ≤ 3), decide (d = 3 ∨ (5 ≤ e ∧ e ≤ 100))]) ∧
  (∀ a, itemRanges 6 [a] = [decide (a ≤ 11 ∨ a = 255)])

/-- R176, R180: CONFIGURE while RUNNING. The locked set of a loaded LANE or PRODUCT item is held under a LOCKED lock:
the violation is counted, LOCK_VIOLATION names item and field, and nothing else changes. Every other item is
NOT_UNCONFIGURED. -/
def Obligations.LockHoldsTheLockedSet : Prop :=
  ∀ (s : State), Settled s.block → s.block.running = true →
    (∀ (l : LaneId) (c : LaneCfg) (mode pr dt rt mf mr sr sv sl ck field : Nat),
      s.block.store.lock = .locked → s.block.laneCfg l = some c →
      field = (if mode ≠ c.mode.code then 0 else if pr ≠ c.drawProduct.val then 1 else if dt ≠ c.drawTank.val then 2
        else if rt ≠ c.returnTank.val then 3 else if mf ≠ c.meterFactor then 4
        else if ck ≠ boolNat c.checkOn then 9 else 255) →
      ∃ t, exec (.configure ⟨1, l.val, [mode, pr, dt, rt, mf, mr, sr, sv, sl, ck]⟩) s = .next t ∧
        t.pending = s.pending ∧
        t.block.store = { s.block.store with violations := min 65535 (s.block.store.violations + 1) } ∧
        t.block.panel.response = some (.locked 1 l.val field) ∧
        t.block.panel.causes[Cause.lockViolation.index] = ⟨true, some (65536 + l.val * 256 + field),
          min 255 (s.block.panel.causes[Cause.lockViolation.index].count + 1)⟩ ∧
        { t.block with store := s.block.store, panel := s.block.panel } = later s.block ∧
        samePanel [.lockViolation]
          { s.block.panel with present := true, presence := .run Config.presenceMs, response := t.block.panel.response }
          t.block.panel) ∧
    (∀ (p : ProductId) (c : ProductCfg) (cls alpha field : Nat),
      s.block.store.lock = .locked → s.block.productCfg p = some c → field = (if alpha ≠ c.alpha then 1 else 255) →
      ∃ t, exec (.configure ⟨2, p.val, [cls, alpha]⟩) s = .next t ∧ t.pending = s.pending ∧
        t.block.store = { s.block.store with violations := min 65535 (s.block.store.violations + 1) } ∧
        t.block.panel.response = some (.locked 2 p.val field) ∧
        t.block.panel.causes[Cause.lockViolation.index] = ⟨true, some (131072 + p.val * 256 + field),
          min 255 (s.block.panel.causes[Cause.lockViolation.index].count + 1)⟩ ∧
        { t.block with store := s.block.store, panel := s.block.panel } = later s.block ∧
        samePanel [.lockViolation]
          { s.block.panel with present := true, presence := .run Config.presenceMs, response := t.block.panel.response }
          t.block.panel) ∧
    (∀ r : ConfigureReq, configureBadLength r = false →
      (s.block.store.lock = .opened ∨ (r.kind ≠ 1 ∧ r.kind ≠ 2) ∨ numberInRange r.kind r.number = false) →
      exec (.configure r) s = becomes s (answered s.block (.refused .notUnconfigured)))

/-- R113, R131, R162, R177, R178: START in UNCONFIGURED answers the first item and condition of R177's table that fail
(`startChecks` spells it; the item named, the tanks that a lane names, and the table over R176 on products not loaded
are the model's choice: notes/assumptions/38.md, 45.md, 46.md), or makes the station RUNNING with its lock by the
calibration switch: enabled lanes IDLE, views STARTING, active inputs taken as new, the listen, and the self-test; in
RUNNING it is NOT_UNCONFIGURED. -/
def Obligations.StartBeginsEveryBlock : Prop :=
  ∀ (s : State), Settled s.block →
    (s.block.running = true → exec .start s = becomes s (answered s.block (.refused .notUnconfigured))) ∧
    (∀ f, s.block.running = false → firstFails (startChecks s.block.store) f →
      exec .start s = becomes s (answered s.block (.inconsistent f.kind f.number f.condition))) ∧
    (s.block.running = false → Unconfigured s.block → (∀ x ∈ startChecks s.block.store, ¬ x.1) →
      ∃ t, exec .start s = .next t ∧ t.pending = s.pending ∧
        t.block.store = { s.block.store with
          running := true, lock := if s.block.store.calibrationOn then .opened else .locked } ∧
        (∀ l, sameLane
          (if ∃ c ∈ s.block.laneCfg l, c.mode ≠ .disabled then
            { s.block.lane l with
              session := .idle, nozzleOut := s.block.pins.nozzleOut[l],
              check := { (s.block.lane l).check with memory := .none }, windowForward := 0, windowReverse := 0,
              windowTimer := .run 1000, watch := .run 3000 }
          else s.block.lane l) (t.block.lane l)) ∧
        (∀ z, (t.block.view z).state = .starting ∧ (t.block.view z).epoch = (s.block.view z).epoch ∧
          (t.block.view z).cause = (s.block.view z).cause ∧ (t.block.view z).clearing = none) ∧
        (∀ i c, s.block.inputCfg i = some c → c.enabled = true →
          (t.block.input i).state =
            (if s.block.pins.inputHigh[i] ≠ c.activeHigh then .inactive
            else if c.kind = .estop ∨ c.confirm = 0 then .confirmed else .confirming)) ∧
        t.block.spill.listen = .run 2000 ∧ t.block.spill.drive = false ∧
        t.block.link.test.isSome = true ∧ t.block.link.driver = false ∧ t.block.roster.builder = Builder.stopped ∧
        t.block.roster.entries = s.block.roster.entries ∧ t.block.roster.clock = s.block.roster.clock ∧
        t.block.accounts = s.block.accounts ∧ t.block.pins = s.block.pins ∧
        (∀ u, sameTank (s.block.tank u) (t.block.tank u)) ∧
        t.block.panel.response = some (.started t.block.store.lock))

/-- R25, R29, R61, R80, R87 to R89, R133, R135, R163, R181: RESTART in RUNNING: every grant lapses RESTART; every session
ends with its record handed off in lane order, RESTART its primary cause, or its secondary in CLOSING if none is stored;
the records release their machines, and the DRAW entries that wait or stand in the transmitter stay queued. Where one
lane alone has a session, its record is posted to the tank, to the account table by its disposition, and to the transmit
queue; where none has, or under an OPEN lock, nothing is posted. Views and releases are dropped, and the self-test
begins; in UNCONFIGURED it is NOT_RUNNING. No grant or session of the event ends DRY, and a view's one STOCK_STATE is for
its way to UNKNOWN: the model's choice (notes/assumptions/11.md). -/
def Obligations.RestartEndsAndBeginsAnew : Prop :=
  ∀ (s : State), Settled s.block → SessionSafe s.block →
    (s.block.running = false → exec .restart s = becomes s (answered s.block (.refused .notRunning))) ∧
    (s.block.running = true →
      ∃ t, exec .restart s = .next t ∧ t.pending = s.pending ∧ t.block.store = s.block.store ∧
        t.block.pins = s.block.pins ∧
        (∀ l, (s.block.lane l).session.reserved = false → sameLane (s.block.lane l) (t.block.lane l)) ∧
        (∀ l, (s.block.lane l).session = .authorized → (t.block.lane l).session = .idle ∧
          (t.block.lane l).params = none ∧ (t.block.lane l).lapse = some .restart ∧ (t.block.lane l).lift = .rest) ∧
        (∀ l, (s.block.lane l).session.metered = true →
          (t.block.lane l).session = (if (s.block.lane l).nozzleOut = true then .finished else .idle) ∧
          (t.block.lane l).settle = .rest ∧
          (t.block.lane l).data =
            (if (s.block.lane l).session = .closing then
              { (s.block.lane l).data with
                secondary := some ((s.block.lane l).data.secondary.getD .restart) }
            else { (s.block.lane l).data with primary := some .restart, stop := s.block.roster.clock })) ∧
        (∃ recs : List FillRecord, t.block.panel.fills = s.block.panel.fills ++ recs ∧
          recs.map (·.lane) = (allLanes.filter fun l => (s.block.lane l).session.metered) ∧
          ∀ r ∈ recs, r.cause = (t.block.lane r.lane).data.primary ∧
            r.secondary = (t.block.lane r.lane).data.secondary ∧
            (s.block.store.lock = .locked → r.flags.calibration = false)) ∧
        ((∃ u, (s.block.tank u).state ≠ .unknown) →
          t.block.panel.causes[Cause.stockState.index].count =
            min 255 (s.block.panel.causes[Cause.stockState.index].count +
              (allTanks.filter fun u => (s.block.tank u).state ≠ .unknown).length)) ∧
        (∀ u, t.block.tank u = { s.block.tank u with
          book := (t.block.tank u).book, drawTotal := (t.block.tank u).drawTotal,
          returnTotal := (t.block.tank u).returnTotal, age := (t.block.tank u).age,
          stockAge := (t.block.tank u).stockAge, basis := none, previous := none, delivering := false,
          lastStock := none, state := .unknown, pump := false, inlet := false }) ∧
        ((∀ l, (s.block.lane l).session.metered = false) ∨ s.block.store.lock = .opened →
          (∀ u, (t.block.tank u).book = (s.block.tank u).book ∧
            (t.block.tank u).drawTotal = (s.block.tank u).drawTotal ∧
            (t.block.tank u).returnTotal = (s.block.tank u).returnTotal) ∧
          t.block.accounts = { s.block.accounts with
            records := s.block.accounts.records.map (released s.block) } ∧
          t.block.roster.drawSeq = s.block.roster.drawSeq ∧
          (∀ e ∈ t.block.link.queue, e ∈ s.block.link.queue ∨ ∃ f w, s.block.link.sending = some (.entry e f w))) ∧
        (∀ (l : LaneId) (p : SessionParams) (d : SessionData) (r : FillRecord) (total : Nat) (a : Accounts),
          (s.block.lane l).session.metered = true → (∀ k, k ≠ l → (s.block.lane k).session.metered = false) →
          (s.block.lane l).params = some p → s.block.store.lock = .locked → s.block.roster.drawSeq + 1 < 4294967296 →
          a = s.block.accounts → d = (t.block.lane l).data →
          r = { seq := s.block.roster.drawSeq + 1, lane := l, direction := p.direction, product := p.product,
                tank := p.tank, machine := p.machine, requested := p.requested, granted := p.granted,
                toFull := p.toFull, clamp := p.clamp, net := netCL d.net, gross := grossCL d.gross,
                reverse := microCL d.reverse, start := d.start, stop := d.stop, hours := p.hours, cause := d.primary,
                secondary := d.secondary, minTemp := d.minTemp, maxTemp := d.maxTemp, pulses := d.pulses,
                unchecked := d.unchecked, errors := d.errors,
                flags := fillFlags p d (s.block.checkOn l) false, disposition := p.disposition } →
          total = (match p.direction with
            | .draw => ((s.block.tank p.tank).drawTotal + r.net) % 4294967296
            | .ret => ((s.block.tank p.tank).returnTotal + r.net) % 4294967296) →
          t.block.panel.fills = s.block.panel.fills ++ [r] ∧ t.block.roster.drawSeq = r.seq ∧
          (t.block.tank p.tank).book = (bookMoved p.direction r.net (s.block.tank p.tank)).book ∧
          (t.block.tank p.tank).drawTotal = (if p.direction = .draw then total else (s.block.tank p.tank).drawTotal) ∧
          (t.block.tank p.tank).returnTotal = (if p.direction = .ret then total else (s.block.tank p.tank).returnTotal) ∧
          (∀ u, u ≠ p.tank → (t.block.tank u).book = (s.block.tank u).book ∧
            (t.block.tank u).drawTotal = (s.block.tank u).drawTotal ∧
            (t.block.tank u).returnTotal = (s.block.tank u).returnTotal) ∧
          (p.disposition = .bulk → t.block.accounts = { a with
            bulk := totalsPosted p.direction p.product r.net a.bulk, records := a.records.map (released s.block) }) ∧
          (p.disposition = .unassigned → t.block.accounts = { a with
            unassigned := totalsPosted p.direction p.product r.net a.unassigned
            records := a.records.map (released s.block) }) ∧
          (∀ q m n, p.disposition = .record → a.find p.machine = some m →
            q = { machine := p.machine, product := p.product, cls := (s.block.productCfg p.product).map (·.cls),
                  direction := p.direction, net := r.net, hours := p.hours, toFull := p.toFull, start := d.start,
                  stop := d.stop, station := s.block.store.number, lane := l, prior := none } →
            n = postRecord (classFields s.block.store m.cls) q m →
            t.block.accounts = { a with
              records := (n :: a.records.filter fun k => k.machine ≠ p.machine).map (released s.block) } ∧
            flagsRaised m n s.block.panel t.block.panel) ∧
          (∀ prior cls, s.block.link.isolated = none →
            (prior, cls) = (match p.disposition, a.find p.machine with
              | .record, some m => (m.hours, m.cls)
              | _, _ => (none, 0)) →
            ∃ e ∈ t.block.link.queue, e.body = .draw {
              seq := r.seq, lane := l, direction := p.direction, product := p.product, tank := p.tank,
              machine := p.machine, cls := cls, net := r.net, total := total, hours := p.hours, prior := prior,
              toFull := p.toFull, start := d.start, stop := d.stop }) ∧
          (s.block.link.isolated ≠ none →
            ∀ e ∈ t.block.link.queue, e ∈ s.block.link.queue ∨ ∃ f w, s.block.link.sending = some (.entry e f w))) ∧
        (∀ e ∈ s.block.link.queue, e.body.isDraw = true → e ∈ t.block.link.queue) ∧
        (∀ e f w, s.block.link.sending = some (.entry e f w) → e.body.isDraw = true → e ∈ t.block.link.queue) ∧
        (∀ z, (t.block.view z).state = .starting ∧ (t.block.view z).epoch = (s.block.view z).epoch ∧
          (t.block.view z).clearing = none) ∧
        t.block.spill.listen = .run 2000 ∧ t.block.spill.drive = false ∧
        (∀ n, t.block.entry n = RosterEntry.reset) ∧ t.block.roster.clock = s.block.roster.clock ∧
        (∀ e ∈ t.block.link.queue, e.body.isDraw = true) ∧ t.block.link.sending = none ∧
        t.block.link.conflicts = 0 ∧ t.block.link.isolated = none ∧ t.block.link.test.isSome = true ∧
        t.block.link.driver = false ∧ t.block.link.errors = s.block.link.errors ∧
        t.block.panel.response = some (.restarted s.block.store.lock))

/-- R2, R54, R84, R110, R135, R163, R165, R166, R170, R172, R175: what power-on leaves. The field lines and the
calibration switch keep their levels (DESIGN CHOICE, notes/assumptions/36.md); the session data of a lane, its last lapse
cause and the receiver's WAITING have no value in the manual and take the model's (DESIGN CHOICE,
notes/assumptions/31.md). -/
def Obligations.PowerOnLeaves : Prop :=
  ∀ (s : State) (n : StationId), ∃ t, exec (.powerOnReset n) s = .next t ∧ t.pending = s.pending ∧
    t.block.store.number = n ∧ t.block.store.running = false ∧ t.block.store.lock = .opened ∧
    t.block.store.violations = 0 ∧ t.block.store.ownZone = none ∧ t.block.store.calibrationOn = s.block.store.calibrationOn ∧
    (∀ l, t.block.laneCfg l = none) ∧ (∀ u, t.block.tankCfg u = none) ∧ (∀ p, t.block.productCfg p = none) ∧
    (∀ i, t.block.inputCfg i = none ∧ t.block.gaugeTank i = none) ∧ t.block.pins = s.block.pins ∧
    (∀ l, (t.block.lane l).session = .off ∧ (t.block.lane l).params = none ∧ (t.block.lane l).data = SessionData.zero ∧
      (t.block.lane l).check.state = .nosync ∧ (t.block.lane l).creep = 0 ∧ (t.block.lane l).sample = none ∧
      (t.block.lane l).healthErrors = 0 ∧ (t.block.lane l).healthUnchecked = 0 ∧ (t.block.lane l).lapse = none ∧
      (t.block.lane l).nozzleOut = false ∧ (t.block.lane l).lift = .rest ∧ (t.block.lane l).mainOpen = false ∧
      (t.block.lane l).slowOpen = false ∧ (t.block.lane l).duty = 0) ∧
    (∀ u, (t.block.tank u).book = 0 ∧ (t.block.tank u).basis = none ∧ (t.block.tank u).state = .unknown ∧
      (t.block.tank u).drawTotal = 0 ∧ (t.block.tank u).returnTotal = 0 ∧ (t.block.tank u).delivered = 0 ∧
      (t.block.tank u).pump = false ∧ (t.block.tank u).inlet = false) ∧
    t.block.accounts.records = [] ∧ t.block.accounts.evictions = 0 ∧
    (∀ z, (t.block.view z).state = .starting ∧ (t.block.view z).epoch = 0 ∧ (t.block.view z).cause = .none) ∧
    t.block.spill.drive = false ∧ (∀ k, t.block.entry k = RosterEntry.reset) ∧ t.block.roster.clock = 0 ∧
    t.block.roster.drawSeq = 0 ∧ t.block.link.queue = [] ∧ t.block.link.sending = none ∧ t.block.link.errors = 0 ∧
    t.block.link.conflicts = 0 ∧ t.block.link.isolated = none ∧ t.block.link.driver = false ∧
    t.block.panel.receiver = .waiting ∧ t.block.panel.present = false ∧ t.block.panel.fills = [] ∧
    t.block.panel.lastTaken = none ∧ t.block.panel.attention = false ∧
    (∀ i : Fin 10, t.block.panel.causes[i] = ⟨false, none, 0⟩)

/-! ## Lanes -/

/-- R13, R30: the nozzle leaves the holster. In AUTHORIZED the lane is LIFTED, or SLOWING where the slow-down point is
already reached; in any other state but OFF only the recorded position changes. A report of a nozzle recorded as out
takes nothing out, in AUTHORIZED as in every state: the model's reading of R13 (notes/assumptions/32.md). -/
def Obligations.NozzleOutLifts : Prop :=
  ∀ (s : State) (l : LaneId), Settled s.block →
    (∀ p c pc, (s.block.lane l).session = .authorized → (s.block.lane l).nozzleOut = false →
      (s.block.lane l).params = some p →
      s.block.laneCfg l = some c → s.block.productCfg p.product = some pc →
      ∃ t, exec (.nozzleOut l) s = .next t ∧ t.pending = s.pending ∧
        sameLane { s.block.lane l with
          session := if p.toFull = false ∧ p.granted ≤ c.slowVolume then .slowing else .lifted,
          nozzleOut := true, lift := .rest, noFlow := .run 60000, duration := .run 1800000, creep := 0,
          creepTimer := .rest,
          check := { (s.block.lane l).check with state := .nosync, run := 0, faults := 0, memory := .none },
          cf := some (correctionFactor pc.alpha (effectiveTemp (s.block.lane l).sample)),
          data := { SessionData.zero with
            start := s.block.roster.clock, minTemp := effectiveTemp (s.block.lane l).sample,
            maxTemp := effectiveTemp (s.block.lane l).sample } } (t.block.lane l) ∧
        (t.block.lane l).slowOpen = true ∧
        ((t.block.lane l).mainOpen = true ↔ ¬ (p.toFull = false ∧ p.granted ≤ c.slowVolume)) ∧
        t.block.pins = { s.block.pins with nozzleOut := s.block.pins.nozzleOut.set l true } ∧
        (∀ u, sameTank (s.block.tank u) (t.block.tank u)) ∧ t.block.accounts = s.block.accounts ∧
        AsideLanes [l] s.block t.block ∧ t.block.panel = s.block.panel) ∧
    ((s.block.lane l).nozzleOut = true →
      exec (.nozzleOut l) s = becomes s (later (s.block.setPins
        { s.block.pins with nozzleOut := s.block.pins.nozzleOut.set l true }))) ∧
    ((s.block.lane l).session ≠ .off → (s.block.lane l).session ≠ .authorized →
      exec (.nozzleOut l) s = becomes s (later ((s.block.setLane l { s.block.lane l with nozzleOut := true }).setPins
        { s.block.pins with nozzleOut := s.block.pins.nozzleOut.set l true }))) ∧
    ((s.block.lane l).session = .off →
      exec (.nozzleOut l) s = becomes s (later (s.block.setPins
        { s.block.pins with nozzleOut := s.block.pins.nozzleOut.set l true })))

/-- R17, R30: the nozzle returns. A running session ends HUNG, a FINISHED lane is IDLE, and any other lane but an OFF
one records the position. -/
def Obligations.NozzleInHangsUp : Prop :=
  ∀ (s : State) (l : LaneId), Settled s.block →
    ((s.block.lane l).session.active = true →
      ∃ t, exec (.nozzleIn l) s = .next t ∧ t.pending = s.pending ∧
        sameLane (closed s.block .hung { s.block.lane l with nozzleOut := false }) (t.block.lane l) ∧
        (t.block.lane l).mainOpen = false ∧ (t.block.lane l).slowOpen = false ∧
        t.block.pins = { s.block.pins with nozzleOut := s.block.pins.nozzleOut.set l false } ∧
        (∀ u, sameTank (s.block.tank u) (t.block.tank u)) ∧ t.block.accounts = s.block.accounts ∧
        AsideLanes [l] s.block t.block ∧ t.block.panel = s.block.panel) ∧
    ((s.block.lane l).session = .finished →
      exec (.nozzleIn l) s = becomes s (later ((s.block.setLane l
        { s.block.lane l with nozzleOut := false, session := .idle, params := none }).setPins
        { s.block.pins with nozzleOut := s.block.pins.nozzleOut.set l false }))) ∧
    ((s.block.lane l).session = .idle ∨ (s.block.lane l).session = .authorized ∨ (s.block.lane l).session = .closing →
      exec (.nozzleIn l) s = becomes s (later ((s.block.setLane l { s.block.lane l with nozzleOut := false }).setPins
        { s.block.pins with nozzleOut := s.block.pins.nozzleOut.set l false }))) ∧
    ((s.block.lane l).session = .off →
      exec (.nozzleIn l) s = becomes s (later (s.block.setPins
        { s.block.pins with nozzleOut := s.block.pins.nozzleOut.set l false })))

/-- R14, R33, R41, R43, R45, R47: an A pulse taken forward in LIFTED through CLOSING, with no error of the pulse check
(`r` is what the check makes of it) and every count and volume within its format: the accumulators, and the points of
a numeric session. -/
def Obligations.ForwardPulseMovesTheSession : Prop :=
  ∀ (s : State) (l : LaneId) (bHigh : Bool) (c : LaneCfg) (p : SessionParams) (cf : Nat) (x : Lane) (r : PulseResult)
    (d : SessionData) (y : Lane),
    Settled s.block → x = s.block.lane l → s.block.laneCfg l = some c → x.params = some p → x.cf = some cf →
    x.session = .lifted ∨ x.session = .flowing ∨ x.session = .slowing ∨ x.session = .closing →
    r = (if c.checkOn then x.check.takeA bHigh else x.check.takeUncheckedLane) → r.forward = true → r.error = false →
    x.data.pulses + 1 < 4294967296 → x.data.unchecked + 1 < 4294967296 → x.data.errors < 4294967296 →
    -9223372036854775808 ≤ x.data.gross → x.data.gross + c.meterFactor ≤ 9223372036854775807 →
    -9223372036854775808 ≤ x.data.net → x.data.net + (c.meterFactor * cf : Nat) ≤ 9223372036854775807 →
    d = { x.data with
      pulses := x.data.pulses + 1, unchecked := x.data.unchecked + boolNat r.unchecked,
      gross := x.data.gross + c.meterFactor, net := x.data.net + (c.meterFactor * cf : Nat),
      tempDefault := x.data.tempDefault || tempIsDefault x.sample,
      tempClamped := x.data.tempClamped || tempIsClamped x.sample } →
    y = { x with
      data := d, check := r.check, windowForward := x.windowForward + 1,
      healthErrors := min 4294967295 x.healthErrors,
      healthUnchecked := min 4294967295 (x.healthUnchecked + boolNat r.unchecked),
      noFlow := if x.session = .flowing ∨ x.session = .slowing then .run 60000 else x.noFlow } →
    ∃ t, exec (.aPulse l bHigh) s = .next t ∧ t.pending = s.pending ∧
      sameLane (forwarded s.block c p y) (t.block.lane l) ∧
      t.block.pins = s.block.pins ∧ t.block.accounts = s.block.accounts ∧ sameStockBut [] s.block t.block ∧
      AsideLanes [l] s.block t.block ∧ samePanel [.stockState] s.block.panel t.block.panel

/-- R21, R33, R35, R49, R50, R51, R87, R114: an A pulse taken in IDLE, AUTHORIZED or FINISHED is creep: below 50 cL it
joins the creep volume, starts the creep timer, and counts in the rate window and the meter health; at 50 cL the volume
clears and CREEP is presented on the own zone's view, which trips a NORMAL or CLEARING one, refreshes the cause of a
TRIPPED one and is held in STARTING. An OFF lane disregards pulses. A trip of the own zone's NORMAL view acts on the own
lanes, and the records of the grants that it ends are let go; all else in the account table stands (`TripFollows`). -/
def Obligations.PulseOutsideASessionIsCreep : Prop :=
  ∀ (s : State) (l : LaneId) (bHigh : Bool) (x : Lane), Settled s.block → x = s.block.lane l →
    (∀ (c : LaneCfg) (r : PulseResult), s.block.laneCfg l = some c →
      x.session = .idle ∨ x.session = .authorized ∨ x.session = .finished →
      r = (if c.checkOn then x.check.takeA bHigh else x.check.takeUncheckedLane) →
      x.creep + c.meterFactor < 500000 →
      exec (.aPulse l bHigh) s = becomes s (later (s.block.setLane l { x with
        check := r.check, creep := x.creep + c.meterFactor, creepTimer := .run 60000,
        healthErrors := min 4294967295 (x.healthErrors + boolNat r.error),
        healthUnchecked := min 4294967295 (x.healthUnchecked + boolNat r.unchecked),
        windowForward := x.windowForward + boolNat r.forward,
        windowReverse := x.windowReverse + boolNat (!r.forward) }))) ∧
    (∀ (c : LaneCfg) (r : PulseResult) (z : ZoneId), s.block.laneCfg l = some c →
      x.session = .idle ∨ x.session = .authorized ∨ x.session = .finished →
      r = (if c.checkOn then x.check.takeA bHigh else x.check.takeUncheckedLane) →
      500000 ≤ x.creep + c.meterFactor → s.block.store.ownZone = some z →
      ∃ t, exec (.aPulse l bHigh) s = .next t ∧ t.pending = s.pending ∧
        Presented z .creep (s.block.setLane l { x with
          check := r.check, creep := 0, creepTimer := .run 60000,
          healthErrors := min 4294967295 (x.healthErrors + boolNat r.error),
          healthUnchecked := min 4294967295 (x.healthUnchecked + boolNat r.unchecked),
          windowForward := x.windowForward + boolNat r.forward,
          windowReverse := x.windowReverse + boolNat (!r.forward) }) t.block) ∧
    (x.session = .off → exec (.aPulse l bHigh) s = becomes s (later s.block))

/-- R32, R34 to R36: what the pulse check makes of a pulse. In NOSYNC every A pulse is forward and unchecked, and the
eighth sound one of a direction gives sync in it; one of the other direction starts the run again, a sound B pulse keeps
it, and a repeat of either line returns it to 0. In sync an A pulse is taken as read, a repeat of its line is an error,
and the fourth error in a row gives NOSYNC; a sound B pulse keeps the count of errors. With the check off, an A pulse is
forward, neither unchecked nor an error, and moves nothing. -/
def Obligations.PulseCheckFollowsAlternation : Prop :=
  ∀ (k : PulseCheck) (bHigh : Bool),
    (k.takeA bHigh).check.memory = .a ∧ k.takeB.check.memory = .b ∧
    (k.state = .nosync → (k.takeA bHigh).forward = true ∧ (k.takeA bHigh).unchecked = true ∧
      (k.takeA bHigh).error = false ∧ k.takeB.error = false) ∧
    (k.state = .nosync → k.memory ≠ .a → k.run = 7 → k.runReverse = bHigh →
      (k.takeA bHigh).check = ⟨if bHigh then .reverse else .forward, 0, bHigh, 0, .a⟩) ∧
    (k.state = .nosync → k.memory ≠ .a → k.run < 7 →
      (k.takeA bHigh).check = { k with
        run := if 1 ≤ k.run ∧ k.runReverse = bHigh then k.run + 1 else 1, runReverse := bHigh, memory := .a }) ∧
    (k.state = .nosync → k.memory ≠ .a → k.run = 7 → k.runReverse ≠ bHigh →
      (k.takeA bHigh).check = { k with run := 1, runReverse := bHigh, memory := .a }) ∧
    (k.state = .nosync → k.memory = .a → (k.takeA bHigh).check = { k with run := 0 }) ∧
    (k.state = .nosync → k.memory ≠ .b → k.takeB.check = { k with memory := .b }) ∧
    (k.state = .nosync → k.memory = .b → k.takeB.check = { k with run := 0 }) ∧
    (k.takeUncheckedLane.check = k ∧ k.takeUncheckedLane.forward = true ∧ k.takeUncheckedLane.unchecked = false ∧
      k.takeUncheckedLane.error = false) ∧
    (k.state ≠ .nosync → (k.takeA bHigh).forward = !bHigh ∧ (k.takeA bHigh).unchecked = false ∧
      ((k.takeA bHigh).error = true ↔ k.memory = .a) ∧ (k.takeB.error = true ↔ k.memory = .b)) ∧
    (k.state ≠ .nosync → k.memory ≠ .a →
      (k.takeA bHigh).check = { k with state := if bHigh then .reverse else .forward, faults := 0, memory := .a }) ∧
    (k.state ≠ .nosync → k.memory = .a → k.faults < 3 →
      (k.takeA bHigh).check = { k with state := if bHigh then .reverse else .forward, faults := k.faults + 1 }) ∧
    (k.state ≠ .nosync → k.memory = .a → k.faults = 3 →
      (k.takeA bHigh).check = { k with state := .nosync, run := 0, faults := 0 }) ∧
    (k.state ≠ .nosync → k.memory ≠ .b → k.takeB.check = { k with memory := .b }) ∧
    (k.state ≠ .nosync → k.memory = .b → k.faults < 3 → k.takeB.check = { k with faults := k.faults + 1 }) ∧
    (k.state ≠ .nosync → k.memory = .b → k.faults = 3 →
      k.takeB.check = { k with state := .nosync, run := 0, faults := 0 })

/-- R18, R33, R36, R37, R43, R46, R51: a B pulse goes to the check alone; an error in LIFTED through CLOSING counts
against the budget of 8 and one for each whole thousand of A pulses, and one past it ends a running session METER_FAULT,
or is stored as secondary cause in CLOSING if none is stored, once in a session. A faulty forward A pulse in sync does
the same, counted with it, and moves the volume and the session as any forward pulse does. A reverse A pulse, faulty or
not, takes volume out and joins reverse gross, restarts the no-flow timer, counts in the window, and in FLOWING and
SLOWING has the points compared after it; METER_FAULT follows it past the budget, or with reverse gross above 200 cL.
That the budget is looked at after the counts and before the volume, and that a fault disregarded is not taken, is the
model's choice (notes/assumptions/12.md). -/
def Obligations.PulseErrorsEndInMeterFault : Prop :=
  (∀ (s : State) (l : LaneId) (c : LaneCfg) (x : Lane) (r : PulseResult), Settled s.block → x = s.block.lane l →
    s.block.laneCfg l = some c → r = x.check.takeB →
    (x.session = .off ∨ c.checkOn = false → exec (.bPulse l) s = becomes s (later s.block)) ∧
    (x.session ≠ .off → c.checkOn = true → r.error = false ∨ x.session.metered = false →
      exec (.bPulse l) s = becomes s (later (s.block.setLane l { x with
        check := r.check, healthErrors := min 4294967295 (x.healthErrors + boolNat r.error),
        healthUnchecked := min 4294967295 (x.healthUnchecked + boolNat r.unchecked) }))) ∧
    (c.checkOn = true → r.error = true → x.session.metered = true →
      x.data.errors + 1 ≤ 8 + x.data.pulses / 1000 ∨ x.data.faultTaken = true ∨
        (x.session = .closing ∧ x.data.secondary ≠ none) → x.data.errors + 1 < 4294967296 →
      exec (.bPulse l) s = becomes s (later (s.block.setLane l { x with
        check := r.check, data := { x.data with errors := x.data.errors + 1 },
        healthErrors := min 4294967295 (x.healthErrors + 1),
        healthUnchecked := min 4294967295 (x.healthUnchecked + boolNat r.unchecked) }))) ∧
    (c.checkOn = true → r.error = true → x.session.active = true → x.data.faultTaken = false →
      8 + x.data.pulses / 1000 < x.data.errors + 1 → x.data.errors + 1 < 4294967296 →
      ∃ t, exec (.bPulse l) s = .next t ∧ t.pending = s.pending ∧
        sameLane (closed s.block .meterFault { x with
          check := r.check, data := { x.data with errors := x.data.errors + 1, faultTaken := true },
          healthErrors := min 4294967295 (x.healthErrors + 1),
          healthUnchecked := min 4294967295 (x.healthUnchecked + boolNat r.unchecked) }) (t.block.lane l) ∧
        t.block.panel.causes[Cause.meterFault.index] =
          ⟨true, some l.val, min 255 (s.block.panel.causes[Cause.meterFault.index].count + 1)⟩ ∧
        t.block.pins = s.block.pins ∧ t.block.accounts = s.block.accounts ∧
        (∀ u, sameTank (s.block.tank u) (t.block.tank u)) ∧ AsideLanes [l] s.block t.block ∧
        samePanel [.meterFault] s.block.panel t.block.panel) ∧
    (c.checkOn = true → r.error = true → x.session = .closing → x.data.secondary = none → x.data.faultTaken = false →
      8 + x.data.pulses / 1000 < x.data.errors + 1 → x.data.errors + 1 < 4294967296 →
      ∃ t, exec (.bPulse l) s = .next t ∧ t.pending = s.pending ∧
        sameLane { x with
          check := r.check,
          data := { x.data with errors := x.data.errors + 1, faultTaken := true, secondary := some .meterFault },
          healthErrors := min 4294967295 (x.healthErrors + 1),
          healthUnchecked := min 4294967295 (x.healthUnchecked + boolNat r.unchecked) } (t.block.lane l) ∧
        t.block.panel.causes[Cause.meterFault.index] =
          ⟨true, some l.val, min 255 (s.block.panel.causes[Cause.meterFault.index].count + 1)⟩ ∧
        t.block.pins = s.block.pins ∧ t.block.accounts = s.block.accounts ∧
        (∀ u, sameTank (s.block.tank u) (t.block.tank u)) ∧ AsideLanes [l] s.block t.block ∧
        samePanel [.meterFault] s.block.panel t.block.panel)) ∧
  (∀ (s : State) (l : LaneId) (c : LaneCfg) (p : SessionParams) (cf : Nat) (x : Lane) (r : PulseResult)
      (d : SessionData) (y : Lane),
    Settled s.block → x = s.block.lane l → s.block.laneCfg l = some c → x.params = some p → x.cf = some cf →
    x.session.metered = true → c.checkOn = true → x.check.state ≠ .nosync → x.check.memory = .a →
    r = x.check.takeA false →
    x.data.pulses + 1 < 4294967296 → x.data.unchecked < 4294967296 → x.data.errors + 1 < 4294967296 →
    -9223372036854775808 ≤ x.data.gross → x.data.gross + c.meterFactor ≤ 9223372036854775807 →
    -9223372036854775808 ≤ x.data.net → x.data.net + (c.meterFactor * cf : Nat) ≤ 9223372036854775807 →
    d = { x.data with
      pulses := x.data.pulses + 1, errors := x.data.errors + 1,
      gross := x.data.gross + c.meterFactor, net := x.data.net + (c.meterFactor * cf : Nat),
      tempDefault := x.data.tempDefault || tempIsDefault x.sample,
      tempClamped := x.data.tempClamped || tempIsClamped x.sample } →
    y = { x with
      data := d, check := r.check, windowForward := x.windowForward + 1,
      healthErrors := min 4294967295 (x.healthErrors + 1), healthUnchecked := min 4294967295 x.healthUnchecked,
      noFlow := if x.session = .flowing ∨ x.session = .slowing then .run 60000 else x.noFlow } →
    ∃ t, exec (.aPulse l false) s = .next t ∧ t.pending = s.pending ∧
      (8 + d.pulses / 1000 < d.errors → d.faultTaken = false → x.session.active = true →
        sameLane (closed s.block .meterFault { y with data := { d with faultTaken := true } }) (t.block.lane l)) ∧
      (8 + d.pulses / 1000 < d.errors → d.faultTaken = false → x.session = .closing → d.secondary = none →
        sameLane { y with data := { d with faultTaken := true, secondary := some .meterFault } } (t.block.lane l)) ∧
      (8 + d.pulses / 1000 < d.errors → d.faultTaken = false → x.session.active = true ∨ d.secondary = none →
        t.block.panel.causes[Cause.meterFault.index] =
          ⟨true, some l.val, min 255 (s.block.panel.causes[Cause.meterFault.index].count + 1)⟩) ∧
      (d.errors ≤ 8 + d.pulses / 1000 ∨ d.faultTaken = true ∨ (x.session = .closing ∧ d.secondary ≠ none) →
        sameLane (forwarded s.block c p y) (t.block.lane l) ∧
        samePanel [.stockState] s.block.panel t.block.panel) ∧
      t.block.pins = s.block.pins ∧ t.block.accounts = s.block.accounts ∧ sameStockBut [] s.block t.block ∧
      AsideLanes [l] s.block t.block ∧ samePanel [.meterFault, .stockState] s.block.panel t.block.panel) ∧
  (∀ (s : State) (l : LaneId) (c : LaneCfg) (p : SessionParams) (cf : Nat) (x : Lane) (r : PulseResult)
      (d : SessionData) (y : Lane) (hit : Prop),
    Settled s.block → x = s.block.lane l → s.block.laneCfg l = some c → x.params = some p → x.cf = some cf →
    x.session.metered = true → c.checkOn = true → x.check.state ≠ .nosync → r = x.check.takeA true →
    x.data.reverse + c.meterFactor < 2 ^ 64 → x.data.pulses + 1 < 4294967296 → x.data.unchecked < 4294967296 →
    x.data.errors + 1 < 4294967296 → -9223372036854775808 ≤ x.data.gross - c.meterFactor →
    x.data.gross ≤ 9223372036854775807 → -9223372036854775808 ≤ x.data.net - (c.meterFactor * cf : Nat) →
    x.data.net ≤ 9223372036854775807 →
    d = { x.data with
      pulses := x.data.pulses + 1, errors := if x.check.memory = .a then x.data.errors + 1 else x.data.errors,
      gross := x.data.gross - c.meterFactor, net := x.data.net - (c.meterFactor * cf : Nat),
      reverse := x.data.reverse + c.meterFactor,
      tempDefault := x.data.tempDefault || tempIsDefault x.sample,
      tempClamped := x.data.tempClamped || tempIsClamped x.sample } →
    y = { x with
      data := d, check := r.check, windowReverse := x.windowReverse + 1,
      healthErrors := min 4294967295 (if x.check.memory = .a then x.healthErrors + 1 else x.healthErrors),
      healthUnchecked := min 4294967295 x.healthUnchecked,
      noFlow := if x.session = .flowing ∨ x.session = .slowing then .run 60000 else x.noFlow } →
    (hit ↔ d.faultTaken = false ∧
      (x.check.memory = .a ∧ 8 + d.pulses / 1000 < d.errors ∨ 2000000 < d.reverse)) →
    ∃ t, exec (.aPulse l true) s = .next t ∧ t.pending = s.pending ∧
      (hit → x.session.active = true →
        sameLane (closed s.block .meterFault { y with data := { d with faultTaken := true } }) (t.block.lane l)) ∧
      (hit → x.session = .closing → d.secondary = none →
        sameLane { y with data := { d with faultTaken := true, secondary := some .meterFault } } (t.block.lane l)) ∧
      (hit → x.session.active = true ∨ d.secondary = none →
        t.block.panel.causes[Cause.meterFault.index] =
          ⟨true, some l.val, min 255 (s.block.panel.causes[Cause.meterFault.index].count + 1)⟩) ∧
      (¬ hit ∨ (x.session = .closing ∧ d.secondary ≠ none) →
        sameLane (reversed s.block c p y) (t.block.lane l) ∧ samePanel [.stockState] s.block.panel t.block.panel) ∧
      t.block.pins = s.block.pins ∧ t.block.accounts = s.block.accounts ∧ sameStockBut [] s.block t.block ∧
      AsideLanes [l] s.block t.block ∧ samePanel [.meterFault, .stockState] s.block.panel t.block.panel)

/-- R39 to R42: a sample, or the expiry of the sample watch, becomes the last sample; in LIFTED through CLOSING the
correction factor is formed anew and the minimum and maximum take the effective temperature in. The factor's distance
from 1,000,000 is α × (T − 150) / 10 to the nearest whole number, alike on both sides of 15 °C. -/
def Obligations.SamplesSetTheTemperature : Prop :=
  (∀ (s : State) (l : LaneId) (x : Lane), Settled s.block → x = s.block.lane l →
    (∀ v, x.session = .off → exec (.temperatureSample l v) s = becomes s (later s.block)) ∧
    (∀ v, x.session ≠ .off → x.session.metered = false →
      exec (.temperatureSample l v) s = becomes s (later (s.block.setLane l
        { x with sample := some v, watch := .run 3000 }))) ∧
    (∀ v p pc, x.session.metered = true → x.params = some p → s.block.productCfg p.product = some pc →
      exec (.temperatureSample l v) s = becomes s (later (s.block.setLane l
        { x with
          sample := some v, watch := .run 3000, cf := some (correctionFactor pc.alpha (effectiveTemp (some v))),
          data := { x.data with
            minTemp := min x.data.minTemp (effectiveTemp (some v)),
            maxTemp := max x.data.maxTemp (effectiveTemp (some v)) } }))) ∧
    (∀ left, x.watch = .run left → x.session.metered = false →
      exec (.sampleWatchExpiry l) s = becomes s (later (s.block.setLane l
        { x with sample := some .probeFault, watch := .expired }))) ∧
    (∀ left p, x.watch = .run left → x.session.metered = true → x.params = some p →
      exec (.sampleWatchExpiry l) s = becomes s (later (s.block.setLane l
        { x with
          sample := some .probeFault, watch := .expired, cf := some 1000000,
          data := { x.data with minTemp := min x.data.minTemp 150, maxTemp := max x.data.maxTemp 150 } })))) ∧
  (∀ (alpha : Nat) (t : Int), alpha ≤ 1500 → -400 ≤ t → t ≤ 700 →
    (900000 ≤ correctionFactor alpha t ∧ correctionFactor alpha t ≤ 1100000) ∧
    2 * (10 * (1000000 - (correctionFactor alpha t : Int)) - alpha * (t - 150)) ≤ 10 ∧
    -10 ≤ 2 * (10 * (1000000 - (correctionFactor alpha t : Int)) - alpha * (t - 150)) ∧
    (correctionFactor alpha t : Int) - 1000000 = 1000000 - (correctionFactor alpha (300 - t) : Int))

/-- R12, R17, R19: the lift timer ends a grant LAPSED and raises AUTH_LAPSED; the no-flow and duration timers end a
running session; where the state has no such timer, nothing changes (the model's choice, notes/assumptions/30.md). -/
def Obligations.LaneTimersEndGrantsAndSessions : Prop :=
  ∀ (s : State) (l : LaneId), Settled s.block →
    ((s.block.lane l).session = .authorized →
      ∃ t, exec (.liftTimerExpiry l) s = .next t ∧ t.pending = s.pending ∧
        sameLane { s.block.lane l with session := .idle, params := none, lift := .rest, lapse := some .lapsed }
          (t.block.lane l) ∧
        t.block.panel.causes[Cause.authLapsed.index] =
          ⟨true, some l.val, min 255 (s.block.panel.causes[Cause.authLapsed.index].count + 1)⟩ ∧
        t.block.accounts = { s.block.accounts with
          records := s.block.accounts.records.map fun r =>
            if r.inFlight = some l then { r with inFlight := none } else r } ∧
        t.block.pins = s.block.pins ∧ sameStockBut [] s.block t.block ∧ AsideLanes [l] s.block t.block ∧
        samePanel [.authLapsed, .stockState] s.block.panel t.block.panel) ∧
    ((s.block.lane l).session ≠ .authorized → exec (.liftTimerExpiry l) s = becomes s (later s.block)) ∧
    (∀ cmd cause, (cmd, cause) = (Instr.noFlowExpiry l, EndCause.noFlow) ∨
        (cmd, cause) = (Instr.durationExpiry l, EndCause.duration) →
      ((s.block.lane l).session.active = false → exec cmd s = becomes s (later s.block)) ∧
      ((s.block.lane l).session.active = true →
        ∃ t, exec cmd s = .next t ∧ t.pending = s.pending ∧
          sameLane (closed s.block cause (s.block.lane l)) (t.block.lane l) ∧
          (t.block.lane l).mainOpen = false ∧ (t.block.lane l).slowOpen = false ∧ (t.block.lane l).duty = 0 ∧
          t.block.pins = s.block.pins ∧ t.block.accounts = s.block.accounts ∧
          (∀ u, sameTank (s.block.tank u) (t.block.tank u)) ∧ AsideLanes [l] s.block t.block ∧
          t.block.panel = s.block.panel))

/-- R22, R26 to R30, R60, R61, R87 to R89, R92, R104: the settle timer of a CLOSING lane expires under a LOCKED lock:
the record is built, and handed to the fill record queue, the tank, the account table and the transmit queue, by its
direction and its disposition: the bulk totals, the unassigned record, or the machine's record, whose hours before the
posting and whose class the DRAW entry then carries. A posting that takes a tank view to DRY ends every other own DRAW
session on the tank in that event: a grant lapses DRY and its record is let go, a running session takes end cause DRY,
and one in CLOSING stores it as secondary (R22, R60). Under an OPEN lock it is a calibration fill: sequence 0, in the
queue with its flag, posted nowhere. -/
def Obligations.SettleBuildsAndHandsOff : Prop :=
  (∀ (s : State) (l : LaneId) (p : SessionParams) (x : Lane) (r : FillRecord) (total : Nat) (a : Accounts),
    Settled s.block → x = s.block.lane l → x.session = .closing → x.params = some p → s.block.store.lock = .locked →
    s.block.roster.drawSeq + 1 < 4294967296 → a = s.block.accounts →
    r = { seq := s.block.roster.drawSeq + 1, lane := l, direction := p.direction, product := p.product, tank := p.tank,
          machine := p.machine, requested := p.requested, granted := p.granted, toFull := p.toFull, clamp := p.clamp,
          net := netCL x.data.net, gross := grossCL x.data.gross, reverse := microCL x.data.reverse,
          start := x.data.start, stop := x.data.stop, hours := p.hours, cause := x.data.primary,
          secondary := x.data.secondary, minTemp := x.data.minTemp, maxTemp := x.data.maxTemp, pulses := x.data.pulses,
          unchecked := x.data.unchecked, errors := x.data.errors,
          flags := fillFlags p x.data (s.block.checkOn l) false, disposition := p.disposition } →
    total = (match p.direction with
      | .draw => ((s.block.tank p.tank).drawTotal + r.net) % 4294967296
      | .ret => ((s.block.tank p.tank).returnTotal + r.net) % 4294967296) →
    ∃ t, exec (.settleExpiry l) s = .next t ∧ t.pending = s.pending ∧
      t.block.panel.fills = s.block.panel.fills ++ [r] ∧
      sameLane
        (if x.nozzleOut = true then { x with settle := .rest, cf := none, session := .finished }
        else { x with settle := .rest, cf := none, session := .idle, params := none }) (t.block.lane l) ∧
      sameStock
        (match p.direction with
        | .draw => { bookMoved .draw r.net (s.block.tank p.tank) with drawTotal := total }
        | .ret => { bookMoved .ret r.net (s.block.tank p.tank) with returnTotal := total }) (t.block.tank p.tank) ∧
      sameStockBut [p.tank] s.block t.block ∧
      (p.disposition = .bulk → t.block.accounts = letGoBy (fun k => k = l ∨ grantDried s.block t.block k)
        { a with bulk := totalsPosted p.direction p.product r.net a.bulk }) ∧
      (p.disposition = .unassigned → t.block.accounts = letGoBy (fun k => k = l ∨ grantDried s.block t.block k)
        { a with unassigned := totalsPosted p.direction p.product r.net a.unassigned }) ∧
      (∀ q m n, p.disposition = .record → a.find p.machine = some m →
        q = { machine := p.machine, product := p.product, cls := (s.block.productCfg p.product).map (·.cls),
              direction := p.direction, net := r.net, hours := p.hours, toFull := p.toFull, start := x.data.start,
              stop := x.data.stop, station := s.block.store.number, lane := l, prior := none } →
        n = postRecord (classFields s.block.store m.cls) q m →
        t.block.accounts = letGoBy (fun k => k = l ∨ grantDried s.block t.block k)
          { a with records := n :: a.records.filter fun k => k.machine ≠ p.machine } ∧
        flagsRaised m n s.block.panel t.block.panel) ∧
      t.block.roster.drawSeq = r.seq ∧ t.block.roster.entries = s.block.roster.entries ∧
      t.block.roster.clock = s.block.roster.clock ∧
      (∀ prior cls, s.block.link.isolated = none →
        (prior, cls) = (match p.disposition, a.find p.machine with
          | .record, some m => (m.hours, m.cls)
          | _, _ => (none, 0)) →
        t.block.link = { s.block.link with
          stamp := s.block.link.stamp + 1,
          queue := insertEntry ⟨s.block.link.stamp, .draw {
            seq := r.seq, lane := l, direction := p.direction, product := p.product, tank := p.tank,
            machine := p.machine, cls := cls, net := r.net, total := total, hours := p.hours, prior := prior,
            toFull := p.toFull, start := x.data.start, stop := x.data.stop }⟩ s.block.link.queue }) ∧
      (s.block.link.isolated ≠ none → t.block.link = s.block.link) ∧
      t.block.store = s.block.store ∧ t.block.pins = s.block.pins ∧ sameSpill s.block.spill t.block.spill ∧
      stockRaised s.block t.block ∧ sameLanesBut [l] s.block t.block) ∧
  (∀ (s : State) (l : LaneId) (p : SessionParams),
    Settled s.block → (s.block.lane l).session = .closing → (s.block.lane l).params = some p →
    s.block.store.lock = .opened →
    ∃ t r, exec (.settleExpiry l) s = .next t ∧ t.block.panel.fills = s.block.panel.fills ++ [r] ∧
      r.seq = 0 ∧ r.flags.calibration = true ∧ r.lane = l ∧ r.net = netCL (s.block.lane l).data.net ∧
      sameStockBut [] s.block t.block ∧ t.block.link = s.block.link ∧
      t.block.roster.drawSeq = s.block.roster.drawSeq ∧ t.block.accounts.bulk = s.block.accounts.bulk ∧
      t.block.accounts.unassigned = s.block.accounts.unassigned ∧
      t.block.accounts.records = s.block.accounts.records.map fun x =>
        if x.inFlight = some l then { x with inFlight := none } else x)

/-- R92 to R103: what the eight steps of a posting make of a machine record, item by item: the resync by prior hours,
the reading, a jump, the base hours and the carry, the hours to service, the sample and the estimate with its flagged
run, the totals, a double fill and the last fill, each with its flag; a flag found set stays set. (What step 3 makes of
a record after a resync in step 2 is the model's reading, notes/assumptions/16.md; the direction of a run of 0,
notes/assumptions/43.md.) -/
def Obligations.PostingFollowsItsSteps : Prop :=
  ∀ (band : ClassCfg) (q : Posting) (r : MachineRecord), Posted band q r (postRecord band q r)

/-- R21, R47, R48, R50, R77, R87, R114: a rate window ends: the measured rate, the excess run, and a new window; below
the second high window in a row nothing is presented, and from it on EXCESS_FLOW is presented on the own zone's view. A
trip of the own zone's NORMAL view acts on the own lanes, and the records of the grants that it ends are let go; all
else in the account table stands (`TripFollows`). An OFF lane measures nothing. The creep timer's expiry clears the
creep volume, and does nothing where the timer rests (the model's choice, notes/assumptions/30.md). A step of the
set-point period is a command that puts the lane's duty in force (the model's choice, notes/assumptions/28.md), and over
the 256 steps at a duty of n the output is on in n. -/
def Obligations.WindowCreepAndSetPoint : Prop :=
  (∀ (s : State) (l : LaneId) (c : LaneCfg) (x : Lane) (raw run : Nat), Settled s.block → x = s.block.lane l →
    s.block.laneCfg l = some c →
    raw = (x.windowForward - x.windowReverse) * c.meterFactor * 60 / 1000000 →
    run = (if c.maxRate * 125 < raw * 100 then x.excessRun + 1 else 0) →
    (x.session = .off → exec (.rateWindowEnd l) s = becomes s (later s.block)) ∧
    (x.session ≠ .off → run < 2 → exec (.rateWindowEnd l) s = becomes s (later (s.block.setLane l { x with
      rate := min raw 1500, excessRun := run, windowForward := 0, windowReverse := 0, windowTimer := .run 1000 }))) ∧
    (∀ z, x.session ≠ .off → 2 ≤ run → s.block.store.ownZone = some z →
      ∃ t, exec (.rateWindowEnd l) s = .next t ∧ t.pending = s.pending ∧
        Presented z .excessFlow (s.block.setLane l { x with
          rate := min raw 1500, excessRun := run, windowForward := 0, windowReverse := 0,
          windowTimer := .run 1000 }) t.block)) ∧
  (∀ (s : State) (l : LaneId), Settled s.block →
    ((s.block.lane l).creepTimer.running = true → exec (.creepTimerExpiry l) s = becomes s (later (s.block.setLane l
      { s.block.lane l with creep := 0, creepTimer := .rest }))) ∧
    ((s.block.lane l).creepTimer.running = false → exec (.creepTimerExpiry l) s = becomes s (later s.block)) ∧
    exec (.setPointStep l) s = becomes s (later (s.block.setLane l
      { s.block.lane l with
        step := ((s.block.lane l).step + 1) % 256, dutyInForce := (s.block.lane l).duty,
        setPoint := setPointOn (s.block.lane l).duty (((s.block.lane l).step + 1) % 256) }))) ∧
  (∀ n : Nat, n ≤ 255 → ((List.range 256).filter fun k => setPointOn n k).length = n)

/-! ## Spill shutdown -/

/-- R21, R87, R112, R113, R114, R116, R119: the spill inputs. An enabled input that becomes active confirms after its
time, an ESTOP at once; the confirmation presents its source, which trips a NORMAL or CLEARING view, refreshes the cause
of a TRIPPED one and is held in STARTING; a line that goes inactive ends it; a disabled input's line is only sensed. A
trip of the own zone's NORMAL view acts on the own lanes, and the records of the grants that it ends are let go; all
else in the account table stands (`TripFollows`). That the timer of a CONFIRMED input is at rest is the model's choice
(notes/assumptions/51.md). -/
def Obligations.SpillInputsConfirmAndTrip : Prop :=
  ∀ (s : State) (i : InputId) (c : InputCfg), Settled s.block → s.block.running = true → s.block.inputCfg i = some c →
    (c.enabled = false →
      exec (.spillInputActive i) s = becomes s (later (s.block.setPins
        { s.block.pins with inputHigh := s.block.pins.inputHigh.set i c.activeHigh })) ∧
      exec (.spillInputInactive i) s = becomes s (later (s.block.setPins
        { s.block.pins with inputHigh := s.block.pins.inputHigh.set i (!c.activeHigh) }))) ∧
    (c.enabled = true → (s.block.input i).state = .inactive → c.kind ≠ .estop → c.confirm ≠ 0 →
      exec (.spillInputActive i) s = becomes s (later ((s.block.setPins
        { s.block.pins with inputHigh := s.block.pins.inputHigh.set i c.activeHigh }).setInput i
          ⟨.confirming, .run (c.confirm * 100)⟩))) ∧
    (c.enabled = true → (s.block.input i).state ≠ .inactive →
      exec (.spillInputActive i) s = becomes s (later (s.block.setPins
        { s.block.pins with inputHigh := s.block.pins.inputHigh.set i c.activeHigh }))) ∧
    (c.enabled = true →
      exec (.spillInputInactive i) s = becomes s (later ((s.block.setPins
        { s.block.pins with inputHigh := s.block.pins.inputHigh.set i (!c.activeHigh) }).setInput i ⟨.inactive, .rest⟩))) ∧
    ((s.block.input i).state ≠ .confirming → exec (.confirmTimerExpiry i) s = becomes s (later s.block)) ∧
    (∀ cmd pins, c.enabled = true →
      (cmd = Instr.confirmTimerExpiry i ∧ (s.block.input i).state = .confirming ∧ (s.block.input i).timer.running = true ∧
          pins = s.block.pins ∨
        cmd = Instr.spillInputActive i ∧ (s.block.input i).state = .inactive ∧ c.kind = .estop ∧
          pins = { s.block.pins with inputHigh := s.block.pins.inputHigh.set i c.activeHigh }) →
      ((s.block.view c.zone).state = .normal ∨ (s.block.view c.zone).state = .clearing →
        (s.block.view c.zone).epoch < 65534 →
        ∃ t, exec cmd s = .next t ∧ t.pending = s.pending ∧ t.block.input i = ⟨.confirmed, .rest⟩ ∧ t.block.pins = pins ∧
          (∀ j, j ≠ i → t.block.input j = s.block.input j) ∧ TripMade c.zone (causeOfKind c.kind) s.block t.block) ∧
      ((s.block.view c.zone).state = .tripped →
        exec cmd s = becomes s (later (((s.block.setPins pins).setInput i ⟨.confirmed, .rest⟩).setView c.zone
          { s.block.view c.zone with cause := causeOfKind c.kind, origin := some s.block.store.number }))) ∧
      ((s.block.view c.zone).state = .starting →
        exec cmd s = becomes s (later (((s.block.setPins pins).setInput i ⟨.confirmed, .rest⟩).setView c.zone
          { s.block.view c.zone with held := some (causeOfKind c.kind) }))))

/-- R21, R87, R116, R121: the zone line of the own zone is sensed while the own view is NORMAL and the settle timer
rests, and at the settle timer's expiry; asserted, it trips the zone. A trip of the own zone's NORMAL view acts on the
own lanes, and the records of the grants that it ends are let go; all else in the account table stands (`TripFollows`).
That the command also carries the line's fall, and that an expiry at rest does nothing, is the model's choice
(notes/assumptions/34.md, notes/assumptions/30.md). -/
def Obligations.ZoneLineTripsWhenSensed : Prop :=
  ∀ (s : State) (z : ZoneId), Settled s.block → s.block.running = true → s.block.store.ownZone = some z →
    ((s.block.view z).state ≠ .normal ∨ s.block.spill.settle.running = true → ∀ on,
      exec (.zoneLineAsserted on) s = becomes s (later (s.block.setPins { s.block.pins with zoneLine := on }))) ∧
    (exec (.zoneLineAsserted false) s = becomes s (later (s.block.setPins { s.block.pins with zoneLine := false }))) ∧
    ((s.block.view z).state = .normal → s.block.spill.settle = .rest → (s.block.view z).epoch < 65534 →
      ∃ t, exec (.zoneLineAsserted true) s = .next t ∧ t.pending = s.pending ∧
        t.block.pins = { s.block.pins with zoneLine := true } ∧ TripMade z .zoneLine s.block t.block) ∧
    (s.block.spill.settle.running = false → exec .zoneSettleExpiry s = becomes s (later s.block)) ∧
    (s.block.spill.settle.running = true → s.block.pins.zoneLine = false ∨ (s.block.view z).state ≠ .normal →
      exec .zoneSettleExpiry s = becomes s (later (s.block.setSpill { s.block.spill with settle := .rest }))) ∧
    (s.block.spill.settle.running = true → s.block.pins.zoneLine = true → (s.block.view z).state = .normal →
      (s.block.view z).epoch < 65534 →
      ∃ t, exec .zoneSettleExpiry s = .next t ∧ t.pending = s.pending ∧ t.block.spill.settle = .rest ∧
        t.block.pins = s.block.pins ∧ TripMade z .zoneLine s.block t.block)

/-- R21, R87, R115, R122, R123, R127, R132: what makes the local sources of a zone quiet, and which gauged tank's
HIGH_HIGH level stands in it; the release key on a TRIPPED own view makes this station the sender if its zone's sources
are quiet, else it is refused; the interval's end offers copy 2 or trips the zone again; a receiver whose wait runs out
is TRIPPED as it was. A trip of the own zone's NORMAL view acts on the own lanes, and the records of the grants that it
ends are let go; all else in the account table stands (`TripFollows`). That the key acts on a view made TRIPPED while
the listen still runs is the model's choice (notes/assumptions/52.md). -/
def Obligations.ReleaseGoesByItsStages : Prop :=
  (∀ (b : Block) (z : ZoneId), (b.quiet z = true ↔ SourcesQuiet b z) ∧
    (b.highHighIn z = true ↔
      ∃ u c, gaugedHere b u ∧ b.tankCfg u = some c ∧ c.zone = z ∧ (b.tank u).highHigh = true)) ∧
  ∀ (s : State) (z : ZoneId), Settled s.block → s.block.running = true → s.block.store.ownZone = some z →
    ((s.block.view z).state ≠ .tripped → exec .releaseKey s = becomes s (later s.block)) ∧
    ((s.block.view z).state = .tripped → s.block.quiet z = false →
      ∃ t, exec .releaseKey s = .next t ∧ t.pending = s.pending ∧
        t.block.panel.causes[Cause.zoneTripped.index] =
          ⟨true, some 4, min 255 (s.block.panel.causes[Cause.zoneTripped.index].count + 1)⟩ ∧
        { t.block with panel := s.block.panel } = later s.block ∧ samePanel [.zoneTripped] s.block.panel t.block.panel) ∧
    ((s.block.view z).state = .tripped → s.block.quiet z = true →
      ∃ t, exec .releaseKey s = .next t ∧ t.pending = s.pending ∧
        t.block.view z = { s.block.view z with
          state := .clearing,
          clearing := some (if s.block.link.isolated = none then .sender (s.block.view z).epoch .copy1 .rest
            else .sender (s.block.view z).epoch .interval (.run 1000)) } ∧
        (∀ e ∈ t.block.link.queue, e.body.linkClass = 0 → e.body.contender ≠ .trip z) ∧
        (s.block.link.isolated = none → ∃ e ∈ t.block.link.queue, e.body = .clear z (s.block.view z).epoch 1) ∧
        ReleaseFrame z s.block t.block) ∧
    (∀ e left, (s.block.view z).state = .clearing → (s.block.view z).clearing = some (.sender e .interval (.run left)) →
      (s.block.quiet z = true → s.block.link.isolated = none →
        ∃ t, exec .intervalTimerExpiry s = .next t ∧ t.pending = s.pending ∧
          t.block.view z = { s.block.view z with clearing := some (.sender e .copy2 .rest) } ∧
          (∃ x ∈ t.block.link.queue, x.body = .clear z e 2) ∧ ReleaseFrame z s.block t.block) ∧
      (s.block.quiet z = true → s.block.link.isolated ≠ none →
        ∃ t, exec .intervalTimerExpiry s = .next t ∧ t.pending = s.pending ∧
          t.block.view z = { s.block.view z with state := .normal, clearing := none } ∧
          t.block.spill.settle = .run 500 ∧ t.block.spill.drive = false ∧ ReleaseFrame z s.block t.block) ∧
      (s.block.quiet z = false → (s.block.view z).epoch < 65534 →
        ∃ t, exec .intervalTimerExpiry s = .next t ∧ t.pending = s.pending ∧ t.block.pins = s.block.pins ∧
          TripMade z .retrip s.block t.block)) ∧
    (∀ k n e left, (s.block.view k).state = .clearing → (s.block.view k).clearing = some (.receiver n e (.run left)) →
      ∃ t, exec (.waitTimerExpiry k) s = .next t ∧ t.pending = s.pending ∧
        t.block.view k = { s.block.view k with state := .tripped, clearing := none } ∧
        t.block.panel.causes[Cause.zoneTripped.index] =
          ⟨true, some k.val, min 255 (s.block.panel.causes[Cause.zoneTripped.index].count + 1)⟩ ∧
        t.block.spill.drive = s.block.spill.drive ∧ ReleaseFrame k s.block t.block)

/-- R131: the end of the listen: each view still STARTING is tripped here with its held cause, with ZONE_LINE for the
own zone's asserted line, or with HIGH_HIGH over a tank gauged here, and is NORMAL otherwise; every other view stands.
The held cause that goes with the trip, an expiry at rest that does nothing, and the ascending order of the entries of
several zones are the model's choice (notes/assumptions/15.md, 30.md, 44.md). -/
def Obligations.ListenSettlesTheViews : Prop :=
  ∀ (s : State), Settled s.block →
    (s.block.spill.listen.running = false → exec .listenTimerExpiry s = becomes s (later s.block)) ∧
    (s.block.spill.listen.running = true → (∀ z, (s.block.view z).epoch < 65534) →
      ∃ t, exec .listenTimerExpiry s = .next t ∧ t.pending = s.pending ∧ t.block.spill.listen = .rest ∧
        (∀ z, (s.block.view z).state ≠ .starting → t.block.view z = s.block.view z) ∧
        (∀ z cause, (s.block.view z).state = .starting →
          cause = (match (s.block.view z).held with
            | some h => some h
            | none =>
              if s.block.store.ownZone = some z ∧ s.block.pins.zoneLine = true then some TripCause.zoneLine
              else if s.block.highHighIn z = true then some .highHigh else none) →
          t.block.view z = (match cause with
            | some why => ⟨.tripped, (s.block.view z).epoch + 1, why, some s.block.store.number, none, none⟩
            | none => { s.block.view z with state := .normal }) ∧
          (∀ why, cause = some why → s.block.link.isolated = none →
            ∃ e ∈ t.block.link.queue, e.body = .trip z ((s.block.view z).epoch + 1) why 3 .rest) ∧
          (cause.isSome = true → t.block.panel.causes[Cause.zoneTripped.index].pending = true)) ∧
        (∀ x y a b ea eb ca cb, x ∈ t.block.link.queue → y ∈ t.block.link.queue →
          (s.block.view a).state = .starting → (s.block.view b).state = .starting → a < b →
          (∀ e ∈ s.block.link.queue, e.body.contender ≠ .trip a ∧ e.body.contender ≠ .trip b) →
          x.body = .trip a ea ca 3 .rest → y.body = .trip b eb cb 3 .rest → x.stamp < y.stamp) ∧
        t.block.store = s.block.store ∧ t.block.pins = s.block.pins ∧ t.block.accounts = s.block.accounts ∧
        (∀ i, t.block.input i = s.block.input i) ∧ (∀ u, sameTank (s.block.tank u) (t.block.tank u)) ∧
        (∀ l, sameLane (s.block.lane l) (t.block.lane l)) ∧ sameRoster s.block.roster t.block.roster ∧
        samePanel [.zoneTripped] s.block.panel t.block.panel)

/-- R21, R87, R118, R125, R126: TRIP and CLEAR frames of another station, taken by a RUNNING station that is not
isolated nor in its self-test. A TRIP of an epoch at or above a NORMAL or CLEARING view's, or above a TRIPPED view's,
trips it at that epoch; CLEAR copy 1 of the view's epoch makes a TRIPPED or CLEARING view a receiver; copy 2 of the
release makes a quiet receiver NORMAL, and trips it otherwise. A frame in any other case is disregarded. A trip of the
own zone's NORMAL view acts on the own lanes, and the records of the grants that it ends are let go; all else in the
account table stands (`TripFollows`). That a TRIP drops the held cause of a STARTING view, that any frame ends the rest
of a conflict (`heardFrame`), and that copy 1 acts on a view made TRIPPED while the listen still runs, is the model's
choice (notes/assumptions/15.md, 25.md, 52.md). -/
def Obligations.TripAndClearFramesAct : Prop :=
  ∀ (s : State) (n : StationId), Settled s.block → Receiving s.block → n ≠ s.block.store.number →
    (∀ c : TripContent,
      ((s.block.view c.zone).state = .normal ∨ (s.block.view c.zone).state = .clearing ∨
        (s.block.view c.zone).state = .tripped → c.epoch < (s.block.view c.zone).epoch ∨
          ((s.block.view c.zone).state = .tripped ∧ c.epoch = (s.block.view c.zone).epoch) →
        exec (.tripFrame n c) s = becomes s (later (heardFrame s.block))) ∧
      ((s.block.view c.zone).state = .starting ∨
        ((s.block.view c.zone).state = .normal ∨ (s.block.view c.zone).state = .clearing) ∧
          (s.block.view c.zone).epoch ≤ c.epoch ∨
        (s.block.view c.zone).state = .tripped ∧ (s.block.view c.zone).epoch < c.epoch →
        ∃ t, exec (.tripFrame n c) s = .next t ∧ t.pending = s.pending ∧
          t.block.view c.zone =
            ⟨.tripped, max (s.block.view c.zone).epoch c.epoch, c.cause, some n, none, none⟩ ∧
          TripFollows c.zone s.block t.block)) ∧
    (∀ z e,
      (e ≠ (s.block.view z).epoch ∨ (s.block.view z).state = .starting ∨ (s.block.view z).state = .normal →
        exec (.clearCopy1Frame n z e) s = becomes s (later (heardFrame s.block))) ∧
      (e = (s.block.view z).epoch → (s.block.view z).state = .tripped ∨
          (∃ x, (s.block.view z).state = .clearing ∧ (s.block.view z).clearing = some x) →
        ∃ t, exec (.clearCopy1Frame n z e) s = .next t ∧ t.pending = s.pending ∧
          t.block.view z = { s.block.view z with state := .clearing, clearing := some (.receiver n e (.run 3000)) } ∧
          (∀ x ∈ t.block.link.queue, x.body.linkClass = 0 → x.body.contender ≠ .trip z) ∧
          t.block.spill.drive = s.block.spill.drive ∧ ReleaseFrame z s.block t.block)) ∧
    (∀ z e,
      ((s.block.view z).state ≠ .clearing ∨ (∀ left, (s.block.view z).clearing ≠ some (.receiver n e left)) →
        exec (.clearCopy2Frame n z e) s = becomes s (later (heardFrame s.block))) ∧
      (∀ left, (s.block.view z).state = .clearing → (s.block.view z).clearing = some (.receiver n e left) →
        (s.block.quiet z = true →
          ∃ t, exec (.clearCopy2Frame n z e) s = .next t ∧ t.pending = s.pending ∧
            t.block.view z = { s.block.view z with state := .normal, clearing := none } ∧
            (s.block.store.ownZone = some z → t.block.spill.settle = .run 500 ∧ t.block.spill.drive = false) ∧
            (s.block.store.ownZone ≠ some z → t.block.spill.settle = s.block.spill.settle) ∧
            ReleaseFrame z s.block t.block) ∧
        (s.block.quiet z = false → (s.block.view z).epoch < 65534 →
          ∃ t, exec (.clearCopy2Frame n z e) s = .next t ∧ t.pending = s.pending ∧
            t.block.pins = s.block.pins ∧ TripMade z .retrip s.block t.block)))

/-! ## Tanks -/

/-- R22, R60, R64 to R68, R70, R87, R114: a reading of a tank gauged here. In IDLE it rebases the view, or starts a
delivery when the volume has risen past the threshold (on a WASTE tank, with no session in flight on it); in DELIVERING
it ends the delivery when it is within 20 L of the reading before it, with the delivery volume carried; a STOCK entry is
offered by a reading in IDLE that is due for one, by one that changes a level, and by one that ends a delivery, and by
no other; a GAUGE_FAULT keeps all but the last reading and previous G. A HIGH_HIGH level newly active is presented on
the view of the tank's zone in the same event: it trips a NORMAL or CLEARING one, whose own lanes end SPILL, refreshes
the cause of a TRIPPED one, and is held in STARTING. A reading that takes the view to DRY ends the own DRAW sessions on
the tank, after a trip of the same event. The records of the grants that end so are let go, and all else in the account
table stands. -/
def Obligations.GaugeReadingsRebaseAndDeliver : Prop :=
  ∀ (s : State) (i : InputId) (u : TankId) (c : TankCfg) (v : TankView), Settled s.block → s.block.running = true →
    s.block.gaugeTank i = some u → s.block.tankCfg u = some c → v = s.block.tank u →
    (∃ t, exec (.gaugeReading i .fault) s = .next t ∧ t.pending = s.pending ∧
      sameTank { v with reading := .fault s.block.roster.clock, previous := none } (t.block.tank u) ∧
      sameStockBut [u] s.block t.block ∧ t.block.pins = s.block.pins ∧ AsideLanes [] s.block t.block ∧
      t.block.accounts = s.block.accounts ∧ t.block.panel = s.block.panel) ∧
    (∀ (g : Nat) (hi hh flying : Bool) (w : TankView) (volume : Int), (flying = true ↔ flightOn s.block u) →
      volume = (if c.cls = .waste then g - s.block.partialSum u else g + s.block.partialSum u) →
      w = (if v.delivering = false then
          if v.basis.isSome = true ∧ (c.deliveryThreshold : Int) < volume - v.book ∧
              (c.cls = .waste → flying = false) then { v with delivering := true }
          else { v with
            book := max (-2147483647) (min 2147483647 volume), basis := some ⟨g, s.block.roster.clock⟩, age := 0,
            variances := if v.basis.isSome = true ∧
                (c.tolerance : Int) < (max (-2147483647) (min 2147483647 volume) - v.book).natAbs then
              min 4294967295 (v.variances + 1) else v.variances }
        else if ∃ pg, v.previous = some pg ∧ ((g : Int) - pg).natAbs < 2000 then
          { v with
            book := max (-2147483647) (min 2147483647 volume), basis := some ⟨g, s.block.roster.clock⟩, age := 0,
            variances := if v.basis.isSome = true ∧ (c.tolerance : Int) <
                (max (-2147483647) (min 2147483647 volume) - v.book - (volume - v.book).toNat).natAbs then
              min 4294967295 (v.variances + 1) else v.variances,
            delivered := v.delivered + (volume - v.book).toNat,
            pendingDelivery := v.pendingDelivery + (volume - v.book).toNat, delivering := false }
        else v) →
      ∃ t, exec (.gaugeReading i (.good g hi hh)) s = .next t ∧ t.pending = s.pending ∧
        sameStock { w with
          reading := .good g hi hh s.block.roster.clock, lastGood := some g, high := hi, highHigh := hh,
          previous := some g } (t.block.tank u) ∧
        sameStockBut [u] s.block t.block ∧
        (s.block.link.isolated = none →
          (v.delivering = false ∧ (v.lastStock = none ∨ 60000 ≤ v.stockAge)) ∨ v.high ≠ hi ∨ v.highHigh ≠ hh ∨
            (v.delivering = true ∧ w.delivering = false) →
          ∃ e ∈ t.block.link.queue, e.body = .stock u g s.block.roster.clock hi hh w.delivering) ∧
        (w.variances ≠ v.variances → t.block.panel.causes[Cause.variance.index].pending = true) ∧
        t.block.store = s.block.store ∧ t.block.pins = s.block.pins ∧ sameRoster s.block.roster t.block.roster ∧
        t.block.accounts = letGoBy (fun l => (hh = true ∧ v.highHigh = false ∧ grantSpilled s.block c.zone l) ∨
          grantDried s.block t.block l) s.block.accounts ∧
        stockRaised s.block t.block ∧
        ((hh = true → v.highHigh = true) →
          (s.block.link.isolated ≠ none ∨
              (v.high = hi ∧ v.highHigh = hh ∧ (v.delivering = false → v.lastStock ≠ none ∧ v.stockAge < 60000) ∧
                (v.delivering = true → w.delivering = true)) →
            t.block.link = s.block.link) ∧
          sameLanesBut [] s.block t.block ∧ sameSpill s.block.spill t.block.spill) ∧
        (hh = true → v.highHigh = false →
          (∀ z, z ≠ c.zone → t.block.view z = s.block.view z) ∧ (∀ j, t.block.input j = s.block.input j) ∧
          ((s.block.view c.zone).state = .normal ∨ (s.block.view c.zone).state = .clearing →
            (s.block.view c.zone).epoch < 65534 →
            t.block.view c.zone =
              ⟨.tripped, (s.block.view c.zone).epoch + 1, .highHigh, some s.block.store.number, none, none⟩ ∧
            (s.block.link.isolated = none → ∃ e ∈ t.block.link.queue,
              e.body = .trip c.zone ((s.block.view c.zone).epoch + 1) .highHigh 3 .rest) ∧
            (s.block.store.ownZone = some c.zone → t.block.spill.drive = true) ∧
            t.block.panel.causes[Cause.zoneTripped.index] =
              ⟨true, some c.zone.val, min 255 (s.block.panel.causes[Cause.zoneTripped.index].count + 1)⟩ ∧
            (∀ l, sameLane
              (dried s.block t.block
                (if s.block.store.ownZone = some c.zone ∧ (s.block.view c.zone).state = .normal then
                  spilled s.block (s.block.lane l) else s.block.lane l)) (t.block.lane l))) ∧
          ((s.block.view c.zone).state = .tripped →
            t.block.view c.zone =
              { s.block.view c.zone with cause := .highHigh, origin := some s.block.store.number } ∧
            sameLanesBut [] s.block t.block) ∧
          ((s.block.view c.zone).state = .starting →
            t.block.view c.zone = { s.block.view c.zone with held := some .highHigh } ∧
            sameLanesBut [] s.block t.block)))

/-- R16, R57, R60, R70, R71, R111, R136, R144, R147, R175, R179: the ages and timers of tanks, roster, builder and clock, and the
calibration switch: a basis that has aged makes its view UNKNOWN; a STOCK interval rests at 60 s; the period makes a
STATUS due, and the hold-off one that waits with a change; a LIVE entry goes STALE, and a STALE one LOST with its
totals unknown; the clock counts while it is set; the switch's level is noted and the lock stands. Whatever the command,
where the builder runs after it, a change of an own lane's band, tank or demand or of a view's state or epoch sets the
change mark, and due where the hold-off timer rests, and nothing else sets the mark. An expiry of a timer that rests does
nothing, and one that comes early is taken as reached: the model's choice (notes/assumptions/30.md); so is that a change
is one from the event's start to its end (10.md), and that one made with a STATUS in the transmitter waits for the
hold-off timer (41.md). -/
def Obligations.AgesTimersAndTheSwitch : Prop :=
  ∀ s : State, Settled s.block →
    (∀ u c, s.block.tankCfg u = some c → (s.block.tank u).basis.isSome = true →
      ∃ t, exec (.basisAgeExpiry u) s = .next t ∧ t.pending = s.pending ∧
        sameTank { s.block.tank u with age := max (s.block.tank u).age 600000, state := .unknown } (t.block.tank u) ∧
        ((s.block.tank u).state ≠ .unknown → t.block.panel.causes[Cause.stockState.index] =
          ⟨true, some u.val, min 255 (s.block.panel.causes[Cause.stockState.index].count + 1)⟩) ∧
        (∀ k, k ≠ u → sameTank (s.block.tank k) (t.block.tank k)) ∧ AsideLanes [] s.block t.block ∧
        t.block.pins = s.block.pins ∧ t.block.accounts = s.block.accounts ∧
        samePanel [.stockState] s.block.panel t.block.panel) ∧
    (∀ u, (s.block.tank u).basis = none → exec (.basisAgeExpiry u) s = becomes s (later s.block)) ∧
    (∀ u, exec (.stockIntervalExpiry u) s = becomes s (later (s.block.setTank u
      { s.block.tank u with stockAge := max (s.block.tank u).stockAge 60000 }))) ∧
    (∀ b, b = s.block.roster.builder →
      (b.period.running = true → exec .statusPeriodExpiry s = becomes s (later (s.block.setRoster
        { s.block.roster with builder := { b with period := .rest, due := true } }))) ∧
      (b.period.running = false → exec .statusPeriodExpiry s = becomes s (later s.block)) ∧
      (b.holdOff.running = true → exec .holdOffExpiry s = becomes s (later (s.block.setRoster
        { s.block.roster with builder := { b with holdOff := .rest, due := b.due || b.change } }))) ∧
      (b.holdOff.running = false → exec .holdOffExpiry s = becomes s (later s.block))) ∧
    (∀ n, (s.block.entry n).state = .live → exec (.rosterStale n) s = becomes s (later (s.block.setEntry n
      { s.block.entry n with state := .stale, age := max (s.block.entry n).age 1500 }))) ∧
    (∀ n, (s.block.entry n).state ≠ .live → exec (.rosterStale n) s = becomes s (later s.block)) ∧
    (∀ n, (s.block.entry n).state = .stale →
      ∃ t, exec (.rosterLost n) s = .next t ∧ t.pending = s.pending ∧
        t.block.entry n = { s.block.entry n with
          state := .lost, age := max (s.block.entry n).age 10000, totals := Vector.replicate 12 ⟨none, none⟩ } ∧
        (∀ k, k ≠ n → t.block.entry k = s.block.entry k) ∧ t.block.roster.clock = s.block.roster.clock ∧
        t.block.roster.drawSeq = s.block.roster.drawSeq ∧ t.block.store = s.block.store ∧
        t.block.pins = s.block.pins ∧ t.block.accounts = s.block.accounts ∧ t.block.link = s.block.link ∧
        (∀ l, sameLane (s.block.lane l) (t.block.lane l)) ∧ sameStockBut [] s.block t.block ∧
        sameSpill s.block.spill t.block.spill ∧ samePanel [.stockState] s.block.panel t.block.panel) ∧
    (∀ n, (s.block.entry n).state ≠ .stale → exec (.rosterLost n) s = becomes s (later s.block)) ∧
    (s.block.roster.clock = 0 → exec .bayClockSecond s = becomes s (later s.block)) ∧
    (s.block.roster.clock ≠ 0 → s.block.roster.clock + 1 < 4294967296 →
      exec .bayClockSecond s = becomes s (later (s.block.setRoster
        { s.block.roster with clock := s.block.roster.clock + 1, clockMs := 0 }))) ∧
    (∀ on, exec (.calibrationSwitchChange on) s = becomes s (later (s.block.setStore
      { s.block.store with calibrationOn := on }))) ∧
    (∀ cmd t b, exec cmd s = .next t → Receiving t.block → b = t.block.roster.builder →
      (statusChange s.block t.block → b.change = true ∧
        (b.holdOff.running = false → (∀ m, t.block.link.sending ≠ some (.status m)) → b.due = true)) ∧
      (¬ statusChange s.block t.block → b.change = true → s.block.roster.builder.change = true))

/-! ## The bay link -/

/-- R16, R70, R146, R149 to R151, R155, R157: contention. In an idle gap a RUNNING station that is not isolated nor in its
self-test contends with the first eligible entry, or a due STATUS when there is none; a win puts the entry, with the
frame made of it, or the STATUS in the transmitter, its content taken item by item at the win; a loss leaves the entry in
its place. That the win takes the first
eligible entry of the contender's kind, and that an idle gap ends the rest of a conflict, is the model's choice
(notes/assumptions/24.md, notes/assumptions/25.md). -/
def Obligations.ContentionTakesTheHead : Prop :=
  ∀ (s : State) (k : Link), Settled s.block → k = s.block.link →
    (Receiving s.block → k.sending = none →
      (∀ pre e post, k.queue = pre ++ e :: post → e.eligible = true → (∀ x ∈ pre, x.eligible = false) →
        exec .idleGapContend s = becomes s (later (s.block.setLink
          { k with restOfConflict := false, contending := some e.body.contender }))) ∧
      ((∀ x ∈ k.queue, x.eligible = false) →
        exec .idleGapContend s = becomes s (later (s.block.setLink
          { k with
            restOfConflict := false,
            contending := if s.block.roster.builder.due = true then some .status else none })))) ∧
    (¬ Receiving s.block ∨ k.sending ≠ none →
      exec .idleGapContend s = becomes s (later (heardFrame s.block))) ∧
    (∀ m : StatusContent, k.contending = some .status →
      m = { bayTime := s.block.roster.clock, drawSeq := s.block.roster.drawSeq,
            lockOpen := decide (s.block.store.lock = .opened), panelAbsent := !s.block.panel.present,
            zones := Vector.ofFn fun z => ⟨(s.block.view z).state, (s.block.view z).epoch⟩,
            lanes := Vector.ofFn fun l => published s.block l } →
      exec .arbitrationWon s = becomes s (later ((s.block.setLink
        { k with contending := none, sending := some (.status m) }).setRoster
        { s.block.roster with builder := { s.block.roster.builder with change := false, due := false } }))) ∧
    (∀ c pre e post, k.contending = some c → k.queue = pre ++ e :: post → e.eligible = true → e.body.contender = c →
      (∀ x ∈ pre, x.eligible = false ∨ x.body.contender ≠ c) → (∀ x ∈ pre, x ≠ e) →
      exec .arbitrationWon s = becomes s (later (s.block.setLink
        { k with
          contending := none, queue := pre ++ post,
          sending := some (.entry e
            (match e.body with
              | .trip z epoch cause remaining _ => .trip ⟨z, epoch, cause, 4 - remaining⟩
              | .clear z epoch copy => .clear ⟨z, epoch, copy⟩
              | .draw d => .draw d
              | .stock u g time hi hh delivering =>
                .stock ⟨u, g, time, hi, hh, delivering, (s.block.tank u).pendingDelivery⟩) false) }))) ∧
    (exec .arbitrationLost s = becomes s (later (s.block.setLink { k with contending := none })))

/-- R123, R147, R151, R155, R156, R158: the frame in the transmitter has been read back: a STATUS starts the builder's
timers and its own roster entry; a TRIP with copies left waits 200 ms for its next, unless withdrawn or replaced; a
STOCK is noted and its delivery volume taken off; CLEAR copy 1 starts the interval, and copy 2 makes the sender
NORMAL. -/
def Obligations.FrameSentIsReported : Prop :=
  ∀ (s : State) (k : Link), Settled s.block → k = s.block.link →
    (k.sending = none → exec .frameSent s = becomes s (later s.block)) ∧
    (∀ c, k.sending = some (.status c) →
      ∃ t, exec .frameSent s = .next t ∧ t.pending = s.pending ∧
        t.block.link = { k with sending := none, conflicts := 0 } ∧
        t.block.entry s.block.store.number =
          { s.block.entry s.block.store.number with state := .live, age := 0, last := some c } ∧
        (∀ n, n ≠ s.block.store.number → t.block.entry n = s.block.entry n) ∧
        t.block.roster.builder.period = .run 500 ∧ t.block.roster.builder.holdOff = .run 100 ∧
        { t.block with link := k, roster := s.block.roster } = later s.block) ∧
    (∀ e f w z epoch cause remaining hold, k.sending = some (.entry e f w) →
      e.body = .trip z epoch cause remaining hold →
      exec .frameSent s = becomes s (later (s.block.setLink
        { k with
          sending := none, conflicts := 0,
          queue := if w = false ∧ 1 < remaining ∧ (∀ x ∈ k.queue, x.hasKey (.trip z) = false) then
              insertEntry ⟨e.stamp, .trip z epoch cause (remaining - 1) (.run 200)⟩ k.queue
            else k.queue }))) ∧
    (∀ e f w d, k.sending = some (.entry e f w) → e.body = .draw d →
      exec .frameSent s = becomes s (later (s.block.setLink { k with sending := none, conflicts := 0 }))) ∧
    (∀ e c w u g time hi hh delivering, k.sending = some (.entry e (.stock c) w) →
      e.body = .stock u g time hi hh delivering →
      exec .frameSent s = becomes s (later ((s.block.setLink { k with sending := none, conflicts := 0 }).setTank u
        { s.block.tank u with
          lastStock := some s.block.roster.clock, stockAge := 0,
          pendingDelivery := (s.block.tank u).pendingDelivery - c.delivery }))) ∧
    (∀ e f w z epoch copy, k.sending = some (.entry e f w) → e.body = .clear z epoch copy →
      (copy = 1 → (s.block.view z).state = .clearing →
        (∃ x, (s.block.view z).clearing = some (.sender epoch .copy1 x)) →
        exec .frameSent s = becomes s (later ((s.block.setLink { k with sending := none, conflicts := 0 }).setView z
          { s.block.view z with clearing := some (.sender epoch .interval (.run 1000)) }))) ∧
      (copy = 2 → (s.block.view z).state = .clearing →
        (∃ x, (s.block.view z).clearing = some (.sender epoch .copy2 x)) →
        ∃ t, exec .frameSent s = .next t ∧ t.pending = s.pending ∧
          t.block.view z = { s.block.view z with state := .normal, clearing := none } ∧
          t.block.link = { k with sending := none, conflicts := 0 } ∧
          (s.block.store.ownZone = some z → t.block.spill.settle = .run 500 ∧ t.block.spill.drive = false) ∧
          ReleaseFrame z s.block t.block)) ∧
    (∀ z, exec (.tripHoldExpiry z) s = becomes s (later (s.block.setLink { k with
      queue := k.queue.map fun e => match e.body with
        | .trip y epoch cause remaining hold =>
          if y = z then { e with body := .trip y epoch cause remaining .rest }
          else { e with body := .trip y epoch cause remaining hold }
        | _ => e })))

/-- R152, R159 to R162: conflicts, errors and isolation. A conflict gives the entry back its place, or makes the
STATUS due again, and counts; the third without a frame sent between isolates the station with DUP_STATION; a frame
with this station's number counts as a conflict, but for the rest of one; a frame that fails validation is a link
error, and the sixteenth raises LINK_ERRORS; the self-test joins the station, or isolates it with LOOPBACK. A CLEAR copy that
waits or is being sent is taken as sent when the station becomes isolated (R132). How long a frame counts as the rest of
a conflict, and that the self-test passes by the bytes that came back, is the model's choice (notes/assumptions/25.md,
notes/assumptions/26.md). -/
def Obligations.ConflictsErrorsAndIsolation : Prop :=
  ∀ (s : State) (k : Link), Settled s.block → k = s.block.link →
    (k.sending = none → exec .linkConflict s = becomes s (later s.block)) ∧
    (∀ e f w, k.sending = some (.entry e f w) → k.conflicts < 2 →
      exec .linkConflict s = becomes s (later (s.block.setLink
        { k with
          sending := none, restOfConflict := true, conflicts := k.conflicts + 1,
          queue := if w = true ∨ (∃ x ∈ k.queue, e.body.isDraw = false ∧ x.body.contender = e.body.contender) then k.queue
            else insertEntry e k.queue }))) ∧
    (∀ c, k.sending = some (.status c) → k.conflicts < 2 →
      exec .linkConflict s = becomes s (later ((s.block.setLink
        { k with sending := none, restOfConflict := true, conflicts := k.conflicts + 1 }).setRoster
        { s.block.roster with builder := { s.block.roster.builder with due := true } }))) ∧
    (∀ cmd, cmd = Instr.linkConflict ∧ k.sending ≠ none ∧ k.isolated = none ∨
        cmd = Instr.ownNumberFrame ∧ k.sending = none ∧ Receiving s.block ∧ k.restOfConflict = false →
      2 ≤ k.conflicts →
      ∃ t, exec cmd s = .next t ∧ t.pending = s.pending ∧
        t.block.link.isolated = some .dupStation ∧ t.block.link.sending = none ∧ t.block.link.contending = none ∧
        (∀ e ∈ t.block.link.queue, e.body.isDraw = true) ∧
        (∀ e ∈ k.queue, e.body.isDraw = true → e ∈ t.block.link.queue) ∧
        t.block.roster.builder = Builder.stopped ∧
        t.block.panel.causes[Cause.linkErrors.index] =
          ⟨true, some 2, min 255 (s.block.panel.causes[Cause.linkErrors.index].count + 1)⟩ ∧
        t.block.store = s.block.store ∧ t.block.accounts = s.block.accounts ∧ t.block.pins = s.block.pins ∧
        sameStockBut [] s.block t.block ∧ (∀ l, sameLane (s.block.lane l) (t.block.lane l)) ∧
        t.block.roster.entries = s.block.roster.entries ∧ t.block.spill.listen = s.block.spill.listen ∧
        (∀ i, t.block.input i = s.block.input i) ∧
        (∀ z, (s.block.view z).state ≠ .clearing ∨
            (∀ e x, (s.block.view z).clearing ≠ some (.sender e .copy1 x) ∧
              (s.block.view z).clearing ≠ some (.sender e .copy2 x)) →
          t.block.view z = s.block.view z) ∧
        (∀ z e x, (s.block.view z).state = .clearing → (s.block.view z).clearing = some (.sender e .copy1 x) →
          clearWaits k z e 1 →
          t.block.view z = { s.block.view z with clearing := some (.sender e .interval (.run 1000)) }) ∧
        (∀ z e x, (s.block.view z).state = .clearing → (s.block.view z).clearing = some (.sender e .copy2 x) →
          clearWaits k z e 2 →
          t.block.view z = { s.block.view z with state := .normal, clearing := none } ∧
          (s.block.store.ownZone = some z → t.block.spill.settle = .run 500 ∧ t.block.spill.drive = false)) ∧
        samePanel [.linkErrors] s.block.panel t.block.panel) ∧
    (k.sending ≠ none ∨ s.block.running = false ∨ k.test ≠ none →
      exec .ownNumberFrame s = becomes s (later s.block)) ∧
    (s.block.running = true → k.test = none → k.sending = none → k.isolated ≠ none ∨ k.restOfConflict = true →
      exec .ownNumberFrame s = becomes s (later (heardFrame s.block))) ∧
    (Receiving s.block → k.sending = none → k.restOfConflict = false → k.conflicts < 2 →
      exec .ownNumberFrame s = becomes s (later (s.block.setLink { k with conflicts := k.conflicts + 1 }))) ∧
    (s.block.running = true → k.test = none → k.errors ≠ 15 →
      exec .invalidFrame s = becomes s (later (s.block.setLink
        { k with restOfConflict := false, errors := min 65535 (k.errors + 1) }))) ∧
    (s.block.running = true → k.test = none → k.errors = 15 →
      ∃ t, exec .invalidFrame s = .next t ∧ t.pending = s.pending ∧
        t.block.link = { k with restOfConflict := false, errors := 16 } ∧
        t.block.panel.causes[Cause.linkErrors.index] =
          ⟨true, some 0, min 255 (s.block.panel.causes[Cause.linkErrors.index].count + 1)⟩ ∧
        { t.block with link := k, panel := s.block.panel } = later s.block ∧
        samePanel [.linkErrors] s.block.panel t.block.panel) ∧
    (s.block.running = false ∨ k.test ≠ none → exec .invalidFrame s = becomes s (later s.block)) ∧
    (∀ sent, k.test = some sent → (decodeFrame sent).isSome = true →
      exec (.loopbackTestEnd (some sent)) s = becomes s (later ((s.block.setLink
        { k with test := none, driver := true }).setRoster
        { s.block.roster with builder := ⟨.run 500, .rest, false, true⟩ }))) ∧
    (∀ sent back, k.test = some sent → back ≠ some sent → k.isolated = none →
      (∀ z, (s.block.view z).clearing = none) →
      ∃ t, exec (.loopbackTestEnd back) s = .next t ∧ t.pending = s.pending ∧
        t.block.link.isolated = some .loopback ∧ t.block.link.test = none ∧ t.block.link.sending = none ∧
        (∀ e ∈ t.block.link.queue, e.body.isDraw = true) ∧ t.block.roster.builder = Builder.stopped ∧
        t.block.panel.causes[Cause.linkErrors.index] =
          ⟨true, some 1, min 255 (s.block.panel.causes[Cause.linkErrors.index].count + 1)⟩ ∧
        t.block.store = s.block.store ∧ t.block.accounts = s.block.accounts ∧ t.block.pins = s.block.pins ∧
        sameStockBut [] s.block t.block ∧ (∀ l, sameLane (s.block.lane l) (t.block.lane l)))

/-! ## The roster -/

/-- R130, R136 to R140, R144, R145, R160, R161: a STATUS of another station that shows no zone at a greater epoch nor
a STARTING view a trip: the entry is LIVE with the content, its sequence checked and what is missed counted and
raised, and the clock adopted when unset. What each zone of any STATUS does to its view: TRIPPED or CLEARING trips a
STARTING view, and any other at a smaller epoch, as PEER_STATUS; NORMAL or STARTING at a greater epoch gives its epoch to
the view, and PEER_STATUS to a TRIPPED one. A bay time more than 60 s off the clock sets the disagree mark and raises
TIME_DISAGREE once. A frame is not taken in UNCONFIGURED, in the self-test, or in isolation. That a trip drops the held
cause of a STARTING view, and that any frame ends the rest of a conflict (`heardFrame`), is the model's choice
(notes/assumptions/15.md, notes/assumptions/25.md). -/
def Obligations.StatusFramesAreTaken : Prop :=
  ∀ (s : State) (n : StationId) (c : StatusContent) (e : RosterEntry), Settled s.block →
    n ≠ s.block.store.number → e = s.block.entry n →
    (s.block.running = false ∨ s.block.link.test ≠ none → exec (.statusFrame n c) s = becomes s (later s.block)) ∧
    (s.block.running = true → s.block.link.test = none → s.block.link.isolated ≠ none →
      exec (.statusFrame n c) s = becomes s (later (heardFrame s.block))) ∧
    (Receiving s.block →
      (∀ z : ZoneId, c.zones[z].epoch ≤ (s.block.view z).epoch ∧ ((s.block.view z).state = .starting →
        c.zones[z].state = .normal ∨ c.zones[z].state = .starting)) →
      s.block.roster.clock = 0 ∨ c.bayTime = 0 ∨
        (c.bayTime ≤ s.block.roster.clock + 60 ∧ s.block.roster.clock ≤ c.bayTime + 60) →
      ∃ t, exec (.statusFrame n c) s = .next t ∧ t.pending = s.pending ∧
        t.block.entry n = { e with
          state := .live, age := 0, last := some c, seq := some c.drawSeq,
          missed := (match e.seq with
            | none => e.missed
            | some k => if c.drawSeq < k then min 65535 (e.missed + c.drawSeq)
              else min 65535 (e.missed + (c.drawSeq - k))),
          totals := (match e.seq with
            | none => e.totals
            | some k => if c.drawSeq < k then Vector.replicate 12 ⟨none, none⟩ else e.totals),
          disagree := if s.block.roster.clock = 0 ∨ c.bayTime = 0 then e.disagree else false } ∧
        (∀ k, k ≠ n → t.block.entry k = s.block.entry k) ∧
        t.block.roster.clock = (if s.block.roster.clock = 0 then c.bayTime else s.block.roster.clock) ∧
        (e.missed < (t.block.entry n).missed → t.block.panel.causes[Cause.postingsMissed.index] =
          ⟨true, some n.val, min 255 (s.block.panel.causes[Cause.postingsMissed.index].count + 1)⟩) ∧
        t.block.link = (heardFrame s.block).link ∧ t.block.store = s.block.store ∧ t.block.pins = s.block.pins ∧
        t.block.accounts = s.block.accounts ∧ sameSpill s.block.spill t.block.spill ∧
        (∀ l, sameLane (s.block.lane l) (t.block.lane l)) ∧ sameStockBut [] s.block t.block ∧
        samePanel [.postingsMissed, .stockState] s.block.panel t.block.panel) ∧
    (Receiving s.block → ∃ t, exec (.statusFrame n c) s = .next t ∧ t.pending = s.pending ∧
      (t.block.entry n).state = .live ∧ (t.block.entry n).last = some c ∧ (t.block.entry n).age = 0 ∧
      (∀ z : ZoneId,
        (c.zones[z].state = .tripped ∨ c.zones[z].state = .clearing →
          (s.block.view z).state = .starting ∨ (s.block.view z).epoch < c.zones[z].epoch →
          t.block.view z =
            ⟨.tripped, max (s.block.view z).epoch c.zones[z].epoch, .peerStatus, some n, none, none⟩ ∧
          ((s.block.view z).state ≠ .tripped ∨ (s.block.view z).epoch < c.zones[z].epoch →
            t.block.panel.causes[Cause.zoneTripped.index].pending = true) ∧
          (s.block.store.ownZone = some z → t.block.spill.drive = true)) ∧
        (c.zones[z].state = .tripped ∨ c.zones[z].state = .clearing → (s.block.view z).state ≠ .starting →
          c.zones[z].epoch ≤ (s.block.view z).epoch → t.block.view z = s.block.view z) ∧
        (c.zones[z].state = .normal ∨ c.zones[z].state = .starting → (s.block.view z).epoch < c.zones[z].epoch →
          t.block.view z = (if (s.block.view z).state = .tripped then
              ⟨.tripped, c.zones[z].epoch, .peerStatus, some n, none, none⟩
            else { s.block.view z with epoch := c.zones[z].epoch })) ∧
        (c.zones[z].state = .normal ∨ c.zones[z].state = .starting → c.zones[z].epoch ≤ (s.block.view z).epoch →
          t.block.view z = s.block.view z)) ∧
      (s.block.roster.clock ≠ 0 → c.bayTime ≠ 0 →
        s.block.roster.clock + 60 < c.bayTime ∨ c.bayTime + 60 < s.block.roster.clock →
        (t.block.entry n).disagree = true ∧ t.block.roster.clock = s.block.roster.clock ∧
        (e.disagree = false → t.block.panel.causes[Cause.timeDisagree.index] =
          ⟨true, some n.val, min 255 (s.block.panel.causes[Cause.timeDisagree.index].count + 1)⟩) ∧
        (e.disagree = true → t.block.panel.causes[Cause.timeDisagree.index] =
          s.block.panel.causes[Cause.timeDisagree.index])))

/-- R22, R56, R60, R62, R63, R72, R87, R90, R91, R104, R139 to R142: DRAW and STOCK frames of other stations. A DRAW
that is no repeat has its sequence checked, as one of a station that has restarted if it is not above the last; it moves
the tank's book by the rise of the sender's total, or by its net while that total is unknown, less the net where the
basis was taken after its end; the total becomes known, the lane's picture is cleared, and its fill goes to the bulk
totals for machine 0, to the machine's record, found or made, or to the unassigned record; a repeat is disregarded. A
STOCK of the tank's gauge station sets the heard levels and the delivered total, and rebases the view unless it was
taken in a delivery or before the basis. Where either takes the view of a tank to DRY, the own DRAW sessions on it end
or store it (`sameLanesBut`), the records of the grants that end so are let go, and STOCK_STATE is raised. That a STOCK
with the delivering mark still adds its volume to the delivered total, and that any frame ends the rest of a conflict
(`heardFrame`), is the model's choice (notes/assumptions/40.md, notes/assumptions/25.md). -/
def Obligations.DrawAndStockFramesAreTaken : Prop :=
  ∀ (s : State) (n : StationId), Settled s.block → Receiving s.block → n ≠ s.block.store.number →
    (∀ (c : DrawContent) (e f : RosterEntry) (known : Option Nat) (raw amount : Nat) (q : Posting) (a : Accounts),
      e = s.block.entry n → a = s.block.accounts → c.total < 4294967296 →
      ¬ (e.seq = some c.seq ∧ e.total c.tank c.direction = some c.total) →
      f = (match e.seq with
        | none => { e with seq := some c.seq }
        | some k =>
          if k < c.seq then { e with seq := some c.seq, missed := min 65535 (e.missed + (c.seq - k - 1)) }
          else { e with
            seq := some c.seq, missed := min 65535 (e.missed + (c.seq - 1)),
            totals := Vector.replicate 12 ⟨none, none⟩ }) →
      known = (match c.direction with
        | .draw => f.totals[c.tank].draw
        | .ret => f.totals[c.tank].ret) →
      raw = (match known with
        | some k => (c.total + 4294967296 - k % 4294967296) % 4294967296
        | none => c.net) →
      amount = (if ∃ b ∈ (s.block.tank c.tank).basis, b.time ≠ 0 ∧ c.stop ≠ 0 ∧ c.stop < b.time then raw - c.net
        else raw) →
      q = { machine := c.machine, product := c.product, cls := (s.block.productCfg c.product).map (·.cls),
            direction := c.direction, net := c.net, hours := c.hours, toFull := c.toFull, start := c.start,
            stop := c.stop, station := n, lane := c.lane, prior := c.prior } →
      ∃ t, exec (.drawFrame n c) s = .next t ∧ t.pending = s.pending ∧
        (s.block.tankCfg c.tank ≠ none →
          sameStock (bookMoved c.direction amount (s.block.tank c.tank)) (t.block.tank c.tank)) ∧
        (s.block.tankCfg c.tank = none → sameStock (s.block.tank c.tank) (t.block.tank c.tank)) ∧
        sameStockBut [c.tank] s.block t.block ∧
        t.block.entry n = { f with
          totals := f.totals.set c.tank (match c.direction with
            | .draw => { f.totals[c.tank] with draw := some c.total }
            | .ret => { f.totals[c.tank] with ret := some c.total }),
          last := f.last.map fun m => { m with lanes := m.lanes.set c.lane ⟨.idle, none, 0, 0, 0, 0⟩ } } ∧
        (∀ j, j ≠ n → t.block.entry j = s.block.entry j) ∧
        (e.missed < f.missed → t.block.panel.causes[Cause.postingsMissed.index] =
          ⟨true, some n.val, min 255 (s.block.panel.causes[Cause.postingsMissed.index].count + 1)⟩) ∧
        (c.machine = 0 → t.block.accounts = letGoBy (grantDried s.block t.block)
          { a with bulk := totalsPosted c.direction c.product c.net a.bulk }) ∧
        (∀ m, c.machine ≠ 0 → a.find c.machine = some m →
          t.block.accounts = letGoBy (grantDried s.block t.block) { a with
            records := postRecord (classFields s.block.store m.cls) q m ::
              a.records.filter fun k => k.machine ≠ c.machine } ∧
          flagsRaised m (postRecord (classFields s.block.store m.cls) q m) s.block.panel t.block.panel) ∧
        (∀ m, c.machine ≠ 0 → a.find c.machine = none →
          m = postRecord (classFields s.block.store c.cls) q (MachineRecord.fresh c.machine c.cls .heard) →
          (a.records.length < 384 →
            t.block.accounts = letGoBy (grantDried s.block t.block) { a with records := m :: a.records }) ∧
          (∀ front out back, a.records.length = 384 → a.records = front ++ out :: back → out.inFlight = none →
            out.flags = 0 → (∀ x ∈ back, x.inFlight ≠ none ∨ x.flags ≠ 0) →
            t.block.accounts = letGoBy (grantDried s.block t.block) { a with
              evictions := min 65535 (a.evictions + 1), records := m :: (front ++ back) }) ∧
          (384 ≤ a.records.length → (∀ x ∈ a.records, x.inFlight ≠ none ∨ x.flags ≠ 0) →
            t.block.accounts = letGoBy (grantDried s.block t.block)
              { a with unassigned := totalsPosted c.direction c.product c.net a.unassigned })) ∧
        t.block.link = (heardFrame s.block).link ∧ t.block.store = s.block.store ∧ t.block.pins = s.block.pins ∧
        sameSpill s.block.spill t.block.spill ∧ sameLanesBut [] s.block t.block ∧ stockRaised s.block t.block) ∧
    (∀ (c : DrawContent), (s.block.entry n).seq = some c.seq →
      (s.block.entry n).total c.tank c.direction = some c.total →
      exec (.drawFrame n c) s = becomes s (later (heardFrame s.block))) ∧
    (∀ (c : StockContent) (tc : TankCfg) (v : TankView) (volume : Int), s.block.tankCfg c.tank = some tc →
      v = s.block.tank c.tank → n = tc.gaugeStation →
      volume = (if tc.cls = .waste then c.g - s.block.partialSum c.tank else c.g + s.block.partialSum c.tank) →
      ∃ t, exec (.stockFrame n c) s = .next t ∧ t.pending = s.pending ∧
        sameStock
          (if c.delivering = true ∨ (∃ b ∈ v.basis, c.time ≠ 0 ∧ c.time < b.time) then
            { v with heardHigh := c.high, heardHighHigh := c.highHigh, delivered := v.delivered + c.delivery }
          else
            { v with
              heardHigh := c.high, heardHighHigh := c.highHigh, delivered := v.delivered + c.delivery,
              book := max (-2147483647) (min 2147483647 volume),
              basis := some ⟨c.g, c.time⟩, age := 0,
              variances := if v.basis.isSome = true ∧ (tc.tolerance : Int) <
                  (max (-2147483647) (min 2147483647 volume) - v.book - c.delivery).natAbs
                then min 4294967295 (v.variances + 1) else v.variances }) (t.block.tank c.tank) ∧
        sameStockBut [c.tank] s.block t.block ∧ t.block.roster.entries = s.block.roster.entries ∧
        t.block.link = (heardFrame s.block).link ∧ t.block.store = s.block.store ∧ t.block.pins = s.block.pins ∧
        sameSpill s.block.spill t.block.spill ∧ sameLanesBut [] s.block t.block ∧ stockRaised s.block t.block ∧
        t.block.accounts = letGoBy (grantDried s.block t.block) s.block.accounts) ∧
    (∀ (c : StockContent), (∀ tc ∈ s.block.tankCfg c.tank, n ≠ tc.gaugeStation) →
      exec (.stockFrame n c) s = becomes s (later (heardFrame s.block)))

/-! ## Tank views and shares between events -/

/-- R3, R15, R55, R57 to R59, R65, R73 to R77: what `SettledKept` keeps, spelled out. Between events a view without a
basis, or with one of 10 min, is UNKNOWN and no other is; the states of a supply and of a WASTE tank by their marks; a
supply tank's pump runs and any tank's inlet is open exactly under their conditions, and a WASTE tank's pump is off; a
lane's valves, its cap by the demand sum, and its duties follow its session; and the caps of the own lanes drawing on a
tank sum to at most its supply capacity, where in isolation their demands are within the bay demand sum. Available stock
is the book less the commitments, and the partial sum is what the sessions in flight have moved, both over own lanes and
peer pictures. These are the model's choices: cap and cap duty of a lane that does not run (notes/assumptions/18.md); a
WASTE tank's D while isolated (35.md); that a station gauges from START on (42.md); that R73's last sentence keeps a WASTE
tank's pump off where a peer shows a draw on it (49.md); and that the session before takes nothing off the commitment of a
lane in AUTHORIZED (54.md). -/
def Obligations.SettledStatesAndShares : Prop :=
  ∀ s : Block, Settled s →
    (∀ u c high, s.tankCfg u = some c →
      (gaugedHere s u → high = (s.tank u).high) → (¬ gaugedHere s u → high = (s.tank u).heardHigh) →
      ((s.tank u).state = .unknown ↔ (s.tank u).basis = none ∨ 600000 ≤ (s.tank u).age) ∧
      ((s.tank u).state ≠ .unknown → c.cls ≠ .waste → SupplyState s u c) ∧
      ((s.tank u).state ≠ .unknown → c.cls = .waste → WasteState s u c high) ∧
      (c.cls ≠ .waste → ((s.tank u).pump = true ↔ gaugedHere s u ∧ (s.view c.zone).state = .normal ∧
        (s.tank u).state ≠ .dry ∧ (s.link.isolated ≠ none ∨ (∃ l, ownDraws s u l) ∨ ∃ n l, peerDraws s u n l))) ∧
      (c.cls = .waste → (s.tank u).pump = false) ∧
      ((s.tank u).inlet = true ↔ gaugedHere s u ∧ (s.view c.zone).state = .normal ∧ (s.tank u).highHigh = false ∧
        ∃ g, (s.tank u).lastGood = some g ∧ g < c.highHighMark)) ∧
    (∀ u, s.tankCfg u = none → (s.tank u).pump = false ∧ (s.tank u).inlet = false) ∧
    (∀ l, ((s.lane l).mainOpen = true ↔ (s.lane l).session = .lifted ∨ (s.lane l).session = .flowing) ∧
      ((s.lane l).slowOpen = true ↔
        (s.lane l).session = .lifted ∨ (s.lane l).session = .flowing ∨ (s.lane l).session = .slowing) ∧
      ((s.lane l).slowOpen = false → (s.lane l).cap = 0 ∧ (s.lane l).duty = 0 ∧
        (s.lane l).capDuty = if (s.lane l).session.reserved = true ∧ ∃ p ∈ (s.lane l).params, p.direction = .ret then 255
          else 0)) ∧
    (∀ l c p, s.laneCfg l = some c → (s.lane l).params = some p → (s.lane l).slowOpen = true →
      (p.direction = .ret → (s.lane l).cap = demandOf s l ∧ (s.lane l).capDuty = 255) ∧
      (∀ tc, p.direction = .draw → s.tankCfg p.tank = some tc →
        (s.lane l).cap = (if s.demandSum p.tank ≤ tc.supply then demandOf s l
          else tc.supply * demandOf s l / s.demandSum p.tank) ∧
        (s.lane l).capDuty = min 255 ((2 * (255 * (s.lane l).cap) + c.maxRate) / (2 * c.maxRate))) ∧
      (s.lane l).duty = (if (s.lane l).session = .slowing then
          min (min 255 ((2 * (255 * c.slowRate) + c.maxRate) / (2 * c.maxRate))) (s.lane l).capDuty
        else (s.lane l).capDuty)) ∧
    (∀ u tc, s.tankCfg u = some tc →
      (s.link.isolated ≠ none → tc.cls ≠ .waste → s.demandSum u = tc.bayDemand) ∧
      (∀ (own : LaneId → Nat) (peer : StationId → LaneId → Nat), s.link.isolated = none ∨ tc.cls = .waste →
        (∀ l, (ownDraws s u l → own l = demandOf s l) ∧ (¬ ownDraws s u l → own l = 0)) →
        peerItem s (peerDraws s u) (·.demand) peer → s.demandSum u = (allLanes.map own).sum + peerSum peer) ∧
      (∀ cap own : LaneId → Nat,
        (∀ l, (ownDraws s u l → cap l = (s.lane l).cap ∧ own l = demandOf s l) ∧
          (¬ ownDraws s u l → cap l = 0 ∧ own l = 0)) →
        s.link.isolated = none ∨ (allLanes.map own).sum ≤ tc.bayDemand → (allLanes.map cap).sum ≤ tc.supply)) ∧
    (∀ u (own : LaneId → Int) (peer : StationId → LaneId → Nat),
      (∀ l, (∀ p ∈ (s.lane l).params, ownCommits s u l → own l = max 0 ((p.basis : Int) * 10000000000 -
          if (s.lane l).session = .authorized then 0 else (s.lane l).data.net)) ∧ (¬ ownCommits s u l → own l = 0)) →
      peerItem s (peerCommits s u) (·.commitment) peer →
      s.available u = (s.tank u).book -
        (2 * ((allLanes.map own).sum + peerSum peer * 10000000000) + 10000000000) / 20000000000) ∧
    (∀ u (own : LaneId → Int) (peer : StationId → LaneId → Nat),
      (∀ l, (ownFlies s u l → own l = (s.lane l).data.net) ∧ (¬ ownFlies s u l → own l = 0)) →
      peerItem s (peerFlies s u) (·.delivered) peer →
      s.partialSum u = (2 * ((allLanes.map own).sum + peerSum peer * 10000000000) + 10000000000) / 20000000000)
end

