-- ==== Sys2Proof/Laws/State.lean ====
section
/-! SUPPORT. One lemma per field per update of the block, each true by definition, and the readings of one lane, tank
view, zone view, input or entry after an update. -/

namespace Sys2Proof.Machine

variable (s : Block)

/-! ### `Block.setLane` -/

@[simp] theorem Block.setLane_store (l : LaneId) (x : Lane) : (s.setLane l x).store = s.store := rfl
@[simp] theorem Block.setLane_pins (l : LaneId) (x : Lane) : (s.setLane l x).pins = s.pins := rfl
@[simp] theorem Block.setLane_tanks (l : LaneId) (x : Lane) : (s.setLane l x).tanks = s.tanks := rfl
@[simp] theorem Block.setLane_accounts (l : LaneId) (x : Lane) : (s.setLane l x).accounts = s.accounts := rfl
@[simp] theorem Block.setLane_spill (l : LaneId) (x : Lane) : (s.setLane l x).spill = s.spill := rfl
@[simp] theorem Block.setLane_roster (l : LaneId) (x : Lane) : (s.setLane l x).roster = s.roster := rfl
@[simp] theorem Block.setLane_link (l : LaneId) (x : Lane) : (s.setLane l x).link = s.link := rfl
@[simp] theorem Block.setLane_panel (l : LaneId) (x : Lane) : (s.setLane l x).panel = s.panel := rfl
@[simp] theorem Block.setLane_openDraws (l : LaneId) (x : Lane) : (s.setLane l x).openDraws = s.openDraws := rfl

/-! ### `Block.setTank` -/

@[simp] theorem Block.setTank_store (t : TankId) (x : TankView) : (s.setTank t x).store = s.store := rfl
@[simp] theorem Block.setTank_pins (t : TankId) (x : TankView) : (s.setTank t x).pins = s.pins := rfl
@[simp] theorem Block.setTank_lanes (t : TankId) (x : TankView) : (s.setTank t x).lanes = s.lanes := rfl
@[simp] theorem Block.setTank_accounts (t : TankId) (x : TankView) : (s.setTank t x).accounts = s.accounts := rfl
@[simp] theorem Block.setTank_spill (t : TankId) (x : TankView) : (s.setTank t x).spill = s.spill := rfl
@[simp] theorem Block.setTank_roster (t : TankId) (x : TankView) : (s.setTank t x).roster = s.roster := rfl
@[simp] theorem Block.setTank_link (t : TankId) (x : TankView) : (s.setTank t x).link = s.link := rfl
@[simp] theorem Block.setTank_panel (t : TankId) (x : TankView) : (s.setTank t x).panel = s.panel := rfl
@[simp] theorem Block.setTank_openDraws (t : TankId) (x : TankView) : (s.setTank t x).openDraws = s.openDraws := rfl

/-! ### `Block.setView` -/

@[simp] theorem Block.setView_store (z : ZoneId) (x : ZoneView) : (s.setView z x).store = s.store := rfl
@[simp] theorem Block.setView_pins (z : ZoneId) (x : ZoneView) : (s.setView z x).pins = s.pins := rfl
@[simp] theorem Block.setView_lanes (z : ZoneId) (x : ZoneView) : (s.setView z x).lanes = s.lanes := rfl
@[simp] theorem Block.setView_tanks (z : ZoneId) (x : ZoneView) : (s.setView z x).tanks = s.tanks := rfl
@[simp] theorem Block.setView_accounts (z : ZoneId) (x : ZoneView) : (s.setView z x).accounts = s.accounts := rfl
@[simp] theorem Block.setView_roster (z : ZoneId) (x : ZoneView) : (s.setView z x).roster = s.roster := rfl
@[simp] theorem Block.setView_link (z : ZoneId) (x : ZoneView) : (s.setView z x).link = s.link := rfl
@[simp] theorem Block.setView_panel (z : ZoneId) (x : ZoneView) : (s.setView z x).panel = s.panel := rfl
@[simp] theorem Block.setView_openDraws (z : ZoneId) (x : ZoneView) : (s.setView z x).openDraws = s.openDraws := rfl

/-! ### `Block.setInput` -/

@[simp] theorem Block.setInput_store (i : InputId) (x : SpillInput) : (s.setInput i x).store = s.store := rfl
@[simp] theorem Block.setInput_pins (i : InputId) (x : SpillInput) : (s.setInput i x).pins = s.pins := rfl
@[simp] theorem Block.setInput_lanes (i : InputId) (x : SpillInput) : (s.setInput i x).lanes = s.lanes := rfl
@[simp] theorem Block.setInput_tanks (i : InputId) (x : SpillInput) : (s.setInput i x).tanks = s.tanks := rfl
@[simp] theorem Block.setInput_accounts (i : InputId) (x : SpillInput) : (s.setInput i x).accounts = s.accounts := rfl
@[simp] theorem Block.setInput_roster (i : InputId) (x : SpillInput) : (s.setInput i x).roster = s.roster := rfl
@[simp] theorem Block.setInput_link (i : InputId) (x : SpillInput) : (s.setInput i x).link = s.link := rfl
@[simp] theorem Block.setInput_panel (i : InputId) (x : SpillInput) : (s.setInput i x).panel = s.panel := rfl
@[simp] theorem Block.setInput_openDraws (i : InputId) (x : SpillInput) : (s.setInput i x).openDraws = s.openDraws := rfl

/-! ### `Block.setEntry` -/

@[simp] theorem Block.setEntry_store (n : StationId) (x : RosterEntry) : (s.setEntry n x).store = s.store := rfl
@[simp] theorem Block.setEntry_pins (n : StationId) (x : RosterEntry) : (s.setEntry n x).pins = s.pins := rfl
@[simp] theorem Block.setEntry_lanes (n : StationId) (x : RosterEntry) : (s.setEntry n x).lanes = s.lanes := rfl
@[simp] theorem Block.setEntry_tanks (n : StationId) (x : RosterEntry) : (s.setEntry n x).tanks = s.tanks := rfl
@[simp] theorem Block.setEntry_accounts (n : StationId) (x : RosterEntry) : (s.setEntry n x).accounts = s.accounts := rfl
@[simp] theorem Block.setEntry_spill (n : StationId) (x : RosterEntry) : (s.setEntry n x).spill = s.spill := rfl
@[simp] theorem Block.setEntry_link (n : StationId) (x : RosterEntry) : (s.setEntry n x).link = s.link := rfl
@[simp] theorem Block.setEntry_panel (n : StationId) (x : RosterEntry) : (s.setEntry n x).panel = s.panel := rfl
@[simp] theorem Block.setEntry_openDraws (n : StationId) (x : RosterEntry) : (s.setEntry n x).openDraws = s.openDraws := rfl

/-! ### `Block.setStore` -/

@[simp] theorem Block.setStore_pins (x : Store) : (s.setStore x).pins = s.pins := rfl
@[simp] theorem Block.setStore_lanes (x : Store) : (s.setStore x).lanes = s.lanes := rfl
@[simp] theorem Block.setStore_tanks (x : Store) : (s.setStore x).tanks = s.tanks := rfl
@[simp] theorem Block.setStore_accounts (x : Store) : (s.setStore x).accounts = s.accounts := rfl
@[simp] theorem Block.setStore_spill (x : Store) : (s.setStore x).spill = s.spill := rfl
@[simp] theorem Block.setStore_roster (x : Store) : (s.setStore x).roster = s.roster := rfl
@[simp] theorem Block.setStore_link (x : Store) : (s.setStore x).link = s.link := rfl
@[simp] theorem Block.setStore_panel (x : Store) : (s.setStore x).panel = s.panel := rfl
@[simp] theorem Block.setStore_openDraws (x : Store) : (s.setStore x).openDraws = s.openDraws := rfl

/-! ### `Block.setPins` -/

@[simp] theorem Block.setPins_store (x : Pins) : (s.setPins x).store = s.store := rfl
@[simp] theorem Block.setPins_lanes (x : Pins) : (s.setPins x).lanes = s.lanes := rfl
@[simp] theorem Block.setPins_tanks (x : Pins) : (s.setPins x).tanks = s.tanks := rfl
@[simp] theorem Block.setPins_accounts (x : Pins) : (s.setPins x).accounts = s.accounts := rfl
@[simp] theorem Block.setPins_spill (x : Pins) : (s.setPins x).spill = s.spill := rfl
@[simp] theorem Block.setPins_roster (x : Pins) : (s.setPins x).roster = s.roster := rfl
@[simp] theorem Block.setPins_link (x : Pins) : (s.setPins x).link = s.link := rfl
@[simp] theorem Block.setPins_panel (x : Pins) : (s.setPins x).panel = s.panel := rfl
@[simp] theorem Block.setPins_openDraws (x : Pins) : (s.setPins x).openDraws = s.openDraws := rfl

/-! ### `Block.setAccounts` -/

@[simp] theorem Block.setAccounts_store (x : Accounts) : (s.setAccounts x).store = s.store := rfl
@[simp] theorem Block.setAccounts_pins (x : Accounts) : (s.setAccounts x).pins = s.pins := rfl
@[simp] theorem Block.setAccounts_lanes (x : Accounts) : (s.setAccounts x).lanes = s.lanes := rfl
@[simp] theorem Block.setAccounts_tanks (x : Accounts) : (s.setAccounts x).tanks = s.tanks := rfl
@[simp] theorem Block.setAccounts_spill (x : Accounts) : (s.setAccounts x).spill = s.spill := rfl
@[simp] theorem Block.setAccounts_roster (x : Accounts) : (s.setAccounts x).roster = s.roster := rfl
@[simp] theorem Block.setAccounts_link (x : Accounts) : (s.setAccounts x).link = s.link := rfl
@[simp] theorem Block.setAccounts_panel (x : Accounts) : (s.setAccounts x).panel = s.panel := rfl
@[simp] theorem Block.setAccounts_openDraws (x : Accounts) : (s.setAccounts x).openDraws = s.openDraws := rfl

/-! ### `Block.setSpill` -/

@[simp] theorem Block.setSpill_store (x : Spill) : (s.setSpill x).store = s.store := rfl
@[simp] theorem Block.setSpill_pins (x : Spill) : (s.setSpill x).pins = s.pins := rfl
@[simp] theorem Block.setSpill_lanes (x : Spill) : (s.setSpill x).lanes = s.lanes := rfl
@[simp] theorem Block.setSpill_tanks (x : Spill) : (s.setSpill x).tanks = s.tanks := rfl
@[simp] theorem Block.setSpill_accounts (x : Spill) : (s.setSpill x).accounts = s.accounts := rfl
@[simp] theorem Block.setSpill_roster (x : Spill) : (s.setSpill x).roster = s.roster := rfl
@[simp] theorem Block.setSpill_link (x : Spill) : (s.setSpill x).link = s.link := rfl
@[simp] theorem Block.setSpill_panel (x : Spill) : (s.setSpill x).panel = s.panel := rfl
@[simp] theorem Block.setSpill_openDraws (x : Spill) : (s.setSpill x).openDraws = s.openDraws := rfl

/-! ### `Block.setRoster` -/

@[simp] theorem Block.setRoster_store (x : Roster) : (s.setRoster x).store = s.store := rfl
@[simp] theorem Block.setRoster_pins (x : Roster) : (s.setRoster x).pins = s.pins := rfl
@[simp] theorem Block.setRoster_lanes (x : Roster) : (s.setRoster x).lanes = s.lanes := rfl
@[simp] theorem Block.setRoster_tanks (x : Roster) : (s.setRoster x).tanks = s.tanks := rfl
@[simp] theorem Block.setRoster_accounts (x : Roster) : (s.setRoster x).accounts = s.accounts := rfl
@[simp] theorem Block.setRoster_spill (x : Roster) : (s.setRoster x).spill = s.spill := rfl
@[simp] theorem Block.setRoster_link (x : Roster) : (s.setRoster x).link = s.link := rfl
@[simp] theorem Block.setRoster_panel (x : Roster) : (s.setRoster x).panel = s.panel := rfl
@[simp] theorem Block.setRoster_openDraws (x : Roster) : (s.setRoster x).openDraws = s.openDraws := rfl

/-! ### `Block.setLink` -/

@[simp] theorem Block.setLink_store (x : Link) : (s.setLink x).store = s.store := rfl
@[simp] theorem Block.setLink_pins (x : Link) : (s.setLink x).pins = s.pins := rfl
@[simp] theorem Block.setLink_lanes (x : Link) : (s.setLink x).lanes = s.lanes := rfl
@[simp] theorem Block.setLink_tanks (x : Link) : (s.setLink x).tanks = s.tanks := rfl
@[simp] theorem Block.setLink_accounts (x : Link) : (s.setLink x).accounts = s.accounts := rfl
@[simp] theorem Block.setLink_spill (x : Link) : (s.setLink x).spill = s.spill := rfl
@[simp] theorem Block.setLink_roster (x : Link) : (s.setLink x).roster = s.roster := rfl
@[simp] theorem Block.setLink_panel (x : Link) : (s.setLink x).panel = s.panel := rfl
@[simp] theorem Block.setLink_openDraws (x : Link) : (s.setLink x).openDraws = s.openDraws := rfl

/-! ### `Block.setPanel` -/

@[simp] theorem Block.setPanel_store (x : Panel) : (s.setPanel x).store = s.store := rfl
@[simp] theorem Block.setPanel_pins (x : Panel) : (s.setPanel x).pins = s.pins := rfl
@[simp] theorem Block.setPanel_lanes (x : Panel) : (s.setPanel x).lanes = s.lanes := rfl
@[simp] theorem Block.setPanel_tanks (x : Panel) : (s.setPanel x).tanks = s.tanks := rfl
@[simp] theorem Block.setPanel_accounts (x : Panel) : (s.setPanel x).accounts = s.accounts := rfl
@[simp] theorem Block.setPanel_spill (x : Panel) : (s.setPanel x).spill = s.spill := rfl
@[simp] theorem Block.setPanel_roster (x : Panel) : (s.setPanel x).roster = s.roster := rfl
@[simp] theorem Block.setPanel_link (x : Panel) : (s.setPanel x).link = s.link := rfl
@[simp] theorem Block.setPanel_openDraws (x : Panel) : (s.setPanel x).openDraws = s.openDraws := rfl

/-! ### `Block.mapLanes` -/

@[simp] theorem Block.mapLanes_store (f : LaneId → Lane → Lane) : (s.mapLanes f).store = s.store := rfl
@[simp] theorem Block.mapLanes_pins (f : LaneId → Lane → Lane) : (s.mapLanes f).pins = s.pins := rfl
@[simp] theorem Block.mapLanes_tanks (f : LaneId → Lane → Lane) : (s.mapLanes f).tanks = s.tanks := rfl
@[simp] theorem Block.mapLanes_accounts (f : LaneId → Lane → Lane) : (s.mapLanes f).accounts = s.accounts := rfl
@[simp] theorem Block.mapLanes_spill (f : LaneId → Lane → Lane) : (s.mapLanes f).spill = s.spill := rfl
@[simp] theorem Block.mapLanes_roster (f : LaneId → Lane → Lane) : (s.mapLanes f).roster = s.roster := rfl
@[simp] theorem Block.mapLanes_link (f : LaneId → Lane → Lane) : (s.mapLanes f).link = s.link := rfl
@[simp] theorem Block.mapLanes_panel (f : LaneId → Lane → Lane) : (s.mapLanes f).panel = s.panel := rfl
@[simp] theorem Block.mapLanes_openDraws (f : LaneId → Lane → Lane) : (s.mapLanes f).openDraws = s.openDraws := rfl

/-! ### `Block.mapTanks` -/

@[simp] theorem Block.mapTanks_store (f : TankId → TankView → TankView) : (s.mapTanks f).store = s.store := rfl
@[simp] theorem Block.mapTanks_pins (f : TankId → TankView → TankView) : (s.mapTanks f).pins = s.pins := rfl
@[simp] theorem Block.mapTanks_lanes (f : TankId → TankView → TankView) : (s.mapTanks f).lanes = s.lanes := rfl
@[simp] theorem Block.mapTanks_accounts (f : TankId → TankView → TankView) : (s.mapTanks f).accounts = s.accounts := rfl
@[simp] theorem Block.mapTanks_spill (f : TankId → TankView → TankView) : (s.mapTanks f).spill = s.spill := rfl
@[simp] theorem Block.mapTanks_roster (f : TankId → TankView → TankView) : (s.mapTanks f).roster = s.roster := rfl
@[simp] theorem Block.mapTanks_link (f : TankId → TankView → TankView) : (s.mapTanks f).link = s.link := rfl
@[simp] theorem Block.mapTanks_panel (f : TankId → TankView → TankView) : (s.mapTanks f).panel = s.panel := rfl
@[simp] theorem Block.mapTanks_openDraws (f : TankId → TankView → TankView) : (s.mapTanks f).openDraws = s.openDraws := rfl

/-! ### `Block.setBuilder` -/

@[simp] theorem Block.setBuilder_store (x : Builder) : (s.setBuilder x).store = s.store := rfl
@[simp] theorem Block.setBuilder_pins (x : Builder) : (s.setBuilder x).pins = s.pins := rfl
@[simp] theorem Block.setBuilder_lanes (x : Builder) : (s.setBuilder x).lanes = s.lanes := rfl
@[simp] theorem Block.setBuilder_tanks (x : Builder) : (s.setBuilder x).tanks = s.tanks := rfl
@[simp] theorem Block.setBuilder_accounts (x : Builder) : (s.setBuilder x).accounts = s.accounts := rfl
@[simp] theorem Block.setBuilder_spill (x : Builder) : (s.setBuilder x).spill = s.spill := rfl
@[simp] theorem Block.setBuilder_link (x : Builder) : (s.setBuilder x).link = s.link := rfl
@[simp] theorem Block.setBuilder_panel (x : Builder) : (s.setBuilder x).panel = s.panel := rfl
@[simp] theorem Block.setBuilder_openDraws (x : Builder) : (s.setBuilder x).openDraws = s.openDraws := rfl

/-! ### `Block.raise` -/

@[simp] theorem Block.raise_store (c : Cause) (d : Nat) : (s.raise c d).store = s.store := rfl
@[simp] theorem Block.raise_pins (c : Cause) (d : Nat) : (s.raise c d).pins = s.pins := rfl
@[simp] theorem Block.raise_lanes (c : Cause) (d : Nat) : (s.raise c d).lanes = s.lanes := rfl
@[simp] theorem Block.raise_tanks (c : Cause) (d : Nat) : (s.raise c d).tanks = s.tanks := rfl
@[simp] theorem Block.raise_accounts (c : Cause) (d : Nat) : (s.raise c d).accounts = s.accounts := rfl
@[simp] theorem Block.raise_spill (c : Cause) (d : Nat) : (s.raise c d).spill = s.spill := rfl
@[simp] theorem Block.raise_roster (c : Cause) (d : Nat) : (s.raise c d).roster = s.roster := rfl
@[simp] theorem Block.raise_link (c : Cause) (d : Nat) : (s.raise c d).link = s.link := rfl
@[simp] theorem Block.raise_openDraws (c : Cause) (d : Nat) : (s.raise c d).openDraws = s.openDraws := rfl

/-! ### `Block.offer` -/

@[simp] theorem Block.offer_store (b : EntryBody) : (s.offer b).store = s.store := rfl
@[simp] theorem Block.offer_pins (b : EntryBody) : (s.offer b).pins = s.pins := rfl
@[simp] theorem Block.offer_lanes (b : EntryBody) : (s.offer b).lanes = s.lanes := rfl
@[simp] theorem Block.offer_tanks (b : EntryBody) : (s.offer b).tanks = s.tanks := rfl
@[simp] theorem Block.offer_accounts (b : EntryBody) : (s.offer b).accounts = s.accounts := rfl
@[simp] theorem Block.offer_spill (b : EntryBody) : (s.offer b).spill = s.spill := rfl
@[simp] theorem Block.offer_roster (b : EntryBody) : (s.offer b).roster = s.roster := rfl
@[simp] theorem Block.offer_panel (b : EntryBody) : (s.offer b).panel = s.panel := rfl
@[simp] theorem Block.offer_openDraws (b : EntryBody) : (s.offer b).openDraws = s.openDraws := rfl

/-! ### `Block.countEvent` -/

@[simp] theorem Block.countEvent_store : (s.countEvent).store = s.store := rfl
@[simp] theorem Block.countEvent_pins : (s.countEvent).pins = s.pins := rfl
@[simp] theorem Block.countEvent_lanes : (s.countEvent).lanes = s.lanes := rfl
@[simp] theorem Block.countEvent_tanks : (s.countEvent).tanks = s.tanks := rfl
@[simp] theorem Block.countEvent_accounts : (s.countEvent).accounts = s.accounts := rfl
@[simp] theorem Block.countEvent_spill : (s.countEvent).spill = s.spill := rfl
@[simp] theorem Block.countEvent_roster : (s.countEvent).roster = s.roster := rfl
@[simp] theorem Block.countEvent_link : (s.countEvent).link = s.link := rfl
@[simp] theorem Block.countEvent_panel : (s.countEvent).panel = s.panel := rfl

/-! ### The part an update writes -/

@[simp] theorem Block.setStore_store (x : Store) : (s.setStore x).store = x := rfl
@[simp] theorem Block.setPins_pins (x : Pins) : (s.setPins x).pins = x := rfl
@[simp] theorem Block.setAccounts_accounts (x : Accounts) : (s.setAccounts x).accounts = x := rfl
@[simp] theorem Block.setSpill_spill (x : Spill) : (s.setSpill x).spill = x := rfl
@[simp] theorem Block.setRoster_roster (x : Roster) : (s.setRoster x).roster = x := rfl
@[simp] theorem Block.setLink_link (x : Link) : (s.setLink x).link = x := rfl
@[simp] theorem Block.setPanel_panel (x : Panel) : (s.setPanel x).panel = x := rfl
@[simp] theorem Block.raise_panel (c : Cause) (d : Nat) :
    (s.raise c d).panel = { s.panel with raised := s.panel.raised ++ [(c, d)] } := rfl
@[simp] theorem Block.setBuilder_roster (x : Builder) : (s.setBuilder x).roster = { s.roster with builder := x } := rfl
@[simp] theorem Block.offer_link (b : EntryBody) : (s.offer b).link = s.link.offer b := rfl
@[simp] theorem Block.countEvent_openDraws : s.countEvent.openDraws = s.openDraws + 1 := rfl
@[simp] theorem Block.setView_spill_inputs (z : ZoneId) (x : ZoneView) : (s.setView z x).spill.inputs = s.spill.inputs := rfl
@[simp] theorem Block.setView_spill_drive (z : ZoneId) (x : ZoneView) : (s.setView z x).spill.drive = s.spill.drive := rfl
@[simp] theorem Block.setView_spill_settle (z : ZoneId) (x : ZoneView) : (s.setView z x).spill.settle = s.spill.settle := rfl
@[simp] theorem Block.setView_spill_listen (z : ZoneId) (x : ZoneView) : (s.setView z x).spill.listen = s.spill.listen := rfl
@[simp] theorem Block.setInput_spill_views (i : InputId) (x : SpillInput) : (s.setInput i x).spill.views = s.spill.views := rfl
@[simp] theorem Block.setInput_spill_drive (i : InputId) (x : SpillInput) : (s.setInput i x).spill.drive = s.spill.drive := rfl
@[simp] theorem Block.setInput_spill_settle (i : InputId) (x : SpillInput) : (s.setInput i x).spill.settle = s.spill.settle := rfl
@[simp] theorem Block.setInput_spill_listen (i : InputId) (x : SpillInput) : (s.setInput i x).spill.listen = s.spill.listen := rfl
@[simp] theorem Block.setEntry_roster_clock (n : StationId) (x : RosterEntry) : (s.setEntry n x).roster.clock = s.roster.clock := rfl
@[simp] theorem Block.setEntry_roster_clockMs (n : StationId) (x : RosterEntry) : (s.setEntry n x).roster.clockMs = s.roster.clockMs := rfl
@[simp] theorem Block.setEntry_roster_drawSeq (n : StationId) (x : RosterEntry) : (s.setEntry n x).roster.drawSeq = s.roster.drawSeq := rfl
@[simp] theorem Block.setEntry_roster_builder (n : StationId) (x : RosterEntry) : (s.setEntry n x).roster.builder = s.roster.builder := rfl

/-! ### One lane, tank view, zone view, input or entry -/

@[simp] theorem Block.lane_setLane (k : LaneId) (x : Lane) : (s.setLane k x).lane k = x := by
  simp [Block.lane, Block.setLane]
theorem Block.lane_setLane_of_ne {j k : LaneId} (h : j ≠ k) (x : Lane) : (s.setLane k x).lane j = s.lane j := by
  have h' : k.val ≠ j.val := fun e => h (Fin.ext e.symm)
  simp [Block.lane, Block.setLane, h']
@[simp] theorem Block.tank_setTank (k : TankId) (x : TankView) : (s.setTank k x).tank k = x := by
  simp [Block.tank, Block.setTank]
theorem Block.tank_setTank_of_ne {j k : TankId} (h : j ≠ k) (x : TankView) : (s.setTank k x).tank j = s.tank j := by
  have h' : k.val ≠ j.val := fun e => h (Fin.ext e.symm)
  simp [Block.tank, Block.setTank, h']
@[simp] theorem Block.view_setView (k : ZoneId) (x : ZoneView) : (s.setView k x).view k = x := by
  simp [Block.view, Block.setView]
theorem Block.view_setView_of_ne {j k : ZoneId} (h : j ≠ k) (x : ZoneView) : (s.setView k x).view j = s.view j := by
  have h' : k.val ≠ j.val := fun e => h (Fin.ext e.symm)
  simp [Block.view, Block.setView, h']
@[simp] theorem Block.input_setInput (k : InputId) (x : SpillInput) : (s.setInput k x).input k = x := by
  simp [Block.input, Block.setInput]
theorem Block.input_setInput_of_ne {j k : InputId} (h : j ≠ k) (x : SpillInput) : (s.setInput k x).input j = s.input j := by
  have h' : k.val ≠ j.val := fun e => h (Fin.ext e.symm)
  simp [Block.input, Block.setInput, h']
@[simp] theorem Block.entry_setEntry (k : StationId) (x : RosterEntry) : (s.setEntry k x).entry k = x := by
  simp [Block.entry, Block.setEntry]
theorem Block.entry_setEntry_of_ne {j k : StationId} (h : j ≠ k) (x : RosterEntry) : (s.setEntry k x).entry j = s.entry j := by
  have h' : k.val ≠ j.val := fun e => h (Fin.ext e.symm)
  simp [Block.entry, Block.setEntry, h']
@[simp] theorem Block.lane_setTank (k : LaneId) (t : TankId) (x : TankView) : (s.setTank t x).lane k = s.lane k := rfl
@[simp] theorem Block.lane_setView (k : LaneId) (z : ZoneId) (x : ZoneView) : (s.setView z x).lane k = s.lane k := rfl
@[simp] theorem Block.lane_setInput (k : LaneId) (i : InputId) (x : SpillInput) : (s.setInput i x).lane k = s.lane k := rfl
@[simp] theorem Block.lane_setEntry (k : LaneId) (n : StationId) (x : RosterEntry) : (s.setEntry n x).lane k = s.lane k := rfl
@[simp] theorem Block.lane_setStore (k : LaneId) (x : Store) : (s.setStore x).lane k = s.lane k := rfl
@[simp] theorem Block.lane_setPins (k : LaneId) (x : Pins) : (s.setPins x).lane k = s.lane k := rfl
@[simp] theorem Block.lane_setAccounts (k : LaneId) (x : Accounts) : (s.setAccounts x).lane k = s.lane k := rfl
@[simp] theorem Block.lane_setSpill (k : LaneId) (x : Spill) : (s.setSpill x).lane k = s.lane k := rfl
@[simp] theorem Block.lane_setRoster (k : LaneId) (x : Roster) : (s.setRoster x).lane k = s.lane k := rfl
@[simp] theorem Block.lane_setLink (k : LaneId) (x : Link) : (s.setLink x).lane k = s.lane k := rfl
@[simp] theorem Block.lane_setPanel (k : LaneId) (x : Panel) : (s.setPanel x).lane k = s.lane k := rfl
@[simp] theorem Block.lane_mapTanks (k : LaneId) (f : TankId → TankView → TankView) : (s.mapTanks f).lane k = s.lane k := rfl
@[simp] theorem Block.lane_setBuilder (k : LaneId) (x : Builder) : (s.setBuilder x).lane k = s.lane k := rfl
@[simp] theorem Block.lane_raise (k : LaneId) (c : Cause) (d : Nat) : (s.raise c d).lane k = s.lane k := rfl
@[simp] theorem Block.lane_offer (k : LaneId) (b : EntryBody) : (s.offer b).lane k = s.lane k := rfl
@[simp] theorem Block.lane_countEvent (k : LaneId) : (s.countEvent).lane k = s.lane k := rfl
@[simp] theorem Block.tank_setLane (k : TankId) (l : LaneId) (x : Lane) : (s.setLane l x).tank k = s.tank k := rfl
@[simp] theorem Block.tank_setView (k : TankId) (z : ZoneId) (x : ZoneView) : (s.setView z x).tank k = s.tank k := rfl
@[simp] theorem Block.tank_setInput (k : TankId) (i : InputId) (x : SpillInput) : (s.setInput i x).tank k = s.tank k := rfl
@[simp] theorem Block.tank_setEntry (k : TankId) (n : StationId) (x : RosterEntry) : (s.setEntry n x).tank k = s.tank k := rfl
@[simp] theorem Block.tank_setStore (k : TankId) (x : Store) : (s.setStore x).tank k = s.tank k := rfl
@[simp] theorem Block.tank_setPins (k : TankId) (x : Pins) : (s.setPins x).tank k = s.tank k := rfl
@[simp] theorem Block.tank_setAccounts (k : TankId) (x : Accounts) : (s.setAccounts x).tank k = s.tank k := rfl
@[simp] theorem Block.tank_setSpill (k : TankId) (x : Spill) : (s.setSpill x).tank k = s.tank k := rfl
@[simp] theorem Block.tank_setRoster (k : TankId) (x : Roster) : (s.setRoster x).tank k = s.tank k := rfl
@[simp] theorem Block.tank_setLink (k : TankId) (x : Link) : (s.setLink x).tank k = s.tank k := rfl
@[simp] theorem Block.tank_setPanel (k : TankId) (x : Panel) : (s.setPanel x).tank k = s.tank k := rfl
@[simp] theorem Block.tank_mapLanes (k : TankId) (f : LaneId → Lane → Lane) : (s.mapLanes f).tank k = s.tank k := rfl
@[simp] theorem Block.tank_setBuilder (k : TankId) (x : Builder) : (s.setBuilder x).tank k = s.tank k := rfl
@[simp] theorem Block.tank_raise (k : TankId) (c : Cause) (d : Nat) : (s.raise c d).tank k = s.tank k := rfl
@[simp] theorem Block.tank_offer (k : TankId) (b : EntryBody) : (s.offer b).tank k = s.tank k := rfl
@[simp] theorem Block.tank_countEvent (k : TankId) : (s.countEvent).tank k = s.tank k := rfl
@[simp] theorem Block.view_setLane (k : ZoneId) (l : LaneId) (x : Lane) : (s.setLane l x).view k = s.view k := rfl
@[simp] theorem Block.view_setTank (k : ZoneId) (t : TankId) (x : TankView) : (s.setTank t x).view k = s.view k := rfl
@[simp] theorem Block.view_setInput (k : ZoneId) (i : InputId) (x : SpillInput) : (s.setInput i x).view k = s.view k := rfl
@[simp] theorem Block.view_setEntry (k : ZoneId) (n : StationId) (x : RosterEntry) : (s.setEntry n x).view k = s.view k := rfl
@[simp] theorem Block.view_setStore (k : ZoneId) (x : Store) : (s.setStore x).view k = s.view k := rfl
@[simp] theorem Block.view_setPins (k : ZoneId) (x : Pins) : (s.setPins x).view k = s.view k := rfl
@[simp] theorem Block.view_setAccounts (k : ZoneId) (x : Accounts) : (s.setAccounts x).view k = s.view k := rfl
@[simp] theorem Block.view_setRoster (k : ZoneId) (x : Roster) : (s.setRoster x).view k = s.view k := rfl
@[simp] theorem Block.view_setLink (k : ZoneId) (x : Link) : (s.setLink x).view k = s.view k := rfl
@[simp] theorem Block.view_setPanel (k : ZoneId) (x : Panel) : (s.setPanel x).view k = s.view k := rfl
@[simp] theorem Block.view_mapLanes (k : ZoneId) (f : LaneId → Lane → Lane) : (s.mapLanes f).view k = s.view k := rfl
@[simp] theorem Block.view_mapTanks (k : ZoneId) (f : TankId → TankView → TankView) : (s.mapTanks f).view k = s.view k := rfl
@[simp] theorem Block.view_setBuilder (k : ZoneId) (x : Builder) : (s.setBuilder x).view k = s.view k := rfl
@[simp] theorem Block.view_raise (k : ZoneId) (c : Cause) (d : Nat) : (s.raise c d).view k = s.view k := rfl
@[simp] theorem Block.view_offer (k : ZoneId) (b : EntryBody) : (s.offer b).view k = s.view k := rfl
@[simp] theorem Block.view_countEvent (k : ZoneId) : (s.countEvent).view k = s.view k := rfl
@[simp] theorem Block.input_setLane (k : InputId) (l : LaneId) (x : Lane) : (s.setLane l x).input k = s.input k := rfl
@[simp] theorem Block.input_setTank (k : InputId) (t : TankId) (x : TankView) : (s.setTank t x).input k = s.input k := rfl
@[simp] theorem Block.input_setView (k : InputId) (z : ZoneId) (x : ZoneView) : (s.setView z x).input k = s.input k := rfl
@[simp] theorem Block.input_setEntry (k : InputId) (n : StationId) (x : RosterEntry) : (s.setEntry n x).input k = s.input k := rfl
@[simp] theorem Block.input_setStore (k : InputId) (x : Store) : (s.setStore x).input k = s.input k := rfl
@[simp] theorem Block.input_setPins (k : InputId) (x : Pins) : (s.setPins x).input k = s.input k := rfl
@[simp] theorem Block.input_setAccounts (k : InputId) (x : Accounts) : (s.setAccounts x).input k = s.input k := rfl
@[simp] theorem Block.input_setRoster (k : InputId) (x : Roster) : (s.setRoster x).input k = s.input k := rfl
@[simp] theorem Block.input_setLink (k : InputId) (x : Link) : (s.setLink x).input k = s.input k := rfl
@[simp] theorem Block.input_setPanel (k : InputId) (x : Panel) : (s.setPanel x).input k = s.input k := rfl
@[simp] theorem Block.input_mapLanes (k : InputId) (f : LaneId → Lane → Lane) : (s.mapLanes f).input k = s.input k := rfl
@[simp] theorem Block.input_mapTanks (k : InputId) (f : TankId → TankView → TankView) : (s.mapTanks f).input k = s.input k := rfl
@[simp] theorem Block.input_setBuilder (k : InputId) (x : Builder) : (s.setBuilder x).input k = s.input k := rfl
@[simp] theorem Block.input_raise (k : InputId) (c : Cause) (d : Nat) : (s.raise c d).input k = s.input k := rfl
@[simp] theorem Block.input_offer (k : InputId) (b : EntryBody) : (s.offer b).input k = s.input k := rfl
@[simp] theorem Block.input_countEvent (k : InputId) : (s.countEvent).input k = s.input k := rfl
@[simp] theorem Block.entry_setLane (k : StationId) (l : LaneId) (x : Lane) : (s.setLane l x).entry k = s.entry k := rfl
@[simp] theorem Block.entry_setTank (k : StationId) (t : TankId) (x : TankView) : (s.setTank t x).entry k = s.entry k := rfl
@[simp] theorem Block.entry_setView (k : StationId) (z : ZoneId) (x : ZoneView) : (s.setView z x).entry k = s.entry k := rfl
@[simp] theorem Block.entry_setInput (k : StationId) (i : InputId) (x : SpillInput) : (s.setInput i x).entry k = s.entry k := rfl
@[simp] theorem Block.entry_setStore (k : StationId) (x : Store) : (s.setStore x).entry k = s.entry k := rfl
@[simp] theorem Block.entry_setPins (k : StationId) (x : Pins) : (s.setPins x).entry k = s.entry k := rfl
@[simp] theorem Block.entry_setAccounts (k : StationId) (x : Accounts) : (s.setAccounts x).entry k = s.entry k := rfl
@[simp] theorem Block.entry_setSpill (k : StationId) (x : Spill) : (s.setSpill x).entry k = s.entry k := rfl
@[simp] theorem Block.entry_setLink (k : StationId) (x : Link) : (s.setLink x).entry k = s.entry k := rfl
@[simp] theorem Block.entry_setPanel (k : StationId) (x : Panel) : (s.setPanel x).entry k = s.entry k := rfl
@[simp] theorem Block.entry_mapLanes (k : StationId) (f : LaneId → Lane → Lane) : (s.mapLanes f).entry k = s.entry k := rfl
@[simp] theorem Block.entry_mapTanks (k : StationId) (f : TankId → TankView → TankView) : (s.mapTanks f).entry k = s.entry k := rfl
@[simp] theorem Block.entry_setBuilder (k : StationId) (x : Builder) : (s.setBuilder x).entry k = s.entry k := rfl
@[simp] theorem Block.entry_raise (k : StationId) (c : Cause) (d : Nat) : (s.raise c d).entry k = s.entry k := rfl
@[simp] theorem Block.entry_offer (k : StationId) (b : EntryBody) : (s.offer b).entry k = s.entry k := rfl
@[simp] theorem Block.entry_countEvent (k : StationId) : (s.countEvent).entry k = s.entry k := rfl
@[simp] theorem Block.lane_mapLanes (f : LaneId → Lane → Lane) (l : LaneId) : (s.mapLanes f).lane l = f l (s.lane l) := by
  simp [Block.lane, Block.mapLanes]
@[simp] theorem Block.tank_mapTanks (f : TankId → TankView → TankView) (t : TankId) :
    (s.mapTanks f).tank t = f t (s.tank t) := by
  simp [Block.tank, Block.mapTanks]

@[simp] theorem Block.modLane_eq (k : LaneId) (f : Lane → Lane) : s.modLane k f = s.setLane k (f (s.lane k)) := rfl
@[simp] theorem Block.modTank_eq (k : TankId) (f : TankView → TankView) : s.modTank k f = s.setTank k (f (s.tank k)) := rfl
@[simp] theorem Block.modView_eq (k : ZoneId) (f : ZoneView → ZoneView) : s.modView k f = s.setView k (f (s.view k)) := rfl
@[simp] theorem Block.modEntry_eq (k : StationId) (f : RosterEntry → RosterEntry) : s.modEntry k f = s.setEntry k (f (s.entry k)) := rfl

end Sys2Proof.Machine
end

