-- ==== Sys2Proof/Laws/Finish.lean ====
section
/-! SUPPORT. What the end of an event can do: `evalTanks` leaves every tank view in the state its rules give, and
`Block.finish` leaves the part settled. -/

namespace Sys2Proof.Machine

/-! ## What the state of a tank view rests on -/

theorem Block.peerLanes_congr {a b : Block} (hn : a.number = b.number) (he : a.roster.entries = b.roster.entries) :
    a.peerLanes = b.peerLanes := by
  simp only [Block.peerLanes, Block.entry, hn, he]

theorem Block.commitmentPL_congr {a b : Block} (t : TankId)
    (hl : ∀ l, (a.lane l).commitmentPL t = (b.lane l).commitmentPL t) (hp : a.peerLanes = b.peerLanes) :
    a.commitmentPL t = b.commitmentPL t := by
  simp only [Block.commitmentPL, hl, hp]

/-- What `nextTankState` reads of a view. -/
structure SameForStock (v w : TankView) : Prop where
  book : v.book = w.book
  basis : v.basis = w.basis
  age : v.age = w.age
  state : v.state = w.state
  high : v.high = w.high
  heardHigh : v.heardHigh = w.heardHigh

theorem SameForStock.refl (v : TankView) : SameForStock v v := ⟨rfl, rfl, rfl, rfl, rfl, rfl⟩

theorem Block.nextTankState_congr {a b : Block} (t : TankId) (hs : a.store = b.store)
    (he : a.roster.entries = b.roster.entries) (ht : SameForStock (a.tank t) (b.tank t))
    (hl : ∀ l, (a.lane l).commitmentPL t = (b.lane l).commitmentPL t) : a.nextTankState t = b.nextTankState t := by
  have hp : a.peerLanes = b.peerLanes := Block.peerLanes_congr (by simp [Block.number, hs]) he
  have hc := Block.commitmentPL_congr t hl hp
  have hg : a.gauges t = b.gauges t := by
    simp only [Block.gauges, Block.running, Block.gaugeTank, hs]; rfl
  simp only [Block.nextTankState, Block.available, Block.commitmentSum, Block.highLevel, Block.tankCfg, TankView.blind,
    hs, hc, hg, ht.book, ht.basis, ht.age, ht.state, ht.high, ht.heardHigh]
  rfl

/-! ## The state rules settle at once (R58, R59) -/

theorem climbLow_rank (c : TankCfg) (a : Int) (g : TankState) : climbLow c a g = .low ∨ climbLow c a g = .normal := by
  unfold climbLow; split <;> simp

theorem nextSupply_idem (c : TankCfg) (p : TankState) (b a : Int) :
    nextSupply c (nextSupply c p b a) b a = nextSupply c p b a := by
  have ht : supplyTarget c b a = .dry ∨ supplyTarget c b a = .reserve ∨ supplyTarget c b a = .low
      ∨ supplyTarget c b a = .normal := by
    unfold supplyTarget; split_ifs <;> simp
  by_cases h1 : c.suctionMark + c.h < b <;> by_cases h2 : c.reserveMark + c.h < a <;>
    by_cases h3 : c.lowMark + c.h < a <;> rcases ht with ht | ht | ht | ht <;> cases p <;>
    simp [nextSupply, climbDry, climbReserve, climbLow, TankState.rank, ht, h1, h2, h3]

theorem nextWaste_idem (c : TankCfg) (p : TankState) (b : Int) (h : Bool) :
    nextWaste c (nextWaste c p b h) b h = nextWaste c p b h := by
  have hh : (0 : Int) ≤ c.h := by unfold TankCfg.h; omega
  by_cases h1 : b < c.highMark - c.h <;> by_cases h2 : (c.highMark : Int) ≤ b <;> cases h <;> cases p <;>
    simp [nextWaste, h1, h2] <;> omega

/-- Entry to DRY turns on book stock alone. -/
theorem nextSupply_dry {c : TankCfg} {p : TankState} {b a : Int} (hp : p ≠ .dry) (h : nextSupply c p b a = .dry) :
    b < c.suctionMark := by
  by_contra hb
  have ht : supplyTarget c b a = .reserve ∨ supplyTarget c b a = .low ∨ supplyTarget c b a = .normal := by
    unfold supplyTarget; split_ifs <;> simp
  have hl : climbLow c a (supplyTarget c b a) ≠ .dry := by
    rcases climbLow_rank c a (supplyTarget c b a) with e | e <;> rw [e] <;> simp
  have hr : climbReserve c a (supplyTarget c b a) ≠ .dry := by
    unfold climbReserve; split <;> simp_all
  revert h
  cases p <;> simp only [nextSupply] <;> try (split_ifs <;> simp_all)
  all_goals rcases ht with ht | ht | ht <;> simp_all

theorem nextSupply_of_dry {c : TankCfg} {b : Int} (a : Int) (hb : b < c.suctionMark) (p : TankState) :
    nextSupply c p b a = .dry := by
  have hg : supplyTarget c b a = .dry := by simp [supplyTarget, hb]
  cases p <;> simp [nextSupply, hg, climbDry, TankState.rank]

theorem nextWaste_ne_dry (c : TankCfg) (p : TankState) (b : Int) (h : Bool) : nextWaste c p b h ≠ .dry := by
  unfold nextWaste; split <;> split_ifs <;> simp

/-! ## One tank view at the end of an event -/

/-- What ends of grants and sessions leave alone: everything but lanes, accounts and raises. -/
structure LanesOnly (a b : Block) : Prop where
  store : b.store = a.store
  pins : b.pins = a.pins
  tanks : b.tanks = a.tanks
  spill : b.spill = a.spill
  roster : b.roster = a.roster
  link : b.link = a.link
  openDraws : b.openDraws = a.openDraws

theorem LanesOnly.refl (a : Block) : LanesOnly a a := ⟨rfl, rfl, rfl, rfl, rfl, rfl, rfl⟩

theorem LanesOnly.trans {a b c : Block} (h : LanesOnly a b) (k : LanesOnly b c) : LanesOnly a c :=
  ⟨k.store.trans h.store, k.pins.trans h.pins, k.tanks.trans h.tanks, k.spill.trans h.spill, k.roster.trans h.roster,
    k.link.trans h.link, k.openDraws.trans h.openDraws⟩

theorem Block.takeCause_only (s : Block) (l : LaneId) (c : EndCause) : LanesOnly s (s.takeCause l c) := by
  simp only [Block.takeCause]; split_ifs <;> exact ⟨rfl, rfl, rfl, rfl, rfl, rfl, rfl⟩

theorem Block.endGrant_only (s : Block) (l : LaneId) (c : EndCause) : LanesOnly s (s.endGrant l c) :=
  ⟨rfl, rfl, rfl, rfl, rfl, rfl, rfl⟩

theorem Block.laneDry_only (t : TankId) (s : Block) (l : LaneId) : LanesOnly s (s.laneDry t l) := by
  simp only [Block.laneDry]; split_ifs
  · exact s.endGrant_only l _
  · exact s.takeCause_only l _
  · exact .refl s

theorem foldl_only {f : Block → LaneId → Block} (hf : ∀ s l, LanesOnly s (f s l)) (ls : List LaneId) (s : Block) :
    LanesOnly s (ls.foldl f s) := by
  induction ls generalizing s with
  | nil => exact .refl s
  | cons l ls ih => exact (hf s l).trans (ih _)

theorem Block.lanesDry_only (s : Block) (t : TankId) : LanesOnly s (s.lanesDry t) := foldl_only (Block.laneDry_only t) _ s

theorem Lane.commitmentPL_of_tank {x : Lane} {u : TankId} (h : ∀ p ∈ x.params, p.tank ≠ u) : x.commitmentPL u = 0 := by
  cases hp : x.params with
  | none => simp [Lane.commitmentPL, hp]
  | some p => simp [Lane.commitmentPL, Lane.holdsDrawOn, hp, h p hp]

theorem Lane.tank_of_holdsDrawOn {x : Lane} {t : TankId} (h : x.holdsDrawOn t = true) : ∀ p ∈ x.params, p.tank = t := by
  intro p hp
  rw [Option.mem_def] at hp
  simp only [Lane.holdsDrawOn, hp, Bool.and_eq_true, decide_eq_true_eq] at h
  exact h.2

/-- The lane a cause reaches, whatever it does with it. -/
theorem Block.takeCause_lane (s : Block) (l : LaneId) (c : EndCause) :
    (s.takeCause l c).lane l = (s.lane l).close s.now c ∨ (s.takeCause l c).lane l = (s.lane l).storeSecondary c
      ∨ (s.takeCause l c).lane l = s.lane l := by
  simp only [Block.takeCause]; split_ifs <;> simp

theorem Block.takeCause_other (s : Block) {l k : LaneId} (c : EndCause) (h : k ≠ l) :
    (s.takeCause l c).lane k = s.lane k := by
  simp only [Block.takeCause]; split_ifs <;> simp [Block.lane_setLane_of_ne, h]

theorem Block.endGrant_lane (s : Block) (l : LaneId) (c : EndCause) :
    (s.endGrant l c).lane l = { (s.lane l).toIdle with lift := .rest, lapse := some c } := by
  unfold Block.endGrant Block.clearInFlight; rw [Block.modLane_eq, Block.lane_setAccounts, Block.lane_setLane]

theorem Block.endGrant_other (s : Block) {l k : LaneId} (c : EndCause) (h : k ≠ l) :
    (s.endGrant l c).lane k = s.lane k := by
  unfold Block.endGrant Block.clearInFlight
  rw [Block.modLane_eq, Block.lane_setAccounts, Block.lane_setLane_of_ne _ h]

/-- The end of a session on tank `t` changes no other tank's commitment. -/
theorem Block.laneDry_commitment (t u : TankId) (hu : u ≠ t) (s : Block) (k l : LaneId) :
    ((s.laneDry t k).lane l).commitmentPL u = (s.lane l).commitmentPL u := by
  by_cases hk : l = k
  · subst hk
    simp only [Block.laneDry]
    split_ifs with h1 h2
    · have ht := Lane.tank_of_holdsDrawOn h1
      have hn : ∀ p ∈ (s.lane l).params, p.tank ≠ u := fun p hp => (ht p hp).symm ▸ hu.symm
      rw [Lane.commitmentPL_of_tank hn, Block.endGrant_lane]
      exact Lane.commitmentPL_of_tank (by simp [Lane.toIdle])
    · have ht := Lane.tank_of_holdsDrawOn h1
      have hn : ∀ p ∈ (s.lane l).params, p.tank ≠ u := fun p hp => (ht p hp).symm ▸ hu.symm
      rw [Lane.commitmentPL_of_tank hn]
      rcases s.takeCause_lane l .dry with e | e | e <;> rw [e] <;> exact Lane.commitmentPL_of_tank hn
    · rfl
  · simp only [Block.laneDry]
    split_ifs
    · rw [Block.endGrant_other s _ hk]
    · rw [Block.takeCause_other s _ hk]
    · rfl

theorem Block.lanesDry_commitment (t u : TankId) (hu : u ≠ t) (s : Block) (l : LaneId) :
    ((s.lanesDry t).lane l).commitmentPL u = (s.lane l).commitmentPL u := by
  simp [Block.lanesDry, allLanes, Block.laneDry_commitment t u hu]

/-- A view in the state its rules give, for every book and commitment it then holds (R57 to R59). -/
theorem Block.nextTankState_idem (s : Block) (t : TankId) (v : TankView)
    (hv : SameForStock v { s.tank t with state := s.nextTankState t }) :
    (s.setTank t v).nextTankState t = s.nextTankState t := by
  have hl : ∀ l, ((s.setTank t v).lane l).commitmentPL t = (s.lane l).commitmentPL t := fun l => rfl
  have hc := Block.commitmentPL_congr (a := s.setTank t v) (b := s) t hl (Block.peerLanes_congr rfl rfl)
  have hg : (s.setTank t v).gauges t = s.gauges t := rfl
  obtain ⟨h1, h2, h3, h4, h5, h6⟩ := hv
  simp only at h1 h2 h3 h5 h6
  unfold Block.nextTankState at h4 ⊢
  have hcfg : (s.setTank t v).tankCfg t = s.tankCfg t := rfl
  have hb : v.blind = (s.tank t).blind := by unfold TankView.blind; rw [h2, h3]
  have hh : (s.setTank t v).highLevel t = s.highLevel t := by
    unfold Block.highLevel; rw [hg, Block.tank_setTank, h5, h6]
  have ha : (s.setTank t v).available t = s.available t := by
    unfold Block.available Block.commitmentSum; rw [hc, Block.tank_setTank, h1]
  simp only at h4 ⊢
  rw [hcfg, Block.tank_setTank, hh, ha, hb, h1]
  revert h4
  cases s.tankCfg t with
  | none => intro h4; simp only at h4 ⊢; exact h4
  | some c =>
    simp only
    split_ifs
    · intro _; rfl
    · intro h4; rw [h4, nextWaste_idem]
    · intro h4; rw [h4, nextSupply_idem]

/-- A view can enter DRY only for want of book stock, and then stays DRY whatever its commitments become. -/
theorem Block.nextTankState_dry {a b : Block} {t : TankId} (h : a.nextTankState t = .dry)
    (hp : (a.tank t).state ≠ .dry) (hs : b.store = a.store) (hb : (b.tank t).book = (a.tank t).book)
    (hbas : (b.tank t).basis = (a.tank t).basis) (hage : (b.tank t).age = (a.tank t).age) : b.nextTankState t = .dry := by
  have hcfg : b.tankCfg t = a.tankCfg t := by simp only [Block.tankCfg, hs]
  have hbl : (b.tank t).blind = (a.tank t).blind := by simp only [TankView.blind, hbas, hage]
  simp only [Block.nextTankState] at *
  rw [hcfg, hbl, hb]
  revert h
  cases a.tankCfg t with
  | none => intro h; exact absurd h hp
  | some c =>
    simp only
    split_ifs
    · simp
    · intro h; exact absurd h (nextWaste_ne_dry _ _ _ _)
    · intro h; exact nextSupply_of_dry _ (nextSupply_dry hp h) _

/-- What the evaluation of one view leaves alone. -/
theorem Block.evalTank_kept (s : Block) (t : TankId) :
    (s.evalTank t).store = s.store ∧ (s.evalTank t).pins = s.pins ∧ (s.evalTank t).spill = s.spill ∧
    (s.evalTank t).roster = s.roster ∧ (s.evalTank t).link = s.link ∧ (s.evalTank t).openDraws = s.openDraws ∧
    (∀ u, u ≠ t → (s.evalTank t).tank u = s.tank u) ∧
    (s.evalTank t).tank t = { s.tank t with state := s.nextTankState t } := by
  have key : ∀ b : Block, LanesOnly ((s.modTank t fun v => { v with state := s.nextTankState t }).raise .stockState t.val) b →
      b.store = s.store ∧ b.pins = s.pins ∧ b.spill = s.spill ∧ b.roster = s.roster ∧ b.link = s.link ∧
      b.openDraws = s.openDraws ∧ (∀ u, u ≠ t → b.tank u = s.tank u) ∧
      b.tank t = { s.tank t with state := s.nextTankState t } := by
    intro b h
    refine ⟨h.store, h.pins, h.spill, h.roster, h.link, h.openDraws, fun u hu => ?_, ?_⟩
    · simp only [Block.tank, h.tanks]; exact Block.tank_setTank_of_ne s hu _
    · simp only [Block.tank, h.tanks]; exact Block.tank_setTank s t _
  simp only [Block.evalTank]
  split_ifs with h1 h2
  · exact ⟨rfl, rfl, rfl, rfl, rfl, rfl, fun _ _ => rfl, by rw [h1]⟩
  · exact key _ (Block.lanesDry_only _ t)
  · exact key _ (LanesOnly.refl _)

theorem Block.evalTank_commitment (s : Block) (t u : TankId) (hu : u ≠ t) (l : LaneId) :
    ((s.evalTank t).lane l).commitmentPL u = (s.lane l).commitmentPL u := by
  simp only [Block.evalTank]
  split_ifs
  · rfl
  · rw [Block.lanesDry_commitment t u hu]; rfl
  · rfl

/-- The evaluation of one view is seen by no other. -/
theorem Block.evalTank_other (s : Block) (t u : TankId) (hu : u ≠ t) :
    (s.evalTank t).nextTankState u = s.nextTankState u := by
  obtain ⟨h1, -, -, h4, -, -, h7, -⟩ := s.evalTank_kept t
  exact Block.nextTankState_congr u h1 (by rw [h4]) (by rw [h7 u hu]; exact .refl _) (s.evalTank_commitment t u hu)

/-- The evaluated view stands in the state its rules give. -/
theorem Block.evalTank_self (s : Block) (t : TankId) :
    (s.evalTank t).nextTankState t = ((s.evalTank t).tank t).state := by
  obtain ⟨h1, -, -, -, -, -, -, h8⟩ := s.evalTank_kept t
  rw [h8]
  by_cases hn : s.nextTankState t = (s.tank t).state
  · have e : s.evalTank t = s := by simp only [Block.evalTank, hn, if_true]
    rw [e]
  · by_cases hd : s.nextTankState t = .dry
    · rw [hd]
      exact Block.nextTankState_dry hd (fun e => hn (hd.trans e.symm)) h1 (by rw [h8]) (by rw [h8]) (by rw [h8])
    · have e : s.evalTank t = (s.modTank t fun v => { v with state := s.nextTankState t }).raise .stockState t.val := by
        simp only [Block.evalTank, hn, hd, if_false]
      rw [e]
      exact s.nextTankState_idem t _ ⟨rfl, rfl, rfl, rfl, rfl, rfl⟩

theorem Block.evalTanks_settle_aux (ts : List TankId) (s : Block) (t : TankId)
    (h : t ∈ ts ∨ s.nextTankState t = (s.tank t).state) :
    (ts.foldl Block.evalTank s).nextTankState t = ((ts.foldl Block.evalTank s).tank t).state := by
  induction ts generalizing s with
  | nil => simpa using h
  | cons u ts ih =>
    refine ih _ ?_
    by_cases hu : t = u
    · subst hu; exact .inr (s.evalTank_self t)
    · rcases h with h | h
      · exact .inl ((List.mem_cons.mp h).resolve_left hu)
      · refine .inr ?_
        rw [s.evalTank_other u t hu, (s.evalTank_kept u).2.2.2.2.2.2.1 t hu, h]

/-- The end of an event leaves every tank view in the state its rules give (R57 to R60). -/
theorem Block.evalTanks_settled (s : Block) (t : TankId) : s.evalTanks.nextTankState t = (s.evalTanks.tank t).state :=
  Block.evalTanks_settle_aux _ s t (.inl (by revert t; decide))

/-- Where no view is about to enter DRY, the end of an event changes the states of the tank views and raises them, and
nothing more. -/
theorem Block.evalTanks_quiet_aux (ts : List TankId) (hn : ts.Nodup) (s : Block) (h : s.NoNewDry) :
    ts.foldl Block.evalTank s =
      (s.mapTanks fun t v => if t ∈ ts then { v with state := s.nextTankState t } else v).setPanel
        { s.panel with raised := s.panel.raised ++
            (ts.filter fun t => s.nextTankState t ≠ (s.tank t).state).map fun t => (.stockState, t.val) } := by
  induction ts generalizing s with
  | nil =>
    have : s.tanks = Vector.ofFn fun t => s.tank t := by
      ext i hi; simp [Block.tank]
    simp only [List.foldl_nil, Block.mapTanks, Block.setPanel, List.not_mem_nil, if_false, List.filter_nil, List.map_nil,
      List.append_nil, ← this]
  | cons u ts ih =>
    obtain ⟨hu, hn⟩ := List.nodup_cons.mp hn
    have h0 : ∀ t, (s.evalTank u).nextTankState t = s.nextTankState t := by
      intro t
      by_cases e : t = u
      · subst e; rw [s.evalTank_self t, (s.evalTank_kept t).2.2.2.2.2.2.2]
      · exact s.evalTank_other u t e
    have hk := (s.evalTank_kept u).2.2.2.2.2.2
    have h1 : (s.evalTank u).NoNewDry := by
      intro t ht
      rw [h0] at ht
      by_cases e : t = u
      · subst e; rw [hk.2]; exact ht
      · rw [hk.1 t e]; exact h t ht
    rw [List.foldl_cons, ih hn _ h1]
    have e : s.evalTank u = (s.setTank u { s.tank u with state := s.nextTankState u }).setPanel
        { s.panel with raised := s.panel.raised ++
          (if s.nextTankState u ≠ (s.tank u).state then [(.stockState, u.val)] else []) } := by
      simp only [Block.evalTank]
      by_cases e1 : s.nextTankState u = (s.tank u).state
      · have : s.setTank u { s.tank u with state := (s.tank u).state } = s := by
          simp only [Block.setTank, Block.tank]
          have : s.tanks.set u s.tanks[u] = s.tanks := by ext i hi; simp
          exact congrArg (fun v => { s with tanks := v }) this
        simp only [e1, if_true, ne_eq, not_true_eq_false, if_false, List.append_nil, this]
        rfl
      · have e2 : s.nextTankState u ≠ .dry := fun e3 => e1 (e3.trans (h u e3).symm)
        simp only [e1, e2, if_false, ne_eq, not_false_eq_true, if_true, Block.raise, Block.modTank_eq]
        rfl
    have ef : (ts.filter fun t => (s.evalTank u).nextTankState t ≠ ((s.evalTank u).tank t).state)
        = ts.filter fun t => s.nextTankState t ≠ (s.tank t).state := by
      apply List.filter_congr
      intro t ht
      rw [h0, hk.1 t fun e => hu (e ▸ ht)]
    rw [ef]
    simp only [h0]
    rw [e]
    simp only [Block.mapTanks, Block.setPanel, Block.setTank, List.filter_cons]
    congr 1
    · ext1 i hi
      simp only [Vector.getElem_ofFn, Block.tank]
      by_cases e1 : (⟨i, hi⟩ : TankId) = u
      · subst e1; simp [hu]
      · have e2 : ¬ (u : Nat) = i := fun e3 => e1 (Fin.ext e3.symm)
        simp [e2, e1, List.mem_cons]
    · split_ifs <;> simp_all

theorem Block.evalTanks_quiet (s : Block) (h : s.NoNewDry) :
    s.evalTanks = (s.mapTanks fun t v => { v with state := s.nextTankState t }).setPanel
      { s.panel with raised := s.panel.raised ++ s.stockRaises } := by
  have := Block.evalTanks_quiet_aux allTanks (by decide) s h
  have hm : ∀ t : TankId, t ∈ allTanks := by decide
  simp only [hm, if_true] at this
  exact this

/-- Where every view stands in its state, the end of an event has no work on the views. -/
theorem Block.evalTanks_none (s : Block) (h : ∀ t, s.nextTankState t = (s.tank t).state) : s.evalTanks = s := by
  have : ∀ ts : List TankId, ts.foldl Block.evalTank s = s := by
    intro ts
    induction ts with
    | nil => rfl
    | cons t ts ih =>
      have : s.evalTank t = s := by simp only [Block.evalTank, h t, if_true]
      rw [List.foldl_cons, this, ih]
  exact this _

/-! ## Outputs and views -/

/-- What the rules of chapters 1, 3, 5 and 6 read to form pictures, demands, caps, duties and outputs: the two parts
agree on it. -/
structure Alike (a b : Block) : Prop where
  store : b.store = a.store
  entries : b.roster.entries = a.roster.entries
  isolated : b.link.isolated = a.link.isolated
  views : ∀ z, (b.view z).state = (a.view z).state ∧ (b.view z).epoch = (a.view z).epoch
  session : ∀ l, (b.lane l).session = (a.lane l).session
  params : ∀ l, (b.lane l).params = (a.lane l).params
  data : ∀ l, (b.lane l).data = (a.lane l).data

namespace Alike

variable {a b : Block} (h : Alike a b)

include h

theorem peerLanes : b.peerLanes = a.peerLanes := Block.peerLanes_congr (by simp only [Block.number, h.store]) h.entries

theorem demand (l : LaneId) : b.demand l = a.demand l := by
  simp only [Block.demand, Block.laneCfg, h.store, h.session]

theorem drawsOn (l : LaneId) (t : TankId) : (b.lane l).drawsOn t = (a.lane l).drawsOn t := by
  simp only [Lane.drawsOn, h.session, h.params]

theorem commitmentPL (l : LaneId) (t : TankId) : (b.lane l).commitmentPL t = (a.lane l).commitmentPL t := by
  simp only [Lane.commitmentPL, Lane.holdsDrawOn, Lane.sessionNet, h.session, h.params, h.data]
  all_goals rfl

theorem demandSum (t : TankId) : b.demandSum t = a.demandSum t := by
  simp only [Block.demandSum, Block.demandInView, Block.isolated, Block.tankCfg, h.store, h.isolated, h.peerLanes,
    h.demand, h.drawsOn]
  all_goals rfl

theorem capFor (l : LaneId) : b.capFor l = a.capFor l := by
  simp only [Block.capFor, Block.tankCfg, h.store, h.params, h.session, h.demand, h.demandSum]

theorem capDutyFor (l : LaneId) : b.capDutyFor l = a.capDutyFor l := by
  simp only [Block.capDutyFor, Block.laneCfg, Lane.direction, h.store, h.params, h.session, h.capFor]
  rfl

theorem dutyFor (l : LaneId) : b.dutyFor l = a.dutyFor l := by
  simp only [Block.dutyFor, Block.laneCfg, h.store, h.session, h.capDutyFor]

theorem gauges (t : TankId) : b.gauges t = a.gauges t := by
  simp only [Block.gauges, Block.running, Block.gaugeTank, h.store]
  all_goals rfl

theorem anyDrawing (t : TankId) : b.anyDrawing t = a.anyDrawing t := by
  simp only [Block.anyDrawing, h.drawsOn, h.peerLanes]

theorem lineDriven : b.lineDriven = a.lineDriven := by
  unfold Block.lineDriven Block.ownView
  rw [h.store]
  cases a.store.ownZone with
  | none => rfl
  | some z => simp only [Option.map_some, (h.views z).1]

theorem picture (l : LaneId) : b.picture l = a.picture l := by
  simp only [Block.picture, Lane.band, Lane.direction, Lane.sessionTank, Lane.delivered, Lane.commitment, Lane.heldMachine,
    h.session, h.params, h.data, h.demand]
  all_goals rfl

theorem driveLane (l : LaneId) (x : Lane) : b.driveLane l x = a.driveLane l x := by
  simp only [Block.driveLane, h.capFor, h.capDutyFor, h.dutyFor]

/-- The outputs of a tank, where its view stands too. -/
theorem driveTank (t : TankId) (v : TankView) (hs : (b.tank t).state = (a.tank t).state)
    (hh : (b.tank t).highHigh = (a.tank t).highHigh) (hg : (b.tank t).lastGood = (a.tank t).lastGood) :
    b.driveTank t v = a.driveTank t v := by
  have h1 : b.pumpOn t = a.pumpOn t := by
    simp only [Block.pumpOn, Block.tankCfg, Block.isolated, h.store, fun z => (h.views z).1, h.isolated, h.gauges,
      h.anyDrawing, hs]
  have h2 : b.inletOpen t = a.inletOpen t := by
    simp only [Block.inletOpen, Block.tankCfg, h.store, fun z => (h.views z).1, h.gauges, hh, hg]
  simp only [Block.driveTank, h1, h2]

theorem nextTankState (t : TankId) (ht : SameForStock (b.tank t) (a.tank t)) : b.nextTankState t = a.nextTankState t :=
  Block.nextTankState_congr t h.store h.entries ht fun l => h.commitmentPL l t

end Alike

/-! ## Outputs, marks and the end of an event -/

theorem Block.driveOutputs_lane (s : Block) (l : LaneId) : s.driveOutputs.lane l = s.driveLane l (s.lane l) := by
  simp only [Block.driveOutputs, Block.driveLine, Block.lane_setSpill, Block.lane_mapTanks, Block.lane_mapLanes]

theorem Block.driveOutputs_tank (s : Block) (t : TankId) : s.driveOutputs.tank t = s.driveTank t (s.tank t) := by
  simp only [Block.driveOutputs, Block.driveLine, Block.tank_setSpill, Block.tank_mapTanks, Block.tank_mapLanes]

theorem Block.driveOutputs_spill (s : Block) : s.driveOutputs.spill = { s.spill with drive := s.lineDriven } := rfl

theorem Block.noteChange_alike (before s : Block) : Alike s (Block.noteChange before s) := by
  unfold Block.noteChange Block.markChange
  split_ifs <;> exact ⟨rfl, rfl, rfl, fun _ => ⟨rfl, rfl⟩, fun _ => rfl, fun _ => rfl, fun _ => rfl⟩

theorem Block.driveOutputs_alike (s : Block) : Alike s s.driveOutputs :=
  ⟨rfl, rfl, rfl, fun _ => ⟨rfl, rfl⟩, fun l => by rw [s.driveOutputs_lane]; rfl, fun l => by rw [s.driveOutputs_lane]; rfl,
    fun l => by rw [s.driveOutputs_lane]; rfl⟩

theorem Alike.trans {a b c : Block} (h : Alike a b) (k : Alike b c) : Alike a c :=
  ⟨k.store.trans h.store, k.entries.trans h.entries, k.isolated.trans h.isolated,
    fun z => ⟨(k.views z).1.trans (h.views z).1, (k.views z).2.trans (h.views z).2⟩,
    fun l => (k.session l).trans (h.session l), fun l => (k.params l).trans (h.params l),
    fun l => (k.data l).trans (h.data l)⟩

/-- R147: what the end of an event tells the STATUS builder. -/
theorem Block.noteChange_fields (before s : Block) :
    (Block.noteChange before s).store = s.store ∧ (Block.noteChange before s).pins = s.pins ∧
    (Block.noteChange before s).lanes = s.lanes ∧ (Block.noteChange before s).tanks = s.tanks ∧
    (Block.noteChange before s).accounts = s.accounts ∧ (Block.noteChange before s).spill = s.spill ∧
    (Block.noteChange before s).link = s.link ∧ (Block.noteChange before s).panel = s.panel ∧
    (Block.noteChange before s).openDraws = s.openDraws ∧ sameRoster s.roster (Block.noteChange before s).roster := by
  unfold Block.noteChange Block.markChange
  split_ifs <;> exact ⟨rfl, rfl, rfl, rfl, rfl, rfl, rfl, rfl, rfl, rfl⟩

/-- The end of an event, part by part, from the part `e` whose tank views have been evaluated. -/
structure EndOf (e t : Block) : Prop where
  alike : Alike e t
  store : t.store = e.store
  pins : t.pins = e.pins
  lanes : ∀ l, t.lane l = e.driveLane l (e.lane l)
  tanks : ∀ u, t.tank u = e.driveTank u (e.tank u)
  accounts : t.accounts = e.accounts
  spill : t.spill = { e.spill with drive := e.lineDriven }
  roster : sameRoster e.roster t.roster
  link : t.link = e.link
  panel : t.panel = e.panel.settle
  openDraws : t.openDraws = e.openDraws + 1

theorem Block.finish_end (before s : Block) : EndOf s.evalTanks (Block.finish before s) := by
  have hf := Block.noteChange_fields before s.evalTanks
  have ha := Block.noteChange_alike before s.evalTanks
  simp only [Block.finish]
  revert hf ha
  generalize Block.noteChange before s.evalTanks = n
  generalize s.evalTanks = e
  intro ⟨h1, h2, h3, h4, h5, h6, h7, h8, h9, h10⟩ ha
  have hl : ∀ l, n.lane l = e.lane l := fun l => by simp only [Block.lane, h3]
  have ht : ∀ l, n.tank l = e.tank l := fun l => by simp only [Block.tank, h4]
  have hd := n.driveOutputs_alike
  refine ⟨ha.trans ⟨hd.store, hd.entries, hd.isolated, hd.views, hd.session, hd.params, hd.data⟩, h1, h2, fun l => ?_, fun u => ?_, h5, ?_, h10, h7, ?_, ?_⟩
  · refine (n.driveOutputs_lane l).trans ?_
    rw [ha.driveLane, hl]
  · refine (n.driveOutputs_tank u).trans ?_
    rw [ha.driveTank u _ (by rw [ht]) (by rw [ht]) (by rw [ht]), ht]
  · refine n.driveOutputs_spill.trans ?_
    rw [ha.lineDriven, h6]
  · show n.panel.settle = _
    rw [h8]
  · show n.openDraws + 1 = _
    rw [h9]

theorem EndOf.settled {e t : Block} (h : EndOf e t) (hs : ∀ u, e.nextTankState u = (e.tank u).state) : Settled t := by
  refine ⟨fun u => ?_, fun l => ?_, fun u => ?_, ?_, ?_, ?_⟩
  · rw [h.alike.nextTankState u (by rw [h.tanks]; exact ⟨rfl, rfl, rfl, rfl, rfl, rfl⟩), hs, h.tanks]; rfl
  · rw [h.alike.driveLane, h.lanes]; rfl
  · rw [h.alike.driveTank u _ (by rw [h.tanks]; rfl) (by rw [h.tanks]; rfl) (by rw [h.tanks]; rfl), h.tanks]; rfl
  · rw [h.spill, h.alike.lineDriven]
  · rw [h.panel]; rfl
  · rw [h.panel]; rfl

/-- Every event leaves the part settled. -/
theorem Block.finish_settled (before s : Block) : Settled (Block.finish before s) :=
  (Block.finish_end before s).settled s.evalTanks_settled

/-- The end of an event that no view enters DRY in. -/
theorem Block.finish_quiet (before s : Block) (hq : s.NoNewDry) :
    let t := Block.finish before s
    t.store = s.store ∧ t.pins = s.pins ∧ (∀ l, sameLane (s.lane l) (t.lane l)) ∧
    (∀ u, sameTank { s.tank u with state := s.nextTankState u } (t.tank u)) ∧ t.accounts = s.accounts ∧
    sameSpill s.spill t.spill ∧ sameRoster s.roster t.roster ∧ t.link = s.link ∧
    t.panel = Panel.settle { s.panel with raised := s.panel.raised ++ s.stockRaises } ∧
    t.openDraws = s.openDraws + 1 := by
  have h := Block.finish_end before s
  rw [s.evalTanks_quiet hq] at h
  generalize Block.finish before s = t at h ⊢
  refine ⟨h.store, h.pins, fun l => ?_, fun u => ?_, h.accounts, ?_, h.roster, h.link, h.panel, h.openDraws⟩
  · rw [h.lanes]; rfl
  · rw [h.tanks, Block.tank_setPanel, Block.tank_mapTanks]; rfl
  · rw [h.spill]; rfl

/-! ## Events that the tanks, the outputs and the STATUS builder do not see -/

theorem Block.noteChange_still {before s : Block} (h : Alike before s) : Block.noteChange before s = s := by
  have : changedForStatus before s = false := by
    simp only [changedForStatus, pictureChanged, viewChanged, h.picture, fun z => (h.views z).1, fun z => (h.views z).2, ne_eq,
      not_true_eq_false, decide_false, Bool.or_false]
    decide
  simp only [Block.noteChange, this]
  rfl

/-- The parts agree on the outputs that stand at them. -/
structure SameOutputs (a b : Block) : Prop where
  lanes : ∀ l, (b.lane l).mainOpen = (a.lane l).mainOpen ∧ (b.lane l).slowOpen = (a.lane l).slowOpen ∧
    (b.lane l).cap = (a.lane l).cap ∧ (b.lane l).capDuty = (a.lane l).capDuty ∧ (b.lane l).duty = (a.lane l).duty
  tanks : ∀ t, (b.tank t).pump = (a.tank t).pump ∧ (b.tank t).inlet = (a.tank t).inlet ∧
    (b.tank t).state = (a.tank t).state ∧ (b.tank t).highHigh = (a.tank t).highHigh ∧
    (b.tank t).lastGood = (a.tank t).lastGood
  drive : b.spill.drive = a.spill.drive

theorem Block.driveLane_still {s : Block} {l : LaneId} {x : Lane} (h : s.driveLane l x = x) :
    x.mainOpen = x.session.mainValve ∧ x.slowOpen = x.session.active ∧ x.cap = s.capFor l ∧
    x.capDuty = s.capDutyFor l ∧ x.duty = s.dutyFor l := by
  have e := fun {β : Type} (f : Lane → β) => congrArg f h
  exact ⟨(e Lane.mainOpen).symm, (e Lane.slowOpen).symm, (e Lane.cap).symm, (e Lane.capDuty).symm, (e Lane.duty).symm⟩

theorem Block.driveOutputs_still {a s : Block} (ha : Settled a) (h : Alike a s) (ho : SameOutputs a s) :
    s.driveOutputs = s := by
  have hl : ∀ l, s.driveLane l (s.lane l) = s.lane l := by
    intro l
    obtain ⟨e1, e2, e3, e4, e5⟩ := Block.driveLane_still (ha.lanes l)
    obtain ⟨f1, f2, f3, f4, f5⟩ := ho.lanes l
    rw [h.driveLane]
    simp only [Block.driveLane]
    rw [← e3, ← e4, ← e5, h.session l, ← e1, ← e2, ← f1, ← f2, ← f3, ← f4, ← f5, ← h.session l]
  have ht : ∀ t, s.driveTank t (s.tank t) = s.tank t := by
    intro t
    obtain ⟨f1, f2, f3, f4, f5⟩ := ho.tanks t
    have e := fun {β : Type} (f : TankView → β) => congrArg f (ha.tanks t)
    have e1 : a.pumpOn t = (a.tank t).pump := e TankView.pump
    have e2 : a.inletOpen t = (a.tank t).inlet := e TankView.inlet
    rw [h.driveTank t _ f3 f4 f5]
    simp only [Block.driveTank]
    rw [e1, e2, ← f1, ← f2]
  have hd : s.lineDriven = s.spill.drive := by rw [h.lineDriven, ho.drive, ha.line]
  have e1 : s.mapLanes s.driveLane = s := by
    have : (Vector.ofFn fun l => s.driveLane l (s.lane l)) = s.lanes := by
      ext1 i hi; simp only [Vector.getElem_ofFn, hl]; rfl
    simp only [Block.mapLanes, this]
  have e2 : s.mapTanks s.driveTank = s := by
    have : (Vector.ofFn fun t => s.driveTank t (s.tank t)) = s.tanks := by
      ext1 i hi; simp only [Vector.getElem_ofFn, ht]; rfl
    simp only [Block.mapTanks, this]
  have e3 : s.driveLine = s := by simp only [Block.driveLine, hd]; rfl
  simp only [Block.driveOutputs, e1, e2, e3]

/-- An event whose own work leaves alone what tanks, outputs and pictures rest on ends with the raises taken, the
attention line following, and the event counted. -/
theorem Block.finish_still {a s : Block} (ha : Settled a) (h : Alike a s) (ho : SameOutputs a s)
    (ht : ∀ t, SameForStock (s.tank t) (a.tank t)) :
    Block.finish a s = { s with panel := s.panel.settle, openDraws := s.openDraws + 1 } := by
  have hs : ∀ t, s.nextTankState t = (s.tank t).state := fun t => by
    rw [h.nextTankState t (ht t), ha.stock t, (ho.tanks t).2.2.1]
  simp only [Block.finish, s.evalTanks_none hs, Block.noteChange_still h, Block.driveOutputs_still ha h ho]
  rfl

/-- The same, for work on the panel port alone. -/
theorem Block.finish_panel {a : Block} (ha : Settled a) (p : Panel) :
    Block.finish a (a.setPanel p) = { a with panel := p.settle, openDraws := a.openDraws + 1 } := by
  have h : Alike a (a.setPanel p) := ⟨rfl, rfl, rfl, fun _ => ⟨rfl, rfl⟩, fun _ => rfl, fun _ => rfl, fun _ => rfl⟩
  exact Block.finish_still ha h ⟨fun _ => ⟨rfl, rfl, rfl, rfl, rfl⟩, fun _ => ⟨rfl, rfl, rfl, rfl, rfl⟩, rfl⟩
    fun t => SameForStock.refl _

/-- Where nothing is raised and no mark changes, the panel port stands. -/
theorem Panel.settle_still {p q : Panel} (hr : p.raised = []) (hp : p.attention = p.anyPending)
    (hq : q = { p with receiver := q.receiver, sending := q.sending, owed := q.owed, present := q.present
                       presence := q.presence, response := q.response, lastTaken := q.lastTaken }) : q.settle = q := by
  rw [hq]
  simp only [Panel.settle, hr, sortRaises, List.foldr_nil, List.foldl_nil, Panel.anyPending, hp]

end Sys2Proof.Machine
end

