-- ==== Sys2Proof/Laws/Dry.lean ====
section
/-! SUPPORT. What the own zone view's leaving NORMAL and a tank view's entry to DRY do to the own lanes and to the account
table (R21, R22, R60): for one lane, for all of them, and, for DRY, at the end of an event. -/

namespace Sys2Proof.Machine

/-! ## Letting records go (R19, R87) -/

theorem letGo_of_iff {P Q : LaneId → Prop} [DecidablePred P] [DecidablePred Q] (h : ∀ l, P l ↔ Q l) (r : MachineRecord) :
    letGo P r = letGo Q r := by
  simp only [letGo, h]

theorem letGo_letGo (P Q : LaneId → Prop) [DecidablePred P] [DecidablePred Q] (r : MachineRecord) :
    letGo Q (letGo P r) = letGo (fun l => P l ∨ Q l) r := by
  cases h : r.inFlight with
  | none => simp [letGo, h]
  | some l => by_cases p : P l <;> by_cases q : Q l <;> simp [letGo, h, p, q]

theorem letGo_nobody {P : LaneId → Prop} [DecidablePred P] (h : ∀ l, ¬ P l) (r : MachineRecord) : letGo P r = r := by
  cases e : r.inFlight <;> simp [letGo, e, h]

theorem letGoBy_of_iff {P Q : LaneId → Prop} [DecidablePred P] [DecidablePred Q] (h : ∀ l, P l ↔ Q l) (a : Accounts) :
    letGoBy P a = letGoBy Q a := by
  simp only [letGoBy, funext (letGo_of_iff h)]

theorem letGoBy_letGoBy (P Q : LaneId → Prop) [DecidablePred P] [DecidablePred Q] (a : Accounts) :
    letGoBy Q (letGoBy P a) = letGoBy (fun l => P l ∨ Q l) a := by
  simp only [letGoBy, List.map_map, Function.comp_def, letGo_letGo]

theorem letGoBy_nobody {P : LaneId → Prop} [DecidablePred P] (h : ∀ l, ¬ P l) (a : Accounts) : letGoBy P a = a := by
  simp only [letGoBy, funext (letGo_nobody h), List.map_id']

theorem Block.clearInFlight_accounts (s : Block) (l : LaneId) :
    (s.clearInFlight l).accounts = letGoBy (fun k => k = l) s.accounts := by
  have : ∀ r : MachineRecord, (if r.inFlight = some l then { r with inFlight := none } else r) = letGo (fun k => k = l) r := by
    intro r
    cases h : r.inFlight <;> simp [letGo, h]
  simp only [Block.clearInFlight, Block.setAccounts, letGoBy, this]

/-! ## A cause at a lane (R17 to R19) -/

theorem endedBy_congr {a b : Block} (h : b.roster = a.roster) : endedBy b = endedBy a := by
  funext c x; simp only [endedBy, closed, h]

theorem Lane.secondary_kept {x : Lane} {d : EndCause} (c : EndCause) (h : x.data.secondary = some d) :
    { x with data := { x.data with secondary := some (x.data.secondary.getD c) } } = x := by
  obtain ⟨_, _, data, _⟩ := x
  obtain ⟨⟩ := data
  simp_all

/-- What a cause that may second (R18) makes of the one lane that it reaches, and of the account table. -/
structure CauseAt (c : EndCause) (l : LaneId) (a b : Block) : Prop where
  self : b.lane l = endedBy a c (a.lane l)
  others : ∀ k, k ≠ l → b.lane k = a.lane k
  accounts : b.accounts = letGoBy (fun k => k = l ∧ (a.lane l).session = .authorized) a.accounts

theorem Block.endOrTake_at (s : Block) (l : LaneId) {c : EndCause} (hc : maySecond c = true) :
    CauseAt c l s (if (s.lane l).session = .authorized then s.endGrant l c else s.takeCause l c) := by
  by_cases h : (s.lane l).session = .authorized
  · rw [if_pos h]
    refine ⟨?_, fun k hk => s.endGrant_other c hk, ?_⟩
    · rw [s.endGrant_lane, endedBy, h]; rfl
    · rw [Block.endGrant, Block.clearInFlight_accounts]
      exact letGoBy_of_iff (fun k => ⟨fun e => ⟨e, h⟩, And.left⟩) _
  · rw [if_neg h]
    refine ⟨?_, fun k hk => s.takeCause_other c hk, ?_⟩
    · unfold Block.takeCause endedBy
      cases e : (s.lane l).session <;> simp_all [SessionState.active]
      case closing =>
        cases d : (s.lane l).data.secondary with
        | none => simp [Lane.storeSecondary, e]
        | some d' => simpa [d, e] using (Lane.secondary_kept c d).symm
      all_goals rfl
    · rw [letGoBy_nobody (fun k hk => h hk.2)]
      simp only [Block.takeCause]; split_ifs <;> rfl

/-- What a cause makes of those of the lanes `ls` of which `Q` holds, and of the account table. -/
structure CausesAt (c : EndCause) (ls : List LaneId) (Q : Lane → Prop) [DecidablePred Q] (a b : Block) : Prop where
  lanes : ∀ l, b.lane l = if l ∈ ls ∧ Q (a.lane l) then endedBy a c (a.lane l) else a.lane l
  accounts : b.accounts = letGoBy (fun l => l ∈ ls ∧ (a.lane l).session = .authorized ∧ Q (a.lane l)) a.accounts

/-- A cause that reaches lane after lane reaches each as it stood at the start. -/
theorem foldl_causes {f : Block → LaneId → Block} {c : EndCause} {Q : Lane → Prop} [DecidablePred Q]
    (hr : ∀ s l, (f s l).roster = s.roster) (hy : ∀ s l, Q (s.lane l) → CauseAt c l s (f s l))
    (hn : ∀ s l, ¬ Q (s.lane l) → f s l = s) {ls : List LaneId} (hd : ls.Nodup) (s : Block) :
    CausesAt c ls Q s (ls.foldl f s) := by
  induction ls generalizing s with
  | nil => exact ⟨fun l => by simp, by simp [letGoBy_nobody]⟩
  | cons u ls ih =>
    obtain ⟨hu, hd⟩ := List.nodup_cons.mp hd
    have h := ih hd (f s u)
    by_cases hq : Q (s.lane u)
    · have hc := hy s u hq
      refine ⟨fun l => ?_, ?_⟩
      · rw [List.foldl_cons, h.lanes, endedBy_congr (hr s u)]
        by_cases e : l = u
        · subst e; simp [hu, hq, hc.self]
        · simp [hc.others l e, e]
      · rw [List.foldl_cons, h.accounts, hc.accounts, letGoBy_letGoBy]
        refine letGoBy_of_iff (fun l => ?_) _
        by_cases e : l = u
        · subst e; simp [hu, hq]
        · simp [hc.others l e, e]
    · rw [hn s u hq] at h
      rw [List.foldl_cons, hn s u hq]
      have hm : ∀ l, l ∈ u :: ls ∧ Q (s.lane l) ↔ l ∈ ls ∧ Q (s.lane l) := fun l => by
        by_cases e : l = u
        · subst e; simp [hq]
        · simp [e]
      refine ⟨fun l => (h.lanes l).trans (if_congr (hm l).symm rfl rfl), h.accounts.trans (letGoBy_of_iff (fun l => ?_) _)⟩
      have := hm l
      tauto

theorem mem_allLanes (l : LaneId) : l ∈ allLanes := by revert l; decide

/-- R22: the entry of a tank's view to DRY, at every lane and at the account table. -/
theorem Block.lanesDry_at (t : TankId) (s : Block) : CausesAt .dry allLanes (fun x => x.holdsDrawOn t = true) s (s.lanesDry t) :=
  foldl_causes (fun s l => (Block.laneDry_only t s l).roster)
    (fun s l h => by simp only [Block.laneDry, h, if_true]; exact s.endOrTake_at l rfl)
    (fun s l h => by simp [Block.laneDry, h]) (by decide) s

theorem Block.laneSpill_only (s : Block) (l : LaneId) : LanesOnly s (s.laneSpill l) := by
  simp only [Block.laneSpill]; split_ifs
  · exact s.endGrant_only l _
  · exact s.takeCause_only l _

theorem Block.lanesSpill_at (s : Block) : CausesAt .spill allLanes (fun _ => True) s s.lanesSpill :=
  foldl_causes (fun s l => (s.laneSpill_only l).roster) (fun s l _ => s.endOrTake_at l rfl)
    (fun _ _ h => absurd trivial h) (by decide) s

/-- R21: the own zone view's leaving NORMAL, at every lane. -/
theorem Block.lanesSpill_lane (s : Block) (l : LaneId) : s.lanesSpill.lane l = spilled s (s.lane l) := by
  rw [s.lanesSpill_at.lanes, if_pos ⟨mem_allLanes l, trivial⟩]; rfl

/-- R19, R21, R87: and at the account table. -/
theorem Block.lanesSpill_accounts (s : Block) :
    s.lanesSpill.accounts = letGoBy (fun l => (s.lane l).session = .authorized) s.accounts := by
  rw [s.lanesSpill_at.accounts]
  exact letGoBy_of_iff (fun l => by simp [mem_allLanes]) _

/-! ## The end of an event (R57 to R60) -/

/-- The view of a tank of `ts` that the lane has a DRAW session on is about to enter DRY. -/
abbrev aboutToDry (a : Block) (ts : List TankId) (x : Lane) : Prop :=
  ∃ p ∈ x.params, p.direction = .draw ∧ p.tank ∈ ts ∧ (a.tank p.tank).state ≠ .dry ∧ a.nextTankState p.tank = .dry

/-- What the views of `ts` have come to, with the lanes and the account table. -/
structure EvalAt (ts : List TankId) (a b : Block) : Prop where
  roster : b.roster = a.roster
  views : ∀ t, (b.tank t).state = if t ∈ ts then a.nextTankState t else (a.tank t).state
  next : ∀ t, b.nextTankState t = a.nextTankState t
  lanes : ∀ l, b.lane l = if aboutToDry a ts (a.lane l) then endedBy a .dry (a.lane l) else a.lane l
  accounts : b.accounts = letGoBy (fun l => (a.lane l).session = .authorized ∧ aboutToDry a ts (a.lane l)) a.accounts

theorem endedBy_unreserved (s : Block) (c : EndCause) {x : Lane} (h : x.session.reserved = false) : endedBy s c x = x := by
  revert h; unfold endedBy; split <;> rename_i e <;> simp [e, SessionState.reserved]

theorem params_of_endedBy {s : Block} {c : EndCause} {x : Lane} {p : SessionParams} (h : p ∈ (endedBy s c x).params) :
    p ∈ x.params := by
  revert h; unfold endedBy; split <;> simp [closed]

theorem aboutToDry_iff {s : Block} {t : TankId} {x : Lane} (h : s.nextTankState t = .dry ∧ (s.tank t).state ≠ .dry)
    (hx : x.session.reserved = true) : aboutToDry s [t] x ↔ x.holdsDrawOn t = true := by
  cases hp : x.params with
  | none => simp [aboutToDry, Lane.holdsDrawOn, hp]
  | some p =>
    by_cases ht : p.tank = t
    · simp [aboutToDry, Lane.holdsDrawOn, hp, hx, ht, h.1, h.2]
    · simp [aboutToDry, Lane.holdsDrawOn, hp, ht]

theorem not_aboutToDry {s : Block} {t : TankId} (h : ¬ (s.nextTankState t = .dry ∧ (s.tank t).state ≠ .dry)) (x : Lane) :
    ¬ aboutToDry s [t] x := by
  rintro ⟨p, -, -, hp, hq⟩
  rw [List.mem_singleton] at hp
  subst hp
  exact h ⟨hq.2, hq.1⟩

theorem Block.evalTank_dry (s : Block) {t : TankId} (h : s.nextTankState t = .dry ∧ (s.tank t).state ≠ .dry) :
    CausesAt .dry allLanes (fun x => x.holdsDrawOn t = true)
      ((s.modTank t fun v => { v with state := s.nextTankState t }).raise .stockState t.val) (s.evalTank t) := by
  have e : s.evalTank t = ((s.modTank t fun v => { v with state := s.nextTankState t }).raise .stockState t.val).lanesDry t := by
    simp [Block.evalTank, h.1, h.2.symm]
  rw [e]
  exact Block.lanesDry_at t _

theorem Block.evalTank_noDry (s : Block) {t : TankId} (h : ¬ (s.nextTankState t = .dry ∧ (s.tank t).state ≠ .dry)) :
    (s.evalTank t).lanes = s.lanes ∧ (s.evalTank t).accounts = s.accounts := by
  simp only [Block.evalTank]
  split_ifs with h1 h2
  · exact ⟨rfl, rfl⟩
  · exact absurd ⟨h2, fun e => h1 (h2.trans e.symm)⟩ h
  · exact ⟨rfl, rfl⟩

/-- R22, R57 to R60: the evaluation of one view. -/
theorem Block.evalTank_at (s : Block) (t : TankId) : EvalAt [t] s (s.evalTank t) := by
  obtain ⟨-, -, -, hr, -, -, ho, hs⟩ := s.evalTank_kept t
  refine ⟨hr, fun u => ?_, fun u => ?_, ?_, ?_⟩
  · by_cases e : u = t
    · subst e; simp [hs]
    · simp [ho u e, e]
  · by_cases e : u = t
    · subst e; rw [s.evalTank_self u, hs]
    · exact s.evalTank_other t u e
  · intro l
    by_cases h : s.nextTankState t = .dry ∧ (s.tank t).state ≠ .dry
    · rw [(s.evalTank_dry h).lanes]
      show (if l ∈ allLanes ∧ (s.lane l).holdsDrawOn t = true then endedBy s .dry (s.lane l) else s.lane l) = _
      by_cases hl : (s.lane l).session.reserved = true
      · simp only [aboutToDry_iff h hl, mem_allLanes, true_and]
      · simp only [endedBy_unreserved s _ (Bool.eq_false_iff.mpr hl), ite_self]
    · rw [if_neg (not_aboutToDry h _), Block.lane, (s.evalTank_noDry h).1, Block.lane]
  · by_cases h : s.nextTankState t = .dry ∧ (s.tank t).state ≠ .dry
    · rw [(s.evalTank_dry h).accounts]
      refine letGoBy_of_iff (fun l => ?_) _
      by_cases hl : (s.lane l).session = .authorized
      · have := aboutToDry_iff h (x := s.lane l) (by rw [hl]; rfl)
        exact ⟨fun e => ⟨e.2.1, this.mpr e.2.2⟩, fun e => ⟨mem_allLanes l, e.1, this.mp e.2⟩⟩
      · exact ⟨fun e => absurd e.2.1 hl, fun e => absurd e.1 hl⟩
    · rw [(s.evalTank_noDry h).2, letGoBy_nobody fun l e => not_aboutToDry h _ e.2]

theorem Block.evalTanks_at_aux (ts : List TankId) (hn : ts.Nodup) (s : Block) : EvalAt ts s (ts.foldl Block.evalTank s) := by
  induction ts generalizing s with
  | nil => exact ⟨rfl, fun t => by simp, fun _ => rfl, fun l => by simp, by simp [letGoBy_nobody]⟩
  | cons u ts ih =>
    obtain ⟨hu, hn⟩ := List.nodup_cons.mp hn
    have h := ih hn (s.evalTank u)
    have k := s.evalTank_at u
    have hv : ∀ t, t ≠ u → ((s.evalTank u).tank t).state = (s.tank t).state := fun t e => by simp [k.views t, e]
    have hx : ∀ x : Lane, aboutToDry (s.evalTank u) ts x ↔ aboutToDry s ts x := fun x => by
      refine exists_congr fun p => and_congr_right fun _ => and_congr_right fun _ => and_congr_right fun hp => ?_
      rw [hv p.tank fun e => hu (e ▸ hp), k.next]
    have hc : ∀ x : Lane, aboutToDry s (u :: ts) x ↔ aboutToDry s [u] x ∨ aboutToDry s ts x := fun x => by
      simp only [aboutToDry, List.mem_cons, List.not_mem_nil, or_false]
      constructor
      · rintro ⟨p, h1, h2, h3 | h3, h4⟩
        · exact .inl ⟨p, h1, h2, h3, h4⟩
        · exact .inr ⟨p, h1, h2, h3, h4⟩
      · rintro (⟨p, h1, h2, h3, h4⟩ | ⟨p, h1, h2, h3, h4⟩)
        · exact ⟨p, h1, h2, .inl h3, h4⟩
        · exact ⟨p, h1, h2, .inr h3, h4⟩
    have hd : ∀ x : Lane, aboutToDry s [u] x → ¬ aboutToDry s ts x := by
      rintro x ⟨p, h1, -, h3, -⟩ ⟨q, h4, -, h5, -⟩
      cases Option.mem_unique h1 h4
      exact hu (List.mem_singleton.mp h3 ▸ h5)
    /- A lane that the view of `u` has ended has no more to do with the others. -/
    have hn : ∀ x : Lane, ¬ aboutToDry s ts x → ¬ aboutToDry s ts (endedBy s .dry x) := fun x hx => by
      rintro ⟨p, hp, hq⟩
      exact hx ⟨p, params_of_endedBy hp, hq⟩
    refine ⟨h.roster.trans k.roster, fun t => ?_, fun t => (h.next t).trans (k.next t), fun l => ?_, ?_⟩
    · rw [List.foldl_cons, h.views, k.next, k.views]
      by_cases e : t = u
      · subst e; simp [hu]
      · simp [e]
    · rw [List.foldl_cons, h.lanes, endedBy_congr k.roster, k.lanes]
      by_cases e : aboutToDry s [u] (s.lane l)
      · rw [if_pos e, if_neg fun m => hn _ (hd _ e) ((hx _).mp m), if_pos ((hc _).mpr (.inl e))]
      · rw [if_neg e]
        exact if_congr (by rw [hx, hc]; exact ⟨.inr, fun h => h.resolve_left e⟩) rfl rfl
    · rw [List.foldl_cons, h.accounts, k.accounts, letGoBy_letGoBy]
      refine letGoBy_of_iff (fun l => ?_) _
      rw [hx, k.lanes, hc]
      by_cases e : aboutToDry s [u] (s.lane l)
      · rw [if_pos e]
        exact ⟨fun h => h.elim (fun h => ⟨h.1, .inl h.2⟩) fun h => absurd h.2 (hn _ (hd _ e)),
          fun h => .inl ⟨h.1, e⟩⟩
      · rw [if_neg e]
        exact ⟨fun h => h.elim (fun h => absurd h.2 e) fun h => ⟨h.1, .inr h.2⟩,
          fun h => .inr ⟨h.1, h.2.resolve_left e⟩⟩

/-- R22, R57 to R60: the end of an event, at every view and lane and at the account table. -/
theorem Block.evalTanks_at (s : Block) : EvalAt allTanks s s.evalTanks := Block.evalTanks_at_aux allTanks (by decide) s

/-- The lanes as the end of an event leaves them, in the terms of the statements. -/
theorem Block.evalTanks_lane (s : Block) (l : LaneId) : s.evalTanks.lane l = dried s s.evalTanks (s.lane l) := by
  have h := s.evalTanks_at
  have hm : ∀ t : TankId, t ∈ allTanks := by decide
  rw [h.lanes, dried, endedBy_congr h.roster]
  exact if_congr (by simp only [aboutToDry, drawDried, h.views, hm, if_true, true_and]) rfl rfl

/-- The account table as the end of an event leaves it. -/
theorem Block.evalTanks_accounts (s : Block) : s.evalTanks.accounts = letGoBy (grantDried s s.evalTanks) s.accounts := by
  have h := s.evalTanks_at
  have hm : ∀ t : TankId, t ∈ allTanks := by decide
  rw [h.accounts]
  exact letGoBy_of_iff (fun l => by simp only [grantDried, aboutToDry, drawDried, h.views, hm, if_true, true_and]) _

end Sys2Proof.Machine
end

