-- ==== Sys2Proof/Tests/Slice0.lean ====
section
/-! SUPPORT. Tests: what each check of well-formedness refuses, the worked examples of the manual, one or two small
facts of a command, and, as `wit_<Name>`, a concrete state for the hypotheses of each statement `Obligations.<Name>`,
clause by clause. Letters that a hypothesis only names (`x = …`, `r = …`) take the value it gives them. -/

namespace Sys2Proof.Tests
open Sys2Proof Sys2Proof.Machine

set_option Elab.async false

/-! ## A small station -/

/-- The station of the manual's examples: number 4, own zone 1, fuel in tank 3, used oil in tank 5. -/
def lane : LaneCfg := ⟨.both, 0, 3, 5, 25000, 1000, 200, 8000, 1500, true⟩
def fuel : TankCfg :=
  { product := 0, cls := .fuelSupply, zone := 1, gaugeStation := 4, gaugeInput := 0, capacity := 2500000,
    highHighMark := 2400000, highMark := 2300000, lowMark := 600000, reserveMark := 400000, suctionMark := 100000,
    lowRation := 50000, supply := 2000, bayDemand := 3000, deliveryThreshold := 20000, tolerance := 10000 }
def oil : TankCfg := { fuel with product := 1, cls := .waste, gaugeStation := 6, gaugeInput := 1, supply := 0, bayDemand := 0 }
def pit : InputCfg := ⟨true, true, 1, .pit, 30⟩
def stop : InputCfg := ⟨true, true, 1, .estop, 30⟩
def dead : InputCfg := ⟨false, true, 1, .sump, 30⟩

def store : Store :=
  { number := 4, running := true, ownZone := some 1, lanes := #v[some lane, some { lane with checkOn := false }, some lane, none],
    products := ((Vector.replicate 8 none).set 0 (some ⟨.fuel, 830⟩)).set 1 (some ⟨.waste, 700⟩),
    tanks := ((Vector.replicate 12 none).set 3 (some fuel)).set 5 (some oil),
    classes := Vector.replicate 16 none, inputs := #v[some dead, some dead, some pit, some stop],
    gauges := (Vector.replicate 4 none).set 0 (some (some 3)), lock := .locked, calibrationOn := false, violations := 0 }

def base : Block :=
  let off := Block.powerOn 4 State.reset.block.pins false 0
  let idle : Lane := { Lane.powerOn with session := .idle, windowTimer := .run 1000, watch := .run 3000 }
  { off with
    store := store, lanes := #v[idle, idle, idle, Lane.powerOn],
    tanks := (off.tanks.set 3 { TankView.powerOn with state := .normal, book := 1500000, basis := some ⟨1500000, 900⟩, previous := some 1500000 }),
    spill := { off.spill with views := Vector.replicate 4 { ZoneView.powerOn with state := .normal } },
    roster := { off.roster with clock := 1000, builder := ⟨.run 500, .rest, false, false⟩ },
    link := { off.link with driver := true }, panel := { off.panel with present := true, presence := .run 5 } }

/-- The station after an event that made `f` of it. -/
def at_ (f : Block → Block) : State := { block := Block.finish (f base) (f base), pending := [] }

/-- A settled state of which `P` holds. -/
structure Meets (f : Block → Block) (P : State → Prop) : Prop where
  settled : Settled (at_ f).block
  holds : P (at_ f)

theorem meets {f : Block → Block} {P : State → Prop} (h : P (at_ f)) : Meets f P := ⟨Block.finish_settled _ _, h⟩

def onLane (g : Lane → Lane) (b : Block) : Block := b.setLane 2 (g (b.lane 2))
def onTank (g : TankView → TankView) (b : Block) : Block := b.setTank 3 (g (b.tank 3))
def onView (g : ZoneView → ZoneView) (b : Block) : Block := b.setView 1 (g (b.view 1))
def onPanel (g : Panel → Panel) (b : Block) : Block := b.setPanel (g b.panel)
def onLink (g : Link → Link) (b : Block) : Block := b.setLink (g b.link)
def onStore (g : Store → Store) (b : Block) : Block := b.setStore (g b.store)
def onEntry (g : RosterEntry → RosterEntry) (b : Block) : Block := b.setEntry 1 (g (b.entry 1))
def onRoster (g : Roster → Roster) (b : Block) : Block := b.setRoster (g b.roster)
def onSpill (g : Spill → Spill) (b : Block) : Block := b.setSpill (g b.spill)

def grant : SessionParams :=
  { direction := .draw, product := 0, tank := 3, machine := 0, requested := .volume 20000, granted := 20000, toFull := false,
    clamp := .none, basis := 20000, hours := none, hoursInvalid := false, disposition := .bulk, lubeOverride := false }
def session (x : SessionState) : Block → Block :=
  onLane fun y => { y with
    session := x, params := some grant, cf := some 1000000, nozzleOut := x.metered, lift := .run 5, noFlow := .run 5,
    duration := .run 5, settle := .run 5, creepTimer := .run 5 }
def view (x : ZoneState) (c : Option Clearing) : Block → Block :=
  onView fun v => { v with state := x, epoch := 65533, clearing := c }
def machine : MachineRecord := MachineRecord.fresh 7 0 .loaded
def withRecords (rs : List MachineRecord) (b : Block) : Block := b.setAccounts { b.accounts with records := rs }
def record : FillRecord :=
  { seq := 1, lane := 2, direction := .draw, product := 0, tank := 3, machine := 0, requested := .toFull, granted := 0,
    toFull := true, clamp := .none, net := 0, gross := 0, reverse := 0, start := 0, stop := 0, hours := none, cause := none,
    secondary := none, minTemp := 0, maxTemp := 0, pulses := 0, unchecked := 0, errors := 0,
    flags := ⟨false, false, false, false, false, false, false, false⟩, disposition := .bulk }
def status : StatusContent :=
  { bayTime := 0, drawSeq := 0, lockOpen := false, panelAbsent := false, zones := Vector.replicate 4 ⟨.normal, 0⟩,
    lanes := Vector.replicate 4 ⟨.idle, none, 0, 0, 0, 0⟩ }
def draw : DrawContent :=
  { seq := 4, lane := 2, direction := .draw, product := 0, tank := 3, machine := 0, cls := 0, net := 100, total := 400,
    hours := none, prior := none, toFull := false, start := 0, stop := 0 }

theorem test_station_is_normal : ((at_ id).block.tank 3).state = .normal ∧ (at_ id).block.ownNormal = true := by
  decide +kernel

/-! ## Witnesses: the queue, the invariants and the encodings -/

theorem wit_StepRunsTheFrontCommand : ({ at_ id with pending := [.start] } : State).pending = .start :: [] := rfl

theorem wit_IdleStepPassesAMillisecond : (at_ id).pending = [] := rfl

theorem wit_SettledKept : Meets id fun s => ∃ t, step s = .next t := meets ⟨_, rfl⟩

theorem wit_SessionSafeKept :
    SessionSafe (at_ (session .flowing)).block ∧ NoDrawOnDry (at_ (session .flowing)).block ∧
      ∃ t, step (at_ (session .flowing)) = .next t :=
  ⟨⟨by decide +kernel, by decide +kernel, fun h => absurd h (by decide +kernel)⟩, by unfold NoDrawOnDry; decide +kernel, ⟨_, rfl⟩⟩

theorem wit_RoomKeptByEveryStep : RoomKept (at_ (session .flowing)).block ∧ ∃ t, step (at_ (session .flowing)) = .next t :=
  ⟨⟨by decide +kernel, by decide +kernel, by decide +kernel, by decide +kernel⟩, ⟨_, rfl⟩⟩

theorem wit_TableKeptByEveryStep :
    TableKept (at_ (withRecords [machine])).block.accounts ∧ ∃ t, step (at_ (withRecords [machine])) = .next t :=
  ⟨⟨by decide +kernel, by decide +kernel, by decide +kernel⟩, ⟨_, rfl⟩⟩

theorem wit_QueueKeptByEveryStep :
    QueueKept (at_ (onLink fun k => { k with queue := [⟨0, .clear 1 0 1⟩, ⟨1, .draw draw⟩] })).block.link ∧
      ∃ t, step (at_ id) = .next t :=
  ⟨⟨by decide +kernel, by decide +kernel⟩, ⟨_, rfl⟩⟩

theorem wit_EpochsNeverFall :
    (∀ k, ((at_ (onView fun v => { v with epoch := 65533 })).block.view k).epoch < Config.epochMax) ∧
      (∀ straps, Instr.releaseKey ≠ .powerOnReset straps) ∧ ∃ t, exec .releaseKey (at_ id) = .next t :=
  ⟨by decide +kernel, by decide, ⟨_, rfl⟩⟩

theorem wit_ConfigurationFixedWhileRunning :
    (at_ id).block.running = true ∧ (∀ straps, Instr.releaseKey ≠ .powerOnReset straps) ∧
      ∃ t, exec .releaseKey (at_ id) = .next t :=
  ⟨by decide +kernel, by decide, ⟨_, rfl⟩⟩

theorem wit_HoursFallOnlyWhenSet :
    let s := at_ (withRecords [{ machine with hours := some 100 }])
    TableKept s.block.accounts ∧ ∃ t r r', exec .releaseKey s = .next t ∧ s.block.accounts.find 7 = some r ∧
      t.block.accounts.find 7 = some r' ∧ r.hours = some 100 ∧ r'.hours = some 100 :=
  ⟨⟨by decide +kernel, by decide +kernel, by decide +kernel⟩,
    _, { machine with hours := some 100 }, { machine with hours := some 100 }, rfl, by decide +kernel, by decide +kernel, rfl, rfl⟩

theorem wit_BayFrameRoundTrip : (Frame.trip ⟨3, 65535, .peerStatus, 3⟩).wellFormed = true := by decide +kernel

theorem wit_RequestRoundTrip :
    (Request.configure ⟨255, 255, [0, 255]⟩).wellFormed = true ∧
      (Request.configure ⟨255, 255, [0, 255]⟩).body.length + 1 < 32768 ∧
      (Request.takeFill 255).wellFormed = true ∧ (Request.takeFill 255).body.length + 1 < 32768 := by
  decide +kernel

/-! ## Witnesses: the panel line -/

def framing (bytes : List Byte) (busy : Bool) : Block → Block :=
  onPanel fun p => { p with receiver := .framing bytes 3, sending := if busy then some .busy else none }

theorem wit_LastByteRunsTheRequest :
    Request.start.wellFormed = true ∧ Request.start.body.length + 1 < 32768 ∧
      encodeRequest .start = startMark :: (([0x01, 0x11, 0x2C] : List Byte) ++ [0x2E]) ∧
      (at_ (framing [0x01, 0x11, 0x2C] false)).block.panel.receiver = .framing [0x01, 0x11, 0x2C] 3 ∧
      (at_ (framing [0x01, 0x11, 0x2C] false)).block.panel.sending = none := by
  decide +kernel

/-- What has come of a frame before its last byte. -/
def allBut (frame : List Byte) : List Byte := frame.tail.dropLast

theorem wit_PanelBytesAreFramed_bodies :
    Meets (framing [] false) (fun s => s.block.panel.receiver = .framing [] 3 ∧ s.block.panel.sending = none) ∧
    Meets (framing (allBut (panelFrame 19 [])) false) (fun s => ∃ b,
      s.block.panel.receiver = .framing (allBut (panelFrame 19 [])) 3 ∧
      startMark :: (allBut (panelFrame 19 []) ++ [b]) = panelFrame 19 [] ∧ s.block.panel.sending = none) ∧
    Meets (framing (allBut (panelFrame 2 [])) true) (fun s => ∃ b,
      s.block.panel.receiver = .framing (allBut (panelFrame 2 [])) 3 ∧
      startMark :: (allBut (panelFrame 2 []) ++ [b]) = panelFrame 2 [] ∧ s.block.panel.sending ≠ none ∧
      requestBytes 2 (([] : List Byte).head?.map BitVec.toNat) = some 1 ∧ ([] : List Byte).length ≠ 1) :=
  ⟨meets (by decide +kernel), meets ⟨(panelFrame 19 []).getLast?.getD 0, by decide +kernel⟩,
    meets ⟨(panelFrame 2 []).getLast?.getD 0, by decide +kernel⟩⟩

theorem wit_PanelBytesAreFramed :
    Meets id (fun s => s.block.panel.receiver = .waiting ∧ (0 : Byte) ≠ startMark ∧ (0x5A : Byte) = startMark) ∧
    Meets (framing [0x01, 0x11] false) (fun s => s.block.panel.receiver = .framing [0x01, 0x11] 3 ∧
      ∀ n, panelFrameLength (([0x01, 0x11] : List Byte) ++ [0x2C]) = some n → ([0x01, 0x11] : List Byte).length + 1 < n) ∧
    Meets (framing [0x01, 0x11, 0x2C] false) (fun s => s.block.panel.receiver = .framing [0x01, 0x11, 0x2C] 3 ∧
      panelFrameLength (([0x01, 0x11, 0x2C] : List Byte) ++ [0x2D]) = some (([0x01, 0x11, 0x2C] : List Byte).length + 1) ∧
      panelCrcAgrees (([0x01, 0x11, 0x2C] : List Byte) ++ [0x2D]) = false ∧ s.block.panel.sending = none) ∧
    Meets (framing [0x01, 0x11, 0x2C] true) (fun s => s.block.panel.receiver = .framing [0x01, 0x11, 0x2C] 3 ∧
      panelFrameLength (([0x01, 0x11, 0x2C] : List Byte) ++ [0x2E]) = some (([0x01, 0x11, 0x2C] : List Byte).length + 1) ∧
      panelCrcAgrees (([0x01, 0x11, 0x2C] : List Byte) ++ [0x2E]) = true ∧
      parsePanel (([0x01, 0x11, 0x2C] : List Byte) ++ [0x2E]) = .request .start ∧ s.block.panel.sending ≠ none) ∧
    Meets (onPanel fun p => { p with sending := some .busy, owed := [.frameError] })
      (fun s => s.block.panel.sending ≠ none ∧ s.block.panel.owed = [.frameError]) ∧
    Meets (onPanel fun p => { p with sending := some .busy })
      (fun s => s.block.panel.sending ≠ none ∧ s.block.panel.owed = []) :=
  ⟨meets (by decide +kernel),
    meets ⟨by decide +kernel, fun n h => by
      rw [show panelFrameLength (([0x01, 0x11] : List Byte) ++ [0x2C]) = some 4 by decide +kernel] at h
      cases h; decide⟩,
    meets (by decide +kernel), meets (by decide +kernel), meets (by decide +kernel), meets (by decide +kernel)⟩

theorem wit_PanelLostEndsGrants :
    Meets (fun b => withRecords [{ machine with inFlight := some 2 }] (session .authorized b)) (fun s =>
      s.block.panel.presence.running = true ∧ (s.block.lane 2).session = .authorized ∧
      letGoBy (fun l => (s.block.lane l).session = .authorized) s.block.accounts ≠ s.block.accounts) :=
  meets (by decide +kernel)

/-! ## Witnesses: requests -/

theorem wit_ReadsChangeNothing :
    Meets (withRecords [machine]) (fun s => s.block.accounts.find 7 = some machine ∧ s.block.accounts.find 1 = none) :=
  meets (by decide +kernel)

theorem wit_ReadoutsHoldTheirItems :
    let s := (at_ (onLane fun x => { x with data := { x.data with pulses := 4294967295, net := 42949672950000000000 } })).block
    (s.lane 2).data.pulses < 4294967296 ∧ netCL (s.lane 2).data.net < 4294967296 ∧
      (at_ (onLink fun k => { k with errors := 65535 })).block.link.errors ≤ 65535 := by
  decide +kernel

theorem wit_TakeFillTakesTheOldest :
    Meets (onPanel fun p => { p with fills := [record], lastTaken := some record })
      (fun s => s.block.panel.fills = [record] ∧ s.block.panel.lastTaken = some record) ∧
    Meets id (fun s => s.block.panel.fills = [] ∧ s.block.panel.lastTaken = none) :=
  by and_intros <;> exact meets (by decide +kernel)

theorem wit_ClearFlagsClearsTheNamed :
    Meets (withRecords [machine]) (fun s => s.block.accounts.find 7 = some machine ∧ s.block.accounts.find 1 = none) :=
  meets (by decide +kernel)

theorem wit_ServiceDoneZeroesTheTotals :
    Meets (withRecords [machine]) (fun s => s.block.accounts.find 7 = some machine ∧ s.block.accounts.find 1 = none ∧
      (∀ n ∈ some 99999, n ≤ 99999) ∧ (∀ n ∈ some 0, n ≤ 99999)) :=
  meets (by decide +kernel)

theorem wit_AccountSetSetsTheRecord :
    Meets (withRecords [machine]) (fun s => TableKept s.block.accounts ∧ s.block.running = true ∧
      badAccountSet ⟨7, some 15, some 1, some 9999999, some (some 99999), some none⟩ = false ∧
      s.block.accounts.find 7 = some machine ∧ s.block.accounts.find 8 = none ∧ s.block.accounts.records.length < 384) ∧
    Meets (onStore fun x => { x with running := false }) (fun s => TableKept s.block.accounts ∧ s.block.running = false) :=
  ⟨meets ⟨⟨by decide +kernel, by decide +kernel, by decide +kernel⟩, by decide +kernel⟩,
    meets ⟨⟨by decide +kernel, by decide +kernel, by decide +kernel⟩, by decide +kernel⟩⟩

theorem wit_StationRequestsDoWhatTheyReport : Meets id fun _ => (1 : Nat) ≠ 0 := meets (by decide)

theorem wit_ReadAttentionTakesTheHighest :
    Meets (onPanel fun p => { p with causes := p.causes.set 9 ⟨true, some 1, 1⟩ }) (fun s =>
      s.block.panel.causes[(9 : Fin 10)].pending = true ∧
      ∀ j : Fin 10, j < 9 → s.block.panel.causes[j].pending = false) ∧
    Meets (onPanel fun p => { p with fills := [record] })
      (fun s => (∀ j : Fin 10, s.block.panel.causes[j].pending = false) ∧ s.block.panel.fills ≠ []) ∧
    Meets id (fun s => (∀ j : Fin 10, s.block.panel.causes[j].pending = false) ∧ s.block.panel.fills = []) :=
  by and_intros <;> exact meets (by decide +kernel)

theorem wit_OutOfRangeIsBadRequest :
    Meets id fun _ => (3 : Nat) < 4 ∧ (1 : Nat) < 2 ∧ (Preset.volume 0 = .volume 0) ∧ (11 : Nat) < 12 ∧
      (∃ n, some 100000 = some n ∧ 99999 < n) ∧ (∃ n, some 16 = some n ∧ 15 < n) :=
  meets ⟨by decide, by decide, rfl, by decide, ⟨_, rfl, by decide⟩, _, rfl, by decide⟩

/-! ## Witnesses: grants -/

def ask (machine : Nat) (preset : Preset) : AuthorizeReq := ⟨2, machine, 0, preset, none, 0⟩

theorem wit_AuthorizeRefusedByTheFirstCheck :
    Meets (onStore fun x => { x with running := false }) (fun s => badAuthorize (ask 0 (.volume 1)) = false ∧
      s.block.laneCfg (askOf (ask 0 (.volume 1))).lane = some lane ∧
      firstFails (authorizeChecks s.block lane (askOf (ask 0 (.volume 1)))) .notRunning ∧
      s.block.laneCfg (askOf ⟨3, 0, 0, .toFull, none, 0⟩).lane = none) :=
  meets ⟨by decide +kernel, by decide +kernel, .inl ⟨.inl (by decide +kernel), rfl⟩, by decide +kernel⟩

def hungry : LaneCfg := { lane with stopLead := 60000 }

theorem wit_AuthorizeRefusedByTheFirstCheck_clamps :
    Meets (fun b => onTank (fun v => { v with basis := none })
        (onStore (fun x => { x with lanes := x.lanes.set 2 (some hungry) }) b)) (fun s =>
      s.block.laneCfg (askOf (ask 0 (.volume 70000))).lane = some hungry ∧
      (∀ x ∈ authorizeChecks s.block hungry (askOf (ask 0 (.volume 70000))), ¬ x.1) ∧
      s.block.clampAsk hungry (askOf (ask 0 (.volume 70000))) = .refused .stockReserve) :=
  meets ⟨by decide +kernel, by
    unfold authorizeChecks
    simp only [List.mem_cons, List.not_mem_nil, or_false, forall_eq_or_imp, forall_eq]
    refine ⟨by decide +kernel, by decide +kernel, by decide +kernel, ?_, by decide +kernel, by decide +kernel,
      by decide +kernel, by decide +kernel, by decide +kernel, by decide +kernel, by decide +kernel, ?_⟩
    · show ¬ ¬ (lane.mode = .drawOnly ∨ lane.mode = .both)
      decide
    · rintro ⟨v, h, hv⟩
      simp only [askOf, ask, Preset.volume.injEq] at h
      subst h
      exact absurd hv (by decide),
    by decide +kernel⟩

theorem wit_BulkDrawIsGranted :
    Meets id (fun s => s.block.laneCfg 2 = some lane ∧ s.block.tankCfg lane.drawTank = some fuel ∧ s.block.running = true ∧
      s.block.store.ownZone = some 1 ∧ (s.block.view 1).state = .normal ∧ (s.block.lane 2).session = .idle ∧
      (lane.mode = .drawOnly ∨ lane.mode = .both) ∧ (s.block.tank lane.drawTank).state = .normal ∧
      s.block.panel.fills.length + s.block.ownSessions < 16 ∧ s.block.link.isolated = none ∧
      s.block.link.drawsWaiting + s.block.ownSessions < 12 ∧
      1600 = min (min 1600 600000) (s.block.available lane.drawTank - fuel.reserveMark).toNat ∧ lane.stopLead + 100 ≤ 1600) :=
  meets (by decide +kernel)

def terms : Terms := { granted := 20000, toFull := false, reason := .none }

theorem wit_GrantReachesLaneAndTable :
    Meets (withRecords [machine]) (fun s => TableKept s.block.accounts ∧ badAuthorize (ask 7 (.volume 20000)) = false ∧
      s.block.laneCfg (askOf (ask 7 (.volume 20000))).lane = some lane ∧
      (∀ x ∈ authorizeChecks s.block lane (askOf (ask 7 (.volume 20000))), ¬ x.1) ∧
      s.block.clampAsk lane (askOf (ask 7 (.volume 20000))) = .terms terms ∧
      s.block.accounts.find 7 = some machine ∧ s.block.accounts.find 8 = none ∧ s.block.accounts.records.length < 384) :=
  meets ⟨⟨by decide +kernel, by decide +kernel, by decide +kernel⟩, by decide +kernel, by decide +kernel, by
    unfold authorizeChecks
    simp only [List.mem_cons, List.not_mem_nil, or_false, forall_eq_or_imp, forall_eq]
    refine ⟨by decide +kernel, by decide +kernel, by decide +kernel, ?_, by decide +kernel, by decide +kernel,
      by decide +kernel, by decide +kernel, by decide +kernel, by decide +kernel, by decide +kernel, ?_⟩
    · show ¬ ¬ (lane.mode = .drawOnly ∨ lane.mode = .both)
      decide
    · rintro ⟨v, h, hv⟩
      simp only [askOf, ask, Preset.volume.injEq] at h
      subst h
      exact absurd hv (by decide),
    by decide +kernel⟩

/-- A RETURN of the return tank's product, with a reading past its range and the lube override. -/
theorem wit_GrantReachesLaneAndTable_return :
    let r : AuthorizeReq := ⟨2, 0, 1, .volume 20000, some 10000000, 1⟩
    Meets id (fun s => badAuthorize r = false ∧ s.block.laneCfg (askOf r).lane = some lane ∧
      (∀ x ∈ authorizeChecks s.block lane (askOf r), ¬ x.1) ∧ s.block.clampAsk lane (askOf r) = .terms terms ∧
      s.block.tankCfg lane.returnTank = some oil ∧ oil.product ≠ lane.drawProduct) :=
  meets ⟨by decide +kernel, by decide +kernel, by
    unfold authorizeChecks
    simp only [List.mem_cons, List.not_mem_nil, or_false, forall_eq_or_imp, forall_eq]
    refine ⟨by decide +kernel, by decide +kernel, by decide +kernel, ?_, by decide +kernel, by decide +kernel,
      by decide +kernel, by decide +kernel, by decide +kernel, by decide +kernel, by decide +kernel, ?_⟩
    · show ¬ ¬ (lane.mode = .returnOnly ∨ lane.mode = .both)
      decide
    · rintro ⟨v, h, hv⟩
      simp only [askOf, Preset.volume.injEq] at h
      subst h
      exact absurd hv (by decide),
    by decide +kernel⟩

theorem wit_DrawGrantStaysWithinStock :
    ∃ t, badAuthorize (ask 0 (.volume 20000)) = false ∧ (at_ id).block.laneCfg 2 = some lane ∧
      (at_ id).block.tankCfg lane.drawTank = some fuel ∧ exec (.authorize (ask 0 (.volume 20000))) (at_ id) = .next t ∧
      t.block.panel.response = some (.granted 20000 false .none .bulk) ∧ ((at_ id).block.tank lane.drawTank).state = .normal :=
  ⟨_, by decide +kernel, by decide +kernel, by decide +kernel, rfl, by decide +kernel, by decide +kernel⟩

theorem wit_CancelFollowsTheState :
    Meets id (fun s => (s.block.lane 3).session = .off ∧ (s.block.lane 2).session = .idle) ∧
    Meets (session .authorized) (fun s => (s.block.lane 2).session = .authorized) ∧
    Meets (session .slowing) (fun s => (s.block.lane 2).session = .slowing) :=
  by and_intros <;> exact meets (by decide +kernel)

/-- A table of 384 records with the flags `f`. -/
def fullTable (f : Byte) : List MachineRecord :=
  (List.range 384).map fun k => { MachineRecord.fresh (1000 + k) 0 .heard with flags := f }

theorem wit_GrantReachesLaneAndTable_full :
    (at_ (withRecords (fullTable 1))).block.accounts.find 7 = none ∧
      (at_ (withRecords (fullTable 1))).block.accounts.records.length = 384 ∧
      (∀ x ∈ (at_ (withRecords (fullTable 1))).block.accounts.records, x.inFlight ≠ none ∨ x.flags ≠ 0) ∧
      (at_ (withRecords (fullTable 0))).block.accounts.find 7 = none ∧
      (at_ (withRecords (fullTable 0))).block.accounts.records.length = 384 ∧
      (at_ (withRecords (fullTable 0))).block.accounts.records =
        (fullTable 0).take 383 ++ MachineRecord.fresh 1383 0 .heard :: [] := by
  decide +kernel

/-- Hours to service of 0 with SERVICE_DUE clear and set, and none given. -/
theorem wit_AccountSetSetsTheRecord_flag :
    let q : AccountSetReq := ⟨7, none, none, none, some (some 0), none⟩
    badAccountSet q = false ∧ (setRecord q machine).flags ≠ machine.flags ∧
      newlySet machine.flags (setRecord q machine).flags = 1 ∧
      (setRecord q { machine with flags := 8 }).flags = { machine with flags := 8 }.flags ∧
      (setRecord { q with service := none } machine).flags = machine.flags := by
  decide +kernel

/-- The evictable record stands last in the first table, first in the second; the third has none. -/
theorem wit_AccountSetSetsTheRecord_full :
    (∀ f ∈ [withRecords (fullTable 0), withRecords (MachineRecord.fresh 999 0 .heard :: (fullTable 1).take 383),
        withRecords (fullTable 1)],
      Meets f (fun s => TableKept s.block.accounts ∧ badAccountSet ⟨7, none, none, none, none, none⟩ = false ∧
        s.block.running = true ∧ s.block.accounts.find 7 = none ∧ s.block.accounts.records.length = 384)) ∧
    (∀ x ∈ (fullTable 1).take 383, x.inFlight ≠ none ∨ x.flags ≠ 0) ∧
    (∀ x ∈ fullTable 1, x.inFlight ≠ none ∨ x.flags ≠ 0) ∧
    fullTable 0 = (fullTable 0).take 383 ++ MachineRecord.fresh 1383 0 .heard :: [] := by
  refine ⟨?_, by decide +kernel, by decide +kernel, by decide +kernel⟩
  simp only [List.forall_mem_cons, List.not_mem_nil, false_imp_iff, implies_true, and_true]
  refine ⟨?_, ?_, ?_⟩ <;>
    exact meets ⟨⟨by decide +kernel, by decide +kernel, by decide +kernel⟩, by decide +kernel⟩

/-! ## Witnesses: configuration -/

def bare : Block → Block := fun _ => Block.powerOn 4 State.reset.block.pins false 0
def stopped (x : Store) : Block → Block := fun _ =>
  { Block.powerOn 4 State.reset.block.pins false 0 with store := { x with running := false, lock := .opened } }

theorem wit_ConfigureLoadsItems :
    Meets bare (fun s => s.block.running = false ∧ Unconfigured s.block ∧ LaneMode.ofCode 3 = some .both ∧
      itemWidths 2 = some [1, 2] ∧ ([3, 1500] : List Nat).length = ([1, 2] : List Nat).length ∧
      ProductClass.ofCode 3 = some .waste ∧ TankClass.ofCode 2 = some .waste ∧ InputKind.ofCode 3 = some .estop ∧
      InputKind.ofCode 0 = some .sump ∧ 6 < 7 ∧ ([1, 4, 8, 12, 16, 4, 4] : List Nat)[2]? = some 8 ∧ 8 ≤ 8 ∧ 7 < 8 ∧
      (itemRanges 2 [3, 1501])[1]? = some false ∧ (∀ j < 1, (itemRanges 2 [3, 1501])[j]? = some true)) :=
  meets ⟨by decide +kernel, ⟨by decide +kernel, by decide +kernel, by decide +kernel, by decide +kernel⟩, by decide +kernel⟩

theorem wit_LockHoldsTheLockedSet :
    Meets id (fun s => s.block.running = true ∧ s.block.store.lock = .locked ∧ s.block.laneCfg 2 = some lane ∧
      s.block.productCfg 0 = some ⟨.fuel, 830⟩ ∧ configureBadLength ⟨6, 0, [255]⟩ = false ∧ (6 ≠ 1 ∧ 6 ≠ 2) ∧
      configureBadLength ⟨2, 8, [0, 0]⟩ = false ∧ numberInRange 2 8 = false) ∧
    Meets (onStore fun x => { x with lock := .opened }) (fun s => s.block.running = true ∧ s.block.store.lock = .opened) :=
  by and_intros <;> exact meets (by decide +kernel)

theorem none_fails {α : Type} (xs : List α) (f : α → List (Prop × Failing)) :
    (∀ x ∈ xs.flatMap f, ¬ x.1) ↔ ∀ a ∈ xs, ∀ x ∈ f a, ¬ x.1 := by
  simp only [List.mem_flatMap, forall_exists_index, and_imp]
  exact ⟨fun h a ha x hx => h x a ha hx, fun h x a ha hx => h a ha x hx⟩

theorem wit_StartBeginsEveryBlock :
    Meets id (fun s => s.block.running = true) ∧
    Meets bare (fun s => s.block.running = false ∧ s.block.store.ownZone = none ∧
      firstFails (startChecks s.block.store) ⟨0, 0, .notLoaded⟩) ∧
    Meets (stopped store)
      (fun s => s.block.running = false ∧ Unconfigured s.block ∧ (∀ x ∈ startChecks s.block.store, ¬ x.1) ∧
        s.block.inputCfg 3 = some stop ∧ stop.enabled = true) :=
  ⟨meets (by decide +kernel), meets ⟨by decide +kernel, by decide +kernel, .inl ⟨by decide +kernel, rfl⟩⟩,
    meets ⟨by decide +kernel, ⟨by decide +kernel, by decide +kernel, by decide +kernel, by decide +kernel⟩, by
      simp only [startChecks, List.forall_mem_append, none_fails, List.forall_mem_map, List.forall_mem_cons,
        List.not_mem_nil, false_imp_iff, implies_true, and_true, imp_and, forall_and, mayDraw, mayReturn, classesAgree, startNames]
      and_intros <;> decide +kernel, by decide +kernel⟩⟩

theorem wit_RestartEndsAndBeginsAnew :
    Meets bare (fun s => SessionSafe s.block ∧ s.block.running = false) ∧
    Meets (session .flowing) (fun s => SessionSafe s.block ∧ s.block.running = true ∧
      (s.block.lane 2).session.metered = true ∧ (s.block.lane 3).session.reserved = false) ∧
    Meets (session .authorized) (fun s => SessionSafe s.block ∧ s.block.running = true ∧
      (s.block.lane 2).session = .authorized ∧ (s.block.tank 3).state ≠ .unknown) ∧
    Meets (session .closing) (fun s => SessionSafe s.block ∧ s.block.running = true ∧
      (s.block.lane 2).session = .closing ∧ s.block.store.lock = .locked) :=
  ⟨meets ⟨⟨by decide +kernel, by decide +kernel, fun _ => ⟨by decide +kernel, by decide +kernel, by decide +kernel, by decide +kernel⟩⟩, by decide +kernel⟩,
    meets ⟨⟨by decide +kernel, by decide +kernel, fun h => absurd h (by decide +kernel)⟩, by decide +kernel⟩,
    meets ⟨⟨by decide +kernel, by decide +kernel, fun h => absurd h (by decide +kernel)⟩, by decide +kernel⟩,
    meets ⟨⟨by decide +kernel, by decide +kernel, fun h => absurd h (by decide +kernel)⟩, by decide +kernel⟩⟩

/-! ## Witnesses: lanes -/

theorem wit_NozzleOutLifts :
    Meets (session .authorized) (fun s => (s.block.lane 2).session = .authorized ∧ (s.block.lane 2).nozzleOut = false ∧
      (s.block.lane 2).params = some grant ∧ s.block.laneCfg 2 = some lane ∧ s.block.productCfg grant.product = some ⟨.fuel, 830⟩ ∧
      (s.block.lane 0).session ≠ .off ∧ (s.block.lane 0).session ≠ .authorized ∧ (s.block.lane 3).session = .off) ∧
    Meets (fun b => onLane (fun x => { x with nozzleOut := true }) (session .authorized b)) (fun s =>
      (s.block.lane 2).session = .authorized ∧ (s.block.lane 2).nozzleOut = true) :=
  by and_intros <;> exact meets (by decide +kernel)

theorem wit_NozzleInHangsUp :
    Meets (session .lifted) (fun s => (s.block.lane 2).session.active = true ∧ (s.block.lane 3).session = .off) ∧
    Meets (session .finished) (fun s => (s.block.lane 2).session = .finished) ∧
    Meets (session .closing) (fun s => (s.block.lane 2).session = .closing) :=
  by and_intros <;> exact meets (by decide +kernel)

theorem wit_ForwardPulseMovesTheSession :
    Meets (fun b => onLane (fun x => { x with data := { x.data with pulses := 4294967294, net := 9223372036829775807 - 25000 * 999999 } }) (session .flowing b))
      (fun s => s.block.laneCfg 2 = some lane ∧ (s.block.lane 2).params = some grant ∧ (s.block.lane 2).cf = some 1000000 ∧
        (s.block.lane 2).session = .flowing ∧ ((s.block.lane 2).check.takeA false).forward = true ∧
        ((s.block.lane 2).check.takeA false).error = false ∧ (s.block.lane 2).data.pulses + 1 < 4294967296 ∧
        (s.block.lane 2).data.unchecked + 1 < 4294967296 ∧ (s.block.lane 2).data.errors < 4294967296 ∧
        -9223372036854775808 ≤ (s.block.lane 2).data.gross ∧
        (s.block.lane 2).data.gross + lane.meterFactor ≤ 9223372036854775807 ∧
        -9223372036854775808 ≤ (s.block.lane 2).data.net ∧
        (s.block.lane 2).data.net + (lane.meterFactor * 1000000 : Nat) ≤ 9223372036854775807) :=
  meets (by decide +kernel)

theorem wit_PulseOutsideASessionIsCreep :
    Meets (onLane fun x => { x with creep := 474999 }) (fun s => s.block.laneCfg 2 = some lane ∧
      (s.block.lane 2).session = .idle ∧ (s.block.lane 2).creep + lane.meterFactor < 500000 ∧
      (s.block.lane 3).session = .off) ∧
    (∀ x ∈ ([.normal, .clearing, .tripped, .starting] : List ZoneState),
      Meets (fun b => view x none (onLane (fun y => { y with creep := 475000 }) b)) (fun s =>
        s.block.laneCfg 2 = some lane ∧ (s.block.lane 2).session = .idle ∧
        500000 ≤ (s.block.lane 2).creep + lane.meterFactor ∧ s.block.store.ownZone = some 1 ∧
        (s.block.view 1).state = x ∧ (s.block.view 1).epoch < 65534)) :=
  ⟨meets (by decide +kernel), fun x _ => meets (by cases x <;> decide +kernel)⟩

theorem wit_PulseCheckFollowsAlternation :
    let k := PulseCheck.powerOn
    k.state = .nosync ∧ k.memory ≠ .a ∧ { k with run := 7 }.run = 7 ∧ k.run < 7 ∧ { k with memory := .a }.memory = .a ∧
      { k with state := .forward }.state ≠ .nosync ∧ { k with faults := 3 }.faults = 3 ∧ k.faults < 3 ∧
      { k with runReverse := true }.runReverse ≠ false ∧ k.memory ≠ .b ∧ { k with memory := .b }.memory = .b := by
  decide

def twice (x : SessionState) (errors : Nat) : Block → Block := fun b =>
  onLane (fun y => { y with
    check := ⟨.forward, 0, false, 0, .b⟩, data := { y.data with errors := errors, pulses := 999, reverse := 1975001 } })
    (session x b)

/-- The lane of `twice`, with the faulty pulse on the A line. -/
def onA (x : SessionState) (errors : Nat) (taken : Bool) (second : Option EndCause) (b : Block) : Block :=
  onLane (fun y => { y with
    check := { y.check with memory := .a }, data := { y.data with faultTaken := taken, secondary := second } })
    (twice x errors b)

theorem wit_PulseErrorsEndInMeterFault_closing :
    Meets (twice .closing 8) (fun s => ((s.block.lane 2).check.takeB).error = true ∧ (s.block.lane 2).session = .closing ∧
      (s.block.lane 2).data.secondary = none ∧ (s.block.lane 2).data.faultTaken = false ∧
      8 + (s.block.lane 2).data.pulses / 1000 < (s.block.lane 2).data.errors + 1) ∧
    Meets (fun b => onLane (fun y => { y with data := { y.data with faultTaken := true } }) (twice .flowing 4294967294 b))
      (fun s => ((s.block.lane 2).check.takeB).error = true ∧ (s.block.lane 2).session.metered = true ∧
        (s.block.lane 2).data.faultTaken = true ∧ (s.block.lane 2).data.errors + 1 < 4294967296) ∧
    Meets (fun b => onLane (fun y => { y with data := { y.data with secondary := some .spill } }) (twice .closing 8 b))
      (fun s => ((s.block.lane 2).check.takeB).error = true ∧ (s.block.lane 2).session = .closing ∧
        (s.block.lane 2).data.secondary ≠ none) := by
  and_intros <;> exact meets (by decide +kernel)

/-- The hypotheses of the clause on a faulty forward A pulse. -/
def FaultyForward (s : State) : Prop :=
  s.block.laneCfg 2 = some lane ∧ (s.block.lane 2).params = some grant ∧ (s.block.lane 2).cf = some 1000000 ∧
    (s.block.lane 2).session.metered = true ∧ (s.block.lane 2).check.state ≠ .nosync ∧ (s.block.lane 2).check.memory = .a ∧
    (s.block.lane 2).data.pulses + 1 < 4294967296 ∧ (s.block.lane 2).data.errors + 1 < 4294967296 ∧
    -9223372036854775808 ≤ (s.block.lane 2).data.gross ∧
    (s.block.lane 2).data.net + (lane.meterFactor * 1000000 : Nat) ≤ 9223372036854775807

theorem wit_PulseErrorsEndInMeterFault_forward :
    Meets (onA .flowing 9 false none) (fun s => FaultyForward s ∧ (s.block.lane 2).session.active = true ∧
      8 + ((s.block.lane 2).data.pulses + 1) / 1000 < (s.block.lane 2).data.errors + 1) ∧
    Meets (onA .closing 9 false none) (fun s => FaultyForward s ∧ (s.block.lane 2).session = .closing ∧
      8 + ((s.block.lane 2).data.pulses + 1) / 1000 < (s.block.lane 2).data.errors + 1) ∧
    Meets (onA .slowing 8 false none) (fun s => FaultyForward s ∧
      (s.block.lane 2).data.errors + 1 ≤ 8 + ((s.block.lane 2).data.pulses + 1) / 1000) ∧
    Meets (onA .flowing 9 true none) (fun s => FaultyForward s ∧ (s.block.lane 2).data.faultTaken = true) ∧
    Meets (onA .closing 9 false (some .spill)) (fun s => FaultyForward s ∧ (s.block.lane 2).session = .closing ∧
      (s.block.lane 2).data.secondary ≠ none) := by
  unfold FaultyForward
  and_intros <;> exact meets (by decide +kernel)

theorem wit_PulseErrorsEndInMeterFault :
    Meets (twice .idle 0) (fun s => s.block.laneCfg 2 = some lane ∧ (s.block.lane 3).session = .off ∧
      (s.block.lane 2).session ≠ .off ∧ lane.checkOn = true ∧ (s.block.lane 2).session.metered = false) ∧
    Meets (twice .closing 7) (fun s => ((s.block.lane 2).check.takeB).error = true ∧ (s.block.lane 2).session.metered = true ∧
      (s.block.lane 2).data.errors + 1 ≤ 8 + (s.block.lane 2).data.pulses / 1000 ∧
      (s.block.lane 2).data.errors + 1 < 4294967296) ∧
    Meets (twice .lifted 8) (fun s => ((s.block.lane 2).check.takeB).error = true ∧ (s.block.lane 2).session.active = true ∧
      (s.block.lane 2).data.faultTaken = false ∧ 8 + (s.block.lane 2).data.pulses / 1000 < (s.block.lane 2).data.errors + 1 ∧
      (s.block.lane 2).data.errors + 1 < 4294967296) :=
  by and_intros <;> exact meets (by decide +kernel)

/-- The hypotheses of the clause on a reverse A pulse. -/
def ReversePulse (s : State) : Prop :=
  s.block.laneCfg 2 = some lane ∧ (s.block.lane 2).params = some grant ∧ (s.block.lane 2).cf = some 1000000 ∧
    (s.block.lane 2).session.metered = true ∧ lane.checkOn = true ∧ (s.block.lane 2).check.state ≠ .nosync ∧
    (s.block.lane 2).data.reverse + lane.meterFactor < 2 ^ 64 ∧ (s.block.lane 2).data.pulses + 1 < 4294967296 ∧
    (s.block.lane 2).data.unchecked < 4294967296 ∧ (s.block.lane 2).data.errors + 1 < 4294967296 ∧
    -9223372036854775808 ≤ (s.block.lane 2).data.gross - lane.meterFactor ∧
    (s.block.lane 2).data.gross ≤ 9223372036854775807 ∧
    -9223372036854775808 ≤ (s.block.lane 2).data.net - (lane.meterFactor * 1000000 : Nat) ∧
    (s.block.lane 2).data.net ≤ 9223372036854775807

/-- The lane of `f`, with this reverse gross. -/
def takenBack (reverse : Nat) (f : Block → Block) : Block → Block := fun b =>
  onLane (fun y => { y with data := { y.data with reverse := reverse } }) (f b)

/-- Reverse gross at and past 200 cL, and errors at and past the budget: the pulse makes the thousandth. -/
theorem wit_PulseErrorsEndInMeterFault_reverse :
    (∀ x ∈ [SessionState.lifted, .flowing, .slowing, .closing], Meets (takenBack 1975000 (twice x 9)) (fun s =>
      ReversePulse s ∧ (s.block.lane 2).session = x ∧ (s.block.lane 2).check.memory ≠ .a ∧
      ¬ 2000000 < (s.block.lane 2).data.reverse + lane.meterFactor)) ∧
    Meets (twice .flowing 0) (fun s => ReversePulse s ∧ (s.block.lane 2).session.active = true ∧
      (s.block.lane 2).data.faultTaken = false ∧ 2000000 < (s.block.lane 2).data.reverse + lane.meterFactor) ∧
    Meets (twice .closing 0) (fun s => ReversePulse s ∧ (s.block.lane 2).session = .closing ∧
      (s.block.lane 2).data.secondary = none ∧ 2000000 < (s.block.lane 2).data.reverse + lane.meterFactor) ∧
    Meets (onA .closing 0 false (some .spill)) (fun s => ReversePulse s ∧ (s.block.lane 2).session = .closing ∧
      (s.block.lane 2).data.secondary ≠ none ∧ 2000000 < (s.block.lane 2).data.reverse + lane.meterFactor) ∧
    Meets (onA .slowing 9 true none) (fun s => ReversePulse s ∧ (s.block.lane 2).data.faultTaken = true) ∧
    Meets (takenBack 0 (onA .slowing 9 false none)) (fun s => ReversePulse s ∧ (s.block.lane 2).check.memory = .a ∧
      (s.block.lane 2).session.active = true ∧
      8 + ((s.block.lane 2).data.pulses + 1) / 1000 < (s.block.lane 2).data.errors + 1) ∧
    Meets (takenBack 0 (onA .flowing 8 false none)) (fun s => ReversePulse s ∧ (s.block.lane 2).check.memory = .a ∧
      ¬ 8 + ((s.block.lane 2).data.pulses + 1) / 1000 < (s.block.lane 2).data.errors + 1) := by
  unfold ReversePulse
  refine ⟨fun x h => meets ?_, ?_⟩
  · revert x; decide +kernel
  · and_intros <;> exact meets (by decide +kernel)

theorem wit_SamplesSetTheTemperature :
    Meets (session .closing) (fun s => (s.block.lane 3).session = .off ∧ (s.block.lane 0).session ≠ .off ∧
      (s.block.lane 0).session.metered = false ∧ (s.block.lane 0).watch = .run 3000 ∧
      (s.block.lane 2).session.metered = true ∧ (s.block.lane 2).params = some grant ∧
      s.block.productCfg grant.product = some ⟨.fuel, 830⟩ ∧ (s.block.lane 2).watch = .run 3000) ∧
    ((1500 : Nat) ≤ 1500 ∧ (-400 : Int) ≤ -400 ∧ (700 : Int) ≤ 700) :=
  ⟨meets (by decide +kernel), by decide⟩

theorem wit_LaneTimersEndGrantsAndSessions :
    Meets (session .authorized) (fun s => (s.block.lane 2).session = .authorized ∧ (s.block.lane 0).session ≠ .authorized ∧
      (s.block.lane 0).session.active = false) ∧
    Meets (session .slowing) (fun s => (s.block.lane 2).session.active = true) :=
  by and_intros <;> exact meets (by decide +kernel)

theorem wit_SettleBuildsAndHandsOff :
    Meets (fun b => onRoster (fun r => { r with drawSeq := 4294967294 }) (session .closing b)) (fun s =>
      (s.block.lane 2).session = .closing ∧ (s.block.lane 2).params = some grant ∧ s.block.store.lock = .locked ∧
      grant.disposition = .bulk ∧ grant.direction = .draw ∧ s.block.roster.drawSeq + 1 < 4294967296 ∧
      s.block.link.isolated = none) ∧
    Meets (fun b => onStore (fun x => { x with lock := .opened }) (session .closing b)) (fun s =>
      (s.block.lane 2).session = .closing ∧ (s.block.lane 2).params = some grant ∧ s.block.store.lock = .opened) :=
  by and_intros <;> exact meets (by decide +kernel)

/-- A session about to settle, with these terms. -/
def settling (g : SessionParams) (f : Block → Block) : Block → Block := fun b =>
  f (onLane (fun x => { x with params := some g }) (session .closing b))

theorem wit_SettleBuildsAndHandsOff_dispositions :
    Meets (settling { grant with machine := 7, disposition := .record } (withRecords [{ machine with inFlight := some 2 }]))
      (fun s => s.block.store.lock = .locked ∧ s.block.accounts.find 7 = some { machine with inFlight := some 2 } ∧
        s.block.productCfg 0 = some ⟨.fuel, 830⟩) ∧
    Meets (settling { grant with machine := 7, disposition := .unassigned } id) (fun s => s.block.store.lock = .locked ∧
      s.block.accounts.find 7 = none) ∧
    Meets (settling { grant with product := 1, tank := 5, direction := .ret }
        (onLink fun k => { k with isolated := some .loopback })) (fun s =>
      s.block.store.lock = .locked ∧ s.block.link.isolated ≠ none) :=
  by and_intros <;> exact meets (by decide +kernel)

/-- Tank 3 stands 1 L above DRY; its draws are in AUTHORIZED on lane 0, with a record in flight, in SLOWING on lane 1 and
in CLOSING on lane 2, with 2 L to post. -/
def nearDry : Block → Block := fun b =>
  let drawing (x : SessionState) (y : Lane) : Lane := { y with session := x, params := some grant, cf := some 1000000 }
  let b := onTank (fun v => { v with book := 100100 }) (withRecords [{ machine with inFlight := some 0 }] b)
  let b := (b.setLane 0 (drawing .authorized (b.lane 0))).setLane 1 (drawing .slowing (b.lane 1))
  onLane (fun y => { drawing .closing y with data := { y.data with net := 2000000000000 } }) b

/-- From `s` to `t` the view of tank 3 enters DRY: the grant of lane 0 ends and lets its record go, lane 1 takes end cause
DRY, lane 2 stores it, and STOCK_STATE names the tank. -/
def EntersDry (s t : State) : Prop :=
  grantDried s.block t.block 0 ∧ drawDried s.block t.block (s.block.lane 1) ∧ (s.block.lane 1).session = .slowing ∧
    drawDried s.block t.block (s.block.lane 2) ∧
    letGoBy (grantDried s.block t.block) s.block.accounts ≠ s.block.accounts ∧
    (dried s.block t.block (s.block.lane 1)).data.primary = some .dry ∧
    (dried s.block t.block (s.block.lane 2)).data.secondary = some .dry ∧
    t.block.panel.causes[Cause.stockState.index] = ⟨true, some 3, 2⟩

theorem wit_SettleBuildsAndHandsOff_dry :
    Meets nearDry fun s => (s.block.lane 2).session = .closing ∧ (s.block.lane 2).params = some grant ∧
      s.block.store.lock = .locked ∧ ∃ t, exec (.settleExpiry 2) s = .next t ∧ EntersDry s t := by
  unfold EntersDry
  exact meets ⟨by decide +kernel, by decide +kernel, by decide +kernel, _, rfl, by decide +kernel⟩

def posted : Posting :=
  { machine := 7, cls := some .fuel, product := 0, direction := .draw, net := 25000, hours := some 110, prior := none,
    toFull := true, start := 0, stop := 4000, station := 4, lane := 2 }
def known : MachineRecord :=
  { machine with
    hours := some 100, base := some 100, estimate := some 2500, service := some 10, lastFill := some ⟨10, 500, 1, 0⟩ }
def narrow : ClassCfg := ⟨101, 99, 1000, 0⟩

/-- The statement has no hypothesis of its own; each clause of `Posted` with one has its case here. -/
theorem wit_PostingFollowsItsSteps :
    yields posted known 100 110 ∧
      (sampleValue posted known 100 110 * 100 ≤ 2500 * narrow.bandHigh ∧
        2500 * narrow.bandLow ≤ sampleValue posted known 100 110 * 100) ∧
      2500 * narrow.bandHigh < sampleValue { posted with net := 25300 } known 100 110 * 100 ∧
      sampleValue { posted with net := 24700 } known 100 110 * 100 < 2500 * narrow.bandLow ∧
      readsJump { posted with stop := 3379 } known ∧ ¬ readsJump { posted with stop := 3380 } known ∧
      readsBack { posted with hours := some 99 } known ∧ priorDiffers { posted with prior := some 101 } known ∧
      drawsLube { posted with cls := some .coolant } ∧ ¬ drawsFuel { posted with cls := some .coolant } ∧
      overlapsLast { posted with start := 500 } known ∧
      hoursResynced posted machine = none ∧ priorDiffers { posted with prior := some 101 } machine ∧
      (hoursResynced { posted with prior := some 101 } known = some 101 ∧
        hoursResynced { posted with prior := some 99 } known = some 100 ∧
        hoursResynced { posted with prior := some 101 } machine = some 101 ∧ 101 ≤ 110) ∧
      (∃ v, known.service = some v ∧ 0 < v ∧ v ≤ hoursRise posted known) ∧
      (∀ b H, ¬ yields { posted with toFull := false } known b H) ∧
      (known.runLow = false ∧ { known with runCount := 2 }.runCount = 2 ∧ known.runCount < 2 ∧
        { known with runLow := true }.runLow ≠ false) := by
  have h : yields posted known 100 110 := by
    refine ⟨⟨rfl, rfl⟩, rfl, ?_, rfl, ⟨100, rfl, by decide⟩, rfl, by decide, ?_⟩
    · rintro ⟨x, h, -⟩; cases h
    · rintro ⟨H, x, f, h1, h2, -, h3, -, -, h4⟩
      cases h1; cases h2; cases h3
      exact absurd h4 (by decide)
  refine ⟨h, by decide +kernel, by decide +kernel, by decide +kernel,
    ⟨110, 100, _, rfl, rfl, by decide, rfl, by decide, by decide, by decide⟩, ?_,
    ⟨99, 100, rfl, rfl, by decide⟩, ⟨101, rfl, by decide⟩, ⟨rfl, .inr rfl⟩, fun h => (nomatch h.2),
    ⟨_, rfl, by decide⟩, rfl, ⟨101, rfl, by decide⟩, ⟨rfl, rfl, rfl, by decide⟩, ⟨10, rfl, by decide, by decide +kernel⟩, fun b H h => (nomatch h.2.1), by decide⟩
  rintro ⟨H, x, f, h1, h2, -, h3, -, -, h4⟩
  cases h1; cases h2; cases h3
  exact absurd h4 (by decide)

theorem wit_WindowCreepAndSetPoint :
    Meets (session .flowing) (fun s => s.block.laneCfg 2 = some lane ∧ (s.block.lane 3).session = .off ∧
      (s.block.lane 2).session ≠ .off ∧ (s.block.lane 2).creepTimer.running = true ∧
      (s.block.lane 0).creepTimer.running = false) ∧
    (∀ x ∈ ([.normal, .clearing, .tripped, .starting] : List ZoneState),
      Meets (fun b => view x none (onLane (fun y => { y with excessRun := 1, windowForward := 834 }) b)) (fun s =>
        s.block.laneCfg 2 = some lane ∧ (s.block.lane 2).session ≠ .off ∧ s.block.store.ownZone = some 1 ∧
        (s.block.view 1).state = x ∧ (s.block.view 1).epoch < 65534 ∧
        2 ≤ (if lane.maxRate * 125 < ((s.block.lane 2).windowForward - (s.block.lane 2).windowReverse) * lane.meterFactor * 60 / 1000000 * 100
          then (s.block.lane 2).excessRun + 1 else 0))) :=
  ⟨meets (by decide +kernel), fun x _ => meets (by cases x <;> decide +kernel)⟩

/-! ## Witnesses: spill shutdown -/

def confirming (b : Block) : Block := b.setInput 2 ⟨.confirming, .run 1⟩

/-- A grant that a trip ends SPILL, with a record to let go (`TripFollows`). -/
theorem wit_SpillInputsConfirmAndTrip_grant :
    Meets (fun b => view .normal none (withRecords [{ machine with inFlight := some 2 }] (session .authorized (confirming b))))
      (fun s => (s.block.input 2).state = .confirming ∧ grantSpilled s.block pit.zone 2 ∧
        letGoBy (grantSpilled s.block pit.zone) s.block.accounts ≠ s.block.accounts) :=
  meets (by decide +kernel)

theorem wit_SpillInputsConfirmAndTrip :
    Meets id (fun s => s.block.running = true ∧ s.block.inputCfg 0 = some dead ∧ dead.enabled = false ∧
      s.block.inputCfg 2 = some pit ∧ pit.enabled = true ∧ (s.block.input 2).state = .inactive ∧ pit.kind ≠ .estop ∧
      pit.confirm ≠ 0 ∧ (s.block.input 2).state ≠ .confirming) ∧
    Meets (fun b => view .normal none (confirming b)) (fun s => (s.block.input 2).state ≠ .inactive ∧
      (s.block.input 2).state = .confirming ∧ (s.block.input 2).timer.running = true ∧
      (s.block.view pit.zone).state = .normal ∧ (s.block.view pit.zone).epoch < 65534) ∧
    Meets (view .clearing (some (.receiver 1 65533 (.run 1)))) (fun s => s.block.inputCfg 3 = some stop ∧
      (s.block.input 3).state = .inactive ∧ stop.kind = .estop ∧ (s.block.view stop.zone).state = .clearing ∧
      (s.block.view stop.zone).epoch < 65534) ∧
    Meets (fun b => view .tripped none (confirming b)) (fun s => (s.block.input 2).state = .confirming ∧
      (s.block.input 2).timer.running = true ∧ (s.block.view pit.zone).state = .tripped) ∧
    Meets (view .starting none) (fun s => (s.block.input 3).state = .inactive ∧ (s.block.view stop.zone).state = .starting) :=
  by and_intros <;> exact meets (by decide +kernel)

def settlingLine (line : Bool) (b : Block) : Block :=
  onSpill (fun x => { x with settle := .run 1 }) (b.setPins { b.pins with zoneLine := line })

theorem wit_ZoneLineTripsWhenSensed :
    Meets (view .tripped none) (fun s => s.block.running = true ∧ s.block.store.ownZone = some 1 ∧
      (s.block.view 1).state ≠ .normal) ∧
    Meets (view .normal none) (fun s => (s.block.view 1).state = .normal ∧ s.block.spill.settle = .rest ∧
      s.block.spill.settle.running = false ∧ (s.block.view 1).epoch < 65534) ∧
    Meets (settlingLine false) (fun s => s.block.spill.settle.running = true ∧ s.block.pins.zoneLine = false) ∧
    Meets (fun b => settlingLine true (view .normal none b)) (fun s => s.block.spill.settle.running = true ∧
      s.block.pins.zoneLine = true ∧ (s.block.view 1).state = .normal ∧ (s.block.view 1).epoch < 65534) :=
  by and_intros <;> exact meets (by decide +kernel)

def interval : Option Clearing := some (.sender 65533 .interval (.run 1))
def isolate : Block → Block := onLink fun k => { k with isolated := some .dupStation }

theorem wit_ReleaseGoesByItsStages :
    Meets id (fun s => s.block.running = true ∧ s.block.store.ownZone = some 1 ∧ (s.block.view 1).state ≠ .tripped) ∧
    Meets (fun b => view .tripped none (confirming b)) (fun s => (s.block.view 1).state = .tripped ∧ s.block.quiet 1 = false) ∧
    Meets (view .tripped none) (fun s => (s.block.view 1).state = .tripped ∧ s.block.quiet 1 = true) ∧
    Meets (view .clearing interval) (fun s => (s.block.view 1).state = .clearing ∧ (s.block.view 1).clearing = interval ∧
      s.block.quiet 1 = true ∧ s.block.link.isolated = none) ∧
    Meets (fun b => isolate (view .clearing interval b)) (fun s => (s.block.view 1).state = .clearing ∧
      (s.block.view 1).clearing = interval ∧ s.block.quiet 1 = true ∧ s.block.link.isolated ≠ none) ∧
    Meets (fun b => view .clearing interval (confirming b)) (fun s => (s.block.view 1).state = .clearing ∧
      (s.block.view 1).clearing = interval ∧ s.block.quiet 1 = false ∧ (s.block.view 1).epoch < 65534) ∧
    Meets (view .clearing (some (.receiver 1 65533 (.run 1)))) (fun s => (s.block.view 1).state = .clearing ∧
      (s.block.view 1).clearing = some (.receiver 1 65533 (.run 1))) :=
  by and_intros <;> exact meets (by decide +kernel)

theorem wit_ListenSettlesTheViews :
    Meets id (fun s => s.block.spill.listen.running = false) ∧
    Meets (fun b => onSpill (fun x => { x with listen := .run 1 }) (onView (fun v =>
        { v with state := .starting, epoch := 65533, held := some .pit }) b))
      (fun s => s.block.spill.listen.running = true ∧ (∀ z, (s.block.view z).epoch < 65534) ∧
        (s.block.view 0).state ≠ .starting ∧ (s.block.view 1).state = .starting ∧ (s.block.view 1).held = some .pit) ∧
    Meets (fun b => onSpill (fun x => { x with
        listen := .run 1, views := Vector.replicate 4 { ZoneView.powerOn with state := .starting, held := some .pit } }) b)
      (fun s => s.block.spill.listen.running = true ∧ (s.block.view 1).state = .starting ∧ (s.block.view 2).state = .starting ∧
        (∀ e ∈ s.block.link.queue, e.body.contender ≠ .trip 1 ∧ e.body.contender ≠ .trip 2) ∧
        ∃ t, exec .listenTimerExpiry s = .next t ∧ t.block.link.queue.map (·.body) =
          [.trip 0 1 .pit 3 .rest, .trip 1 1 .pit 3 .rest, .trip 2 1 .pit 3 .rest, .trip 3 1 .pit 3 .rest]) :=
  ⟨meets (by decide +kernel), meets (by decide +kernel),
    meets ⟨by decide +kernel, by decide +kernel, by decide +kernel, by decide +kernel, _, rfl, by decide +kernel⟩⟩

theorem wit_TripAndClearFramesAct :
    Meets (view .normal none) (fun s => Receiving s.block ∧ (1 : StationId) ≠ s.block.store.number ∧
      (s.block.view 1).state = .normal ∧ 65532 < (s.block.view 1).epoch ∧ (s.block.view 1).epoch ≤ 65533) ∧
    Meets (view .tripped none) (fun s => (s.block.view 1).state = .tripped ∧ 65533 = (s.block.view 1).epoch ∧
      (s.block.view 1).epoch < 65534) ∧
    Meets (view .starting none) (fun s => (s.block.view 1).state = .starting) ∧
    Meets (view .clearing (some (.receiver 1 65533 (.run 1)))) (fun s => (s.block.view 1).state = .clearing ∧
      (s.block.view 1).clearing = some (.receiver 1 65533 (.run 1)) ∧ s.block.quiet 1 = true) ∧
    Meets (fun b => view .clearing (some (.receiver 1 65533 (.run 1))) (confirming b)) (fun s =>
      (s.block.view 1).clearing = some (.receiver 1 65533 (.run 1)) ∧ s.block.quiet 1 = false ∧
      (s.block.view 1).epoch < 65534) :=
  ⟨meets ⟨⟨by decide +kernel, by decide +kernel, by decide +kernel⟩, by decide +kernel⟩, meets (by decide +kernel),
    meets (by decide +kernel), meets (by decide +kernel), meets (by decide +kernel)⟩

/-! ## Witnesses: tanks, ages and timers -/

theorem wit_GaugeReadingsRebaseAndDeliver_dry :
    Meets nearDry fun s => s.block.gaugeTank 0 = some 3 ∧
      ∃ t, exec (.gaugeReading 0 (.good 50000 false false)) s = .next t ∧ EntersDry s t := by
  unfold EntersDry
  exact meets ⟨by decide +kernel, _, rfl, by decide +kernel⟩

theorem wit_GaugeReadingsRebaseAndDeliver :
    Meets (onTank fun v => { v with stockAge := 60000 }) (fun s => s.block.running = true ∧ s.block.gaugeTank 0 = some 3 ∧
      s.block.tankCfg 3 = some fuel ∧ fuel.cls ≠ .waste ∧ (false = true → (s.block.tank 3).highHigh = true) ∧
      s.block.link.isolated = none ∧ (s.block.tank 3).delivering = false ∧ (s.block.tank 3).basis.isSome = true ∧
      (fuel.deliveryThreshold : Int) < (1520001 : Nat) + s.block.partialSum 3 - (s.block.tank 3).book ∧
      60000 ≤ (s.block.tank 3).stockAge) ∧
    Meets (onTank fun v => { v with delivering := true, lastStock := some 1, stockAge := 59999 }) (fun s =>
      (s.block.tank 3).delivering = true ∧ (s.block.tank 3).previous = some 1500000 ∧
      ((1501999 : Int) - (1500000 : Nat)).natAbs < 2000) ∧
    Meets (onTank fun v => { v with lastStock := some 1, stockAge := 59999 }) (fun s =>
      (s.block.tank 3).delivering = false ∧ (s.block.tank 3).lastStock ≠ none ∧ (s.block.tank 3).stockAge < 60000 ∧
      (s.block.tank 3).high = false ∧ (s.block.tank 3).highHigh = false ∧
      ¬ (fuel.deliveryThreshold : Int) < (1520000 : Nat) + s.block.partialSum 3 - (s.block.tank 3).book) ∧
    Meets isolate (fun s => s.block.link.isolated ≠ none) :=
  by and_intros <;> exact meets (by decide +kernel)

def oilHere : TankCfg := { oil with gaugeStation := 4 }
def onOil (g : TankView → TankView) (b : Block) : Block :=
  (onStore (fun x => { x with tanks := x.tanks.set 5 (some oilHere), gauges := x.gauges.set 1 (some (some 5)) }) b).setTank 5
    (g { TankView.powerOn with state := .normal, basis := some ⟨0, 900⟩, lastStock := some 1 })
def back : SessionParams := { grant with direction := .ret, product := 1, tank := 5 }

/-- A WASTE tank with and without a session in flight, a threshold passed. -/
theorem wit_GaugeReadingsRebaseAndDeliver_waste :
    Meets (onOil id) (fun s => s.block.gaugeTank 1 = some 5 ∧ s.block.tankCfg 5 = some oilHere ∧ oilHere.cls = .waste ∧
      ¬ flightOn s.block 5 ∧ (s.block.tank 5).delivering = false ∧ (s.block.tank 5).basis.isSome = true ∧
      (oilHere.deliveryThreshold : Int) < (20001 : Nat) - s.block.partialSum 5 - (s.block.tank 5).book) ∧
    Meets (fun b => onOil id (onLane (fun x => { x with params := some back }) (session .flowing b))) (fun s =>
      s.block.gaugeTank 1 = some 5 ∧ s.block.tankCfg 5 = some oilHere ∧ flightOn s.block 5 ∧
      (oilHere.deliveryThreshold : Int) < (20001 : Nat) - s.block.partialSum 5 - (s.block.tank 5).book) := by
  refine ⟨meets ⟨by decide +kernel, by decide +kernel, by decide +kernel, ?_, by decide +kernel⟩,
    meets ⟨by decide +kernel, by decide +kernel, .inl ⟨2, by decide +kernel, back, by decide +kernel⟩, by decide +kernel⟩⟩
  unfold flightOn ownFlies peerFlies peerShows
  decide +kernel

/-- The levels and the previous G while DELIVERING: a STOCK entry for a level that changes and for the end, none else. -/
theorem wit_GaugeReadingsRebaseAndDeliver_stock :
    Meets (onTank fun v => { v with delivering := true, lastStock := some 1, stockAge := 60000 }) (fun s =>
      s.block.link.isolated = none ∧ (s.block.tank 3).delivering = true ∧ (s.block.tank 3).previous = some 1500000 ∧
      (s.block.tank 3).high ≠ true ∧ (s.block.tank 3).high = false ∧ (s.block.tank 3).highHigh = false ∧
      ((1501999 : Int) - (1500000 : Nat)).natAbs < 2000 ∧ ¬ ((1502000 : Int) - (1500000 : Nat)).natAbs < 2000) :=
  meets (by decide +kernel)

theorem wit_GaugeReadingsRebaseAndDeliver_highHigh :
    ∀ x ∈ ([.normal, .clearing, .tripped, .starting] : List ZoneState),
      Meets (view x none) (fun s => s.block.gaugeTank 0 = some 3 ∧ s.block.tankCfg 3 = some fuel ∧ fuel.cls ≠ .waste ∧
        (s.block.tank 3).highHigh = false ∧ (s.block.view fuel.zone).state = x ∧ (s.block.view fuel.zone).epoch < 65534 ∧
        s.block.store.ownZone = some fuel.zone) :=
  fun x _ => meets (by cases x <;> decide +kernel)

theorem wit_AgesTimersAndTheSwitch :
    Meets (fun b => onEntry (fun e => { e with state := .live }) (b.setEntry 2 { b.entry 2 with state := .stale })) (fun s =>
      s.block.tankCfg 3 = some fuel ∧ (s.block.tank 3).basis.isSome = true ∧ (s.block.tank 3).state ≠ .unknown ∧
      (s.block.tank 5).basis = none ∧ s.block.roster.builder.period.running = true ∧
      s.block.roster.builder.holdOff.running = false ∧ (s.block.entry 1).state = .live ∧ (s.block.entry 1).state ≠ .stale ∧
      (s.block.entry 2).state = .stale ∧ (s.block.entry 2).state ≠ .live ∧ s.block.roster.clock ≠ 0) ∧
    Meets (onRoster fun r => { r with clock := 4294967294, builder := ⟨.rest, .run 1, true, false⟩ }) (fun s =>
      s.block.roster.clock ≠ 0 ∧ s.block.roster.clock + 1 < 4294967296 ∧
      s.block.roster.builder.period.running = false ∧ s.block.roster.builder.holdOff.running = true) ∧
    Meets (onRoster fun r => { r with clock := 0 }) (fun s => s.block.roster.clock = 0) :=
  by and_intros <;> exact meets (by decide +kernel)

/-- An event that changes a lane and a view, and one that changes neither with the mark standing. -/
theorem wit_AgesTimersAndTheSwitch_change :
    Meets (session .flowing) (fun s => ∃ t, exec (.spillInputActive 3) s = .next t ∧ Receiving t.block ∧
      statusChange s.block t.block ∧ t.block.roster.builder.holdOff.running = false ∧ t.block.link.sending = none) ∧
    Meets (onRoster fun r => { r with builder := { r.builder with change := true } }) (fun s =>
      ∃ t, exec .bayClockSecond s = .next t ∧ Receiving t.block ∧ ¬ statusChange s.block t.block ∧
        t.block.roster.builder.change = true) := by
  unfold statusChange Receiving
  exact ⟨meets ⟨_, rfl, by decide +kernel⟩, meets ⟨_, rfl, by decide +kernel⟩⟩

/-! ## Witnesses: the bay link -/

def held : Entry := ⟨0, .trip 0 1 .pit 2 (.run 5)⟩
def waiting : Entry := ⟨1, .draw draw⟩
def queued (es : List Entry) : Block → Block := onLink fun k => { k with queue := es, contending := some .draw }
def sends (x : Sending) : Block → Block := onLink fun k => { k with sending := some x, conflicts := 1 }
def trip : Sending := .entry ⟨0, .trip 1 1 .pit 2 .rest⟩ (.trip ⟨1, 1, .pit, 2⟩) false

theorem wit_ContentionTakesTheHead :
    Meets (queued [held, waiting]) (fun s => Receiving s.block ∧ s.block.link.sending = none ∧
      s.block.link.queue = [held] ++ waiting :: [] ∧ waiting.eligible = true ∧ (∀ x ∈ [held], x.eligible = false) ∧
      s.block.link.contending = some .draw ∧ waiting.body.contender = .draw ∧ (∀ x ∈ [held], x ≠ waiting)) ∧
    Meets (queued [held]) (fun s => Receiving s.block ∧ s.block.link.sending = none ∧
      ∀ x ∈ s.block.link.queue, x.eligible = false) ∧
    Meets isolate (fun s => ¬ Receiving s.block) ∧
    Meets (onLink fun k => { k with contending := some .status }) (fun s => s.block.link.contending = some .status) :=
  ⟨meets ⟨⟨by decide +kernel, by decide +kernel, by decide +kernel⟩, by decide +kernel⟩,
    meets ⟨⟨by decide +kernel, by decide +kernel, by decide +kernel⟩, by decide +kernel⟩,
    meets (fun h => absurd h.2.2 (by decide +kernel)), meets (by decide +kernel)⟩

theorem wit_FrameSentIsReported :
    Meets id (fun s => s.block.link.sending = none) ∧
    Meets (sends (.status status)) (fun s => s.block.link.sending = some (.status status)) ∧
    Meets (sends trip) (fun s => s.block.link.sending = some trip) ∧
    Meets (sends (.entry waiting (.draw draw) false)) (fun s => s.block.link.sending = some (.entry waiting (.draw draw) false)) ∧
    Meets (sends (.entry ⟨0, .stock 3 5 6 false false false⟩ (.stock ⟨3, 5, 6, false, false, false, 7⟩) false)) (fun s =>
      s.block.link.sending = some (.entry ⟨0, .stock 3 5 6 false false false⟩ (.stock ⟨3, 5, 6, false, false, false, 7⟩) false)) ∧
    Meets (fun b => view .clearing (some (.sender 65533 .copy1 .rest)) (sends (.entry ⟨0, .clear 1 65533 1⟩ (.clear ⟨1, 65533, 1⟩) false) b))
      (fun s => s.block.link.sending = some (.entry ⟨0, .clear 1 65533 1⟩ (.clear ⟨1, 65533, 1⟩) false) ∧
        (s.block.view 1).state = .clearing ∧ (s.block.view 1).clearing = some (.sender 65533 .copy1 .rest)) ∧
    Meets (fun b => view .clearing (some (.sender 65533 .copy2 .rest)) (sends (.entry ⟨0, .clear 1 65533 2⟩ (.clear ⟨1, 65533, 2⟩) false) b))
      (fun s => s.block.link.sending = some (.entry ⟨0, .clear 1 65533 2⟩ (.clear ⟨1, 65533, 2⟩) false) ∧
        (s.block.view 1).state = .clearing ∧ (s.block.view 1).clearing = some (.sender 65533 .copy2 .rest)) :=
  by and_intros <;> exact meets (by decide +kernel)

def selfTest : List Byte := encodeFrame 4 (.clear ⟨1, 0, 1⟩)

set_option maxRecDepth 100000 in
theorem wit_ConflictsErrorsAndIsolation :
    Meets id (fun s => Receiving s.block ∧ s.block.link.sending = none ∧ s.block.link.restOfConflict = false ∧
      s.block.link.conflicts < 2 ∧ s.block.link.errors ≠ 15) ∧
    Meets (sends trip) (fun s => s.block.link.sending = some trip ∧ s.block.link.conflicts < 2) ∧
    Meets (sends (.status status)) (fun s => s.block.link.sending = some (.status status) ∧ s.block.link.conflicts < 2) ∧
    Meets (onLink fun k => { k with sending := some trip, conflicts := 2 }) (fun s => s.block.link.sending ≠ none ∧
      2 ≤ s.block.link.conflicts ∧ s.block.link.isolated = none ∧ ∀ z, (s.block.view z).clearing = none) ∧
    Meets (onLink fun k => { k with errors := 15, restOfConflict := true }) (fun s => s.block.running = true ∧
      s.block.link.test = none ∧ s.block.link.sending = none ∧ s.block.link.restOfConflict = true ∧ s.block.link.errors = 15) ∧
    Meets (onLink fun k => { k with test := some selfTest }) (fun s => s.block.link.test = some selfTest ∧
      (decodeFrame selfTest).isSome = true ∧ (none : Option (List Byte)) ≠ some selfTest ∧ s.block.link.isolated = none ∧
      ∀ z, (s.block.view z).clearing = none) :=
  ⟨meets ⟨⟨by decide +kernel, by decide +kernel, by decide +kernel⟩, by decide +kernel⟩,
    by and_intros <;> exact meets (by decide +kernel)⟩

/-- A release in progress, its copy waiting in the queue or in the transmitter. -/
def releasing (stage : Stage) (copy : Nat) (inQueue : Bool) : Block → Block := fun b =>
  let e : Entry := ⟨0, .clear 1 65533 copy⟩
  onLink (fun k => { k with
    conflicts := 2, queue := if inQueue then [e] else [],
    sending := if inQueue then none else some (.entry e (.clear ⟨1, 65533, copy⟩) false) })
    (view .clearing (some (.sender 65533 stage .rest)) b)

theorem wit_ConflictsErrorsAndIsolation_release :
    Meets (releasing .copy1 1 true) (fun s => Receiving s.block ∧ s.block.link.sending = none ∧
      s.block.link.restOfConflict = false ∧ 2 ≤ s.block.link.conflicts ∧ (s.block.view 1).state = .clearing ∧
      (s.block.view 1).clearing = some (.sender 65533 .copy1 .rest) ∧ clearWaits s.block.link 1 65533 1) ∧
    Meets (releasing .copy2 2 false) (fun s => s.block.link.sending ≠ none ∧ s.block.link.isolated = none ∧
      2 ≤ s.block.link.conflicts ∧ (s.block.view 1).state = .clearing ∧ s.block.store.ownZone = some 1 ∧
      (s.block.view 1).clearing = some (.sender 65533 .copy2 .rest) ∧ clearWaits s.block.link 1 65533 2) := by
  refine ⟨meets ⟨⟨by decide +kernel, by decide +kernel, by decide +kernel⟩, by decide +kernel, by decide +kernel,
      by decide +kernel, by decide +kernel, by decide +kernel, .inl (by decide +kernel), by decide +kernel, ?_⟩,
    meets ⟨by decide +kernel, by decide +kernel, by decide +kernel, by decide +kernel, by decide +kernel, by decide +kernel,
      .inr ⟨_, _, rfl, rfl⟩, by decide +kernel, ?_⟩⟩
  · intro x f w h
    exact absurd h (by rw [show (at_ (releasing .copy1 1 true)).block.link.sending = none by decide +kernel]; nofun)
  · intro x f w h _
    rw [show (at_ (releasing .copy2 2 false)).block.link.sending =
      some (.entry ⟨0, .clear 1 65533 2⟩ (.clear ⟨1, 65533, 2⟩) false) by decide +kernel] at h
    cases h
    exact ⟨rfl, rfl⟩

/-! ## Witnesses: frames of other stations -/

def peerTrip : StatusContent := { status with zones := status.zones.set 1 ⟨.tripped, 1⟩ }

theorem wit_StatusFramesAreTaken :
    Meets id (fun s => Receiving s.block ∧ (1 : StationId) ≠ s.block.store.number ∧
      (∀ z : ZoneId, status.zones[z].epoch ≤ (s.block.view z).epoch ∧ ((s.block.view z).state = .starting →
        status.zones[z].state = .normal ∨ status.zones[z].state = .starting)) ∧ status.bayTime = 0 ∧
      { status with bayTime := 1060 }.bayTime ≤ s.block.roster.clock + 60 ∧
      (s.block.view 1).epoch < peerTrip.zones[(1 : ZoneId)].epoch ∧ peerTrip.zones[(1 : ZoneId)].state = .tripped) ∧
    Meets bare (fun s => s.block.running = false ∧ (1 : StationId) ≠ s.block.store.number) ∧
    Meets isolate (fun s => s.block.running = true ∧ s.block.link.test = none ∧ s.block.link.isolated ≠ none) :=
  ⟨meets ⟨⟨by decide +kernel, by decide +kernel, by decide +kernel⟩, by decide +kernel⟩, meets (by decide +kernel),
    meets (by decide +kernel)⟩

theorem wit_StatusFramesAreTaken_zones :
    Meets (view .starting none) (fun s => Receiving s.block ∧ (s.block.view 1).state = .starting ∧
      { status with zones := status.zones.set 1 ⟨.clearing, 1⟩ }.zones[(1 : ZoneId)].state = .clearing ∧ s.block.store.ownZone = some 1) ∧
    Meets (view .normal none) (fun s => (s.block.view 1).state ≠ .starting ∧
      peerTrip.zones[(1 : ZoneId)].epoch ≤ (s.block.view 1).epoch ∧
      { status with zones := status.zones.set 1 ⟨.starting, 65534⟩ }.zones[(1 : ZoneId)].state = .starting ∧
      (s.block.view 1).epoch < { status with zones := status.zones.set 1 ⟨.starting, 65534⟩ }.zones[(1 : ZoneId)].epoch) ∧
    Meets (view .tripped none) (fun s => (s.block.view 1).state = .tripped ∧
      (s.block.view 1).epoch < { status with zones := status.zones.set 1 ⟨.normal, 65534⟩ }.zones[(1 : ZoneId)].epoch) ∧
    Meets (onEntry fun e => { e with disagree := true }) (fun s => s.block.roster.clock ≠ 0 ∧
      s.block.roster.clock + 60 < { status with bayTime := 1061 }.bayTime ∧ (s.block.entry 1).disagree = true ∧
      (s.block.entry 2).disagree = false ∧ { status with bayTime := 939 }.bayTime + 60 < s.block.roster.clock) :=
  ⟨meets ⟨⟨by decide +kernel, by decide +kernel, by decide +kernel⟩, by decide +kernel⟩, meets (by decide +kernel),
    meets (by decide +kernel), meets (by decide +kernel)⟩

/-- The full tables of its last clauses are those of `wit_GrantReachesLaneAndTable_full`. -/
theorem wit_DrawAndStockFramesAreTaken_cases :
    Meets (fun b => onTank (fun v => { v with basis := some ⟨5, 900⟩ })
        (onEntry (fun e => { e with seq := some 9, totals := e.totals.set 3 ⟨some 300, none⟩ }) (withRecords [machine] b)))
      (fun s => ¬ ((s.block.entry 1).seq = some draw.seq ∧ (s.block.entry 1).total draw.tank draw.direction = some draw.total) ∧
        (s.block.entry 1).seq = some 9 ∧ ¬ 9 < draw.seq ∧ { draw with machine := 7 }.machine ≠ 0 ∧
        s.block.accounts.find 7 = some machine ∧ s.block.accounts.find 8 = none ∧ s.block.accounts.records.length < 384 ∧
        (∃ b ∈ (s.block.tank draw.tank).basis, b.time ≠ 0 ∧ { draw with stop := 899 }.stop ≠ 0 ∧
          { draw with stop := 899 }.stop < b.time) ∧
        s.block.tankCfg { draw with tank := 0 }.tank = none) ∧
    Meets id (fun s => (s.block.entry 1).seq = none ∧ { draw with direction := .ret, tank := 5 }.direction = .ret ∧
      s.block.tankCfg { draw with direction := .ret, tank := 5 }.tank = some oil) ∧
    Meets id (fun s => Receiving s.block ∧ oil.cls = .waste ∧ s.block.tankCfg 5 = some oil ∧ oil.gaugeStation = 6 ∧
      (6 : StationId) ≠ s.block.store.number) :=
  ⟨meets (by decide +kernel), meets (by decide +kernel),
    meets ⟨⟨by decide +kernel, by decide +kernel, by decide +kernel⟩, by decide +kernel⟩⟩

theorem wit_DrawAndStockFramesAreTaken :
    Meets (fun b => onTank (fun v => { v with basis := some ⟨5, 0⟩ }) (onEntry (fun e => { e with seq := some 3 }) b)) (fun s =>
      Receiving s.block ∧ (1 : StationId) ≠ s.block.store.number ∧ s.block.tankCfg draw.tank = some fuel ∧
      (s.block.entry 1).seq = some 3 ∧ 3 < draw.seq ∧ draw.machine = 0 ∧ draw.direction = .draw ∧
      (∀ b ∈ (s.block.tank draw.tank).basis, b.time = 0) ∧ { draw with total := 4294967295 }.total < 4294967296) ∧
    Meets (onEntry fun e => { e with seq := some 4, totals := e.totals.set 3 ⟨some 400, none⟩ }) (fun s =>
      (s.block.entry 1).seq = some draw.seq ∧ (s.block.entry 1).total draw.tank draw.direction = some draw.total) ∧
    Meets (onStore fun x => { x with tanks := x.tanks.set 3 (some { fuel with gaugeStation := 1 }) }) (fun s =>
      Receiving s.block ∧ s.block.tankCfg 3 = some { fuel with gaugeStation := 1 } ∧ fuel.cls ≠ .waste ∧
      (1 : StationId) ≠ s.block.store.number ∧ (∀ tc ∈ s.block.tankCfg 5, (1 : StationId) ≠ tc.gaugeStation)) :=
  ⟨meets ⟨⟨by decide +kernel, by decide +kernel, by decide +kernel⟩, by decide +kernel⟩, meets (by decide +kernel),
    meets ⟨⟨by decide +kernel, by decide +kernel, by decide +kernel⟩, by decide +kernel⟩⟩

theorem wit_DrawAndStockFramesAreTaken_dry :
    Meets nearDry (fun s => ∃ t, exec (.drawFrame 1 { draw with net := 101 }) s = .next t ∧ EntersDry s t) ∧
    Meets (fun b => onStore (fun x => { x with tanks := x.tanks.set 3 (some { fuel with gaugeStation := 1 }) }) (nearDry b))
      (fun s => ∃ t, exec (.stockFrame 1 ⟨3, 50000, 0, false, false, false, 0⟩) s = .next t ∧ EntersDry s t) := by
  unfold EntersDry
  exact ⟨meets ⟨_, rfl, by decide +kernel⟩, meets ⟨_, rfl, by decide +kernel⟩⟩

/-! ## Witnesses: the postings of a RESTART -/

/-- The hypotheses of the clause on the one session that a RESTART ends, on lane 2. -/
def OneSession (g : SessionParams) (s : State) : Prop :=
  s.block.running = true ∧ (s.block.lane 2).session.metered = true ∧
    (∀ k, k ≠ 2 → (s.block.lane k).session.metered = false) ∧ (s.block.lane 2).params = some g ∧
    s.block.store.lock = .locked ∧ s.block.roster.drawSeq + 1 < 4294967296

def recorded : SessionParams := { grant with machine := 7, disposition := .record }

theorem wit_RestartEndsAndBeginsAnew_handOff :
    Meets (settling recorded (withRecords [{ machine with inFlight := some 2, hours := some 50 }])) (fun s =>
      SessionSafe s.block ∧ OneSession recorded s ∧ s.block.link.isolated = none ∧
      s.block.accounts.find 7 = some { machine with inFlight := some 2, hours := some 50 }) ∧
    Meets (settling { recorded with disposition := .unassigned } (onRoster fun r => { r with drawSeq := 4294967294 }))
      (fun s => SessionSafe s.block ∧ OneSession { recorded with disposition := .unassigned } s ∧
        s.block.link.isolated = none ∧ s.block.accounts.find 7 = none) ∧
    Meets (fun b => isolate (session .lifted b)) (fun s =>
      SessionSafe s.block ∧ OneSession grant s ∧ grant.disposition = .bulk ∧ s.block.link.isolated ≠ none) ∧
    Meets (fun b => onStore (fun x => { x with lock := .opened }) (session .flowing b)) (fun s =>
      SessionSafe s.block ∧ s.block.running = true ∧ s.block.store.lock = .opened) ∧
    Meets (fun b => queued [waiting] (sends (.entry ⟨0, .draw draw⟩ (.draw draw) false) (session .authorized b))) (fun s =>
      SessionSafe s.block ∧ s.block.running = true ∧ (∀ l, (s.block.lane l).session.metered = false) ∧
      waiting ∈ s.block.link.queue ∧ waiting.body.isDraw = true ∧
      s.block.link.sending = some (.entry ⟨0, .draw draw⟩ (.draw draw) false)) := by
  unfold OneSession
  and_intros <;>
    exact meets ⟨⟨by decide +kernel, by decide +kernel, fun h => absurd h (by decide +kernel)⟩, by decide +kernel⟩

/-! ## Witnesses: tank views and shares between events -/

def drawing : Block → Block := fun b =>
  onRoster (fun r => r) (b.setTank 5 { TankView.powerOn with basis := some ⟨5, 900⟩ })

theorem wit_SettledStatesAndShares :
    Meets (fun b => session .flowing (drawing b)) (fun s =>
      s.block.tankCfg 3 = some fuel ∧ gaugedHere s.block 3 ∧ (s.block.tank 3).state ≠ .unknown ∧ fuel.cls ≠ .waste ∧
      s.block.tankCfg 5 = some oil ∧ ¬ gaugedHere s.block 5 ∧ (s.block.tank 5).state ≠ .unknown ∧ oil.cls = .waste ∧
      s.block.tankCfg 0 = none ∧ (s.block.lane 0).slowOpen = false ∧ s.block.link.isolated = none ∧
      s.block.laneCfg 2 = some lane ∧ (s.block.lane 2).params = some grant ∧ (s.block.lane 2).slowOpen = true ∧
      grant.direction = .draw ∧ s.block.tankCfg grant.tank = some fuel ∧
      (∀ l, (ownDraws s.block 3 l → (if l = 2 then 1000 else 0) = demandOf s.block l) ∧
        (¬ ownDraws s.block 3 l → (if l = 2 then 1000 else 0) = 0)) ∧ ∀ n l, ¬ peerDraws s.block 3 n l) ∧
    Meets (fun b => isolate (onLane (fun x => { x with params := some { grant with direction := .ret, tank := 5 } })
        (session .lifted b))) (fun s => s.block.link.isolated ≠ none ∧ s.block.laneCfg 2 = some lane ∧
      (s.block.lane 2).slowOpen = true ∧ s.block.tankCfg 3 = some fuel ∧
      (∀ l, ¬ ownDraws s.block 3 l) ∧ (allLanes.map fun _ => 0).sum ≤ fuel.bayDemand) := by
  unfold gaugedHere ownDraws peerDraws peerShows
  exact ⟨meets (by and_intros <;> decide +kernel), meets (by decide +kernel)⟩

/-- Station 1 shows a draw on tank 3, which this station draws on too. -/
def twoDraw : Block → Block := fun b =>
  onEntry (fun e => { e with
    state := .live, last := some { status with lanes := status.lanes.set 0 ⟨.drawing, some 3, 800, 50, 5, 9⟩ } })
    (onLane (fun x => { x with data := { x.data with net := 7 } }) (session .flowing b))

theorem wit_SettledStatesAndShares_sums :
    Meets twoDraw fun s =>
      (∀ l, (∀ p ∈ (s.block.lane l).params, ownCommits s.block 3 l →
          (if l = 2 then 199999999999993 else 0) = max 0 ((p.basis : Int) * 10000000000 -
            if (s.block.lane l).session = .authorized then 0 else (s.block.lane l).data.net)) ∧
        (¬ ownCommits s.block 3 l → (if l = 2 then 199999999999993 else 0 : Int) = 0)) ∧
      peerItem s.block (peerCommits s.block 3) (·.commitment) (fun n l => if n = 1 ∧ l = 0 then 5 else 0) ∧
      (∀ l, (ownFlies s.block 3 l → (if l = 2 then 7 else 0) = (s.block.lane l).data.net) ∧
        (¬ ownFlies s.block 3 l → (if l = 2 then 7 else 0 : Int) = 0)) ∧
      peerItem s.block (peerFlies s.block 3) (·.delivered) (fun n l => if n = 1 ∧ l = 0 then 50 else 0) := by
  unfold ownCommits ownFlies peerItem peerCommits peerFlies peerShows
  exact meets (by and_intros <;> decide +kernel)

/-! ## Well-formedness: each check refuses the term that breaks it -/

theorem test_wellFormed_refuses :
    ([.cancel 256, .laneRead 256, .takeFill 256, .meterHealth 256, .tankRead 256, .rosterRead 256,
      .accountRead 4294967296, .clearFlags 4294967296 0, .timeSet 4294967296,
      .authorize ⟨256, 0, 0, .toFull, none, 0⟩, .authorize ⟨0, 4294967296, 0, .toFull, none, 0⟩,
      .authorize ⟨0, 0, 256, .toFull, none, 0⟩, .authorize ⟨0, 0, 0, .volume 4294967294, none, 0⟩,
      .authorize ⟨0, 0, 0, .volume 4294967296, none, 0⟩, .authorize ⟨0, 0, 0, .toFull, some 4294967295, 0⟩,
      .authorize ⟨0, 0, 0, .toFull, none, 256⟩, .accountSet ⟨4294967296, none, none, none, none, none⟩,
      .accountSet ⟨7, some 256, none, none, none, none⟩, .accountSet ⟨7, none, some 256, none, none, none⟩,
      .accountSet ⟨7, none, none, some 4294967296, none, none⟩, .accountSet ⟨7, none, none, none, some (some 4294967295), none⟩,
      .accountSet ⟨7, none, none, none, none, some (some 4294967295)⟩, .serviceDone 4294967296 none,
      .serviceDone 7 (some 4294967295)] : List Instr).all (fun i => !i.wellFormed) = true := by
  decide +kernel

theorem test_wellFormed_refuses_contents :
    ([.configure ⟨256, 0, []⟩, .configure ⟨0, 256, [1]⟩, .configure ⟨0, 0, [256]⟩, .configure ⟨2, 0, [0]⟩, .configure ⟨9, 0, [256]⟩,
      .temperatureSample 0 (.temp 32768), .temperatureSample 0 (.temp (-32769)), .gaugeReading 0 (.good 200000001 false false),
      .tripFrame 1 ⟨0, 65536, .pit, 1⟩, .tripFrame 1 ⟨0, 1, .pit, 0⟩, .tripFrame 1 ⟨0, 1, .pit, 4⟩, .clearCopy1Frame 1 0 65536,
      .clearCopy2Frame 1 0 65536, .drawFrame 1 { draw with seq := 4294967296 }, .drawFrame 1 { draw with machine := 4294967296 },
      .drawFrame 1 { draw with net := 4294967296 }, .drawFrame 1 { draw with total := 4294967296 },
      .drawFrame 1 { draw with hours := some 4294967295 }, .drawFrame 1 { draw with prior := some 4294967295 },
      .drawFrame 1 { draw with start := 4294967296 }, .drawFrame 1 { draw with stop := 4294967296 },
      .stockFrame 1 ⟨3, 4294967296, 0, false, false, false, 0⟩, .stockFrame 1 ⟨3, 0, 4294967296, false, false, false, 0⟩,
      .stockFrame 1 ⟨3, 0, 0, false, false, false, 4294967296⟩, .statusFrame 1 { status with bayTime := 4294967296 },
      .statusFrame 1 { status with drawSeq := 4294967296 }, .statusFrame 1 { status with zones := status.zones.set 3 ⟨.normal, 65536⟩ },
      .statusFrame 1 { status with lanes := status.lanes.set 3 ⟨.idle, none, 65536, 0, 0, 0⟩ },
      .statusFrame 1 { status with lanes := status.lanes.set 2 ⟨.idle, none, 0, 4294967296, 0, 0⟩ },
      .statusFrame 1 { status with lanes := status.lanes.set 1 ⟨.idle, none, 0, 0, 4294967296, 0⟩ },
      .statusFrame 1 { status with lanes := status.lanes.set 0 ⟨.idle, none, 0, 0, 0, 4294967296⟩ }] : List Instr).all
        (fun i => !i.wellFormed) = true ∧
      (Frame.clear ⟨0, 1, 0⟩).wellFormed = false ∧ (Frame.clear ⟨0, 1, 3⟩).wellFormed = false := by
  decide +kernel

/-! ## The manual's worked examples -/

/-- Sections 2.9 and 2.11. -/
theorem test_correction_factors :
    [correctionFactor 830 (-124), correctionFactor 655 183, correctionFactor 655 117, correctionFactor 830 (effectiveTemp (some (.temp (-452)))),
      correctionFactor 700 60, correctionFactor 700 (effectiveTemp (some .probeFault))] =
      [1022742, 997838, 1002162, 1045650, 1006300, 1000000] := by
  decide +kernel

/-- Section 2.9: the accumulators reported in cL. -/
theorem test_accumulators_in_cL :
    [netCL 1086433258050000, netCL 25568550000, grossCL 1062275000, grossCL 1060875000] = [108643, 3, 106228, 106088] ∧
      netCL (-102274200000) = 0 ∧ grossCL (-100000) = 0 ∧ microCL 300000 = 30 := by
  decide +kernel

/-- Section 2.10: the pulses of the trace, an A pulse at B low or a B pulse. -/
def pulses : List Bool := [true, true, true, false, true, true, true, true, true, true, false, true]
def afterPulses (n : Nat) : PulseCheck :=
  (pulses.take n).foldl (fun k a => if a then (k.takeA false).check else k.takeB.check) ⟨.forward, 0, false, 0, .b⟩

theorem test_pulse_trace :
    (List.range 13).map (fun n => ((afterPulses n).state, (afterPulses n).faults)) =
      [(.forward, 0), (.forward, 0), (.forward, 1), (.forward, 2), (.forward, 2), (.forward, 0), (.forward, 1), (.forward, 2),
        (.forward, 3), (.nosync, 0), (.nosync, 0), (.nosync, 0), (.nosync, 0)] ∧ (afterPulses 12).run = 1 := by
  decide +kernel

/-- Section 4.13: a sample in band. -/
theorem test_sample_in_band :
    let r := postRecord ⟨150, 50, 0, 0⟩
      { machine := 40288, product := 0, cls := some .fuel, direction := .draw, net := 240000, hours := some 123584,
        toFull := true, start := 2046620, stop := 2046800, station := 2, lane := 0, prior := none }
      { MachineRecord.fresh 40288 2 .loaded with
        hours := some 123456, base := some 123456, estimate := some 1850, service := some 3000,
        lastFill := some ⟨1999830, 2000000, 2, 1⟩ }
    (r.hours, r.base, r.estimate, r.service, r.carry, r.flags, r.fuel) =
      (some 123584, some 123584, some 1856, some 2872, 0, 0, 240000) := by
  decide +kernel

/-- Section 4.14: a resync at a heard posting. -/
theorem test_resync :
    let r := postRecord ⟨150, 50, 0, 0⟩
      { machine := 51220, product := 0, cls := some .fuel, direction := .draw, net := 190000, hours := some 84560,
        toFull := true, start := 1089820, stop := 1090000, station := 5, lane := 3, prior := some 84420 }
      { MachineRecord.fresh 51220 2 .loaded with
        hours := some 84310, base := some 84150, carry := 30000, estimate := some 1400, service := some 2000,
        lastFill := some ⟨999000, 1000000, 1, 0⟩ }
    (r.hours, r.base, r.estimate, r.service, r.carry, r.flags) =
      (some 84560, some 84420, some 1400, some 1750, 0, 0x02) := by
  decide +kernel

/-- Section 7.8: the arbitration bytes. -/
theorem test_arbitration_bytes :
    [arbitrationByte 0 6, arbitrationByte 2 1, arbitrationByte 4 4] = [0x1A, 0x46, 0x92] := by
  decide +kernel

/-- Section 3.11: the slow duty and the cap duty of a lane of 1,000 L/min. -/
theorem test_duties : dutyOf 200 1000 = 51 ∧ dutyOf 800 1000 = 204 := by
  decide +kernel

/-- Section 3.13: the amount across the wrap of the total, and with a lost posting absorbed. -/
theorem test_heard_amounts :
    heardAmount { TankView.powerOn with basis := some ⟨0, 9000⟩ } (some 4294900000) 120000 5 9060 = 187296 ∧
      heardAmount { TankView.powerOn with basis := some ⟨0, 9000⟩ } (some 1204000) 1334000 50000 9060 = 130000 := by
  decide +kernel

/-! ## Commands, one step each -/

/-- The state after the commands. -/
def after (cs : List Instr) (s : State) : State :=
  cs.foldl (fun s c => match exec c s with | .next t => t | _ => s) s

/-- Section 2.2 and R14: a grant, the nozzle, the first pulse, and the nozzle back: IDLE to CLOSING with HUNG. -/
theorem test_session :
    let s := after [.authorize (ask 0 (.volume 20000)), .nozzleOut 2, .aPulse 2 false] (at_ id)
    let t := after [.nozzleIn 2] s
    (s.block.lane 2).session = .flowing ∧ (s.block.lane 2).mainOpen = true ∧ (s.block.lane 2).data.gross = 25000 ∧
      (s.block.lane 2).data.unchecked = 1 ∧ (t.block.lane 2).session = .closing ∧ (t.block.lane 2).mainOpen = false ∧
      (t.block.lane 2).data.primary = some .hung := by
  decide +kernel

/-- R3, R77: a RETURN session has cap duty 255 from its grant, with the set-point at 0 until the valves open. -/
theorem test_return_cap_duty :
    let s := after [.authorize ⟨2, 0, 1, .volume 20000, none, 0⟩] (at_ id)
    let t := after [.nozzleOut 2] s
    (s.block.lane 2).session = .authorized ∧ (s.block.lane 2).capDuty = 255 ∧ (s.block.lane 2).duty = 0 ∧
      (t.block.lane 2).session = .lifted ∧ (t.block.lane 2).duty = 255 := by
  decide +kernel

/-- R116, R21: an emergency stop trips the zone at the next epoch, ends the session SPILL and offers TRIP. -/
theorem test_trip_of_a_session :
    let s := after [.spillInputActive 3] (at_ (session .flowing))
    (s.block.view 1).state = .tripped ∧ (s.block.view 1).epoch = 1 ∧ (s.block.view 1).cause = .estop ∧
      (s.block.lane 2).data.primary = some .spill ∧ s.block.spill.drive = true ∧ s.block.link.queue.length = 1 := by
  decide +kernel

/-- Section 5.10 in short: the key, copy 1, the interval, copy 2: the zone is NORMAL again. -/
theorem test_release :
    let s := after [.spillInputActive 3, .spillInputInactive 3, .releaseKey, .idleGapContend, .arbitrationWon, .frameSent,
      .intervalTimerExpiry, .idleGapContend, .arbitrationWon, .frameSent] (at_ id)
    (s.block.view 1).state = .normal ∧ (s.block.view 1).epoch = 1 ∧ s.block.spill.drive = false ∧ s.block.link.queue = [] := by
  decide +kernel

/-- R61, R66: a DRAW frame in sequence lowers the book, and a gauge reading rebases it. -/
theorem test_books :
    ((after [.drawFrame 1 draw] (at_ id)).block.tank 3).book = 1499900 ∧
      ((after [.gaugeReading 0 (.good 1490000 false false)] (at_ id)).block.tank 3).book = 1490000 := by
  decide +kernel

/-- R162: a self-test whose frame comes back whole joins the station; any other return isolates it. -/
theorem test_self_test :
    let s := at_ (onLink fun k => { k with test := some [1], driver := false })
    (after [.loopbackTestEnd none] s).block.link.isolated = some .loopback := by
  decide +kernel

/-- R175: power-on reads the straps. -/
theorem test_power_on :
    (after [.powerOnReset 7] (at_ id)).block.store.number = 7 ∧ (after [.powerOnReset 7] (at_ id)).block.running = false := by
  decide +kernel

/-- R167: the panel's START frame on the line, at a station that runs, is answered NOT_UNCONFIGURED. -/
theorem test_panel_line :
    (after ((encodeRequest .start).map .panelByteReceived) (at_ id)).block.panel.response = some (.refused .notUnconfigured) := by
  decide +kernel

/-- The table gives its rows no bits, so no word spells a command. -/
theorem test_decodeTableWord : decodeTableWord 8 0 = none := rfl

end Sys2Proof.Tests
end

