-- ==== Sys2Proof/Proofs/QuietEvents.lean ====
section
/-! The end of an event whose own work leaves alone all that tank views, outputs, pictures and attention are formed of.
`Alike` of Laws/Finish.lean asks for equal session data and equal roster entries; a temperature sample changes the one
and TIME SET the other, so the relation here asks only for what the rules read of them: net volume and lanes in view. -/

namespace Sys2Proof.Machine

/-- The parts agree on all that the end of an event reads. -/
structure SameAtEnd (a b : Block) : Prop where
  store : b.store = a.store
  tanks : b.tanks = a.tanks
  spill : b.spill = a.spill
  isolated : b.link.isolated = a.link.isolated
  peers : b.peerLanes = a.peerLanes
  session : ∀ l, (b.lane l).session = (a.lane l).session
  params : ∀ l, (b.lane l).params = (a.lane l).params
  net : ∀ l, (b.lane l).data.net = (a.lane l).data.net
  outputs : ∀ l, a.driveLane l (b.lane l) = b.lane l
  raised : b.panel.raised = a.panel.raised
  attention : b.panel.attention = a.panel.attention
  anyPending : b.panel.anyPending = a.panel.anyPending

namespace SameAtEnd

variable {a b : Block} (h : SameAtEnd a b)

include h

theorem demand (l : LaneId) : b.demand l = a.demand l := by
  simp only [Block.demand, Block.laneCfg, h.store, h.session]

theorem drawsOn (l : LaneId) (t : TankId) : (b.lane l).drawsOn t = (a.lane l).drawsOn t := by
  simp only [Lane.drawsOn, h.session, h.params]

theorem tank (t : TankId) : b.tank t = a.tank t := by simp only [Block.tank, h.tanks]

theorem view (z : ZoneId) : b.view z = a.view z := by simp only [Block.view, h.spill]

theorem gauges (t : TankId) : b.gauges t = a.gauges t := by
  simp only [Block.gauges, Block.running, Block.gaugeTank, h.store] <;> rfl

theorem commitmentPL (t : TankId) : b.commitmentPL t = a.commitmentPL t := by
  have hl : ∀ l, (b.lane l).commitmentPL t = (a.lane l).commitmentPL t := fun l => by
    simp only [Lane.commitmentPL, Lane.holdsDrawOn, Lane.sessionNet, h.session, h.params, h.net] <;> rfl
  exact Block.commitmentPL_congr t hl h.peers

theorem nextTankState (t : TankId) : b.nextTankState t = a.nextTankState t := by
  simp only [Block.nextTankState, Block.available, Block.commitmentSum, Block.highLevel, Block.tankCfg, h.store, h.tank,
    h.gauges, h.commitmentPL]

theorem demandSum (t : TankId) : b.demandSum t = a.demandSum t := by
  simp only [Block.demandSum, Block.demandInView, Block.isolated, Block.tankCfg, h.store, h.isolated, h.peers, h.demand,
    h.drawsOn] <;> rfl

theorem capFor (l : LaneId) : b.capFor l = a.capFor l := by
  simp only [Block.capFor, Block.tankCfg, h.store, h.session, h.params, h.demand, h.demandSum]

theorem capDutyFor (l : LaneId) : b.capDutyFor l = a.capDutyFor l := by
  simp only [Block.capDutyFor, Block.laneCfg, Lane.direction, h.store, h.session, h.params, h.capFor] <;> rfl

theorem driveLane (l : LaneId) (x : Lane) : b.driveLane l x = a.driveLane l x := by
  simp only [Block.driveLane, Block.dutyFor, Block.laneCfg, h.store, h.session, h.capFor, h.capDutyFor]

theorem driveTank (t : TankId) (v : TankView) : b.driveTank t v = a.driveTank t v := by
  have hd : b.anyDrawing t = a.anyDrawing t := by simp only [Block.anyDrawing, h.drawsOn, h.peers]
  simp only [Block.driveTank, Block.pumpOn, Block.inletOpen, Block.tankCfg, Block.isolated, h.store, h.isolated, h.view,
    h.tank, h.gauges, hd]

theorem lineDriven : b.lineDriven = a.lineDriven := by
  simp only [Block.lineDriven, Block.ownView, h.store, funext h.view]

/-- The part stands settled after the event's own work. -/
theorem settled (ha : Settled a) : Settled b where
  stock t := by rw [h.nextTankState, h.tank, ha.stock]
  lanes l := by rw [h.driveLane, h.outputs]
  tanks t := by rw [h.driveTank, h.tank, ha.tanks]
  line := by rw [h.lineDriven, h.spill, ha.line]
  raised := h.raised.trans ha.raised
  attention := by rw [h.attention, h.anyPending, ha.attention]

/-- R147: the STATUS builder sees no change. -/
theorem noChange : changedForStatus a b = false := by
  have hp : ∀ l, pictureChanged (a.picture l) (b.picture l) = false := fun l => by
    simp [pictureChanged, Block.picture, Lane.band, Lane.direction, Lane.sessionTank, h.session, h.params, h.demand]
  simp [changedForStatus, hp, viewChanged, h.view]

end SameAtEnd

theorem Alike.refl (a : Block) : Alike a a :=
  ⟨rfl, rfl, rfl, fun _ => ⟨rfl, rfl⟩, fun _ => rfl, fun _ => rfl, fun _ => rfl⟩

/-- The end of an event has nothing to do on a settled part. -/
theorem Settled.finish_self {b : Block} (hb : Settled b) : Block.finish b b = later b := by
  have hp : b.panel.settle = b.panel := Panel.settle_still hb.raised hb.attention rfl
  calc Block.finish b b = { b with panel := b.panel.settle, openDraws := b.openDraws + 1 } :=
        Block.finish_panel hb b.panel
    _ = later b := by rw [hp]; rfl

/-- An event whose own work the end of an event does not see leaves that work, and is counted. -/
theorem SameAtEnd.finish {a b : Block} (h : SameAtEnd a b) (ha : Settled a) : Block.finish a b = later b := by
  have hb := h.settled ha
  have e : Block.noteChange a b = Block.noteChange b b := by
    rw [Block.noteChange, h.noChange, Block.noteChange_still (.refl b)]
    rfl
  rw [← hb.finish_self, Block.finish, Block.finish, b.evalTanks_none hb.stock, e]

theorem SameAtEnd.refl {a : Block} (ha : Settled a) : SameAtEnd a a :=
  ⟨rfl, rfl, rfl, rfl, rfl, fun _ => rfl, fun _ => rfl, fun _ => rfl, ha.lanes, rfl, rfl, rfl⟩

/-! ## One lane -/

/-- The lane `y` has all of `x` that the end of an event reads, its outputs among them. -/
structure Lane.SameAtEnd (x y : Lane) : Prop where
  session : y.session = x.session
  params : y.params = x.params
  net : y.data.net = x.data.net
  outputs : (y.mainOpen, y.slowOpen, y.cap, y.capDuty, y.duty) = (x.mainOpen, x.slowOpen, x.cap, x.capDuty, x.duty)

/-- What is read of a lane stands on every lane, where it stands on the one written. -/
theorem Block.read_setLane {β : Type} {a : Block} {l : LaneId} {y : Lane} (f : Lane → β) (h : f y = f (a.lane l))
    (k : LaneId) : f ((a.setLane l y).lane k) = f (a.lane k) := by
  by_cases hk : k = l
  · subst hk; rw [Block.lane_setLane, h]
  · rw [Block.lane_setLane_of_ne _ hk]

/-- Such a lane's outputs follow the state, as those of the lane did. -/
theorem Lane.SameAtEnd.driven {a : Block} (ha : Settled a) {l : LaneId} {y : Lane} (h : (a.lane l).SameAtEnd y) :
    a.driveLane l y = y := by
  obtain ⟨hmain, hslow, hcap, hcapDuty, hduty⟩ := Block.driveLane_still (ha.lanes l)
  obtain ⟨omain, oslow, ocap, ocapDuty, oduty⟩ : _ ∧ _ ∧ _ ∧ _ ∧ _ := by simpa only [Prod.mk.injEq] using h.outputs
  have emain : y.session.mainValve = y.mainOpen := by rw [h.session, omain, hmain]
  have eslow : y.session.active = y.slowOpen := by rw [h.session, oslow, hslow]
  rw [Block.driveLane, emain, eslow, ← hcap, ← hcapDuty, ← hduty, ← ocap, ← ocapDuty, ← oduty]

theorem Block.setLane_sameAtEnd {a : Block} (ha : Settled a) {l : LaneId} {y : Lane} (h : (a.lane l).SameAtEnd y) :
    SameAtEnd a (a.setLane l y) := by
  refine ⟨rfl, rfl, rfl, rfl, rfl, Block.read_setLane _ h.session, Block.read_setLane _ h.params,
    Block.read_setLane (·.data.net) h.net, fun k => ?_, rfl, rfl, rfl⟩
  by_cases hk : k = l
  · subst hk; rw [Block.lane_setLane, h.driven ha]
  · rw [Block.lane_setLane_of_ne _ hk, ha.lanes]

/-- An event that does work on one lane's metering alone. -/
theorem Block.finish_setLane {a : Block} (ha : Settled a) {l : LaneId} {y : Lane} (h : (a.lane l).SameAtEnd y) :
    Block.finish a (a.setLane l y) = later (a.setLane l y) :=
  (Block.setLane_sameAtEnd ha h).finish ha

/-! ## The bay link and the roster -/

/-- Of the link, the end of an event reads whether the station is isolated. -/
theorem Block.setLink_sameAtEnd {a : Block} (ha : Settled a) {k : Link} (h : k.isolated = a.link.isolated) :
    SameAtEnd a (a.setLink k) :=
  ⟨rfl, rfl, rfl, h, rfl, fun _ => rfl, fun _ => rfl, fun _ => rfl, ha.lanes, rfl, rfl, rfl⟩

/-- Of the roster, it reads the lanes in view. -/
theorem Block.setRoster_sameAtEnd {a : Block} (ha : Settled a) {r : Roster}
    (h : (a.setRoster r).peerLanes = a.peerLanes) : SameAtEnd a (a.setRoster r) :=
  ⟨rfl, rfl, rfl, rfl, h, fun _ => rfl, fun _ => rfl, fun _ => rfl, ha.lanes, rfl, rfl, rfl⟩

/-- The lanes in view are those of the entries' states and last STATUS contents (R135, R136). -/
theorem Block.setRoster_peerLanes {a : Block} {r : Roster} {f : StationId → RosterEntry}
    (hr : r.entries = Vector.ofFn f) (hs : ∀ n, (f n).state = (a.entry n).state)
    (hl : ∀ n, (f n).last = (a.entry n).last) : (a.setRoster r).peerLanes = a.peerLanes := by
  have he : ∀ n, (a.setRoster r).entry n = f n := fun n => by simp [Block.entry, Block.setRoster, hr]
  simp only [Block.peerLanes, Block.number, Block.setRoster_store, he, RosterEntry.pictures, RosterEntry.inView, hs,
    hl] <;> rfl

/-! ## Requests -/

/-- The presence timer and the response are read by nothing at the end of an event. -/
theorem SameAtEnd.answer {a b : Block} (h : SameAtEnd a b) (r : Response) :
    SameAtEnd a (Block.answer (b.touchPanel, r)) :=
  ⟨h.store, h.tanks, h.spill, h.isolated, h.peers, h.session, h.params, h.net, h.outputs, h.raised, h.attention,
    h.anyPending⟩

/-- A request whose owner makes `b` of the part, where the end of the event does not see it, and answers `r`. -/
theorem request_answered {s : State} {work : Block → Block × Response} {b : Block} {r : Response}
    (hs : Settled s.block) (hw : work s.block.touchPanel = (b.touchPanel, r)) (hb : SameAtEnd s.block b) :
    event s (fun x => x.request work) = becomes s (answered b r) := by
  rw [event, Block.request, hw, (hb.answer r).finish hs]
  rfl

end Sys2Proof.Machine
end

