-- ==== Sys2Proof/Proofs/PulseCheck.lean ====
section
/-! The pulse check of a meter (R32, R34 to R36): what it makes of an A pulse and of a B pulse, in NOSYNC and in sync,
of a pulse that alternates and of a repeat of its line. -/

namespace Sys2Proof.Machine

namespace PulseCheck

variable {k : PulseCheck} {bHigh : Bool}

/-! ## In NOSYNC (R35) -/

theorem takeA_nosync_sound (hs : k.state = .nosync) (hm : k.memory ≠ .a) :
    k.takeA bHigh = ⟨{ k with memory := .a }.extendRun bHigh, true, true, false⟩ := by
  simp [takeA, hs, hm]

theorem takeA_nosync_repeat (hs : k.state = .nosync) (hm : k.memory = .a) :
    k.takeA bHigh = ⟨{ k with run := 0 }, true, true, false⟩ := by
  simp [takeA, hs, hm]

theorem takeB_nosync_sound (hs : k.state = .nosync) (hm : k.memory ≠ .b) :
    k.takeB = ⟨{ k with memory := .b }, true, false, false⟩ := by
  simp [takeB, hs, hm]

theorem takeB_nosync_repeat (hs : k.state = .nosync) (hm : k.memory = .b) :
    k.takeB = ⟨{ k with run := 0 }, true, false, false⟩ := by
  simp [takeB, hs, hm]

/-- The eighth sound pulse of a direction gives sync in it. -/
theorem extendRun_eighth (hr : k.run = 7) (hd : k.runReverse = bHigh) :
    k.extendRun bHigh = ⟨if bHigh then .reverse else .forward, 0, bHigh, 0, k.memory⟩ := by
  simp [extendRun, hr, hd]

theorem extendRun_below (hr : k.run < 7) :
    k.extendRun bHigh =
      { k with run := if 1 ≤ k.run ∧ k.runReverse = bHigh then k.run + 1 else 1, runReverse := bHigh } := by
  have hn : ¬ 8 ≤ if 1 ≤ k.run ∧ k.runReverse = bHigh then k.run + 1 else 1 := by split <;> omega
  simp only [extendRun, hn, if_false]

/-- A pulse of the other direction starts the run again. -/
theorem extendRun_turned (hd : k.runReverse ≠ bHigh) :
    k.extendRun bHigh = { k with run := 1, runReverse := bHigh } := by
  simp [extendRun, hd]

/-! ## In sync (R36) -/

theorem takeA_sync_sound (hs : k.state ≠ .nosync) (hm : k.memory ≠ .a) :
    k.takeA bHigh =
      ⟨{ k with state := if bHigh then .reverse else .forward, faults := 0, memory := .a }, !bHigh, false, false⟩ := by
  cases h : k.state
  case nosync => exact absurd h hs
  all_goals simp [takeA, h, hm]

theorem takeA_sync_repeat (hs : k.state ≠ .nosync) (hm : k.memory = .a) :
    k.takeA bHigh =
      ⟨{ k with state := if bHigh then .reverse else .forward }.fault, !bHigh, false, true⟩ := by
  cases h : k.state
  case nosync => exact absurd h hs
  all_goals simp [takeA, h, hm]

theorem takeB_sync_sound (hs : k.state ≠ .nosync) (hm : k.memory ≠ .b) :
    k.takeB = ⟨{ k with memory := .b }, true, false, false⟩ := by
  cases h : k.state
  case nosync => exact absurd h hs
  all_goals simp [takeB, h, hm]

theorem takeB_sync_repeat (hs : k.state ≠ .nosync) (hm : k.memory = .b) :
    k.takeB = ⟨k.fault, true, false, true⟩ := by
  obtain ⟨state, run, runReverse, faults, memory⟩ := k
  cases (hm : memory = .b)
  cases state
  case nosync => exact absurd rfl hs
  all_goals rfl

theorem fault_below (hf : k.faults < 3) : k.fault = { k with faults := k.faults + 1 } := by
  have hn : ¬ 4 ≤ k.faults + 1 := by omega
  simp only [fault, hn, if_false]

/-- The fourth error in a row gives NOSYNC. -/
theorem fault_fourth (hf : k.faults = 3) : k.fault = { k with state := .nosync, run := 0, faults := 0 } := by
  simp [fault, hf]

/-! ## The line remembered (R32) -/

@[simp] theorem fault_memory : k.fault.memory = k.memory := by
  unfold fault; split <;> rfl

@[simp] theorem extendRun_memory : (k.extendRun bHigh).memory = k.memory := by
  unfold extendRun; dsimp only; split_ifs <;> rfl

theorem takeA_memory : (k.takeA bHigh).check.memory = .a := by
  by_cases hs : k.state = .nosync <;> by_cases hm : k.memory = .a
  · rw [takeA_nosync_repeat hs hm, hm]
  · rw [takeA_nosync_sound hs hm, extendRun_memory]
  · rw [takeA_sync_repeat hs hm, fault_memory, hm]
  · rw [takeA_sync_sound hs hm]

theorem takeB_memory : k.takeB.check.memory = .b := by
  by_cases hs : k.state = .nosync <;> by_cases hm : k.memory = .b
  · rw [takeB_nosync_repeat hs hm, hm]
  · rw [takeB_nosync_sound hs hm]
  · rw [takeB_sync_repeat hs hm, fault_memory, hm]
  · rw [takeB_sync_sound hs hm]

/-! ## How a pulse is read -/

theorem takeA_nosync_read (hs : k.state = .nosync) :
    (k.takeA bHigh).forward = true ∧ (k.takeA bHigh).unchecked = true ∧ (k.takeA bHigh).error = false := by
  by_cases hm : k.memory = .a
  · rw [takeA_nosync_repeat hs hm]; exact ⟨rfl, rfl, rfl⟩
  · rw [takeA_nosync_sound hs hm]; exact ⟨rfl, rfl, rfl⟩

theorem takeA_sync_read (hs : k.state ≠ .nosync) :
    (k.takeA bHigh).forward = !bHigh ∧ (k.takeA bHigh).unchecked = false ∧
      ((k.takeA bHigh).error = true ↔ k.memory = .a) := by
  by_cases hm : k.memory = .a
  · simp [takeA_sync_repeat hs hm, hm]
  · simp [takeA_sync_sound hs hm, hm]

theorem takeB_nosync_error (hs : k.state = .nosync) : k.takeB.error = false := by
  by_cases hm : k.memory = .b
  · rw [takeB_nosync_repeat hs hm]
  · rw [takeB_nosync_sound hs hm]

theorem takeB_sync_error (hs : k.state ≠ .nosync) : k.takeB.error = true ↔ k.memory = .b := by
  by_cases hm : k.memory = .b
  · simp [takeB_sync_repeat hs hm, hm]
  · simp [takeB_sync_sound hs hm, hm]

end PulseCheck

/-- Settles O41, by the pulse, the state of the check and whether the pulse repeats its line. -/
theorem pulseCheckFollowsAlternation : Obligations.PulseCheckFollowsAlternation := by
  intro k bHigh
  refine ⟨k.takeA_memory, k.takeB_memory, fun hs => ?_, fun hs hm hr hd => ?_, fun hs hm hr => ?_, fun hs hm _ hd => ?_,
    fun hs hm => ?_, fun hs hm => ?_, fun hs hm => ?_, ⟨rfl, rfl, rfl, rfl⟩, fun hs => ?_, fun hs hm => ?_,
    fun hs hm hf => ?_, fun hs hm hf => ?_, fun hs hm => ?_, fun hs hm hf => ?_, fun hs hm hf => ?_⟩
  · obtain ⟨hf, hu, he⟩ := k.takeA_nosync_read (bHigh := bHigh) hs
    exact ⟨hf, hu, he, k.takeB_nosync_error hs⟩
  · rw [k.takeA_nosync_sound hs hm, PulseCheck.extendRun_eighth (k := { k with memory := .a }) hr hd]
  · rw [k.takeA_nosync_sound hs hm, PulseCheck.extendRun_below (k := { k with memory := .a }) hr]
  · rw [k.takeA_nosync_sound hs hm, PulseCheck.extendRun_turned (k := { k with memory := .a }) hd]
  · rw [k.takeA_nosync_repeat hs hm]
  · rw [k.takeB_nosync_sound hs hm]
  · rw [k.takeB_nosync_repeat hs hm]
  · obtain ⟨hf, hu, he⟩ := k.takeA_sync_read (bHigh := bHigh) hs
    exact ⟨hf, hu, he, k.takeB_sync_error hs⟩
  · rw [k.takeA_sync_sound hs hm]
  · rw [k.takeA_sync_repeat hs hm,
      PulseCheck.fault_below (k := { k with state := if bHigh then .reverse else .forward }) hf]
  · rw [k.takeA_sync_repeat hs hm,
      PulseCheck.fault_fourth (k := { k with state := if bHigh then .reverse else .forward }) hf]
  · rw [k.takeB_sync_sound hs hm]
  · rw [k.takeB_sync_repeat hs hm, PulseCheck.fault_below hf]
  · rw [k.takeB_sync_repeat hs hm, PulseCheck.fault_fourth hf]

end Sys2Proof.Machine
end

