-- ==== Sys2Proof/Proofs/Temperature.lean ====
section
/-! Temperature samples, the sample watch and the correction factor (R39 to R42). -/

namespace Sys2Proof.Machine

/-! ## The rounding of the correction factor (R42) -/

/-- The nearest whole number lies within a half of the quotient. -/
theorem roundHalfUp_near (n : Int) {d : Nat} (hd : 0 < d) :
    2 * (d * roundHalfUp n d - n) ≤ d ∧ -d < 2 * (d * roundHalfUp n d - n) := by
  have hpos : (0 : Int) < (2 * d : Nat) := by omega
  have hle : ((2 * d : Nat) : Int) * roundHalfUp n d ≤ 2 * n + d := Int.mul_ediv_self_le hpos.ne'
  have hlt : 2 * n + d < ((2 * d : Nat) : Int) * roundHalfUp n d + (2 * d : Nat) := Int.lt_mul_ediv_self_add hpos
  push_cast at hle hlt
  constructor <;> linarith

theorem roundHalfAway_near (n : Int) {d : Nat} (hd : 0 < d) :
    2 * (d * roundHalfAway n d - n) ≤ d ∧ -d ≤ 2 * (d * roundHalfAway n d - n) := by
  unfold roundHalfAway
  split
  · have h := roundHalfUp_near n hd
    exact ⟨h.1, h.2.le⟩
  · have h := roundHalfUp_near (-n) hd
    constructor <;> linarith [h.1, h.2]

/-- Alike on both sides of 0. -/
theorem roundHalfAway_neg (n : Int) {d : Nat} (hd : 0 < d) : roundHalfAway (-n) d = -roundHalfAway n d := by
  have h0 : roundHalfUp 0 d = 0 := by
    unfold roundHalfUp
    exact Int.ediv_eq_zero_of_lt (by omega) (by push_cast; omega)
  rcases lt_trichotomy n 0 with hn | rfl | hn
  · simp [roundHalfAway, hn.le, hn.not_ge]
  · simp [roundHalfAway, h0]
  · simp [roundHalfAway, hn.le, hn.not_ge]

/-- Over the effective temperatures and the coefficients that can be loaded, the factor's distance from 1,000,000 is
below the clamps. -/
theorem correctionFactor_eq {alpha : Nat} {t : Int} (ha : alpha ≤ 1500) (hlo : -400 ≤ t) (hhi : t ≤ 700) :
    (correctionFactor alpha t : Int) = 1000000 - roundHalfAway (alpha * (t - 150)) 10 ∧
      900000 ≤ correctionFactor alpha t ∧ correctionFactor alpha t ≤ 1100000 := by
  have hn : |(alpha : Int) * (t - 150)| ≤ 1500 * 550 := by
    rw [abs_mul]
    exact mul_le_mul (by rw [Nat.abs_cast]; omega) (by rw [abs_le]; omega) (abs_nonneg _) (by norm_num)
  obtain ⟨hn1, hn2⟩ := abs_le.mp hn
  obtain ⟨hr1, hr2⟩ := roundHalfAway_near (alpha * (t - 150)) (d := 10) (by norm_num)
  unfold correctionFactor
  generalize (alpha : Int) * (t - 150) = n at *
  omega

/-- The distance is α × (t − 150) / 10 to the nearest whole number. -/
theorem correctionFactor_near {alpha : Nat} {t : Int} (ha : alpha ≤ 1500) (hlo : -400 ≤ t) (hhi : t ≤ 700) :
    2 * (10 * (1000000 - (correctionFactor alpha t : Int)) - alpha * (t - 150)) ≤ 10 ∧
      -10 ≤ 2 * (10 * (1000000 - (correctionFactor alpha t : Int)) - alpha * (t - 150)) := by
  obtain ⟨hcf, -, -⟩ := correctionFactor_eq ha hlo hhi
  rw [hcf, sub_sub_cancel]
  exact roundHalfAway_near (alpha * (t - 150)) (d := 10) (by norm_num)

/-- It is alike on both sides of 15 °C. -/
theorem correctionFactor_mirror {alpha : Nat} {t : Int} (ha : alpha ≤ 1500) (hlo : -400 ≤ t) (hhi : t ≤ 700) :
    (correctionFactor alpha t : Int) - 1000000 = 1000000 - (correctionFactor alpha (300 - t) : Int) := by
  obtain ⟨hcf, -, -⟩ := correctionFactor_eq ha hlo hhi
  obtain ⟨hmirror, -, -⟩ := correctionFactor_eq (t := 300 - t) ha (by omega) (by omega)
  have hneg : (alpha : Int) * (300 - t - 150) = -(alpha * (t - 150)) := by ring
  rw [hcf, hmirror, hneg, roundHalfAway_neg _ (by norm_num)]
  ring

theorem correctionFactor_base (alpha : Nat) : correctionFactor alpha 150 = 1000000 := by
  simp [correctionFactor, roundHalfAway, roundHalfUp]

/-! ## A temperature comes into force (R41, R42) -/

/-- The lane with the effective temperature of its last sample in force under the coefficient `alpha`. -/
def Lane.tempered (alpha : Nat) (x : Lane) : Lane :=
  { x with
    cf := some (correctionFactor alpha (effectiveTemp x.sample))
    data := { x.data with
      minTemp := min x.data.minTemp (effectiveTemp x.sample), maxTemp := max x.data.maxTemp (effectiveTemp x.sample) } }

@[simp] theorem Block.setLane_setLane (s : Block) (l : LaneId) (x y : Lane) :
    (s.setLane l x).setLane l y = s.setLane l y := by
  simp [Block.setLane]

theorem Block.takeTemperature_setLane_metered (s : Block) {l : LaneId} {x : Lane} {p : SessionParams}
    (hm : x.session.metered = true) (hp : x.params = some p) :
    (s.setLane l x).takeTemperature l = s.setLane l (x.tempered (s.alpha p.product)) := by
  simp [Block.takeTemperature, Block.sessionFactor, Block.alpha, Block.productCfg, Lane.tempered, hm, hp]

theorem Block.takeTemperature_setLane_idle (s : Block) {l : LaneId} {x : Lane} (hm : x.session.metered = false) :
    (s.setLane l x).takeTemperature l = s.setLane l x := by
  simp [Block.takeTemperature, hm]

/-! ## A sample and the watch (R39) -/

/-- The lane with a last sample and its watch. -/
def Lane.sampled (v : Sample) (w : Watch) (x : Lane) : Lane := { x with sample := some v, watch := w }

theorem Block.takeSample_of_off {s : Block} {l : LaneId} (v : Sample) (h : (s.lane l).session = .off) :
    s.takeSample l v = s := by
  simp [Block.takeSample, h]

theorem Block.takeSample_of_on {s : Block} {l : LaneId} (v : Sample) (h : (s.lane l).session ≠ .off) :
    s.takeSample l v = (s.setLane l ((s.lane l).sampled v (.run 3000))).takeTemperature l := by
  simp only [Block.takeSample, h, if_false]; rfl

theorem Block.missSample_of_run {s : Block} {l : LaneId} {left : Nat} (h : (s.lane l).watch = .run left) :
    s.missSample l = (s.setLane l ((s.lane l).sampled .probeFault .expired)).takeTemperature l := by
  simp only [Block.missSample, h]; rfl

/-- The end of an event reads neither a sample nor, of a lane that is not metered, its temperature. -/
theorem Block.finish_sampled_idle {a : Block} (ha : Settled a) {l : LaneId} (v : Sample) (w : Watch)
    (hm : (a.lane l).session.metered = false) :
    Block.finish a ((a.setLane l ((a.lane l).sampled v w)).takeTemperature l) =
      later (a.setLane l ((a.lane l).sampled v w)) := by
  rw [Block.takeTemperature_setLane_idle a (x := (a.lane l).sampled v w) hm]
  exact Block.finish_setLane ha ⟨rfl, rfl, rfl, rfl⟩

/-- Nor what a temperature changes in a session: the factor, the minimum and the maximum. -/
theorem Block.finish_sampled_metered {a : Block} (ha : Settled a) {l : LaneId} {p : SessionParams} (v : Sample)
    (w : Watch) (hm : (a.lane l).session.metered = true) (hp : (a.lane l).params = some p) :
    Block.finish a ((a.setLane l ((a.lane l).sampled v w)).takeTemperature l) =
      later (a.setLane l (((a.lane l).sampled v w).tempered (a.alpha p.product))) := by
  rw [Block.takeTemperature_setLane_metered a (x := (a.lane l).sampled v w) hm hp]
  exact Block.finish_setLane ha ⟨rfl, rfl, rfl, rfl⟩

theorem exec_temperatureSample (s : State) (l : LaneId) (v : Sample) :
    exec (.temperatureSample l v) s = becomes s (Block.finish s.block (s.block.takeSample l v)) := rfl

theorem exec_sampleWatchExpiry (s : State) (l : LaneId) :
    exec (.sampleWatchExpiry l) s = becomes s (Block.finish s.block (s.block.missSample l)) := rfl

/-- Settles O43: the commands by whether the lane is metered, the factor by its rounding. -/
theorem samplesSetTheTemperature : Obligations.SamplesSetTheTemperature := by
  refine ⟨?_, fun alpha t ha hlo hhi => ?_⟩
  · rintro s l x hs rfl
    refine ⟨fun v hoff => ?_, fun v hon hm => ?_, fun v p pc hm hp hc => ?_, fun left hw hm => ?_,
      fun left p hw hm hp => ?_⟩
    · rw [exec_temperatureSample, Block.takeSample_of_off v hoff, hs.finish_self]
    · rw [exec_temperatureSample, Block.takeSample_of_on v hon, Block.finish_sampled_idle hs _ _ hm]
      rfl
    · have hon : (s.block.lane l).session ≠ .off := fun e => by rw [e] at hm; cases hm
      have halpha : s.block.alpha p.product = pc.alpha := by simp only [Block.alpha, hc]
      rw [exec_temperatureSample, Block.takeSample_of_on v hon, Block.finish_sampled_metered hs _ _ hm hp, halpha]
      rfl
    · rw [exec_sampleWatchExpiry, Block.missSample_of_run hw, Block.finish_sampled_idle hs _ _ hm]
      rfl
    · rw [exec_sampleWatchExpiry, Block.missSample_of_run hw, Block.finish_sampled_metered hs _ _ hm hp,
        ← correctionFactor_base (s.block.alpha p.product)]
      rfl
  · obtain ⟨hnear, hnear'⟩ := correctionFactor_near ha hlo hhi
    exact ⟨(correctionFactor_eq ha hlo hhi).2, hnear, hnear', correctionFactor_mirror ha hlo hhi⟩

end Sys2Proof.Machine
end

