-- ==== Sys2Proof/Proofs/StationRequests.lean ====
section
/-! METER HEALTH, ROSTER READ, STATION READ and TIME SET (R51, R144, R148, R159, R169), and the length of the roster's
picture (R189). -/

namespace Sys2Proof.Machine

/-! ## Lengths of fields (R182, R184, R189) -/

@[simp] theorem be_length (n v : Nat) : (be n v).length = n := by
  induction n with
  | zero => rfl
  | succ n ih => rw [be, List.length_cons, ih]

@[simp] theorem absentBytes_length (n : Nat) : (absentBytes n).length = n := List.length_replicate

@[simp] theorem beOpt_length (n : Nat) (v : Option Nat) : (beOpt n v).length = n := by
  cases v <;> simp [beOpt]

@[simp] theorem beMark_length (b : Bool) : (beMark b).length = 1 := be_length 1 _

@[simp] theorem beTank_length (t : Option TankId) : (beTank t).length = 1 := by
  cases t <;> simp [beTank]

@[simp] theorem Block.beFit_length (s : Block) (site n v : Nat) : (s.beFit site n v).length = n := by
  unfold Block.beFit Block.openBytes; split <;> simp

@[simp] theorem ZoneReport.bytes_length (z : ZoneReport) : z.bytes.length = 3 := by simp [ZoneReport.bytes]

@[simp] theorem LanePicture.bytes_length (p : LanePicture) : p.bytes.length = 16 := by simp [LanePicture.bytes]

@[simp] theorem StatusContent.bytes_length (c : StatusContent) : c.bytes.length = 85 := by simp [StatusContent.bytes]

@[simp] theorem Block.entryBytes_length (s : Block) (n : StationId) : (s.entryBytes n).length = 196 := by
  cases h : (s.entry n).last <;> simp [Block.entryBytes, h, allTanks]

theorem Block.rosterReadout_length (s : Block) : s.rosterReadout.length = 1572 := by
  simp [Block.rosterReadout, allStations]

/-! ## The requests -/

/-- R51. -/
theorem exec_meterHealth {s : State} (hs : Settled s.block) (l : LaneId) :
    exec (.meterHealth l.val) s = becomes s (answered
      (s.block.setLane l { s.block.lane l with healthErrors := 0, healthUnchecked := 0 })
      (.health (s.block.lane l).healthErrors (s.block.lane l).healthUnchecked (s.block.lane l).check.state)) := by
  have hw : s.block.touchPanel.doMeterHealth l.val = s.block.touchPanel.meterHealth l := by
    have hb : badLane l.val = false := by simp only [badLane, decide_eq_false_iff_not]; omega
    simp only [Block.doMeterHealth, unlessBad, hb, Fin.ofNat_val_eq_self]
    rfl
  exact request_answered hs (hw.trans rfl) (Block.setLane_sameAtEnd hs ⟨rfl, rfl, rfl, rfl⟩)

/-- R148: ROSTER READ without the clear mark. -/
theorem exec_rosterRead_keep {s : State} (hs : Settled s.block) :
    exec (.rosterRead 0) s = becomes s (answered s.block (.readout 0x8C s.block.rosterReadout)) :=
  request_answered (work := fun b => b.doRosterRead 0) hs rfl (.refl hs)

/-- R148: ROSTER READ with the clear mark. -/
theorem exec_rosterRead_clear {s : State} (hs : Settled s.block) :
    exec (.rosterRead 1) s = becomes s (answered
      (s.block.setRoster { s.block.roster with entries := Vector.ofFn fun n => { s.block.entry n with missed := 0 } })
      (.readout 0x8C s.block.rosterReadout)) :=
  request_answered (work := fun b => b.doRosterRead 1) hs rfl
    (Block.setRoster_sameAtEnd hs (Block.setRoster_peerLanes rfl (fun _ => rfl) fun _ => rfl))

/-- R159, R169. -/
theorem exec_stationRead {s : State} (hs : Settled s.block) :
    exec .stationRead s = becomes s (answered (s.block.setLink { s.block.link with errors := 0 })
      (.readout 0x8D s.block.stationReadout)) :=
  request_answered (work := fun b => b.doStationRead) hs rfl (Block.setLink_sameAtEnd hs rfl)

/-- R144. -/
theorem exec_timeSet {s : State} (hs : Settled s.block) {v : Nat} (hv : v ≠ 0) :
    exec (.timeSet v) s = becomes s (answered
      (s.block.setRoster { s.block.roster with
        clock := v, clockMs := 0, entries := Vector.ofFn fun n => { s.block.entry n with disagree := false } })
      (.clock s.block.roster.clock v)) := by
  have hw : s.block.touchPanel.doTimeSet v = s.block.touchPanel.setTime v := by simp [Block.doTimeSet, unlessBad, hv]
  exact request_answered hs (hw.trans rfl)
    (Block.setRoster_sameAtEnd hs (Block.setRoster_peerLanes rfl (fun _ => rfl) fun _ => rfl))

/-- R168: 0 is no bay time. -/
theorem exec_timeSet_zero {s : State} (hs : Settled s.block) :
    exec (.timeSet 0) s = becomes s (answered s.block .badRequest) :=
  request_answered (work := fun b => b.doTimeSet 0) hs rfl (.refl hs)

/-- Settles O24, request by request. -/
theorem stationRequestsDoWhatTheyReport : Obligations.StationRequestsDoWhatTheyReport := fun s hs =>
  ⟨exec_meterHealth hs, exec_rosterRead_keep hs, exec_rosterRead_clear hs, s.block.rosterReadout_length,
    exec_stationRead hs, fun _ hv => exec_timeSet hs hv, exec_timeSet_zero hs⟩

end Sys2Proof.Machine
end

