-- ==== Sys2Proof/Proofs/Posting.lean ====
section
/-! A posting on a machine record (R92 to R103): what each of its steps makes of the record, and then all eight. -/

namespace Sys2Proof.Machine

variable {q : Posting} {r : MachineRecord} {w : Work}

/-! ## Flags and hours to service (R96, R104, R182) -/

theorem flagMask_getLsbD (f : MachineFlag) {k : Nat} (hk : k < 8) : (flagMask f).getLsbD k = decide (k = f.bit) := by
  revert k; cases f <;> decide

theorem MachineRecord.set_flag (r : MachineRecord) (f : MachineFlag) {k : Nat} (hk : k < 8) :
    (r.set f).flags.getLsbD k = true ↔ r.flags.getLsbD k = true ∨ k = f.bit := by
  rw [MachineRecord.set, BitVec.getLsbD_or, flagMask_getLsbD f hk, Bool.or_eq_true, decide_eq_true_eq]

/-- A rise of the hours takes hours to service from above 0 to 0. -/
def runsOut (service : Option Nat) (rise : Nat) : Prop := ∃ v, service = some v ∧ 0 < v ∧ v ≤ rise

theorem runsOut_zero (service : Option Nat) : ¬ runsOut service 0 := by
  rintro ⟨v, -, hpos, hle⟩
  omega

/-- Two rises, one after the other. -/
theorem runsOut_add (service : Option Nat) (m n : Nat) :
    runsOut service m ∨ runsOut (service.map (· - m)) n ↔ runsOut service (m + n) := by
  cases service with
  | none => simp [runsOut]
  | some v =>
    simp only [runsOut, Option.map_some, Option.some.injEq, exists_eq_left']
    omega

theorem service_sub_sub (service : Option Nat) (m n : Nat) :
    (service.map (· - m)).map (· - n) = service.map (· - (m + n)) := by
  cases service <;> simp [Nat.sub_sub]

theorem MachineRecord.countDown_flag (r : MachineRecord) (n : Nat) {k : Nat} (hk : k < 8) :
    (r.countDown n).flags.getLsbD k = true ↔ r.flags.getLsbD k = true ∨ k = 3 ∧ runsOut r.service n := by
  cases h : r.service with
  | none => simp [countDown, h, runsOut]
  | some v =>
    have hrun : runsOut (some v) n ↔ 0 < v ∧ v - n = 0 := by
      simp only [runsOut, Option.some.injEq, exists_eq_left', Nat.sub_eq_zero_iff_le]
    by_cases hv : 0 < v ∧ v - n = 0
    · simp only [countDown, h, hv, and_self, if_true, set_flag _ _ hk, hrun, and_true]
      rfl
    · simp only [countDown, h, hv, if_false, hrun, and_false, or_false]

/-- What steps 2 and 3 leave alone (R93, R94): all but hours, base hours, hours at creation, hours to service, carry and
flags. -/
def SameButHours (a b : MachineRecord) : Prop :=
  b = { a with
    hours := b.hours, base := b.base, created := b.created, service := b.service, carry := b.carry, flags := b.flags }

theorem SameButHours.trans {a b c : MachineRecord} (h : SameButHours a b) (k : SameButHours b c) : SameButHours a c := by
  unfold SameButHours at *
  rw [k, h]

theorem MachineRecord.countDown_eq (r : MachineRecord) (n : Nat) :
    r.countDown n = { r with service := r.service.map (· - n), flags := (r.countDown n).flags } := by
  obtain ⟨_, _, _, _, _, _, _, _, service, _⟩ := r
  cases service with
  | none => rfl
  | some v => unfold countDown; dsimp only; split_ifs <;> rfl

@[simp] theorem MachineRecord.countDown_hours (r : MachineRecord) (n : Nat) : (r.countDown n).hours = r.hours := by
  rw [r.countDown_eq]

@[simp] theorem MachineRecord.countDown_base (r : MachineRecord) (n : Nat) : (r.countDown n).base = r.base := by
  rw [r.countDown_eq]

@[simp] theorem MachineRecord.countDown_carry (r : MachineRecord) (n : Nat) : (r.countDown n).carry = r.carry := by
  rw [r.countDown_eq]

@[simp] theorem MachineRecord.countDown_created (r : MachineRecord) (n : Nat) : (r.countDown n).created = r.created := by
  rw [r.countDown_eq]

@[simp] theorem MachineRecord.countDown_service (r : MachineRecord) (n : Nat) :
    (r.countDown n).service = r.service.map (· - n) := by
  rw [r.countDown_eq]

theorem MachineRecord.countDown_same (r : MachineRecord) (n : Nat) : SameButHours r (r.countDown n) := by
  unfold SameButHours
  rw [r.countDown_eq]

/-! ## Step 2: the resync by prior hours (R93) -/

theorem not_priorDiffers (h : ¬ priorDiffers q r) :
    hoursResynced q r = r.hours ∧ baseResynced q r = r.base ∧ carryResynced q r = r.carry := by
  cases hp : q.prior with
  | none => simp [hoursResynced, baseResynced, carryResynced, hp]
  | some p =>
    have hr : r.hours = some p := by
      by_contra hr
      exact h ⟨p, hp, hr⟩
    simp [hoursResynced, baseResynced, carryResynced, hp, hr]

theorem carryResynced_of_differs (h : priorDiffers q r) : carryResynced q r = 0 := by
  obtain ⟨p, hp, hr⟩ := h
  simp [carryResynced, hp, hr]

/-- The rise of the hours in step 2, of a record that has hours. -/
def riseResynced (q : Posting) (r : MachineRecord) : Nat :=
  (hoursResynced q r).getD 0 - (r.hours.orElse fun _ => q.prior).getD 0

/-- What step 2 makes of a record. -/
structure Resynced (q : Posting) (r : MachineRecord) (w : Work) : Prop where
  hours : w.record.hours = hoursResynced q r
  base : w.record.base = baseResynced q r
  carry : w.record.carry = carryResynced q r
  created : w.record.created = if r.hours = none then r.created.orElse fun _ => q.prior else r.created
  service : w.record.service = r.service.map (· - riseResynced q r)
  flag : ∀ k < 8, w.record.flags.getLsbD k = true ↔ r.flags.getLsbD k = true ∨
    k = 1 ∧ r.hours ≠ none ∧ priorDiffers q r ∨ k = 3 ∧ runsOut r.service (riseResynced q r)
  noSample : w.noSample = true ↔ priorDiffers q r
  settled : w.carrySettled = true ↔ priorDiffers q r
  taken : w.taken = false
  rest : SameButHours r w.record

/-- The posting has nothing to resync. -/
theorem Resynced.of_same (h : ¬ priorDiffers q r) : Resynced q r ⟨r, false, false, false⟩ := by
  obtain ⟨hh, hb, hc⟩ := not_priorDiffers h
  have hcreated : (if r.hours = none then r.created.orElse fun _ => q.prior else r.created) = r.created := by
    split_ifs with hr
    · have hp : q.prior = none := by
        by_contra hp
        obtain ⟨p, hp⟩ := Option.ne_none_iff_exists'.mp hp
        exact h ⟨p, hp, by simp [hr]⟩
      cases r.created <;> simp [hp]
    · rfl
  have hrise : riseResynced q r = 0 := by
    rw [riseResynced, hh]
    cases r.hours <;> simp
  exact ⟨hh.symm, hb.symm, hc.symm, hcreated.symm, by simp [hrise], by simp [h, hrise, runsOut_zero], by simp [h],
    by simp [h], rfl, rfl⟩

/-- R93: the record's first hours. -/
theorem stepResync_first {P : Nat} (hp : q.prior = some P) (hh : r.hours = none) :
    Resynced q r (stepResync q ⟨r, false, false, false⟩) := by
  have hd : priorDiffers q r := ⟨P, hp, by simp [hh]⟩
  simp only [stepResync, hp, hh]
  constructor
  all_goals simp [MachineRecord.setHours, SameButHours, hoursResynced, baseResynced, carryResynced, riseResynced,
    runsOut_zero, hp, hh, hd]

/-- R93: prior hours above the record's. -/
theorem stepResync_above {P h : Nat} (hp : q.prior = some P) (hh : r.hours = some h) (hlt : h < P) :
    Resynced q r (stepResync q ⟨r, false, false, false⟩) := by
  have hd : priorDiffers q r := ⟨P, hp, by simp [hh, hlt.ne]⟩
  have hrise : riseResynced q r = P - h := by simp [riseResynced, hoursResynced, hp, hh, hlt.le]
  simp only [stepResync, hp, hh, hlt.ne', hlt, if_false, if_true]
  constructor
  case flag =>
    intro k hk
    rw [MachineRecord.countDown_flag _ _ hk, hrise]
    refine (or_congr_left (r.set_flag .resynced hk)).trans ?_
    simp [hh, hd, MachineFlag.bit, or_assoc, MachineRecord.set]
  case rest =>
    refine SameButHours.trans ?_ (MachineRecord.countDown_same _ _)
    rfl
  all_goals simp [MachineRecord.set, hoursResynced, baseResynced, carryResynced, hrise, hp, hh,
    hd, hlt, hlt.le, hlt.ne]

/-- R93: prior hours below the record's. -/
theorem stepResync_below {P h : Nat} (hp : q.prior = some P) (hh : r.hours = some h) (hlt : P < h) :
    Resynced q r (stepResync q ⟨r, false, false, false⟩) := by
  have hd : priorDiffers q r := ⟨P, hp, by simp [hh, hlt.ne']⟩
  have hrise : riseResynced q r = 0 := by simp [riseResynced, hoursResynced, hp, hh, hlt.le]
  simp only [stepResync, hp, hh, hlt.ne, hlt.not_gt, if_false]
  constructor
  case flag =>
    intro k hk
    rw [hrise]
    exact (r.set_flag .resynced hk).trans (by simp [hh, hd, MachineFlag.bit, runsOut_zero])
  all_goals simp [MachineRecord.set, SameButHours, hoursResynced, baseResynced, carryResynced, hrise, hp, hh, hd, hlt.le,
    hlt.not_gt, hlt.ne']

theorem stepResync_resynced (q : Posting) (r : MachineRecord) : Resynced q r (stepResync q ⟨r, false, false, false⟩) := by
  cases hp : q.prior with
  | none =>
    simp only [stepResync, hp]
    exact .of_same (by simp [priorDiffers, hp])
  | some P =>
    cases hh : r.hours with
    | none => exact stepResync_first hp hh
    | some h =>
      rcases lt_trichotomy h P with hlt | rfl | hlt
      · exact stepResync_above hp hh hlt
      · simp only [stepResync, hp, hh, if_true]
        exact .of_same (by simp [priorDiffers, hp, hh])
      · exact stepResync_below hp hh hlt

/-! ## Step 3: the hour reading (R94, R95) -/

theorem fuelDraw_iff : q.fuelDraw = true ↔ drawsFuel q := by simp [Posting.fuelDraw, drawsFuel]

/-- R94: the reading is taken, and is no jump. -/
def readsOn (q : Posting) (r : MachineRecord) : Prop :=
  (∃ H h, q.hours = some H ∧ hoursResynced q r = some h ∧ h ≤ H) ∧ ¬ readsJump q r

theorem not_readsOn_of_unread (h : q.hours = none ∨ readsBack q r) : ¬ readsOn q r := by
  rintro ⟨⟨H, x, hq, hx, hle⟩, -⟩
  obtain hn | ⟨H', x', hq', hx', hlt⟩ := h
  · simp [hn] at hq
  · simp_all
    omega

theorem unread_of_not_on (hr : hoursResynced q r ≠ none) (hj : ¬ readsJump q r) (hon : ¬ readsOn q r) :
    q.hours = none ∨ readsBack q r := by
  obtain ⟨h, hh⟩ := Option.ne_none_iff_exists'.mp hr
  cases hq : q.hours with
  | none => exact .inl rfl
  | some H => exact .inr ⟨H, h, hq, hh, by_contra fun hle => hon ⟨⟨H, h, hq, hh, not_lt.mp hle⟩, hj⟩⟩

/-- What steps 2 and 3 make of a record. -/
structure HoursRead (q : Posting) (r : MachineRecord) (w : Work) : Prop where
  hours : w.record.hours = hoursTaken q r
  created : w.record.created =
    if r.hours = none then r.created.orElse (fun _ => q.prior.orElse fun _ => q.hours) else r.created
  service : w.record.service = r.service.map (· - hoursRise q r)
  flag : ∀ k < 8, w.record.flags.getLsbD k = true ↔ r.flags.getLsbD k = true ∨
    k = 1 ∧ r.hours ≠ none ∧ priorDiffers q r ∨ k = 3 ∧ runsOut r.service (hoursRise q r) ∨ k = 7 ∧ readsBack q r ∨
    k = 6 ∧ readsJump q r
  unread : q.hours = none ∨ readsBack q r → w.record.base = baseResynced q r ∧
    (drawsFuel q → w.record.carry = min 4294967295 (carryResynced q r + q.net)) ∧
    (¬ drawsFuel q → w.record.carry = carryResynced q r)
  first : hoursResynced q r = none → q.hours ≠ none → w.record.base = q.hours ∧ w.record.carry = 0
  jumped : readsJump q r → w.record.base = q.hours ∧ w.record.carry = 0
  on : readsOn q r → w.record.base = baseResynced q r ∧ w.record.carry = carryResynced q r
  taken : w.taken = true ↔ readsOn q r
  noSample : readsOn q r → (w.noSample = true ↔ priorDiffers q r)
  settled : w.carrySettled = true ↔ priorDiffers q r ∨ ¬ readsOn q r
  rest : SameButHours r w.record

/-- The hours after step 2 are no less than the first that the record has. -/
theorem hoursResynced_some {h : Nat} (hh : hoursResynced q r = some h) :
    (r.hours.orElse fun _ => q.prior.orElse fun _ => q.hours) = (r.hours.orElse fun _ => q.prior) ∧
      (r.hours.orElse fun _ => q.prior).getD 0 ≤ h := by
  cases hp : q.prior <;> cases hr : r.hours <;> simp_all [hoursResynced]
  omega

theorem hoursResynced_none (hh : hoursResynced q r = none) : r.hours = none ∧ q.prior = none := by
  cases hp : q.prior <;> cases hr : r.hours <;> simp_all [hoursResynced]

/-- The rise of the hours is that of step 2 and that of the reading. -/
theorem hoursRise_eq {H h : Nat} (hq : q.hours = some H) (hh : hoursResynced q r = some h) :
    hoursRise q r = riseResynced q r + (H - h) := by
  obtain ⟨hfirst, hle⟩ := hoursResynced_some hh
  have ht : hoursTaken q r = some (max h H) := by simp only [hoursTaken, hq, hh]
  rw [hoursRise, riseResynced, hfirst, ht, hh, Option.getD_some, Option.getD_some]
  omega

theorem hoursRise_unread (hq : q.hours = none) : hoursRise q r = riseResynced q r := by
  have hn : (q.prior.orElse fun _ => none) = q.prior := by cases q.prior <;> rfl
  simp only [hoursRise, riseResynced, hoursTaken, hq, hn]

theorem Resynced.created_kept (hw : Resynced q r w) {h : Nat} (hh : hoursResynced q r = some h) :
    w.record.created =
      if r.hours = none then r.created.orElse (fun _ => q.prior.orElse fun _ => q.hours) else r.created := by
  rw [hw.created]
  split_ifs with hr
  · cases hp : q.prior with
    | none => simp [hoursResynced, hp, hr] at hh
    | some p => rfl
  · rfl

theorem Resynced.service_on (hw : Resynced q r w) {H h : Nat} (hq : q.hours = some H)
    (hh : hoursResynced q r = some h) :
    w.record.service.map (· - (H - h)) = r.service.map (· - hoursRise q r) := by
  rw [hw.service, service_sub_sub, hoursRise_eq hq hh]

theorem Resynced.flag_on (hw : Resynced q r w) {H h : Nat} (hq : q.hours = some H) (hh : hoursResynced q r = some h)
    {x : MachineRecord} (hs : x.service = w.record.service) (hf : x.flags = w.record.flags) {k : Nat} (hk : k < 8) :
    (x.countDown (H - h)).flags.getLsbD k = true ↔ r.flags.getLsbD k = true ∨
      k = 1 ∧ r.hours ≠ none ∧ priorDiffers q r ∨ k = 3 ∧ runsOut r.service (hoursRise q r) := by
  rw [x.countDown_flag _ hk, hs, hf, hw.service, hoursRise_eq hq hh, ← runsOut_add, hw.flag k hk]
  tauto

theorem isJump_iff (hw : Resynced q r w) {H h : Nat} (hq : q.hours = some H)
    (hh : hoursResynced q r = some h) (hle : h ≤ H) : isJump w.record q (H - h) = true ↔ readsJump q r := by
  have hf : w.record.lastFill = r.lastFill := by rw [hw.rest]
  have hcast : (((H - h) * 360 : Nat) : Int) = ((H : Int) - h) * 360 := by push_cast [hle]; ring
  cases hl : r.lastFill with
  | none => simp [isJump, readsJump, hf, hl]
  | some f => simp [isJump, readsJump, hf, hl, hq, hh, hle, hcast, and_assoc]

/-- R97: a FUEL draw joins the carry, and any other posting leaves it. -/
theorem addCarry_if (q : Posting) (r : MachineRecord) :
    (if q.fuelDraw = true then r.addCarry q.net else r) =
      { r with carry := if q.fuelDraw = true then min 4294967295 (r.carry + q.net) else r.carry } := by
  split <;> rfl

theorem stepHours_absent (hw : Resynced q r w) (hq : q.hours = none) : HoursRead q r (stepHours q w) := by
  have hon : ¬ readsOn q r := by simp [readsOn, hq]
  have hback : ¬ readsBack q r := by simp [readsBack, hq]
  have hjump : ¬ readsJump q r := by simp [readsJump, hq]
  have hrise := hoursRise_unread (r := r) hq
  simp only [stepHours, hq, addCarry_if]
  constructor
  case flag => exact fun k hk => (hw.flag k hk).trans (by simp [hrise, hback, hjump])
  case rest => exact hw.rest.trans rfl
  all_goals simp +contextual [hw.hours, hw.base, hw.carry, hw.created, hw.service, hw.taken, hrise, hon, hback, hjump, hq,
    hoursTaken, fuelDraw_iff]

theorem stepHours_first (hw : Resynced q r w) {H : Nat} (hq : q.hours = some H) (hh : hoursResynced q r = none) :
    HoursRead q r (stepHours q w) := by
  have hon : ¬ readsOn q r := by simp [readsOn, hq, hh]
  have hback : ¬ readsBack q r := by simp [readsBack, hq, hh]
  have hjump : ¬ readsJump q r := by simp [readsJump, hq, hh]
  obtain ⟨hr, hp⟩ := hoursResynced_none hh
  have hrise : hoursRise q r = riseResynced q r := by simp [hoursRise, riseResynced, hoursTaken, hq, hh, hr, hp]
  simp only [stepHours, hq, hw.hours, hh]
  constructor
  case flag => exact fun k hk => (hw.flag k hk).trans (by simp [hrise, hback, hjump])
  case rest => exact hw.rest.trans rfl
  all_goals simp [hw.created, hw.service, hw.taken, hrise, hon, hback, hjump, hq, hh, hr, hp, hoursTaken,
    MachineRecord.setHours]

theorem stepHours_back (hw : Resynced q r w) {H h : Nat} (hq : q.hours = some H) (hh : hoursResynced q r = some h)
    (hlt : H < h) : HoursRead q r (stepHours q w) := by
  have hon : ¬ readsOn q r := by simp [readsOn, hq, hh, hlt]
  have hback : readsBack q r := ⟨H, h, hq, hh, hlt⟩
  have hjump : ¬ readsJump q r := by simp [readsJump, hq, hh, hlt.not_ge]
  have hrise : hoursRise q r = riseResynced q r := by rw [hoursRise_eq hq hh]; omega
  simp only [stepHours, hq, hw.hours, hh, hlt, if_true, addCarry_if]
  constructor
  case created => exact (hw.created_kept hh).trans (by rw [hq])
  case flag =>
    intro k hk
    refine ((MachineRecord.set_flag _ _ hk).trans (or_congr_left (hw.flag k hk))).trans ?_
    simp [hrise, hback, hjump, MachineFlag.bit, or_assoc]
  case rest => exact hw.rest.trans rfl
  all_goals simp +contextual [hw.base, hw.carry, hw.service, hw.taken, hrise, hon, hback, hjump, hq, hh, hoursTaken,
    fuelDraw_iff, MachineRecord.set, hlt.le]

theorem stepHours_jump (hw : Resynced q r w) {H h : Nat} (hq : q.hours = some H) (hh : hoursResynced q r = some h)
    (hle : h ≤ H) (hjump : readsJump q r) : HoursRead q r (stepHours q w) := by
  have hon : ¬ readsOn q r := fun e => e.2 hjump
  have hback : ¬ readsBack q r := by simp [readsBack, hq, hh, hle]
  have hj := (isJump_iff hw hq hh hle).mpr hjump
  simp only [stepHours, hq, hw.hours, hh, hle.not_gt, if_false, hj, if_true]
  constructor
  case created => exact (MachineRecord.countDown_created _ _).trans ((hw.created_kept hh).trans (by rw [hq]))
  case service => exact (MachineRecord.countDown_service _ _).trans (hw.service_on hq hh)
  case flag =>
    intro k hk
    have hx := hw.flag_on (x := { w.record with hours := some H, base := some H, carry := 0 }) hq hh rfl rfl hk
    refine ((MachineRecord.set_flag _ _ hk).trans (or_congr_left hx)).trans ?_
    simp [hback, hjump, MachineFlag.bit, or_assoc]
  case rest =>
    refine hw.rest.trans (SameButHours.trans ?_ (SameButHours.trans (MachineRecord.countDown_same _ _) rfl))
    rfl
  all_goals simp [hw.taken, hon, hback, hjump, hq, hh, hoursTaken, MachineRecord.set, hle]

theorem stepHours_on (hw : Resynced q r w) {H h : Nat} (hq : q.hours = some H) (hh : hoursResynced q r = some h)
    (hle : h ≤ H) (hjump : ¬ readsJump q r) : HoursRead q r (stepHours q w) := by
  have hon : readsOn q r := ⟨⟨H, h, hq, hh, hle⟩, hjump⟩
  have hback : ¬ readsBack q r := by simp [readsBack, hq, hh, hle]
  have hj : isJump w.record q (H - h) = false := Bool.eq_false_iff.mpr ((isJump_iff hw hq hh hle).not.mpr hjump)
  have hstep : stepHours q w = { w with
      record := ({ w.record with hours := some H } : MachineRecord).countDown (H - h), taken := true } := by
    simp [stepHours, hq, hw.hours, hh, hle.not_gt, hj]
  rw [hstep]
  constructor
  case created => exact (MachineRecord.countDown_created _ _).trans (hw.created_kept hh)
  case service => exact (MachineRecord.countDown_service _ _).trans (hw.service_on hq hh)
  case flag =>
    intro k hk
    refine (hw.flag_on (x := { w.record with hours := some H }) hq hh rfl rfl hk).trans ?_
    simp [hback, hjump]
  case rest =>
    refine hw.rest.trans (SameButHours.trans ?_ (MachineRecord.countDown_same _ _))
    rfl
  all_goals simp [hw.base, hw.carry, hw.noSample, hw.settled, hon, hback, hjump, hq, hh, hoursTaken, hle]

/-- Steps 2 and 3. -/
theorem stepHours_read (hw : Resynced q r w) : HoursRead q r (stepHours q w) := by
  cases hq : q.hours with
  | none => exact stepHours_absent hw hq
  | some H =>
    cases hh : hoursResynced q r with
    | none => exact stepHours_first hw hq hh
    | some h =>
      rcases Nat.lt_or_ge H h with hlt | hle
      · exact stepHours_back hw hq hh hlt
      · by_cases hj : readsJump q r
        · exact stepHours_jump hw hq hh hle hj
        · exact stepHours_on hw hq hh hle hj

/-! ## Steps 4 and 5: the sample and the estimate (R97 to R99) -/

theorem yields.readsOn {b H : Nat} (hy : yields q r b H) : readsOn q r ∧ hoursTaken q r = some H := by
  obtain ⟨-, -, hsame, hq, ⟨h, hr, hle⟩, -, -, hjump⟩ := hy
  have hh : hoursResynced q r = some h := (not_priorDiffers hsame).1.trans hr
  exact ⟨⟨⟨H, h, hq, hh, hle⟩, hjump⟩, by simp [hoursTaken, hq, hh, hle]⟩

theorem HoursRead.sampleOf_of_yields (hw : HoursRead q r w) {b H : Nat} (hy : yields q r b H) :
    sampleOf q w = some (sampleValue q r b H) ∧ w.record.hours = some H := by
  obtain ⟨hon, hH⟩ := hy.readsOn
  obtain ⟨hfuel, hfull, hsame, -, -, hb, hten, -⟩ := hy
  obtain ⟨-, hbase, hcarry⟩ := not_priorDiffers hsame
  have hn : w.noSample = false := Bool.eq_false_iff.mpr ((hw.noSample hon).not.mpr hsame)
  have hwH := hw.hours.trans hH
  have hwb : w.record.base = some b := by rw [(hw.on hon).1, hbase, hb]
  have hwc : w.record.carry = r.carry := by rw [(hw.on hon).2, hcarry]
  simp [sampleOf, hwH, hwb, hwc, fuelDraw_iff.mpr hfuel, hfull, hw.taken.mpr hon, hn, hten, sampleValue, roundHalfUpNat]

theorem HoursRead.yields_of_sampleOf (hw : HoursRead q r w) {v : Nat} (hv : sampleOf q w = some v) :
    ∃ b H, yields q r b H := by
  unfold sampleOf at hv
  split at hv
  case h_2 => cases hv
  case h_1 H b hH hb =>
    split_ifs at hv with hc
    obtain ⟨hfuel, hfull, htaken, hn, hten⟩ := hc
    have hon := hw.taken.mp htaken
    have hsame : ¬ priorDiffers q r := (hw.noSample hon).not.mp hn
    obtain ⟨hhours, hbase, -⟩ := not_priorDiffers hsame
    obtain ⟨⟨H', h, hq, hh, hle⟩, hjump⟩ := hon
    have hHH : H' = H := by
      have ht : hoursTaken q r = some H' := by simp [hoursTaken, hq, hh, hle]
      exact Option.some.inj (ht.symm.trans (hw.hours.symm.trans hH))
    subst hHH
    exact ⟨b, H', fuelDraw_iff.mp hfuel, hfull, hsame, hq, ⟨h, hhours.symm.trans hh, hle⟩,
      by rw [← hbase, ← (hw.on ⟨⟨H', h, hq, hh, hle⟩, hjump⟩).1, hb], hten, hjump⟩

theorem HoursRead.sampleOf_eq_none (hw : HoursRead q r w) (hn : ∀ b H, ¬ yields q r b H) : sampleOf q w = none := by
  cases h : sampleOf q w with
  | none => rfl
  | some v =>
    obtain ⟨b, H, hy⟩ := hw.yields_of_sampleOf h
    exact absurd hy (hn b H)

theorem stepSample_of_yields (band : ClassCfg) (hw : HoursRead q r w) {b H : Nat} (hy : yields q r b H) :
    (stepSample band q w).record =
      stepEstimate band (sampleValue q r b H) { w.record with carry := 0, base := some H } := by
  obtain ⟨hs, hH⟩ := hw.sampleOf_of_yields hy
  simp [stepSample, fuelDraw_iff.mpr hy.1, hs, hH]

theorem stepSample_of_kept (band : ClassCfg) (hw : HoursRead q r w) (hn : ∀ b H, ¬ yields q r b H)
    (hk : ¬ drawsFuel q ∨ priorDiffers q r ∨ ¬ readsOn q r) : (stepSample band q w).record = w.record := by
  rcases hk with hf | hk
  · simp [stepSample, fuelDraw_iff, hf]
  · simp [stepSample, hw.sampleOf_eq_none hn, hw.settled.mpr hk]

theorem stepSample_of_carried (band : ClassCfg) (hw : HoursRead q r w) (hn : ∀ b H, ¬ yields q r b H)
    (hf : drawsFuel q) (hd : ¬ priorDiffers q r) (ho : readsOn q r) :
    (stepSample band q w).record = w.record.addCarry q.net := by
  have hc : w.carrySettled = false := Bool.eq_false_iff.mpr (hw.settled.not.mpr (by tauto))
  simp [stepSample, fuelDraw_iff.mpr hf, hw.sampleOf_eq_none hn, hc]

theorem flagSample_flags (low : Bool) (sample : Nat) (r : MachineRecord) {k : Nat} (hk : k < 8) :
    (r.flagSample low sample).flags.getLsbD k = true ↔
      r.flags.getLsbD k = true ∨ k = if low = true then 4 else 5 := by
  have hflags : (r.flagSample low sample).flags = (r.set (if low then .rateLow else .rateHigh)).flags := by
    unfold MachineRecord.flagSample; dsimp only; split_ifs <;> rfl
  rw [hflags, MachineRecord.set_flag _ _ hk]
  cases low <;> rfl

/-- What step 5 leaves alone: all but the estimate, its flagged run and the two rate flags. -/
structure EstimateOnly (a b : MachineRecord) : Prop where
  rest : b = { a with estimate := b.estimate, runCount := b.runCount, runLow := b.runLow, flags := b.flags }
  flag : ∀ k < 8, k ≠ 4 → k ≠ 5 → b.flags.getLsbD k = a.flags.getLsbD k

theorem flagSample_only (low : Bool) (sample : Nat) (r : MachineRecord) : EstimateOnly r (r.flagSample low sample) := by
  refine ⟨?_, fun k hk h4 h5 => ?_⟩
  · unfold MachineRecord.flagSample; dsimp only; split_ifs <;> rfl
  · rw [Bool.eq_iff_iff, flagSample_flags _ _ _ hk]
    cases low <;> simp [h4, h5]

theorem stepEstimate_only (band : ClassCfg) (sample : Nat) (r : MachineRecord) :
    EstimateOnly r (stepEstimate band sample r) := by
  unfold stepEstimate
  split
  · exact ⟨rfl, fun _ _ _ _ => rfl⟩
  · split_ifs
    · exact flagSample_only _ _ _
    · exact flagSample_only _ _ _
    · exact ⟨rfl, fun _ _ _ _ => rfl⟩

/-- R99: the third flagged sample in a row, of one direction, is the estimate. -/
theorem flagSample_flagged (low : Bool) (sample : Nat) (r : MachineRecord) :
    Flagged low sample r (r.flagSample low sample) where
  flag := by rw [flagSample_flags _ _ _ (by split <;> decide)]; exact .inr rfl
  other := by
    rw [Bool.eq_iff_iff, flagSample_flags _ _ _ (by split <;> decide)]
    cases low <;> simp
  third hd hn := by
    have h1 : 1 ≤ r.runCount := by omega
    have h3 : 3 ≤ r.runCount + 1 := by omega
    simp [MachineRecord.flagSample, hd, h1, h3]
  grows hd hn := by
    by_cases h1 : 1 ≤ r.runCount
    · have h3 : ¬ 3 ≤ r.runCount + 1 := by omega
      simp [MachineRecord.flagSample, MachineRecord.set, hd, h1, h3]
    · have h0 : r.runCount = 0 := by omega
      simp [MachineRecord.flagSample, MachineRecord.set, h0]
  starts hd := by simp [MachineRecord.flagSample, MachineRecord.set, hd]

/-- What steps 4 and 5 leave alone: all but base hours, carry, and what step 5 changes. -/
structure SampleOnly (a b : MachineRecord) : Prop where
  rest : b = { a with
    base := b.base, carry := b.carry, estimate := b.estimate, runCount := b.runCount, runLow := b.runLow
    flags := b.flags }
  flag : ∀ k < 8, k ≠ 4 → k ≠ 5 → b.flags.getLsbD k = a.flags.getLsbD k

theorem stepSample_only (band : ClassCfg) (q : Posting) (w : Work) :
    SampleOnly w.record (stepSample band q w).record := by
  by_cases hf : q.fuelDraw = true
  · cases hs : sampleOf q w with
    | some sample =>
      have h := stepEstimate_only band sample { w.record with carry := 0, base := w.record.hours }
      simp only [stepSample, hf, hs, if_true]
      exact ⟨by rw [h.rest], h.flag⟩
    | none =>
      simp only [stepSample, hf, hs, if_true]
      split <;> exact ⟨rfl, fun _ _ _ _ => rfl⟩
  · simp only [stepSample, hf]
    exact ⟨rfl, fun _ _ _ _ => rfl⟩

/-! ## Steps 6 to 8: totals, double fill and last fill (R100, R101, R103) -/

theorem lubeDraw_iff : q.lubeDraw = true ↔ drawsLube q := by simp [Posting.lubeDraw, drawsLube]

theorem overlaps_iff : overlaps r q = true ↔ overlapsLast q r := by
  cases h : r.lastFill <;> simp [overlaps, overlapsLast, h, and_assoc]

/-- What the last three steps make of a record. -/
structure Closed (band : ClassCfg) (q : Posting) (r p : MachineRecord) : Prop where
  rest : p = { r with
    sinceService := p.sinceService, drained := p.drained, lastFill := p.lastFill, fuel := p.fuel, flags := p.flags }
  flag : ∀ k < 8, k ≠ 0 → k ≠ 2 → p.flags.getLsbD k = r.flags.getLsbD k
  lube : drawsLube q →
    p.sinceService = r.sinceService.set q.product (min 4294967295 (r.sinceService[q.product] + q.net)) ∧
      (p.flags.getLsbD 2 = true ↔
        r.flags.getLsbD 2 = true ∨ band.allowance < min 4294967295 (r.sinceService[q.product] + q.net))
  notLube : ¬ drawsLube q → p.sinceService = r.sinceService ∧ p.flags.getLsbD 2 = r.flags.getLsbD 2
  drained : p.drained = if q.direction = .ret then min 4294967295 (r.drained + q.net) else r.drained
  double : p.flags.getLsbD 0 = true ↔ r.flags.getLsbD 0 = true ∨ overlapsLast q r
  last : p.lastFill = some ⟨q.start, q.stop, q.station, q.lane⟩
  fuel : drawsFuel q → p.fuel = min 4294967295 (r.fuel + q.net)
  noFuel : ¬ drawsFuel q → p.fuel = r.fuel

theorem stepTotals_lube (band : ClassCfg) (r : MachineRecord) (h : drawsLube q) :
    stepTotals band q r = { r with
      sinceService := r.sinceService.set q.product (min 4294967295 (r.sinceService[q.product] + q.net))
      flags := if band.allowance < min 4294967295 (r.sinceService[q.product] + q.net)
        then r.flags ||| flagMask .lubeHigh else r.flags } := by
  simp only [stepTotals, lubeDraw_iff.mpr h, if_true, holdAt, Config.hold32]
  by_cases ha : band.allowance < min 4294967295 (r.sinceService[q.product] + q.net)
  · simp only [ha, if_true, MachineRecord.set]
  · simp only [ha, if_false]

theorem stepTotals_notLube (band : ClassCfg) (r : MachineRecord) (h : ¬ drawsLube q) :
    stepTotals band q r =
      { r with drained := if q.direction = .ret then min 4294967295 (r.drained + q.net) else r.drained } := by
  simp only [stepTotals, lubeDraw_iff, h, if_false]
  split_ifs <;> rfl

theorem stepTotals_flag (band : ClassCfg) (q : Posting) (r : MachineRecord) {k : Nat} (hk : k < 8) :
    (stepTotals band q r).flags.getLsbD k = true ↔ r.flags.getLsbD k = true ∨
      k = 2 ∧ drawsLube q ∧ band.allowance < min 4294967295 (r.sinceService[q.product] + q.net) := by
  by_cases h : drawsLube q
  · rw [stepTotals_lube band r h]
    by_cases ha : band.allowance < min 4294967295 (r.sinceService[q.product] + q.net)
    · simp only [ha, if_true]
      exact (r.set_flag .lubeHigh hk).trans (by simp [h, MachineFlag.bit])
    · simp only [ha, if_false, and_false, or_false]
  · rw [stepTotals_notLube band r h]
    simp [h]

theorem stepClose_eq (q : Posting) (r : MachineRecord) :
    stepClose q r = { r with
      flags := if overlaps r q = true then r.flags ||| flagMask .doubleFill else r.flags
      lastFill := some ⟨q.start, q.stop, q.station, q.lane⟩
      fuel := if q.fuelDraw = true then min 4294967295 (r.fuel + q.net) else r.fuel } := by
  unfold stepClose; dsimp only; split_ifs <;> rfl

theorem stepClose_flag (q : Posting) (r : MachineRecord) {k : Nat} (hk : k < 8) :
    (stepClose q r).flags.getLsbD k = true ↔ r.flags.getLsbD k = true ∨ k = 0 ∧ overlapsLast q r := by
  rw [stepClose_eq]
  by_cases h : overlaps r q = true
  · simp only [h, if_true]
    exact (r.set_flag .doubleFill hk).trans (by simp [overlaps_iff.mp h, MachineFlag.bit])
  · simp [h, ← overlaps_iff]

theorem stepClose_closed (band : ClassCfg) (q : Posting) (r : MachineRecord) :
    Closed band q r (stepClose q (stepTotals band q r)) := by
  have hlast : (stepTotals band q r).lastFill = r.lastFill := by
    by_cases h : drawsLube q
    · rw [stepTotals_lube band r h]
    · rw [stepTotals_notLube band r h]
  have hover : overlapsLast q (stepTotals band q r) ↔ overlapsLast q r := by simp only [overlapsLast, hlast]
  have hflag : ∀ k < 8, (stepClose q (stepTotals band q r)).flags.getLsbD k = true ↔ r.flags.getLsbD k = true ∨
      k = 2 ∧ drawsLube q ∧ band.allowance < min 4294967295 (r.sinceService[q.product] + q.net) ∨
      k = 0 ∧ overlapsLast q r := fun k hk => by
    rw [stepClose_flag _ _ hk, stepTotals_flag _ _ _ hk, hover, or_assoc]
  constructor
  case flag => exact fun k hk h0 h2 => Bool.eq_iff_iff.mpr ((hflag k hk).trans (by simp [h0, h2]))
  case double => exact (hflag 0 (by decide)).trans (by simp)
  case last => rw [stepClose_eq]
  case lube =>
    intro h
    exact ⟨by rw [stepClose_eq, stepTotals_lube band r h], (hflag 2 (by decide)).trans (by simp [h])⟩
  case notLube =>
    intro h
    exact ⟨by rw [stepClose_eq, stepTotals_notLube band r h],
      Bool.eq_iff_iff.mpr ((hflag 2 (by decide)).trans (by simp [h]))⟩
  all_goals
    by_cases h : drawsLube q
    · simp +contextual [stepClose_eq, stepTotals_lube band r h, fuelDraw_iff, h.1]
    · simp +contextual [stepClose_eq, stepTotals_notLube band r h, fuelDraw_iff]

/-! ## The eight steps -/

/-- A posting on the record `r`: `w` after steps 2 and 3, `a` after steps 4 and 5, and `p` after all. -/
structure Steps (band : ClassCfg) (q : Posting) (r : MachineRecord) (w : Work) (a p : MachineRecord) : Prop where
  read : HoursRead q r w
  only : SampleOnly w.record a
  yielded : ∀ b H, yields q r b H →
    a = stepEstimate band (sampleValue q r b H) { w.record with carry := 0, base := some H }
  kept : (∀ b H, ¬ yields q r b H) → ¬ drawsFuel q ∨ priorDiffers q r ∨ ¬ readsOn q r → a = w.record
  carried : (∀ b H, ¬ yields q r b H) → drawsFuel q → ¬ priorDiffers q r → readsOn q r → a = w.record.addCarry q.net
  closed : Closed band q a p

theorem postRecord_steps (band : ClassCfg) (q : Posting) (r : MachineRecord) :
    ∃ w a, Steps band q r w a (postRecord band q r) :=
  have hw := stepHours_read (stepResync_resynced q r)
  ⟨_, _, hw, stepSample_only band q _, fun _ _ => stepSample_of_yields band hw, stepSample_of_kept band hw,
    stepSample_of_carried band hw, stepClose_closed band q _⟩

namespace Steps

variable {band : ClassCfg} {a p : MachineRecord} (h : Steps band q r w a p)

include h

/-- What no step but 2 and 3 changes. -/
theorem hoursItems : p.hours = w.record.hours ∧ p.created = w.record.created ∧ p.service = w.record.service :=
  ⟨by rw [h.closed.rest, h.only.rest], by rw [h.closed.rest, h.only.rest], by rw [h.closed.rest, h.only.rest]⟩

/-- What no step but 4 and 5 changes further. -/
theorem sampleItems : p.base = a.base ∧ p.carry = a.carry ∧ p.estimate = a.estimate ∧ p.runCount = a.runCount ∧
    p.runLow = a.runLow :=
  ⟨by rw [h.closed.rest], by rw [h.closed.rest], by rw [h.closed.rest], by rw [h.closed.rest], by rw [h.closed.rest]⟩

theorem workItems : w.record.estimate = r.estimate ∧ w.record.runCount = r.runCount ∧ w.record.runLow = r.runLow :=
  ⟨by rw [h.read.rest], by rw [h.read.rest], by rw [h.read.rest]⟩

/-- The flags of steps 2 and 3. -/
theorem hoursFlag {k : Nat} (hk : k < 8) (hs : k ≠ 0 ∧ k ≠ 2 ∧ k ≠ 4 ∧ k ≠ 5) : p.flags.getLsbD k = true ↔
    r.flags.getLsbD k = true ∨ k = 1 ∧ r.hours ≠ none ∧ priorDiffers q r ∨ k = 3 ∧ runsOut r.service (hoursRise q r) ∨
      k = 7 ∧ readsBack q r ∨ k = 6 ∧ readsJump q r := by
  obtain ⟨h0, h2, h4, h5⟩ := hs
  rw [h.closed.flag k hk h0 h2, h.only.flag k hk h4 h5, h.read.flag k hk]

/-- The rate flags before step 5. -/
theorem workRateFlags : w.record.flags.getLsbD 4 = r.flags.getLsbD 4 ∧ w.record.flags.getLsbD 5 = r.flags.getLsbD 5 :=
  ⟨Bool.eq_iff_iff.mpr ((h.read.flag 4 (by decide)).trans (by simp)),
    Bool.eq_iff_iff.mpr ((h.read.flag 5 (by decide)).trans (by simp))⟩

theorem rateFlags : p.flags.getLsbD 4 = a.flags.getLsbD 4 ∧ p.flags.getLsbD 5 = a.flags.getLsbD 5 :=
  ⟨h.closed.flag 4 (by decide) (by decide) (by decide), h.closed.flag 5 (by decide) (by decide) (by decide)⟩

/-- The totals and their flag before step 6. -/
theorem totalItems : a.sinceService = r.sinceService ∧ a.drained = r.drained ∧ a.fuel = r.fuel ∧
    a.lastFill = r.lastFill :=
  ⟨by rw [h.only.rest, h.read.rest], by rw [h.only.rest, h.read.rest], by rw [h.only.rest, h.read.rest],
    by rw [h.only.rest, h.read.rest]⟩

theorem closeFlags : a.flags.getLsbD 0 = r.flags.getLsbD 0 ∧ a.flags.getLsbD 2 = r.flags.getLsbD 2 := by
  constructor
  · rw [h.only.flag 0 (by decide) (by decide) (by decide)]
    exact Bool.eq_iff_iff.mpr ((h.read.flag 0 (by decide)).trans (by simp))
  · rw [h.only.flag 2 (by decide) (by decide) (by decide)]
    exact Bool.eq_iff_iff.mpr ((h.read.flag 2 (by decide)).trans (by simp))

/-- A posting that takes no reading further than step 3 leaves base hours and carry as step 3 has. -/
theorem base_carry_kept (hn : ∀ b H, ¬ yields q r b H) (hk : ¬ drawsFuel q ∨ priorDiffers q r ∨ ¬ readsOn q r) :
    p.base = w.record.base ∧ p.carry = w.record.carry := by
  obtain ⟨hb, hc, -⟩ := h.sampleItems
  rw [hb, hc, h.kept hn hk]
  exact ⟨rfl, rfl⟩

theorem base_carry_of_not_on (hon : ¬ readsOn q r) : p.base = w.record.base ∧ p.carry = w.record.carry :=
  h.base_carry_kept (fun _ _ hy => hon hy.readsOn.1) (.inr (.inr hon))

/-- R97 to R99: no sample, no change to the estimate. -/
theorem estimate_kept (hn : ∀ b H, ¬ yields q r b H) :
    p.estimate = r.estimate ∧ p.runCount = r.runCount ∧ p.runLow = r.runLow ∧
      p.flags.getLsbD 5 = r.flags.getLsbD 5 ∧ p.flags.getLsbD 4 = r.flags.getLsbD 4 := by
  obtain ⟨-, -, he, hc, hl⟩ := h.sampleItems
  obtain ⟨we, wc, wl⟩ := h.workItems
  obtain ⟨w4, w5⟩ := h.workRateFlags
  obtain ⟨p4, p5⟩ := h.rateFlags
  rw [he, hc, hl, p4, p5, ← we, ← wc, ← wl, ← w4, ← w5]
  by_cases hk : ¬ drawsFuel q ∨ priorDiffers q r ∨ ¬ readsOn q r
  · rw [h.kept hn hk]
    exact ⟨rfl, rfl, rfl, rfl, rfl⟩
  · push Not at hk
    obtain ⟨hf, hd, ho⟩ := hk
    rw [h.carried hn hf hd ho]
    exact ⟨rfl, rfl, rfl, rfl, rfl⟩

/-- R97: a sample gives new base hours and an empty carry. -/
theorem base_carry_sampled {b H : Nat} (hy : yields q r b H) : p.base = some H ∧ p.carry = 0 := by
  obtain ⟨hb, hc, -⟩ := h.sampleItems
  rw [hb, hc, h.yielded b H hy, (stepEstimate_only _ _ _).rest]
  exact ⟨rfl, rfl⟩

/-- R98: a sample that is not flagged. -/
theorem estimate_taken {b H e : Nat} (hy : yields q r b H)
    (he : stepEstimate band (sampleValue q r b H) { w.record with carry := 0, base := some H } =
      { w.record with carry := 0, base := some H, estimate := some e, runCount := 0 }) :
    p.estimate = some e ∧ p.runCount = 0 ∧ p.flags.getLsbD 5 = r.flags.getLsbD 5 ∧
      p.flags.getLsbD 4 = r.flags.getLsbD 4 := by
  obtain ⟨-, -, pe, pc, -⟩ := h.sampleItems
  obtain ⟨w4, w5⟩ := h.workRateFlags
  obtain ⟨p4, p5⟩ := h.rateFlags
  rw [pe, pc, p4, p5, h.yielded b H hy, he, ← w4, ← w5]
  exact ⟨rfl, rfl, rfl, rfl⟩

/-- R99: a sample that is. -/
theorem estimate_flagged {b H : Nat} {low : Bool} (hy : yields q r b H)
    (he : stepEstimate band (sampleValue q r b H) { w.record with carry := 0, base := some H } =
      MachineRecord.flagSample low (sampleValue q r b H) { w.record with carry := 0, base := some H }) :
    Flagged low (sampleValue q r b H) r p := by
  obtain ⟨-, -, pe, pc, pl⟩ := h.sampleItems
  obtain ⟨we, wc, wl⟩ := h.workItems
  have hp : ∀ c : Bool, p.flags.getLsbD (if c = true then 4 else 5) = a.flags.getLsbD (if c = true then 4 else 5) := by
    rintro (_ | _)
    exacts [h.rateFlags.2, h.rateFlags.1]
  have hw : w.record.flags.getLsbD (if low = true then 5 else 4) = r.flags.getLsbD (if low = true then 5 else 4) := by
    cases low
    exacts [h.workRateFlags.1, h.workRateFlags.2]
  have hother : p.flags.getLsbD (if low = true then 5 else 4) = a.flags.getLsbD (if low = true then 5 else 4) := by
    cases low
    exacts [h.rateFlags.1, h.rateFlags.2]
  have hf := flagSample_flagged low (sampleValue q r b H) { w.record with carry := 0, base := some H }
  rw [← he, ← h.yielded b H hy] at hf
  refine ⟨(hp low).trans hf.flag, hother.trans (hf.other.trans hw), fun hd hn => ?_, fun hd hn => ?_, fun hd => ?_⟩
  · rw [pe, pc]
    exact hf.third (wl.trans hd) (wc.symm ▸ hn)
  · rw [pe, pc, pl, ← we, ← wc]
    exact hf.grows (wl.trans hd) (wc.symm ▸ hn)
  · rw [pe, pc, pl, ← we]
    exact hf.starts (fun e => hd (wl.symm.trans e))

theorem posted : Posted band q r p := by
  obtain ⟨phours, pcreated, pservice⟩ := h.hoursItems
  obtain ⟨we, -, -⟩ := h.workItems
  obtain ⟨asince, adrained, afuel, alast⟩ := h.totalItems
  obtain ⟨a0, a2⟩ := h.closeFlags
  constructor
  case hours => exact phours.trans h.read.hours
  case created => exact pcreated.trans h.read.created
  case service => exact pservice.trans h.read.service
  case resynced => exact (h.hoursFlag (by decide) (by decide)).trans (by simp)
  case back => exact (h.hoursFlag (by decide) (by decide)).trans (by simp)
  case jump => exact (h.hoursFlag (by decide) (by decide)).trans (by simp)
  case due => exact (h.hoursFlag (by decide) (by decide)).trans (by simp [runsOut])
  case jumped =>
    intro hj
    obtain ⟨hb, hc⟩ := h.base_carry_of_not_on fun e => e.2 hj
    rw [hb, hc]
    exact h.read.jumped hj
  case firstRead =>
    intro hh hq
    obtain ⟨hb, hc⟩ := h.base_carry_of_not_on fun ⟨⟨_, _, _, e, _⟩, _⟩ => by simp [hh] at e
    rw [hb, hc]
    exact h.read.first hh hq
  case resyncedRead =>
    intro hd hread hj
    obtain ⟨hb, hc⟩ := h.base_carry_kept (fun _ _ hy => hy.2.2.1 hd) (.inr (.inl hd))
    obtain ⟨wb, wc⟩ := h.read.on ⟨hread, hj⟩
    rw [hb, hc, wb, wc]
    exact ⟨rfl, carryResynced_of_differs hd⟩
  case noReading =>
    intro hq
    obtain ⟨hb, hc⟩ := h.base_carry_of_not_on (not_readsOn_of_unread hq)
    rw [hb, hc]
    exact h.read.unread hq
  case noSample =>
    rintro h0 hd hr ⟨H, hq, hle⟩ hj hn hf
    obtain ⟨rh, rb, rc⟩ := not_priorDiffers hd
    have hon : readsOn q r := ⟨⟨H, h0, hq, rh.trans hr, hle⟩, hj⟩
    obtain ⟨hb, hc, -⟩ := h.sampleItems
    obtain ⟨wb, wc⟩ := h.read.on hon
    rw [hb, hc, h.carried hn hf hd hon, ← rb, ← rc, ← wb, ← wc]
    exact ⟨rfl, rfl⟩
  case notFuel =>
    intro hf hr hd hj
    obtain ⟨rh, rb, rc⟩ := not_priorDiffers hd
    obtain ⟨hb, hc⟩ := h.base_carry_kept (fun _ _ hy => hf hy.1) (.inl hf)
    rw [hb, hc, ← rb, ← rc]
    by_cases hon : readsOn q r
    · exact (h.read.on hon).symm
    · obtain ⟨wb, -, wc⟩ := h.read.unread (unread_of_not_on (rh.symm ▸ hr) hj hon)
      exact ⟨wc hf, wb⟩
  case noneYielded => exact h.estimate_kept
  case sampled => exact fun b H hy => h.base_carry_sampled hy
  case first =>
    intro b H hy he
    exact h.estimate_taken hy (by simp [stepEstimate, we, he])
  case inBand =>
    intro b H e hy he hhigh hlow
    exact h.estimate_taken hy (by simp [stepEstimate, we, he, hhigh.not_gt, hlow.not_gt])
  case high =>
    intro b H e hy he hhigh
    exact h.estimate_flagged hy (by simp [stepEstimate, we, he, hhigh])
  case low =>
    intro b H e hy he hlow hhigh
    exact h.estimate_flagged hy (by simp [stepEstimate, we, he, hlow, hhigh.not_gt])
  case lube => rw [← asince, ← a2]; exact h.closed.lube
  case notLube => rw [← asince, ← a2]; exact h.closed.notLube
  case drained => rw [← adrained]; exact h.closed.drained
  case double => rw [← a0, h.closed.double]; simp only [overlapsLast, alast]
  case last => exact h.closed.last
  case fuel => rw [← afuel]; exact h.closed.fuel
  case noFuel => rw [← afuel]; exact h.closed.noFuel
  case kept => rw [h.closed.rest, h.only.rest, h.read.rest]; exact ⟨rfl, rfl, rfl, rfl, rfl⟩

end Steps

/-- Settles O46, step by step. -/
theorem postingFollowsItsSteps : Obligations.PostingFollowsItsSteps := by
  intro band q r
  obtain ⟨w, a, h⟩ := postRecord_steps band q r
  exact h.posted

end Sys2Proof.Machine
end

