-- ==== Sys2Proof/Proofs/AccountTable.lean ====
section
/-! The account table as a list of records (R82 to R87): what finding, making, evicting and posting do to its size, to the
machines that it holds and to the hours of their records. -/

namespace Sys2Proof.Machine

/-! ## Records by machine number (R82, R84) -/

theorem Accounts.mem_of_find {a : Accounts} {m : Nat} {r : MachineRecord} (h : a.find m = some r) :
    r ∈ a.records ∧ r.machine = m :=
  ⟨List.mem_of_find?_eq_some h, by simpa using List.find?_some h⟩

theorem Accounts.ne_of_find_none {a : Accounts} {m : Nat} (h : a.find m = none) : ∀ r ∈ a.records, r.machine ≠ m := by
  simpa [Accounts.find] using h

theorem TableKept.unique {a : Accounts} (h : TableKept a) {r x : MachineRecord} (hr : r ∈ a.records)
    (hx : x ∈ a.records) (hm : x.machine = r.machine) : x = r :=
  List.inj_on_of_nodup_map h.distinct hx hr hm

/-- The invariant of the table reads the machine numbers alone. -/
theorem TableKept.of_machines {a b : Accounts} (h : TableKept a)
    (hm : b.records.map (·.machine) = a.records.map (·.machine)) : TableKept b := by
  have hl : b.records.length = a.records.length := by simpa using congrArg List.length hm
  refine ⟨hl.trans_le h.room, hm ▸ h.distinct, fun r hr => ?_⟩
  have hr' : r.machine ∈ a.records.map (·.machine) := hm ▸ List.mem_map_of_mem hr
  obtain ⟨x, hx, hxr⟩ := List.mem_map.mp hr'
  exact hxr ▸ h.nonzero x hx

/-! ## What becomes of the table in an event -/

/-- Hours that were there are there, and have not fallen. -/
def HoursKept (x y : Option Nat) : Prop := ∀ h, x = some h → ∃ k, y = some k ∧ h ≤ k

theorem HoursKept.refl (x : Option Nat) : HoursKept x x := fun h hx => ⟨h, hx, le_rfl⟩

theorem HoursKept.trans {x y z : Option Nat} (h : HoursKept x y) (k : HoursKept y z) : HoursKept x z := by
  intro m hm
  obtain ⟨n, hn, hmn⟩ := h m hm
  obtain ⟨p, hp, hnp⟩ := k n hn
  exact ⟨p, hp, hmn.trans hnp⟩

/-- From `a` to `b` records may have been made and evicted; those that stand have kept their hours. -/
structure Grows (a b : Accounts) : Prop where
  kept : TableKept a → TableKept b
  hours : TableKept a → ∀ r ∈ a.records, ∀ x ∈ b.records, x.machine = r.machine → HoursKept r.hours x.hours

/-- From `a` to `b` no record has come or gone, and each has kept its hours. -/
structure Stands (a b : Accounts) : Prop extends Grows a b where
  machines : ∀ m, m ∈ b.records.map (·.machine) ↔ m ∈ a.records.map (·.machine)

/-- The records of `b` are those of `a` in their places, each with its machine and its hours. -/
theorem Stands.of_map {a b : Accounts} {f : MachineRecord → MachineRecord} (hb : b.records = a.records.map f)
    (hm : ∀ r ∈ a.records, (f r).machine = r.machine)
    (hh : TableKept a → ∀ r ∈ a.records, HoursKept r.hours (f r).hours) : Stands a b := by
  have hmap : b.records.map (·.machine) = a.records.map (·.machine) := by
    rw [hb, List.map_map]
    exact List.map_congr_left hm
  refine ⟨⟨fun h => h.of_machines hmap, fun h r hr x hx hxr => ?_⟩, fun m => by rw [hmap]⟩
  rw [hb] at hx
  obtain ⟨y, hy, rfl⟩ := List.mem_map.mp hx
  have hyr : y = r := h.unique hr hy ((hm y hy).symm.trans hxr)
  exact hyr ▸ hh h y hy

theorem Stands.of_records {a b : Accounts} (h : b.records = a.records) : Stands a b :=
  .of_map (f := id) (by simpa using h) (fun _ _ => rfl) fun _ _ _ => .refl _

theorem Stands.refl (a : Accounts) : Stands a a := .of_records rfl

theorem Grows.stands {a b c : Accounts} (h : Grows a b) (k : Stands b c) : Grows a c := by
  refine ⟨k.kept ∘ h.kept, fun ha r hr x hx hm => ?_⟩
  obtain ⟨y, hy, hyx⟩ := List.mem_map.mp ((k.machines _).mp (List.mem_map_of_mem hx))
  exact (h.hours ha r hr y hy (hyx.trans hm)).trans (k.hours (h.kept ha) y hy x hx hyx.symm)

theorem Stands.grows {a b c : Accounts} (h : Stands a b) (k : Grows b c) : Grows a c := by
  refine ⟨k.kept ∘ h.kept, fun ha r hr x hx hm => ?_⟩
  obtain ⟨y, hy, hyr⟩ := List.mem_map.mp ((h.machines _).mpr (List.mem_map_of_mem hr))
  exact (h.hours ha r hr y hy hyr).trans (k.hours (h.kept ha) y hy x hx (hm.trans hyr.symm))

theorem Stands.trans {a b c : Accounts} (h : Stands a b) (k : Stands b c) : Stands a c :=
  ⟨h.grows k.toGrows, fun m => (k.machines m).trans (h.machines m)⟩

/-- A loop whose every turn leaves the records where they are. -/
theorem Stands.foldl {α : Type} {f : Block → α → Block} (hf : ∀ s x, Stands s.accounts (f s x).accounts) (xs : List α)
    {a : Accounts} {s : Block} (hs : Stands a s.accounts) : Stands a (xs.foldl f s).accounts := by
  induction xs generalizing s with
  | nil => exact hs
  | cons x xs ih => exact ih (hs.trans (hf s x))

/-! ## The operations of the table (R84 to R87) -/

theorem letGo_machine (P : LaneId → Prop) [DecidablePred P] (r : MachineRecord) : (letGo P r).machine = r.machine := by
  unfold letGo; split
  · split <;> rfl
  · rfl

theorem letGo_hours (P : LaneId → Prop) [DecidablePred P] (r : MachineRecord) : (letGo P r).hours = r.hours := by
  unfold letGo; split
  · split <;> rfl
  · rfl

theorem letGoBy_stands (P : LaneId → Prop) [DecidablePred P] (a : Accounts) : Stands a (letGoBy P a) :=
  .of_map rfl (fun r _ => letGo_machine P r) fun _ r _ => by rw [letGo_hours]; exact .refl _

theorem Accounts.update_stands {a : Accounts} {r x : MachineRecord} (hr : r ∈ a.records) (hm : x.machine = r.machine)
    (hh : HoursKept r.hours x.hours) : Stands a (a.update x) := by
  refine .of_map rfl (fun y _ => ?_) fun ha y hy => ?_
  · split_ifs with e
    exacts [e.symm, rfl]
  · split_ifs with e
    · rwa [ha.unique hr hy (e.trans hm)]
    · exact .refl _

/-- A record before some of the records of a table, none of them of its machine. -/
theorem TableKept.cons {a b : Accounts} (h : TableKept a) {r : MachineRecord} {rs : List MachineRecord}
    (hb : b.records = r :: rs) (hs : rs.Sublist a.records) (hl : rs.length < Config.accountRoom)
    (hn : ∀ x ∈ rs, x.machine ≠ r.machine) (h0 : r.machine ≠ 0) : TableKept b := by
  refine ⟨by rw [hb]; exact hl, ?_, fun x hx => ?_⟩
  · rw [hb, List.map_cons, List.nodup_cons]
    refine ⟨fun hm => ?_, h.distinct.sublist (hs.map _)⟩
    obtain ⟨x, hx, hxr⟩ := List.mem_map.mp hm
    exact hn x hx hxr
  · rcases List.mem_cons.mp (hb ▸ hx) with rfl | hx
    exacts [h0, h.nonzero x (hs.subset hx)]

theorem Accounts.toFront_stands {a : Accounts} {r : MachineRecord} (hr : r ∈ a.records) : Stands a (a.toFront r) := by
  refine ⟨⟨fun h => h.cons rfl List.filter_sublist ?_ (fun x hx => ?_) (h.nonzero r hr), fun h x hx y hy hm => ?_⟩,
    fun m => ?_⟩
  · have hlt : (a.records.filter fun x => x.machine ≠ r.machine).length < a.records.length :=
      List.length_filter_lt_length_iff_exists.mpr ⟨r, hr, by simp⟩
    exact hlt.trans_le h.room
  · simpa using (List.mem_filter.mp hx).2
  · have hy' : y ∈ a.records := by
      rcases List.mem_cons.mp hy with rfl | hy
      exacts [hr, List.mem_of_mem_filter hy]
    rw [h.unique hx hy' hm]
    exact .refl _
  · by_cases hm : m = r.machine
    · subst hm
      exact iff_of_true (List.mem_map_of_mem List.mem_cons_self) (List.mem_map_of_mem hr)
    · simp only [Accounts.toFront, List.map_cons, List.mem_cons, List.mem_map, List.mem_filter, hm, false_or]
      refine exists_congr fun x => ⟨fun h => ⟨h.1.1, h.2⟩, fun h => ⟨⟨h.1, ?_⟩, h.2⟩⟩
      simpa [h.2] using hm

/-- R86: eviction takes a record out of the list. -/
theorem evictFrom_shorter {rs xs : List MachineRecord} (h : evictFrom rs = some xs) :
    xs.Sublist rs ∧ xs.length < rs.length := by
  induction rs generalizing xs with
  | nil => cases h
  | cons r rs ih =>
    unfold evictFrom at h
    split at h
    case h_1 ys hys =>
      cases h
      obtain ⟨hs, hl⟩ := ih hys
      exact ⟨hs.cons_cons r, Nat.succ_lt_succ hl⟩
    case h_2 =>
      split_ifs at h
      cases h
      exact ⟨List.sublist_cons_self _ _, Nat.lt_succ_self _⟩

/-- A record of a machine that the table did not hold, before some of the records that it held. -/
theorem Grows.of_new {a b : Accounts} {r : MachineRecord} {rs : List MachineRecord} (hb : b.records = r :: rs)
    (hs : rs.Sublist a.records) (hl : TableKept a → rs.length < Config.accountRoom)
    (hn : ∀ x ∈ a.records, x.machine ≠ r.machine) (h0 : r.machine ≠ 0) : Grows a b := by
  refine ⟨fun h => h.cons hb hs (hl h) (fun x hx => hn x (hs.subset hx)) h0, fun h x hx y hy hm => ?_⟩
  rcases List.mem_cons.mp (hb ▸ hy) with rfl | hy
  · exact absurd hm.symm (hn x hx)
  · rw [h.unique hx (hs.subset hy) hm]
    exact .refl _

/-- R85, R91, R106: the record that is found or made is in the table. -/
theorem Accounts.findOrCreate_grows {a b : Accounts} {m : Nat} {c : ClassId} {o : Origin} {r : MachineRecord}
    (h : a.findOrCreate m c o = some (b, r)) (hm : m ≠ 0) : Grows a b ∧ r ∈ b.records ∧ r.machine = m := by
  unfold Accounts.findOrCreate at h
  split at h
  case h_1 x hf =>
    cases h
    obtain ⟨hr, hrm⟩ := Accounts.mem_of_find hf
    exact ⟨(Accounts.toFront_stands hr).toGrows, List.mem_cons_self, hrm⟩
  case h_2 hf =>
    have hn := Accounts.ne_of_find_none hf
    dsimp only at h
    split_ifs at h with hl
    · cases h
      exact ⟨.of_new rfl (.refl _) (fun _ => hl) hn hm, List.mem_cons_self, rfl⟩
    · split at h
      case h_1 rs he =>
        cases h
        obtain ⟨hs, hlt⟩ := evictFrom_shorter he
        exact ⟨.of_new rfl hs (fun ha => hlt.trans_le ha.room) hn hm, List.mem_cons_self, rfl⟩
      case h_2 => cases h

/-! ## Postings (R88 to R92) -/

/-- R93, R94: a posting lowers no record's hours. -/
theorem hoursTaken_kept (q : Posting) (r : MachineRecord) : HoursKept r.hours (hoursTaken q r) := by
  intro h hr
  cases hp : q.prior <;> cases hq : q.hours <;> simp [hoursTaken, hoursResynced, hp, hq, hr]

theorem postRecord_kept (band : ClassCfg) (q : Posting) (r : MachineRecord) :
    (postRecord band q r).machine = r.machine ∧ HoursKept r.hours (postRecord band q r).hours := by
  have h := postingFollowsItsSteps band q r
  exact ⟨h.kept.1, h.hours ▸ hoursTaken_kept q r⟩

@[simp] theorem Block.raiseFlags_accounts (s : Block) (m : Nat) (old new : Byte) :
    (s.raiseFlags m old new).accounts = s.accounts := by
  unfold Block.raiseFlags
  generalize newFlags old new = fs
  induction fs generalizing s with
  | nil => rfl
  | cons f fs ih => exact (ih _).trans rfl

theorem Block.postTo_stands (s : Block) {a : Accounts} {r : MachineRecord} (q : Posting) (hr : r ∈ a.records) :
    Stands a (s.postTo a r q).accounts := by
  obtain ⟨hm, hh⟩ := postRecord_kept (s.store.classCfg r.cls) q r
  rw [Block.postTo, Block.raiseFlags_accounts]
  exact Accounts.update_stands hr hm hh

theorem Block.postUnassigned_stands (s : Block) (q : Posting) : Stands s.accounts (s.postUnassigned q).accounts :=
  .of_records rfl

theorem Block.postBulk_stands (s : Block) (q : Posting) : Stands s.accounts (s.postBulk q).accounts := .of_records rfl

/-- R89: an own posting makes no record. -/
theorem Block.postAccount_stands (s : Block) (d : Disposition) (q : Posting) :
    Stands s.accounts (s.postAccount d q).accounts := by
  cases d with
  | bulk => exact s.postBulk_stands q
  | unassigned => exact s.postUnassigned_stands q
  | record =>
    unfold Block.postAccount
    cases hf : s.accounts.find q.machine with
    | none => exact s.postUnassigned_stands q
    | some r =>
      have hr := (Accounts.mem_of_find hf).1
      exact (Accounts.toFront_stands hr).trans (s.postTo_stands q List.mem_cons_self)

/-- R91: a heard posting may make one. -/
theorem Block.postHeardAccount_grows (s : Block) (c : ClassId) (q : Posting) :
    Grows s.accounts (s.postHeardAccount c q).accounts := by
  unfold Block.postHeardAccount
  split_ifs with hm
  · exact (s.postBulk_stands q).toGrows
  · split
    case h_1 b r hf =>
      obtain ⟨hg, hr, -⟩ := Accounts.findOrCreate_grows hf hm
      exact hg.stands (s.postTo_stands q hr)
    case h_2 => exact (s.postUnassigned_stands q).toGrows

/-- R85: and so may a grant. -/
theorem Block.accountGrant_grows (s : Block) (m : Nat) (l : LaneId) :
    Grows s.accounts (s.accountGrant m l).1.accounts := by
  unfold Block.accountGrant
  split_ifs with hm
  · exact (Stands.refl _).toGrows
  · split
    case h_1 b r hf =>
      obtain ⟨hg, hr, -⟩ := Accounts.findOrCreate_grows hf hm
      exact hg.stands (Accounts.update_stands hr rfl (.refl _))
    case h_2 => exact (Stands.refl _).toGrows

end Sys2Proof.Machine
end

