-- ==== Sys2Proof/Proofs/AccountRequests.lean ====
section
/-! CLEAR FLAGS on a machine's record (R109), and the requests that the range check refuses (R168). -/

namespace Sys2Proof.Machine

/-! ## CLEAR FLAGS (R109) -/

/-- The end of an event reads nothing of the account table. -/
theorem Block.setAccounts_sameAtEnd {a : Block} (ha : Settled a) (x : Accounts) : SameAtEnd a (a.setAccounts x) :=
  ⟨rfl, rfl, rfl, rfl, rfl, fun _ => rfl, fun _ => rfl, fun _ => rfl, ha.lanes, rfl, rfl, rfl⟩

theorem Block.doClearFlags_found {s : Block} {m : Nat} {r : MachineRecord} (named : Byte) (hm : m ≠ 0)
    (hf : s.accounts.find m = some r) :
    s.doClearFlags m named = (s.setAccounts (s.accounts.update (r.clear named)), .flags (r.flags &&& ~~~named)) := by
  simp only [Block.doClearFlags, unlessBad, Block.clearFlags, hm, hf, decide_false]
  rfl

theorem Block.doClearFlags_missing {s : Block} {m : Nat} (named : Byte) (hm : m ≠ 0) (hf : s.accounts.find m = none) :
    s.doClearFlags m named = (s, .refused .noRecord) := by
  simp only [Block.doClearFlags, unlessBad, Block.clearFlags, hm, hf, decide_false]
  rfl

/-- Settles O21, by whether the machine has a record. -/
theorem clearFlagsClearsTheNamed : Obligations.ClearFlagsClearsTheNamed := by
  intro s m named hs hm
  refine ⟨fun r hf => ?_, fun hf => ?_⟩
  · obtain ⟨-, rfl⟩ := Accounts.mem_of_find hf
    exact request_answered hs (Block.doClearFlags_found (s := s.block.touchPanel) named hm hf)
      (Block.setAccounts_sameAtEnd hs (s.block.accounts.update (r.clear named)))
  · exact request_answered hs (Block.doClearFlags_missing (s := s.block.touchPanel) named hm hf) (.refl hs)

/-! ## The range check (R168) -/

theorem request_outOfRange {s : State} (hs : Settled s.block) {bad : Bool} (act : Block → Block × Response)
    (hb : bad = true) :
    event s (fun x => x.request fun b => unlessBad bad b (act b)) = becomes s (answered s.block .badRequest) := by
  subst hb
  exact request_answered (work := fun b => unlessBad true b (act b)) hs rfl (.refl hs)

theorem badAuthorize_iff (r : AuthorizeReq) :
    badAuthorize r = true ↔ 3 < r.lane ∨ 1 < r.direction ∨ r.preset = .volume 0 ∨ 1 < r.lubeOverride := by
  simp [badAuthorize, badLane, badMark, or_assoc]

theorem givenAbove_iff (hi : Nat) (x : Option Nat) : givenAbove hi x = true ↔ ∃ n, x = some n ∧ hi < n := by
  cases x <;> simp [givenAbove]

theorem presentAbove_iff (hi : Nat) (x : Option (Option Nat)) :
    presentAbove hi x = true ↔ ∃ n, x = some (some n) ∧ hi < n := by
  obtain _ | _ | v := x <;> simp [presentAbove]

theorem badServiceDone_iff (m : Nat) (v : Option Nat) :
    badServiceDone m v = true ↔ m = 0 ∨ ∃ n, v = some n ∧ 99999 < n := by
  simp [badServiceDone, givenAbove_iff]

theorem badAccountSet_iff (q : AccountSetReq) :
    badAccountSet q = true ↔ q.machine = 0 ∨ (∃ n, q.cls = some n ∧ 15 < n) ∨ (∃ n, q.priority = some n ∧ 1 < n) ∨
      (∃ n, q.hours = some n ∧ 9999999 < n) ∨ (∃ n, q.service = some (some n) ∧ 99999 < n) ∨
      (∃ n, q.estimate = some (some n) ∧ 1000000 < n) := by
  simp only [badAccountSet, Bool.or_eq_true, decide_eq_true_eq, givenAbove_iff, presentAbove_iff, or_assoc,
    Config.hoursMax]

/-- Settles O26, request by request: each is refused by its own range check. -/
theorem outOfRangeIsBadRequest : Obligations.OutOfRangeIsBadRequest := by
  intro s hs
  refine ⟨fun r h => ?_, fun l h => ⟨?_, ?_, ?_⟩, fun u h => ?_, fun v h => ⟨?_, ?_⟩, fun f => ?_, fun m v h => ?_,
    exec_timeSet_zero hs, fun q h => ?_⟩
  · exact request_outOfRange hs (fun b => b.authorize (askOf r)) ((badAuthorize_iff r).mpr h)
  · exact request_outOfRange hs (fun b => b.cancel (Fin.ofNat 4 l)) (decide_eq_true h)
  · exact request_outOfRange hs (fun b => (b, .readout 0x83 (b.laneReadout (Fin.ofNat 4 l)))) (decide_eq_true h)
  · exact request_outOfRange hs (fun b => b.meterHealth (Fin.ofNat 4 l)) (decide_eq_true h)
  · exact request_outOfRange hs (fun b => (b, .readout 0x86 (b.tankReadout (Fin.ofNat 12 u)))) (decide_eq_true h)
  · exact request_outOfRange hs (fun b => b.takeFill (v = 1)) (decide_eq_true h)
  · exact request_outOfRange hs (fun b => b.readRoster (v = 1)) (decide_eq_true h)
  · exact request_outOfRange hs (fun b => b.clearFlags 0 f) (decide_eq_true rfl)
  · exact request_outOfRange hs (fun b => b.serviceDone m v) ((badServiceDone_iff m v).mpr h)
  · exact request_outOfRange hs (fun b => b.setAccount q) ((badAccountSet_iff q).mpr h)

end Sys2Proof.Machine
end

