-- ==== Sys2Proof/Proofs/AccountEvents.lean ====
section
/-! What each operation of the part does to the account table, in the order of the model's files: most leave it alone,
the ends of grants and sessions let records go, and only a grant, a heard posting and ACCOUNT SET make records. -/

namespace Sys2Proof.Machine

/-! ## Ends of grants and sessions (R17 to R24) -/

@[simp] theorem Block.takeCause_accounts (s : Block) (l : LaneId) (c : EndCause) :
    (s.takeCause l c).accounts = s.accounts := by
  simp only [Block.takeCause]; split_ifs <;> rfl

@[simp] theorem Block.takeMeterFault_accounts (s : Block) (l : LaneId) : (s.takeMeterFault l).accounts = s.accounts := by
  simp only [Block.takeMeterFault, Block.markFault]; split_ifs <;> simp

theorem Block.clearInFlight_stands (s : Block) (l : LaneId) : Stands s.accounts (s.clearInFlight l).accounts := by
  rw [s.clearInFlight_accounts]
  exact letGoBy_stands _ _

theorem Block.endGrant_stands (s : Block) (l : LaneId) (c : EndCause) : Stands s.accounts (s.endGrant l c).accounts :=
  Block.clearInFlight_stands _ l

theorem Block.lanesSpill_stands (s : Block) : Stands s.accounts s.lanesSpill.accounts := by
  rw [s.lanesSpill_accounts]
  exact letGoBy_stands _ _

theorem Block.lanesPanelLost_stands (s : Block) : Stands s.accounts s.lanesPanelLost.accounts := by
  refine Stands.foldl (fun s l => ?_) _ (.refl _)
  unfold Block.lanePanelLost
  split_ifs
  · exact s.endGrant_stands l _
  · exact .refl _

/-- The end of an event lets go of the grants that it ends DRY. -/
theorem Block.finish_stands (before s : Block) : Stands s.accounts (Block.finish before s).accounts := by
  rw [(Block.finish_end before s).accounts, s.evalTanks_accounts]
  exact letGoBy_stands _ _

/-! ## The spill unit (chapter 5) -/

@[simp] theorem Block.withdraw_accounts (s : Block) (k : Contender) : (s.withdraw k).accounts = s.accounts := by
  simp only [Block.withdraw]; split <;> rfl

@[simp] theorem Block.enterNormal_accounts (s : Block) (z : ZoneId) : (s.enterNormal z).accounts = s.accounts := by
  simp only [Block.enterNormal]; split <;> rfl

@[simp] theorem Block.clearSent_accounts (s : Block) (z : ZoneId) (e c : Nat) :
    (s.clearSent z e c).accounts = s.accounts := by
  simp only [Block.clearSent]
  split
  · split <;> rfl
  · split <;> simp
  · rfl

@[simp] theorem Block.becomeSender_accounts (s : Block) (z : ZoneId) : (s.becomeSender z).accounts = s.accounts := by
  have h : ∀ (b : Block) (e : Nat), b.accounts = s.accounts →
      (if b.isolated then b.clearSent z e 1 else b.offer (.clear z e 1)).accounts = s.accounts := by
    intro b e hb
    split <;> simp [hb]
  exact h _ _ (by simp [Block.withdrawTrip])

@[simp] theorem Block.becomeReceiver_accounts (s : Block) (z : ZoneId) (n : StationId) :
    (s.becomeReceiver z n).accounts = s.accounts := by
  simp [Block.becomeReceiver, Block.withdrawTrip]

@[simp] theorem Block.turnKey_accounts (s : Block) : s.turnKey.accounts = s.accounts := by
  simp only [Block.turnKey]
  split
  · rfl
  · split_ifs <;> simp

@[simp] theorem Block.takeCopy1_accounts (s : Block) (n : StationId) (z : ZoneId) (e : Nat) :
    (s.takeCopy1 n z e).accounts = s.accounts := by
  simp only [Block.takeCopy1, Block.withdrawClear]; split_ifs
  · rfl
  · split <;> simp

@[simp] theorem Block.endWait_accounts (s : Block) (z : ZoneId) : (s.endWait z).accounts = s.accounts := by
  simp only [Block.endWait]; split <;> rfl

theorem Block.leaveNormal_stands (s : Block) (z : ZoneId) (x : ZoneState) :
    Stands s.accounts (s.leaveNormal z x).accounts := by
  unfold Block.leaveNormal
  split_ifs
  · exact Block.lanesSpill_stands (s.setSpill { s.spill with settle := .rest })
  · exact .refl _

@[simp] theorem Block.abandon_accounts (s : Block) (z : ZoneId) : (s.abandon z).accounts = s.accounts := by
  unfold Block.abandon Block.withdrawClear; split <;> simp

theorem Block.enterTripped_stands (s : Block) (z : ZoneId) (e : Nat) (c : TripCause) (n : StationId) :
    Stands s.accounts (s.enterTripped z e c n).accounts := by
  have h := Block.leaveNormal_stands ((s.abandon z).setView z
    { state := .tripped, epoch := e, cause := c, origin := some n, held := none, clearing := none }) z (s.view z).state
  rw [Block.setView_accounts, Block.abandon_accounts] at h
  simp only [Block.enterTripped]
  split_ifs <;> exact h

theorem Block.tripZone_stands (s : Block) (z : ZoneId) (c : TripCause) :
    Stands s.accounts (s.tripZone z c).accounts := by
  have h := Block.leaveNormal_stands ((s.abandon z).setView z
    { state := .tripped, epoch := s.nextEpoch z, cause := c, origin := some s.number, held := none, clearing := none })
    z (s.view z).state
  rw [Block.setView_accounts, Block.abandon_accounts] at h
  simp only [Block.tripZone]
  split_ifs <;> exact h

theorem Block.present_stands (s : Block) (z : ZoneId) (c : TripCause) : Stands s.accounts (s.present z c).accounts := by
  unfold Block.present
  split
  · exact s.tripZone_stands z c
  · exact s.tripZone_stands z c
  · exact .refl _
  · exact .refl _

theorem Block.presentOwn_stands (s : Block) (c : TripCause) : Stands s.accounts (s.presentOwn c).accounts := by
  unfold Block.presentOwn
  split
  · exact s.present_stands _ c
  · exact .refl _

theorem Block.endInterval_stands (s : Block) (z : ZoneId) : Stands s.accounts (s.endInterval z).accounts := by
  simp only [Block.endInterval]
  split
  · split_ifs
    · rw [Block.clearSent_accounts]; exact .refl _
    · exact .refl _
    · exact s.tripZone_stands z _
  · exact .refl _

theorem Block.takeCopy2_stands (s : Block) (n : StationId) (z : ZoneId) (e : Nat) :
    Stands s.accounts (s.takeCopy2 n z e).accounts := by
  simp only [Block.takeCopy2]
  split
  · split_ifs
    · rw [Block.enterNormal_accounts]; exact .refl _
    · exact s.tripZone_stands z _
    · exact .refl _
  · exact .refl _

theorem Block.takeTrip_stands (s : Block) (n : StationId) (z : ZoneId) (e : Nat) (c : TripCause) :
    Stands s.accounts (s.takeTrip n z e c).accounts := by
  simp only [Block.takeTrip]
  split
  · exact s.enterTripped_stands z _ c n
  all_goals
    split_ifs
    · exact s.enterTripped_stands z _ c n
    · exact .refl _

theorem Block.takeZoneReport_stands (s : Block) (n : StationId) (z : ZoneId) (r : ZoneReport) :
    Stands s.accounts (s.takeZoneReport n z r).accounts := by
  simp only [Block.takeZoneReport]
  split
  · split
    · exact s.enterTripped_stands z _ _ n
    · split
      · exact s.enterTripped_stands z _ _ n
      · exact .refl _
  · split
    · split
      · exact s.enterTripped_stands z _ _ n
      · exact .refl _
    · exact .refl _

theorem Block.takeZoneReports_stands (s : Block) (n : StationId) (c : StatusContent) :
    Stands s.accounts (s.takeZoneReports n c).accounts :=
  Stands.foldl (fun s z => s.takeZoneReport_stands n z _) _ (.refl _)

theorem Block.confirmInput_stands (s : Block) (i : InputId) (c : InputCfg) :
    Stands s.accounts (s.confirmInput i c).accounts :=
  Block.present_stands (s.setInput i ⟨.confirmed, .rest⟩) _ _

theorem Block.inputBecomesActive_stands (s : Block) (i : InputId) (c : InputCfg) :
    Stands s.accounts (s.inputBecomesActive i c).accounts := by
  unfold Block.inputBecomesActive
  split_ifs
  · exact s.confirmInput_stands i c
  · exact .refl _
  · exact .refl _

theorem Block.retakeInput_stands (s : Block) (i : InputId) : Stands s.accounts (s.retakeInput i).accounts := by
  simp only [Block.retakeInput]
  split
  · split
    · split
      · exact Block.inputBecomesActive_stands (s.setInput i ⟨.inactive, .rest⟩) i _
      · exact .refl _
    · exact .refl _
  · exact .refl _

theorem Block.startListen_stands (s : Block) : Stands s.accounts s.startListen.accounts :=
  Stands.foldl Block.retakeInput_stands _ (.refl _)

theorem Block.settleView_stands (s : Block) (z : ZoneId) : Stands s.accounts (s.settleView z).accounts := by
  simp only [Block.settleView]
  split
  · split
    · exact s.tripZone_stands z _
    · split
      · exact s.tripZone_stands z _
      · split
        · exact s.tripZone_stands z _
        · exact .refl _
  · exact .refl _

theorem Block.endListen_stands (s : Block) : Stands s.accounts s.endListen.accounts :=
  Stands.foldl Block.settleView_stands _ (.refl _)

/-! ## The tank table (chapter 3) -/

@[simp] theorem Block.rebase_accounts (s : Block) (t : TankId) (c : TankCfg) (g time carried : Nat) :
    (s.rebase t c g time carried).accounts = s.accounts := by
  simp only [Block.rebase]; split_ifs <;> rfl

@[simp] theorem Block.useReading_accounts (s : Block) (t : TankId) (c : TankCfg) (g time : Nat) :
    (s.useReading t c g time).accounts = s.accounts := by
  simp only [Block.useReading, Block.endDelivery]; split_ifs <;> simp

theorem Block.goodReading_stands (s : Block) (t : TankId) (c : TankCfg) (g : Nat) (high highHigh : Bool) :
    Stands s.accounts (s.goodReading t c g high highHigh).accounts := by
  have h : ∀ v : TankView, Stands s.accounts ((s.setTank t v).present c.zone .highHigh).accounts :=
    fun v => Block.present_stands (s.setTank t v) _ _
  simp only [Block.goodReading]
  split_ifs <;> simp only [Block.modTank_eq, Block.setTank_accounts, Block.offer_accounts, Block.useReading_accounts]
  · exact h _
  · exact h _
  · exact .refl _
  · exact .refl _

theorem Block.takeReading_stands (s : Block) (i : InputId) (r : GaugeReading) :
    Stands s.accounts (s.takeReading i r).accounts := by
  unfold Block.takeReading
  split
  · split
    · split_ifs
      · split
        · exact .refl _
        · exact s.goodReading_stands _ _ _ _ _
      · exact .refl _
    · exact .refl _
  · exact .refl _

@[simp] theorem Block.takeStock_accounts (s : Block) (n : StationId) (f : StockContent) :
    (s.takeStock n f).accounts = s.accounts := by
  simp only [Block.takeStock]
  split
  · split_ifs <;> simp
  · rfl

@[simp] theorem Block.postHeard_accounts (s : Block) (c : DrawContent) (k : Option Nat) :
    (s.postHeard c k).accounts = s.accounts := by
  unfold Block.postHeard; split <;> rfl

theorem Block.restartTanks_stands (s : Block) : Stands s.accounts s.restartTanks.accounts := by
  refine Stands.foldl (fun s t => ?_) _ (.refl _)
  simp only [Block.restartTank]
  split_ifs <;> exact .refl _

/-! ## The bay link (chapters 6 and 7) -/

@[simp] theorem Block.isolate_accounts (s : Block) (c : IsolationCause) : (s.isolate c).accounts = s.accounts := by
  have hfold : ∀ (xs : List (ZoneId × Nat × Nat)) (b : Block),
      (xs.foldl (fun b x => b.clearSent x.1 x.2.1 x.2.2) b).accounts = b.accounts :=
    fun xs b => List.foldlRecOn (motive := fun c : Block => c.accounts = b.accounts) xs _ rfl fun c hc x _ =>
      (c.clearSent_accounts _ _ _).trans hc
  simp only [Block.isolate]
  split_ifs
  · rfl
  · rw [Block.raise_accounts, hfold]; rfl

@[simp] theorem Block.countConflict_accounts (s : Block) : s.countConflict.accounts = s.accounts := by
  simp only [Block.countConflict]; split_ifs <;> simp

@[simp] theorem Block.contend_accounts (s : Block) : s.contend.accounts = s.accounts := by
  simp only [Block.contend]; split_ifs <;> rfl

@[simp] theorem Block.win_accounts (s : Block) : s.win.accounts = s.accounts := by
  simp only [Block.win]
  split
  · rfl
  · rfl
  · split <;> rfl

@[simp] theorem Block.completeFrame_accounts (s : Block) : s.completeFrame.accounts = s.accounts := by
  simp only [Block.completeFrame]
  split
  · rfl
  · split
    · rfl
    · simp only [Block.entrySent]
      split
      · rfl
      · simp
      · rfl
      · split <;> rfl

@[simp] theorem Block.conflict_accounts (s : Block) : s.conflict.accounts = s.accounts := by
  simp only [Block.conflict]
  split
  · rfl
  · rw [Block.countConflict_accounts]
    split <;> rfl

@[simp] theorem Block.endPeriod_accounts (s : Block) : s.endPeriod.accounts = s.accounts := by
  simp only [Block.endPeriod]; split_ifs <;> rfl

@[simp] theorem Block.endHoldOff_accounts (s : Block) : s.endHoldOff.accounts = s.accounts := by
  simp only [Block.endHoldOff]; split_ifs <;> rfl

@[simp] theorem Block.takeInvalid_accounts (s : Block) : s.takeInvalid.accounts = s.accounts := by
  simp only [Block.takeInvalid]; split_ifs <;> rfl

@[simp] theorem Block.takeOwnNumber_accounts (s : Block) : s.takeOwnNumber.accounts = s.accounts := by
  simp only [Block.takeOwnNumber]
  split_ifs
  · rfl
  · rw [Block.countConflict_accounts]; rfl
  · rfl

@[simp] theorem Block.endTest_accounts (s : Block) (x : Option (List Byte)) : (s.endTest x).accounts = s.accounts := by
  simp only [Block.endTest]
  split
  · rfl
  · split_ifs
    · rfl
    · rw [Block.isolate_accounts]; rfl

/-- A frame that is not this station's own reaches the block that takes it, or none. -/
theorem Block.dispatch_grows (s : Block) (n : StationId) {take : Block → Block}
    (h : ∀ b : Block, Grows b.accounts (take b).accounts) : Grows s.accounts (s.dispatch n take).accounts := by
  unfold Block.dispatch
  split_ifs
  · rw [Block.takeOwnNumber_accounts]; exact (Stands.refl _).toGrows
  · exact (Stands.refl _).toGrows
  · exact h s.frameEnded
  · exact (Stands.refl _).toGrows

@[simp] theorem Block.storeChecked_accounts (s : Block) (n : StationId) (x y : RosterEntry) :
    (s.storeChecked n x y).accounts = s.accounts := by
  simp only [Block.storeChecked]; split_ifs <;> rfl

@[simp] theorem Block.compareClock_accounts (s : Block) (n : StationId) (t : Nat) :
    (s.compareClock n t).accounts = s.accounts := by
  simp only [Block.compareClock]; split_ifs <;> rfl

@[simp] theorem Block.clockSecond_accounts (s : Block) : s.clockSecond.accounts = s.accounts := by
  unfold Block.clockSecond; split_ifs <;> rfl

theorem Block.takeStatus_stands (s : Block) (n : StationId) (c : StatusContent) :
    Stands s.accounts (s.takeStatus n c).accounts := by
  have h : ∀ b : Block, b.accounts = s.accounts → Stands s.accounts (b.takeZoneReports n c).accounts :=
    fun b hb => hb ▸ b.takeZoneReports_stands n c
  exact h _ (by simp)

theorem Block.takeDraw_grows (s : Block) (n : StationId) (c : DrawContent) :
    Grows s.accounts (s.takeDraw n c).accounts := by
  have h : ∀ (b : Block) (k : ClassId) (q : Posting), b.accounts = s.accounts →
      Grows s.accounts (b.postHeardAccount k q).accounts := fun b k q hb => hb ▸ b.postHeardAccount_grows k q
  simp only [Block.takeDraw]
  split
  · exact (Stands.refl _).toGrows
  · exact h _ _ _ (by simp)

/-! ## The meter and the nozzle (chapters 1 and 2) -/

@[simp] theorem Block.checkBudget_accounts (s : Block) (l : LaneId) : (s.checkBudget l).accounts = s.accounts := by
  simp only [Block.checkBudget]; split_ifs <;> simp

@[simp] theorem Block.checkReverse_accounts (s : Block) (l : LaneId) : (s.checkReverse l).accounts = s.accounts := by
  unfold Block.checkReverse; split_ifs <;> simp

@[simp] theorem Block.comparePoints_accounts (s : Block) (l : LaneId) (c : LaneCfg) :
    (s.comparePoints l c).accounts = s.accounts := by
  simp only [Block.comparePoints]
  split
  · rfl
  · split_ifs <;> simp

@[simp] theorem Block.actOnPulse_accounts (s : Block) (l : LaneId) (c : LaneCfg) (f : Bool) :
    (s.actOnPulse l c f).accounts = s.accounts := by
  unfold Block.actOnPulse; split_ifs <;> simp

@[simp] theorem Block.sessionPulse_accounts (s : Block) (l : LaneId) (c : LaneCfg) (r : PulseResult) :
    (s.sessionPulse l c r).accounts = s.accounts := by
  simp [Block.sessionPulse, apply_ite Block.accounts]

theorem Block.creepPulse_stands (s : Block) (l : LaneId) (c : LaneCfg) (r : PulseResult) :
    Stands s.accounts (s.creepPulse l c r).accounts := by
  have h : ∀ x, Stands s.accounts ((s.setLane l x).presentOwn .creep).accounts :=
    fun x => Block.presentOwn_stands (s.setLane l x) .creep
  simp only [Block.creepPulse]
  split
  · exact h _
  · exact .refl _

theorem Block.takeAPulse_stands (s : Block) (l : LaneId) (b : Bool) : Stands s.accounts (s.takeAPulse l b).accounts := by
  simp only [Block.takeAPulse]
  split
  · exact .refl _
  · split
    · rw [Block.sessionPulse_accounts]; exact .refl _
    · split
      · exact s.creepPulse_stands l _ _
      · exact .refl _

@[simp] theorem Block.takeBPulse_accounts (s : Block) (l : LaneId) : (s.takeBPulse l).accounts = s.accounts := by
  simp only [Block.takeBPulse]
  split
  · rfl
  · split_ifs <;> simp

@[simp] theorem Block.takeTemperature_accounts (s : Block) (l : LaneId) : (s.takeTemperature l).accounts = s.accounts := by
  simp only [Block.takeTemperature]; split <;> rfl

@[simp] theorem Block.takeSample_accounts (s : Block) (l : LaneId) (v : Sample) :
    (s.takeSample l v).accounts = s.accounts := by
  unfold Block.takeSample; split_ifs <;> simp

@[simp] theorem Block.missSample_accounts (s : Block) (l : LaneId) : (s.missSample l).accounts = s.accounts := by
  unfold Block.missSample; split <;> simp

theorem Block.endWindow_stands (s : Block) (l : LaneId) : Stands s.accounts (s.endWindow l).accounts := by
  have h : ∀ (x : Lane) (run : Nat), Stands s.accounts
      (if 2 ≤ run then (s.setLane l x).presentOwn .excessFlow else s.setLane l x).accounts := by
    intro x run
    split
    · exact Block.presentOwn_stands (s.setLane l x) .excessFlow
    · exact .refl _
  simp only [Block.endWindow]
  split
  · exact .refl _
  · split
    · exact .refl _
    · exact h _ _

@[simp] theorem Block.endCreep_accounts (s : Block) (l : LaneId) : (s.endCreep l).accounts = s.accounts := by
  unfold Block.endCreep; split_ifs <;> rfl

@[simp] theorem Block.takeNozzleOut_accounts (s : Block) (l : LaneId) : (s.takeNozzleOut l).accounts = s.accounts := by
  simp only [Block.takeNozzleOut]
  split
  · rfl
  · split <;> rfl

@[simp] theorem Block.takeNozzleIn_accounts (s : Block) (l : LaneId) : (s.takeNozzleIn l).accounts = s.accounts := by
  simp only [Block.takeNozzleIn]
  split
  · rfl
  · split <;> simp [Block.setNozzlePin]

/-! ## Fill records and RESTART (R25 to R30, R181) -/

theorem Block.postRecordOut_stands (s : Block) (r : FillRecord) : Stands s.accounts (s.postRecordOut r).accounts := by
  have h : ∀ (b : Block) (d : Disposition) (q : Posting) (e : Block → EntryBody), b.accounts = s.accounts →
      Stands s.accounts (if (b.postAccount d q).isolated then b.postAccount d q
        else (b.postAccount d q).offer (e (b.postAccount d q))).accounts := by
    intro b d q e hb
    have hp := b.postAccount_stands d q
    rw [hb] at hp
    split
    · exact hp
    · exact hp
  exact h ((s.setRoster { s.roster with drawSeq := r.seq }).postOwn r.tank r.direction r.net) r.disposition _
    (fun b => .draw (drawOf r _ _ ((b.tank r.tank).ownTotal r.direction))) (by simp [Block.postOwn])

theorem Block.handOff_stands (s : Block) (l : LaneId) : Stands s.accounts (s.handOff l).accounts := by
  have h : ∀ (b : Block) (r : FillRecord), b.accounts = s.accounts →
      Stands s.accounts ((if s.lockOpen then b else b.postRecordOut r).clearInFlight l).accounts := by
    intro b r hb
    rw [← hb]
    split
    · exact b.clearInFlight_stands l
    · exact (b.postRecordOut_stands r).trans (Block.clearInFlight_stands _ l)
  simp only [Block.handOff]
  split
  · exact .refl _
  · exact h _ _ (by simp [Block.pushFill])

theorem Block.endSettle_stands (s : Block) (l : LaneId) : Stands s.accounts (s.endSettle l).accounts := by
  unfold Block.endSettle
  split
  · exact s.handOff_stands l
  · exact .refl _

theorem Block.restartLane_stands (s : Block) (l : LaneId) : Stands s.accounts (s.restartLane l).accounts := by
  have h := Block.handOff_stands (s.takeCause l .restart) l
  rw [Block.takeCause_accounts] at h
  unfold Block.restartLane
  split
  · exact s.endGrant_stands l _
  · exact h
  · exact h
  · exact h
  · exact h
  · exact .refl _

@[simp] theorem Block.restartRoster_accounts (s : Block) : s.restartRoster.accounts = s.accounts := rfl

@[simp] theorem Block.restartLink_accounts (s : Block) : s.restartLink.accounts = s.accounts := rfl

@[simp] theorem Block.beginTest_accounts (s : Block) : s.beginTest.accounts = s.accounts := rfl

theorem Block.restartWork_stands (s : Block) : Stands s.accounts s.restartWork.accounts := by
  have hlanes : Stands s.accounts s.restartLanes.accounts := Stands.foldl Block.restartLane_stands _ (.refl _)
  have htanks := s.restartLanes.restartTanks_stands
  have hlisten := s.restartLanes.restartTanks.startListen_stands
  rw [Block.restartWork, Block.beginTest_accounts, Block.restartLink_accounts, Block.restartRoster_accounts]
  exact hlanes.trans (htanks.trans hlisten)

/-! ## Requests (chapters 8 and 9) -/

theorem Block.authorize_grows (s : Block) (a : Ask) : Grows s.accounts (s.authorize a).1.accounts := by
  unfold Block.authorize
  split
  · exact (Stands.refl _).toGrows
  · split
    · exact (Stands.refl _).toGrows
    · split
      · exact (Stands.refl _).toGrows
      · exact s.accountGrant_grows a.machine a.lane

theorem Block.cancel_stands (s : Block) (l : LaneId) : Stands s.accounts (s.cancel l).1.accounts := by
  unfold Block.cancel
  split
  case h_2 => exact s.endGrant_stands l _
  all_goals simp only [Block.takeCause_accounts]; exact .refl _

theorem serviceRecord_hours (v : Option Nat) (r : MachineRecord) :
    (serviceRecord v r).machine = r.machine ∧ (serviceRecord v r).hours = r.hours := by
  simp only [serviceRecord, MachineRecord.setService]
  split <;> exact ⟨rfl, rfl⟩

theorem Block.serviceDone_stands (s : Block) (m : Nat) (v : Option Nat) :
    Stands s.accounts (s.serviceDone m v).1.accounts := by
  cases hf : s.accounts.find m with
  | none => rw [Block.serviceDone, hf]; exact .refl _
  | some r =>
    obtain ⟨hm, hh⟩ := serviceRecord_hours v r
    have h : Stands s.accounts (s.accounts.update (serviceRecord v r)) :=
      Accounts.update_stands (Accounts.mem_of_find hf).1 hm (hh ▸ .refl _)
    by_cases hv : v = some 0
    · simpa [Block.serviceDone, hf, hv] using h
    · simpa [Block.serviceDone, hf, hv] using h

theorem Block.clearFlags_stands (s : Block) (m : Nat) (named : Byte) :
    Stands s.accounts (s.clearFlags m named).1.accounts := by
  unfold Block.clearFlags
  split
  · exact .refl _
  case h_2 r hf => exact Accounts.update_stands (Accounts.mem_of_find hf).1 rfl (.refl _)

@[simp] theorem Block.takeFill_accounts (s : Block) (again : Bool) : (s.takeFill again).1.accounts = s.accounts := by
  unfold Block.takeFill
  split <;> split <;> rfl

@[simp] theorem Block.readRoster_accounts (s : Block) (clear : Bool) : (s.readRoster clear).1.accounts = s.accounts := by
  simp only [Block.readRoster]; split <;> rfl

@[simp] theorem Block.readAttention_accounts (s : Block) : s.readAttention.1.accounts = s.accounts := by
  simp only [Block.readAttention]
  split
  · rfl
  · split <;> rfl

@[simp] theorem Block.configure_accounts (s : Block) (r : ConfigureReq) : (s.configure r).1.accounts = s.accounts := by
  unfold Block.configure
  split_ifs
  · rfl
  · rfl
  · rfl
  · rfl
  · split <;> rfl

/-- R178: START changes the lanes and the store, and then listens. -/
theorem Block.begin_stands (s : Block) : Stands s.accounts s.begin.accounts := by
  have h : ∀ b : Block, b.accounts = s.accounts → Stands s.accounts b.startListen.beginTest.accounts := by
    intro b hb
    rw [← hb, Block.beginTest_accounts]
    exact b.startListen_stands
  exact h _ (by simp)

theorem Block.start_stands (s : Block) : Stands s.accounts s.start.1.accounts := by
  unfold Block.start
  split
  · exact .refl _
  · split
    · exact .refl _
    · exact s.begin_stands

theorem Block.restart_stands (s : Block) : Stands s.accounts s.restart.1.accounts := by
  unfold Block.restart
  split
  · exact s.restartWork_stands
  · exact .refl _

theorem unlessBad_grows {bad : Bool} {s : Block} {act : Block × Response} (h : Grows s.accounts act.1.accounts) :
    Grows s.accounts (unlessBad bad s act).1.accounts := by
  unfold unlessBad
  split
  · exact (Stands.refl _).toGrows
  · exact h

end Sys2Proof.Machine
end

