-- ==== Sys2Proof/Proofs/AccountInvariants.lean ====
section
/-! The account table over commands: what every event but power-on, ACCOUNT SET and a panel byte makes of it, and the two
statements that follow (R82 to R86, R93 to R96, R106). -/

namespace Sys2Proof.Machine

/-! ## Requests (R164 to R168) -/

@[simp] theorem Block.touchPanel_accounts (s : Block) : s.touchPanel.accounts = s.accounts := rfl

/-- Of the requests, ACCOUNT SET alone can lower hours. -/
theorem Block.doRequest_grows (s : Block) (r : Request) (hr : ∀ q, r ≠ .accountSet q) :
    Grows s.accounts (s.doRequest r).1.accounts := by
  have same : ∀ b : Block, b.accounts = s.accounts → Grows s.accounts b.accounts :=
    fun b hb => (Stands.of_records (congrArg Accounts.records hb)).toGrows
  cases r with
  | authorize a => exact unlessBad_grows (s.authorize_grows _)
  | cancel lane => exact unlessBad_grows (s.cancel_stands _).toGrows
  | laneRead lane => exact unlessBad_grows (same s rfl)
  | takeFill again => exact unlessBad_grows (same _ (s.takeFill_accounts _))
  | meterHealth lane => exact unlessBad_grows (same _ (s.setLane_accounts _ _))
  | tankRead tank => exact unlessBad_grows (same s rfl)
  | accountRead machine => exact same s rfl
  | accountSet q => exact absurd rfl (hr q)
  | serviceDone machine service => exact unlessBad_grows (s.serviceDone_stands _ _).toGrows
  | clearFlags machine flags => exact unlessBad_grows (s.clearFlags_stands _ _).toGrows
  | zoneRead => exact same s rfl
  | rosterRead clear => exact unlessBad_grows (same _ (s.readRoster_accounts _))
  | stationRead => exact same _ (s.setLink_accounts _)
  | timeSet time => exact unlessBad_grows (same _ rfl)
  | readAttention => exact same _ s.readAttention_accounts
  | configure q => exact same _ (s.configure_accounts q)
  | start => exact s.start_stands.toGrows
  | restart => exact s.restart_stands.toGrows

/-- A record takes the place of its machine's, whatever its other items are. -/
theorem Accounts.update_machines (a : Accounts) (x : MachineRecord) :
    (a.update x).records.map (·.machine) = a.records.map (·.machine) := by
  rw [Accounts.update, List.map_map]
  refine List.map_congr_left fun y _ => ?_
  by_cases hy : y.machine = x.machine <;> simp [hy]

theorem Block.setAccount_kept {s : Block} {q : AccountSetReq} (hq : q.machine ≠ 0) (hs : TableKept s.accounts) :
    TableKept (s.setAccount q).1.accounts := by
  unfold Block.setAccount
  split
  · split
    case h_1 => exact hs
    case h_2 a r hf =>
      rw [Block.raiseFlags_accounts]
      exact ((Accounts.findOrCreate_grows hf hq).1.kept hs).of_machines (a.update_machines _)
  · exact hs

/-- R106, R168: machine 0 is out of range. -/
theorem Block.doAccountSet_kept {s : Block} {q : AccountSetReq} (hs : TableKept s.accounts) :
    TableKept (s.doAccountSet q).1.accounts := by
  unfold Block.doAccountSet unlessBad
  split
  · exact hs
  · exact Block.setAccount_kept (by simp_all [badAccountSet]) hs

theorem Block.doRequest_kept {s : Block} (r : Request) (hs : TableKept s.accounts) :
    TableKept (s.doRequest r).1.accounts := by
  by_cases hr : ∃ q, r = .accountSet q
  · obtain ⟨q, rfl⟩ := hr
    exact Block.doAccountSet_kept hs
  · exact (s.doRequest_grows r fun q hq => hr ⟨q, hq⟩).kept hs

/-! ## The panel line (R164, R165) -/

@[simp] theorem Block.shortAnswer_accounts (s : Block) (r : Response) : (s.shortAnswer r).accounts = s.accounts := by
  unfold Block.shortAnswer; split <;> rfl

@[simp] theorem Block.endBadFrame_accounts (s : Block) : s.endBadFrame.accounts = s.accounts :=
  Block.shortAnswer_accounts _ _

@[simp] theorem Block.byteTimeout_accounts (s : Block) : s.byteTimeout.accounts = s.accounts := by
  unfold Block.byteTimeout; split <;> simp

@[simp] theorem Block.panelSent_accounts (s : Block) : s.panelSent.accounts = s.accounts := by
  unfold Block.panelSent; split <;> rfl

@[simp] theorem Block.refuseFrame_accounts (s : Block) (bytes : List Byte) :
    (s.refuseFrame bytes).accounts = s.accounts := by
  unfold Block.refuseFrame; split <;> rfl

theorem Block.handleFrame_kept {s : Block} (bytes : List Byte) (hs : TableKept s.accounts) :
    TableKept (s.handleFrame bytes).accounts := by
  unfold Block.handleFrame
  split
  · exact hs
  · exact hs
  · exact Block.doRequest_kept (s := s.touchPanel) _ hs

theorem Block.endFrame_kept {s : Block} (bytes : List Byte) (hs : TableKept s.accounts) :
    TableKept (s.endFrame bytes).accounts := by
  unfold Block.endFrame
  split
  · split
    · exact Block.handleFrame_kept (s := s.setReceiver .waiting) bytes hs
    · rw [Block.refuseFrame_accounts]; exact hs
  · rw [Block.endBadFrame_accounts]; exact hs

theorem Block.takeByte_kept {s : Block} (b : Byte) (hs : TableKept s.accounts) : TableKept (s.takeByte b).accounts := by
  unfold Block.takeByte
  split
  · split
    · exact hs
    · exact hs
  · split
    · exact Block.endFrame_kept _ hs
    · exact hs

theorem Block.losePanel_stands (s : Block) : Stands s.accounts s.losePanel.accounts := by
  unfold Block.losePanel
  split
  · exact Block.lanesPanelLost_stands (s.setPanel { s.panel with present := false, presence := .rest })
  · exact .refl _

/-! ## The events of the lanes and of the spill unit -/

theorem Block.lapse_stands (s : Block) (l : LaneId) : Stands s.accounts (s.lapse l).accounts := by
  unfold Block.lapse
  split
  · exact s.endGrant_stands l .lapsed
  · exact .refl _

@[simp] theorem Block.stopNoFlow_accounts (s : Block) (l : LaneId) : (s.stopNoFlow l).accounts = s.accounts := by
  unfold Block.stopNoFlow; split <;> simp

@[simp] theorem Block.stopDuration_accounts (s : Block) (l : LaneId) : (s.stopDuration l).accounts = s.accounts := by
  unfold Block.stopDuration; split <;> simp

theorem Block.inputActive_stands (s : Block) (i : InputId) : Stands s.accounts (s.inputActive i).accounts := by
  simp only [Block.inputActive]
  split
  · split
    · exact Block.inputBecomesActive_stands (s.setInputPin i true) i _
    · exact .refl _
  · exact .refl _

@[simp] theorem Block.inputInactive_accounts (s : Block) (i : InputId) : (s.inputInactive i).accounts = s.accounts := by
  simp only [Block.inputInactive]; split <;> rfl

theorem Block.confirmExpires_stands (s : Block) (i : InputId) : Stands s.accounts (s.confirmExpires i).accounts := by
  unfold Block.confirmExpires
  split
  · split
    · exact s.confirmInput_stands i _
    · exact .refl _
  · exact .refl _

theorem Block.senseLine_stands (s : Block) : Stands s.accounts s.senseLine.accounts := by
  unfold Block.senseLine
  split
  · exact s.presentOwn_stands .zoneLine
  · exact .refl _

theorem Block.zoneLineChanges_stands (s : Block) (x : Bool) : Stands s.accounts (s.zoneLineChanges x).accounts :=
  Block.senseLine_stands (s.setPins { s.pins with zoneLine := x })

theorem Block.endZoneSettle_stands (s : Block) : Stands s.accounts s.endZoneSettle.accounts := by
  unfold Block.endZoneSettle
  split
  · exact Block.senseLine_stands (s.setSpill { s.spill with settle := .rest })
  · exact .refl _

theorem Block.ownIntervalEnds_stands (s : Block) : Stands s.accounts s.ownIntervalEnds.accounts := by
  unfold Block.ownIntervalEnds
  split
  · exact s.endInterval_stands _
  · exact .refl _

theorem Block.listenEnds_stands (s : Block) : Stands s.accounts s.listenEnds.accounts := by
  unfold Block.listenEnds
  split
  · exact s.endListen_stands
  · exact .refl _

/-! ## Events -/

/-- The end of an event makes no record and lowers no hours. -/
theorem event_grows {s t : State} {work : Block → Block} (hw : ∀ b : Block, Grows b.accounts (work b).accounts)
    (h : event s work = .next t) : Grows s.block.accounts t.block.accounts := by
  cases h
  exact (hw s.block).stands (Block.finish_stands _ _)

theorem event_stands {s t : State} {work : Block → Block} (hw : ∀ b : Block, Stands b.accounts (work b).accounts)
    (h : event s work = .next t) : Grows s.block.accounts t.block.accounts :=
  event_grows (fun b => (hw b).toGrows) h

theorem event_same {s t : State} {work : Block → Block} (hw : ∀ b : Block, (work b).accounts = b.accounts)
    (h : event s work = .next t) : Grows s.block.accounts t.block.accounts :=
  event_stands (fun b => .of_records (congrArg Accounts.records (hw b))) h

theorem event_kept {s t : State} {work : Block → Block}
    (hw : ∀ b : Block, TableKept b.accounts → TableKept (work b).accounts) (hs : TableKept s.block.accounts)
    (h : event s work = .next t) : TableKept t.block.accounts := by
  cases h
  exact (Block.finish_stands _ _).kept (hw s.block hs)

theorem event_request_grows {s t : State} (r : Request) (hr : ∀ q, r ≠ .accountSet q)
    (h : (event s fun b => b.request fun x => x.doRequest r) = .next t) : Grows s.block.accounts t.block.accounts :=
  event_grows (work := fun b => b.request fun x => x.doRequest r) (fun b => b.touchPanel.doRequest_grows r hr) h

/-- R176, R185: a CONFIGURE whose body is its kind's is a request; another is answered FRAME_ERROR. -/
def Block.configureRequest (r : ConfigureReq) (s : Block) : Block :=
  if configureBadLength r then Block.answer (s, .frameError) else s.request fun b => b.doConfigure r

theorem Block.configureRequest_grows (r : ConfigureReq) (s : Block) :
    Grows s.accounts (Block.configureRequest r s).accounts := by
  unfold Block.configureRequest
  split
  · exact (Stands.refl _).toGrows
  · exact s.touchPanel.doRequest_grows (.configure r) nofun

/-- But for power-on, ACCOUNT SET and the bytes of the panel line, no event lowers a record's hours. -/
theorem exec_grows {c : Instr} {s t : State} (hp : ∀ straps, c ≠ .powerOnReset straps) (hs : ∀ q, c ≠ .accountSet q)
    (hb : ∀ b, c ≠ .panelByteReceived b) (h : exec c s = .next t) : Grows s.block.accounts t.block.accounts := by
  cases c with
  | powerOnReset straps => exact absurd rfl (hp straps)
  | accountSet q => exact absurd rfl (hs q)
  | panelByteReceived b => exact absurd rfl (hb b)
  | authorize r => exact event_request_grows (.authorize r) nofun h
  | cancel l => exact event_request_grows (.cancel l) nofun h
  | laneRead l => exact event_request_grows (.laneRead l) nofun h
  | takeFill again => exact event_request_grows (.takeFill again) nofun h
  | meterHealth l => exact event_request_grows (.meterHealth l) nofun h
  | tankRead x => exact event_request_grows (.tankRead x) nofun h
  | accountRead m => exact event_request_grows (.accountRead m) nofun h
  | serviceDone m v => exact event_request_grows (.serviceDone m v) nofun h
  | clearFlags m f => exact event_request_grows (.clearFlags m f) nofun h
  | zoneRead => exact event_request_grows .zoneRead nofun h
  | rosterRead x => exact event_request_grows (.rosterRead x) nofun h
  | stationRead => exact event_request_grows .stationRead nofun h
  | timeSet x => exact event_request_grows (.timeSet x) nofun h
  | readAttention => exact event_request_grows .readAttention nofun h
  | start => exact event_request_grows .start nofun h
  | restart => exact event_request_grows .restart nofun h
  | configure r => exact event_grows (Block.configureRequest_grows r) h
  | panelByteTimeout => exact event_same Block.byteTimeout_accounts h
  | panelFrameSent => exact event_same Block.panelSent_accounts h
  | presenceTimerExpiry => exact event_stands Block.losePanel_stands h
  | nozzleOut l => exact event_same (fun b => b.takeNozzleOut_accounts l) h
  | nozzleIn l => exact event_same (fun b => b.takeNozzleIn_accounts l) h
  | aPulse l high => exact event_stands (fun b => b.takeAPulse_stands l high) h
  | bPulse l => exact event_same (fun b => b.takeBPulse_accounts l) h
  | temperatureSample l v => exact event_same (fun b => b.takeSample_accounts l v) h
  | sampleWatchExpiry l => exact event_same (fun b => b.missSample_accounts l) h
  | liftTimerExpiry l => exact event_stands (fun b => b.lapse_stands l) h
  | noFlowExpiry l => exact event_same (fun b => b.stopNoFlow_accounts l) h
  | durationExpiry l => exact event_same (fun b => b.stopDuration_accounts l) h
  | settleExpiry l => exact event_stands (fun b => b.endSettle_stands l) h
  | rateWindowEnd l => exact event_stands (fun b => b.endWindow_stands l) h
  | creepTimerExpiry l => exact event_same (fun b => b.endCreep_accounts l) h
  | spillInputActive i => exact event_stands (fun b => b.inputActive_stands i) h
  | spillInputInactive i => exact event_same (fun b => b.inputInactive_accounts i) h
  | confirmTimerExpiry i => exact event_stands (fun b => b.confirmExpires_stands i) h
  | zoneLineAsserted x => exact event_stands (fun b => b.zoneLineChanges_stands x) h
  | zoneSettleExpiry => exact event_stands Block.endZoneSettle_stands h
  | releaseKey => exact event_same Block.turnKey_accounts h
  | intervalTimerExpiry => exact event_stands Block.ownIntervalEnds_stands h
  | waitTimerExpiry z => exact event_same (fun b => b.endWait_accounts z) h
  | listenTimerExpiry => exact event_stands Block.listenEnds_stands h
  | gaugeReading i r => exact event_stands (fun b => b.takeReading_stands i r) h
  | basisAgeExpiry x => exact event_same (work := fun b => b.modTank x TankView.ageOut) (fun _ => rfl) h
  | stockIntervalExpiry x => exact event_same (work := fun b => b.modTank x TankView.intervalOut) (fun _ => rfl) h
  | idleGapContend => exact event_same Block.contend_accounts h
  | arbitrationWon => exact event_same Block.win_accounts h
  | arbitrationLost => exact event_same (work := fun b => b.lose) (fun _ => rfl) h
  | frameSent => exact event_same Block.completeFrame_accounts h
  | linkConflict => exact event_same Block.conflict_accounts h
  | tripHoldExpiry z => exact event_same (work := fun b => b.endTripHold z) (fun _ => rfl) h
  | statusPeriodExpiry => exact event_same Block.endPeriod_accounts h
  | holdOffExpiry => exact event_same Block.endHoldOff_accounts h
  | invalidFrame => exact event_same Block.takeInvalid_accounts h
  | ownNumberFrame => exact event_same Block.takeOwnNumber_accounts h
  | statusFrame n f => exact event_grows (fun s => s.dispatch_grows n fun b => (b.takeStatus_stands n f).toGrows) h
  | drawFrame n f => exact event_grows (fun s => s.dispatch_grows n fun b => b.takeDraw_grows n f) h
  | stockFrame n f =>
    refine event_grows (fun s => s.dispatch_grows n (take := fun b => b.takeStock n f) fun b => ?_) h
    rw [Block.takeStock_accounts]
    exact (Stands.refl _).toGrows
  | tripFrame n f => exact event_grows (fun s => s.dispatch_grows n fun b => (b.takeTrip_stands n _ _ _).toGrows) h
  | clearCopy1Frame n z e =>
    refine event_grows (fun s => s.dispatch_grows n (take := fun b => b.takeCopy1 n z e) fun b => ?_) h
    rw [Block.takeCopy1_accounts]
    exact (Stands.refl _).toGrows
  | clearCopy2Frame n z e => exact event_grows (fun s => s.dispatch_grows n fun b => (b.takeCopy2_stands n z e).toGrows) h
  | loopbackTestEnd x => exact event_same (fun b => b.endTest_accounts x) h
  | rosterStale n => exact event_same (work := fun b => b.modEntry n RosterEntry.goStale) (fun _ => rfl) h
  | rosterLost n => exact event_same (work := fun b => b.modEntry n RosterEntry.goLost) (fun _ => rfl) h
  | bayClockSecond => exact event_same Block.clockSecond_accounts h
  | calibrationSwitchChange on => exact event_same (work := fun b => b.setCalibration on) (fun _ => rfl) h
  | setPointStep l => exact event_same (work := fun b => b.modLane l Lane.stepSetPoint) (fun _ => rfl) h

/-- Every command keeps the invariant of the table. -/
theorem exec_kept {c : Instr} {s t : State} (hs : TableKept s.block.accounts) (h : exec c s = .next t) :
    TableKept t.block.accounts := by
  by_cases hp : ∃ straps, c = .powerOnReset straps
  · obtain ⟨straps, rfl⟩ := hp
    cases h
    exact ⟨Nat.zero_le _, List.nodup_nil, nofun⟩
  by_cases ha : ∃ q, c = .accountSet q
  · obtain ⟨q, rfl⟩ := ha
    exact event_kept (work := fun b => b.request fun x => x.doAccountSet q)
      (fun b hb => Block.doAccountSet_kept (s := b.touchPanel) hb) hs h
  by_cases hb : ∃ b, c = .panelByteReceived b
  · obtain ⟨b, rfl⟩ := hb
    exact event_kept (work := fun x => x.takeByte b) (fun _ hx => Block.takeByte_kept b hx) hs h
  · exact (exec_grows (not_exists.mp hp) (not_exists.mp ha) (not_exists.mp hb) h).kept hs

/-- Settles O6: each command keeps the table, and a millisecond leaves it alone. -/
theorem tableKeptByEveryStep : Obligations.TableKeptByEveryStep := by
  intro s t hs h
  unfold step at h
  split at h
  · cases h
    exact hs
  case h_2 c rest _ => exact exec_kept (s := { s with pending := rest }) hs h

/-- Settles O11: the record found after the event is the one found before it, with its hours kept. -/
theorem hoursFallOnlyWhenSet : Obligations.HoursFallOnlyWhenSet := by
  intro c s t m h h' r r' hp hset hb hs he hr hr' hh hh'
  obtain ⟨hmem, hm⟩ := Accounts.mem_of_find hr
  obtain ⟨hmem', hm'⟩ := Accounts.mem_of_find hr'
  obtain ⟨k, hk, hle⟩ := (exec_grows hp hset hb he).hours hs r hmem r' hmem' (hm'.trans hm.symm) h hh
  exact hle.trans_eq (Option.some.inj (hk.symm.trans hh'))

end Sys2Proof.Machine
end

