-- ==== Sys2Proof/Proofs/ZoneViews.lean ====
section
/-! The zone views (R110): what each operation of the spill unit makes of them, in the order of the model's files; all
other operations leave them alone. -/

namespace Sys2Proof.Machine

/-! ## Reading the views -/

theorem Block.view_congr {a b : Block} (h : b.spill.views = a.spill.views) (z : ZoneId) : b.view z = a.view z := by
  simp only [Block.view, h]

theorem Block.view_setView_eq (s : Block) (z k : ZoneId) (v : ZoneView) :
    (s.setView z v).view k = if k = z then v else s.view k := by
  by_cases h : k = z
  · subst h; simp
  · rw [Block.view_setView_of_ne _ h, if_neg h]

/-! ## The ends of grants and sessions (R17 to R24) -/

@[simp] theorem Block.takeCause_spill (s : Block) (l : LaneId) (c : EndCause) : (s.takeCause l c).spill = s.spill :=
  (s.takeCause_only l c).spill

@[simp] theorem Block.endGrant_spill (s : Block) (l : LaneId) (c : EndCause) : (s.endGrant l c).spill = s.spill := rfl

@[simp] theorem Block.takeMeterFault_spill (s : Block) (l : LaneId) : (s.takeMeterFault l).spill = s.spill := by
  simp only [Block.takeMeterFault, Block.markFault]; split_ifs <;> simp

theorem foldl_spill {α : Type} {f : Block → α → Block} (h : ∀ s x, (f s x).spill = s.spill) (xs : List α) (s : Block) :
    (xs.foldl f s).spill = s.spill :=
  List.foldlRecOn (motive := fun b : Block => b.spill = s.spill) xs f rfl fun b hb x _ => (h b x).trans hb

theorem Block.lanesSpill_only (s : Block) : LanesOnly s s.lanesSpill := foldl_only Block.laneSpill_only _ s

@[simp] theorem Block.lanesPanelLost_spill (s : Block) : s.lanesPanelLost.spill = s.spill :=
  foldl_spill (fun b l => by simp only [Block.lanePanelLost, Block.endGrantRaising]; split <;> simp) _ s

/-! ## The link's queue -/

/-- R156: a withdrawal is of the link alone. -/
theorem Block.withdraw_eq (s : Block) (k : Contender) : s.withdraw k = s.setLink (s.withdraw k).link := by
  simp only [Block.withdraw]; split <;> rfl

@[simp] theorem Block.withdraw_spill (s : Block) (k : Contender) : (s.withdraw k).spill = s.spill := by
  rw [s.withdraw_eq]; rfl

/-- R128: so is the abandoning of a release, but for the context that the caller writes. -/
theorem Block.abandon_eq (s : Block) (z : ZoneId) : s.abandon z = s.setLink (s.abandon z).link := by
  simp only [Block.abandon, Block.withdrawClear]
  split
  · exact s.withdraw_eq _
  · rfl

@[simp] theorem Block.abandon_spill (s : Block) (z : ZoneId) : (s.abandon z).spill = s.spill := by
  rw [s.abandon_eq]; rfl

/-! ## Trips (R116, R118) -/

@[simp] theorem Block.leaveNormal_views (s : Block) (z : ZoneId) (x : ZoneState) :
    (s.leaveNormal z x).spill.views = s.spill.views := by
  unfold Block.leaveNormal
  split
  · rw [(Block.lanesSpill_only _).spill]; rfl
  · rfl

theorem Block.setView_abandon_views (s : Block) (z : ZoneId) (v : ZoneView) :
    ((s.abandon z).setView z v).spill.views = (s.setView z v).spill.views := by
  rw [s.abandon_eq]; rfl

/-- R116: a trip made here, at the views. -/
theorem Block.tripZone_views (s : Block) (z : ZoneId) (c : TripCause) :
    (s.tripZone z c).spill.views =
      (s.setView z ⟨.tripped, s.nextEpoch z, c, some s.number, none, none⟩).spill.views := by
  simp only [Block.tripZone]
  split <;> simp [Block.setView_abandon_views, Block.offer]

/-- R118, R130: a trip taken from a frame, at the views. -/
theorem Block.enterTripped_views (s : Block) (z : ZoneId) (e : Nat) (c : TripCause) (n : StationId) :
    (s.enterTripped z e c n).spill.views = (s.setView z ⟨.tripped, e, c, some n, none, none⟩).spill.views := by
  simp only [Block.enterTripped]
  split <;> simp [Block.setView_abandon_views]

/-! ## The release (R122 to R129) -/

/-- R129: entry to NORMAL, at the views. -/
theorem Block.enterNormal_views (s : Block) (z : ZoneId) :
    (s.enterNormal z).spill.views = (s.setView z { s.view z with state := .normal, clearing := none }).spill.views := by
  simp only [Block.enterNormal]; split <;> rfl

end Sys2Proof.Machine
end

