-- ==== Sys2Proof/Proofs/ZoneEpochs.lean ====
section
/-! Epochs (R110): no operation of the part lowers the epoch of a zone view, and so no event but power-on does. A trip
made here takes the next epoch, which is higher while the epochs are within the range of R110. -/

namespace Sys2Proof.Machine

/-- From one part to the other no view's epoch falls. -/
structure EpochsRise (a b : Block) : Prop where
  le : ∀ z, (a.view z).epoch ≤ (b.view z).epoch

/-- R110: the epochs of the part's service life. -/
def EpochsInRange (s : Block) : Prop := ∀ z, (s.view z).epoch < Config.epochMax

theorem EpochsRise.of_views {a b : Block} (h : b.spill.views = a.spill.views) : EpochsRise a b :=
  ⟨fun z => (congrArg ZoneView.epoch (Block.view_congr h z)).ge⟩

theorem EpochsRise.of_spill {a b : Block} (h : b.spill = a.spill) :
    EpochsRise a b := .of_views (congrArg Spill.views h)

theorem EpochsRise.refl (a : Block) : EpochsRise a a := .of_spill rfl

theorem EpochsRise.trans {a b c : Block} (h : EpochsRise a b) (k : EpochsRise b c) : EpochsRise a c :=
  ⟨fun z => (h.le z).trans (k.le z)⟩

/-- The epochs of two parts are those of two others with their views. -/
theorem EpochsRise.congr {a b c d : Block} (h : EpochsRise b c) (hb : b.spill.views = a.spill.views)
    (hd : d.spill.views = c.spill.views) : EpochsRise a d :=
  (EpochsRise.of_views hb).trans (h.trans (.of_views hd))

/-- The work on `b` raises epochs, and `b` has the spill unit of `a`. -/
theorem EpochsRise.after {a b c : Block} (h : EpochsRise b c) (hb : b.spill = a.spill) : EpochsRise a c :=
  h.congr (congrArg Spill.views hb) rfl

theorem EpochsRise.foldl {α : Type} {f : Block → α → Block} (hf : ∀ s x, EpochsRise s (f s x)) (xs : List α)
    (s : Block) :
    EpochsRise s (xs.foldl f s) :=
  List.foldlRecOn (motive := EpochsRise s) xs f (.refl s) fun b hb x _ => hb.trans (hf b x)

theorem EpochsInRange.of_views {a b : Block} (ha : EpochsInRange a) (h : b.spill.views = a.spill.views) :
    EpochsInRange b := fun z => by rw [Block.view_congr h]; exact ha z

/-- Views that are those of `s` but for one, whose epoch has not fallen. -/
theorem EpochsRise.of_setView {s b : Block} {z : ZoneId} {v : ZoneView}
    (hb : b.spill.views = (s.setView z v).spill.views) (hv : (s.view z).epoch ≤ v.epoch) : EpochsRise s b := by
  refine ⟨fun k => ?_⟩
  rw [Block.view_congr hb, Block.view_setView_eq]
  split
  case isTrue e => subst e; exact hv
  case isFalse => exact le_rfl

/-! ## The spill unit (chapter 5) -/

theorem Block.le_nextEpoch {s : Block} {z : ZoneId} (h : (s.view z).epoch < Config.epochMax) :
    (s.view z).epoch ≤ s.nextEpoch z := by
  rw [Block.nextEpoch, if_pos h]; exact Nat.le_succ _

theorem Block.tripZone_rise {s : Block} {z : ZoneId} (h : (s.view z).epoch < Config.epochMax) (c : TripCause) :
    EpochsRise s (s.tripZone z c) :=
  .of_setView (s.tripZone_views z c) (Block.le_nextEpoch h)

theorem Block.enterTripped_rise {s : Block} {z : ZoneId} {e : Nat} (h : (s.view z).epoch ≤ e) (c : TripCause)
    (n : StationId) : EpochsRise s (s.enterTripped z e c n) :=
  .of_setView (s.enterTripped_views z e c n) h

theorem Block.setView_rise {s : Block} {z : ZoneId} {v : ZoneView} (h : (s.view z).epoch ≤ v.epoch) :
    EpochsRise s (s.setView z v) := .of_setView rfl h

theorem Block.setView_withdraw_rise {s : Block} {z : ZoneId} {v : ZoneView} (h : (s.view z).epoch ≤ v.epoch)
    (k : Contender) : EpochsRise s ((s.setView z v).withdraw k) :=
  .of_setView (by rw [Block.withdraw_spill]) h

theorem Block.present_rise {s : Block} (hs : EpochsInRange s) (z : ZoneId) (c : TripCause) :
    EpochsRise s (s.present z c) := by
  unfold Block.present
  split
  · exact Block.tripZone_rise (hs z) c
  · exact Block.tripZone_rise (hs z) c
  · exact Block.setView_rise le_rfl
  · exact Block.setView_rise le_rfl

theorem Block.presentOwn_rise {s : Block} (hs : EpochsInRange s) (c : TripCause) : EpochsRise s (s.presentOwn c) := by
  unfold Block.presentOwn
  split
  · exact Block.present_rise hs _ c
  · exact .refl s

theorem Block.enterNormal_rise (s : Block) (z : ZoneId) : EpochsRise s (s.enterNormal z) :=
  .of_setView (s.enterNormal_views z) le_rfl

theorem Block.clearSent_rise (s : Block) (z : ZoneId) (e c : Nat) : EpochsRise s (s.clearSent z e c) := by
  simp only [Block.clearSent]
  split
  · split
    · exact Block.setView_rise le_rfl
    · exact .refl s
  · split
    · exact s.enterNormal_rise z
    · exact .refl s
  · exact .refl s

theorem Block.becomeSender_rise (s : Block) (z : ZoneId) : EpochsRise s (s.becomeSender z) := by
  have h : ∀ (b : Block) (e : Nat), EpochsRise s b →
      EpochsRise s (if b.isolated then b.clearSent z e 1 else b.offer (.clear z e 1)) := by
    intro b e hb
    split
    · exact hb.trans (b.clearSent_rise z e 1)
    · exact hb.congr rfl rfl
  simp only [Block.becomeSender, Block.modView_eq, Block.withdrawTrip]
  refine h _ _ (Block.setView_withdraw_rise ?_ _)
  exact le_rfl

theorem Block.becomeReceiver_rise (s : Block) (z : ZoneId) (n : StationId) : EpochsRise s (s.becomeReceiver z n) := by
  simp only [Block.becomeReceiver, Block.modView_eq, Block.withdrawTrip]
  refine Block.setView_withdraw_rise ?_ _
  exact le_rfl

theorem Block.turnKey_rise (s : Block) : EpochsRise s s.turnKey := by
  simp only [Block.turnKey]
  split
  · exact .refl s
  · split_ifs
    · exact s.becomeSender_rise _
    · exact .of_spill rfl
    · exact .refl s

theorem Block.endInterval_rise {s : Block} (hs : EpochsInRange s) (z : ZoneId) : EpochsRise s (s.endInterval z) := by
  have copy2 : ∀ (b : Block) (e : Nat), EpochsRise s b →
      EpochsRise s (if b.isolated then b.clearSent z e 2 else b.offer (.clear z e 2)) := by
    intro b e hb
    split
    · exact hb.trans (b.clearSent_rise z e 2)
    · exact hb.congr rfl rfl
  simp only [Block.endInterval]
  split
  · split
    · exact copy2 _ _ (Block.setView_rise le_rfl)
    · exact Block.tripZone_rise (hs z) _
  · exact .refl s

theorem Block.takeCopy1_rise (s : Block) (n : StationId) (z : ZoneId) (e : Nat) :
    EpochsRise s (s.takeCopy1 n z e) := by
  simp only [Block.takeCopy1]
  split
  · exact .refl s
  · split
    · exact s.becomeReceiver_rise z n
    · exact (Block.becomeReceiver_rise _ z n).after (s.withdraw_spill _)
    · exact s.becomeReceiver_rise z n
    · exact .refl s

theorem Block.takeCopy2_rise {s : Block} (hs : EpochsInRange s) (n : StationId) (z : ZoneId) (e : Nat) :
    EpochsRise s (s.takeCopy2 n z e) := by
  simp only [Block.takeCopy2]
  split
  · split_ifs
    · exact s.enterNormal_rise z
    · exact Block.tripZone_rise (hs z) _
    · exact .refl s
  · exact .refl s

theorem Block.endWait_rise (s : Block) (z : ZoneId) : EpochsRise s (s.endWait z) := by
  simp only [Block.endWait]
  split
  · exact (Block.setView_rise (v := { s.view z with state := .tripped, clearing := none }) le_rfl).congr rfl rfl
  · exact .refl s

theorem Block.takeTrip_rise (s : Block) (n : StationId) (z : ZoneId) (e : Nat) (c : TripCause) :
    EpochsRise s (s.takeTrip n z e c) := by
  have taken : ∀ {P : Prop} [Decidable P], (P → (s.view z).epoch ≤ e) →
      EpochsRise s (if P then s.enterTripped z e c n else s) := by
    intro P _ h
    split
    case isTrue hp => exact Block.enterTripped_rise (h hp) c n
    case isFalse => exact .refl s
  simp only [Block.takeTrip]
  split
  · exact Block.enterTripped_rise (le_max_left _ _) c n
  · exact taken id
  · exact taken id
  · exact taken le_of_lt

theorem Block.takeZoneReport_rise (s : Block) (n : StationId) (z : ZoneId) (r : ZoneReport) :
    EpochsRise s (s.takeZoneReport n z r) := by
  simp only [Block.takeZoneReport]
  split
  · split
    · exact Block.enterTripped_rise (le_max_left _ _) _ n
    · split
      case isTrue h => exact Block.enterTripped_rise h.le _ n
      case isFalse => exact .refl s
  · split
    case isTrue h =>
      split
      · exact Block.enterTripped_rise h.le _ n
      · exact Block.setView_rise (v := { s.view z with epoch := r.epoch }) h.le
    case isFalse => exact .refl s

/-- R113: an input that is confirmed presents its source, once. -/
theorem Block.confirmInput_rise {s : Block} (hs : EpochsInRange s) (i : InputId) (c : InputCfg) :
    EpochsRise s (s.confirmInput i c) :=
  (Block.present_rise (s := s.setInput i ⟨.confirmed, .rest⟩) (hs.of_views rfl) _ _).congr rfl rfl

theorem Block.inputBecomesActive_rise {s : Block} (hs : EpochsInRange s) (i : InputId) (c : InputCfg) :
    EpochsRise s (s.inputBecomesActive i c) := by
  unfold Block.inputBecomesActive
  split_ifs
  · exact Block.confirmInput_rise hs i c
  · exact .of_views rfl
  · exact .refl s

/-! ## The start and the end of the listen (R131) -/

/-- Every view is STARTING with its epoch, cause and no clearing context; a source presented meanwhile is held. -/
structure Listening (a b : Block) : Prop where
  state : ∀ z, (b.view z).state = .starting
  epoch : ∀ z, (b.view z).epoch = (a.view z).epoch
  cause : ∀ z, (b.view z).cause = (a.view z).cause
  clearing : ∀ z, (b.view z).clearing = none

theorem Listening.of_views {a b c : Block} (h : Listening a b) (hv : c.spill.views = b.spill.views) :
    Listening a c := by
  have e := Block.view_congr hv
  exact ⟨fun z => by rw [e]; exact h.state z, fun z => by rw [e]; exact h.epoch z, fun z => by rw [e]; exact h.cause z,
    fun z => by rw [e]; exact h.clearing z⟩

/-- R114: on a STARTING view a source is held, and nothing more. -/
theorem Block.present_starting {s : Block} {z : ZoneId} (h : (s.view z).state = .starting) (c : TripCause) :
    s.present z c = s.setView z { s.view z with held := some c } := by
  simp only [Block.present, h, Block.modView_eq]

theorem Listening.present {a b : Block} (h : Listening a b) (z : ZoneId) (c : TripCause) :
    Listening a (b.present z c) := by
  rw [Block.present_starting (h.state z)]
  have held : ∀ {β : Type} (f : ZoneView → β), f { b.view z with held := some c } = f (b.view z) →
      ∀ k, f ((b.setView z { b.view z with held := some c }).view k) = f (b.view k) := by
    intro β f hf k
    rw [Block.view_setView_eq]
    split
    case isTrue e => subst e; exact hf
    case isFalse => rfl
  exact ⟨fun k => (held (·.state) rfl k).trans (h.state k), fun k => (held (·.epoch) rfl k).trans (h.epoch k),
    fun k => (held (·.cause) rfl k).trans (h.cause k), fun k => (held (·.clearing) rfl k).trans (h.clearing k)⟩

theorem Listening.retakeInput {a b : Block} (h : Listening a b) (i : InputId) : Listening a (b.retakeInput i) := by
  have active : ∀ (x : Block) (c : InputCfg), Listening a x → Listening a (x.inputBecomesActive i c) := by
    intro x c hx
    unfold Block.inputBecomesActive
    split_ifs
    · exact (hx.of_views (c := x.setInput i ⟨.confirmed, .rest⟩) rfl).present _ _
    · exact hx.of_views rfl
    · exact hx
  simp only [Block.retakeInput]
  split
  · split_ifs
    · exact active _ _ (h.of_views rfl)
    · exact h.of_views rfl
    · exact h
  · exact h

/-- R113, R131, R178: the views as the listen starts. -/
theorem Block.startListen_listening (s : Block) : Listening s s.startListen := by
  have hv : ∀ z, Block.view (s.setSpill { s.spill with
      views := Vector.ofFn fun z => { s.view z with state := .starting, held := none, clearing := none }
      settle := .rest, listen := .run Config.listenMs }) z =
      { s.view z with state := .starting, held := none, clearing := none } := fun z => by simp [Block.view, Block.setSpill]
  rw [Block.startListen]
  exact List.foldlRecOn (motive := Listening s) allInputs _
    ⟨fun z => by rw [hv], fun z => by rw [hv], fun z => by rw [hv], fun z => by rw [hv]⟩ fun b hb i _ => hb.retakeInput i

theorem Block.startListen_rise (s : Block) : EpochsRise s s.startListen :=
  ⟨fun z => (s.startListen_listening.epoch z).ge⟩

/-- R131: the settling of a view is of that view alone. -/
theorem Block.settleView_views (s : Block) (z : ZoneId) :
    ∃ v, (s.settleView z).spill.views = (s.setView z v).spill.views ∧ (v.epoch = s.nextEpoch z ∨ v = s.view z ∨
      v = { s.view z with state := .normal }) := by
  have trip := fun c => (⟨_, s.tripZone_views z c, .inl rfl⟩ :
    ∃ v, (s.tripZone z c).spill.views = (s.setView z v).spill.views ∧ (v.epoch = s.nextEpoch z ∨ v = s.view z ∨
      v = { s.view z with state := .normal }))
  simp only [Block.settleView]
  split
  · split
    · exact trip _
    · split_ifs
      · exact trip _
      · exact trip _
      · exact ⟨_, rfl, .inr (.inr rfl)⟩
  · exact ⟨_, by simp [Block.setView, Block.view], .inr (.inl rfl)⟩

/-- R131: each view is settled once, so that each is tripped from the epoch that it had. -/
theorem Block.settleViews_rise {zs : List ZoneId} (hn : zs.Nodup) {s : Block}
    (hs : ∀ z ∈ zs, (s.view z).epoch < Config.epochMax) : EpochsRise s (zs.foldl Block.settleView s) := by
  induction zs generalizing s with
  | nil => exact .refl s
  | cons z zs ih =>
    obtain ⟨hz, hn⟩ := List.nodup_cons.mp hn
    obtain ⟨v, hv, he⟩ := s.settleView_views z
    have rise : EpochsRise s (s.settleView z) := .of_setView hv <| by
      rcases he with he | he | he
      · exact he ▸ Block.le_nextEpoch (hs z (List.mem_cons_self ..))
      · exact he ▸ le_rfl
      · exact he ▸ le_rfl
    refine rise.trans (ih hn fun k hk => ?_)
    rw [Block.view_congr hv, Block.view_setView_of_ne _ (ne_of_mem_of_not_mem hk hz)]
    exact hs k (List.mem_cons_of_mem _ hk)

theorem Block.endListen_rise {s : Block} (hs : EpochsInRange s) : EpochsRise s s.endListen := by
  have settled : ∀ b : Block, b.spill.views = s.spill.views → EpochsRise s (allZones.foldl Block.settleView b) :=
    fun b hb => (Block.settleViews_rise (by decide) fun z _ => hs.of_views hb z).congr hb rfl
  exact settled _ rfl

end Sys2Proof.Machine
end

