-- ==== Sys2Proof/Proofs/SpillUnitFrame.lean ====
section
/-! The spill unit over the operations that are not its own, in the order of the model's files: tanks, link, roster,
meter, records, requests and the panel line leave it alone, but for the sources they present. -/

namespace Sys2Proof.Machine

/-! ## The tank table (chapter 3) -/

@[simp] theorem Block.rebase_spill (s : Block) (t : TankId) (c : TankCfg) (g time carried : Nat) :
    (s.rebase t c g time carried).spill = s.spill := by
  simp only [Block.rebase]; split <;> rfl

@[simp] theorem Block.useReading_spill (s : Block) (t : TankId) (c : TankCfg) (g time : Nat) :
    (s.useReading t c g time).spill = s.spill := by
  simp only [Block.useReading, Block.endDelivery]; split_ifs <;> simp

@[simp] theorem Block.takeStock_spill (s : Block) (n : StationId) (f : StockContent) :
    (s.takeStock n f).spill = s.spill := by
  simp only [Block.takeStock]
  split
  · split_ifs <;> simp
  · rfl

@[simp] theorem Block.postHeard_spill (s : Block) (c : DrawContent) (k : Option Nat) :
    (s.postHeard c k).spill = s.spill := by
  unfold Block.postHeard; split <;> rfl

@[simp] theorem Block.restartTanks_spill (s : Block) : s.restartTanks.spill = s.spill :=
  foldl_spill (fun b t => by simp only [Block.restartTank]; split <;> rfl) _ s

/-! ## The account table (chapter 4) -/

@[simp] theorem Block.raiseFlags_spill (s : Block) (m : Nat) (x y : Byte) : (s.raiseFlags m x y).spill = s.spill :=
  foldl_spill (f := fun b _ => b.raise .accountFlag m) (fun _ _ => rfl) _ s

@[simp] theorem Block.postAccount_spill (s : Block) (d : Disposition) (q : Posting) :
    (s.postAccount d q).spill = s.spill := by
  unfold Block.postAccount
  split
  · rfl
  · rfl
  · split
    · simp [Block.postTo]
    · rfl

@[simp] theorem Block.postHeardAccount_spill (s : Block) (c : ClassId) (q : Posting) :
    (s.postHeardAccount c q).spill = s.spill := by
  unfold Block.postHeardAccount
  split
  · rfl
  · split
    · simp [Block.postTo]
    · rfl

@[simp] theorem Block.accountGrant_spill (s : Block) (m : Nat) (l : LaneId) :
    (s.accountGrant m l).1.spill = s.spill := by
  unfold Block.accountGrant
  split
  · rfl
  · split <;> rfl

/-! ## The bay link and the roster (chapters 6 and 7) -/

@[simp] theorem Block.contend_spill (s : Block) : s.contend.spill = s.spill := by
  simp only [Block.contend]; split <;> rfl

@[simp] theorem Block.win_spill (s : Block) : s.win.spill = s.spill := by
  simp only [Block.win]
  split
  · rfl
  · rfl
  · split <;> rfl

@[simp] theorem Block.endPeriod_spill (s : Block) : s.endPeriod.spill = s.spill := by
  simp only [Block.endPeriod]; split <;> rfl

@[simp] theorem Block.endHoldOff_spill (s : Block) : s.endHoldOff.spill = s.spill := by
  simp only [Block.endHoldOff]; split <;> rfl

@[simp] theorem Block.takeInvalid_spill (s : Block) : s.takeInvalid.spill = s.spill := by
  simp only [Block.takeInvalid]; split_ifs <;> rfl

@[simp] theorem Block.storeChecked_spill (s : Block) (n : StationId) (x y : RosterEntry) :
    (s.storeChecked n x y).spill = s.spill := by
  simp only [Block.storeChecked]; split <;> rfl

@[simp] theorem Block.compareClock_spill (s : Block) (n : StationId) (t : Nat) :
    (s.compareClock n t).spill = s.spill := by
  simp only [Block.compareClock]; split_ifs <;> rfl

@[simp] theorem Block.clockSecond_spill (s : Block) : s.clockSecond.spill = s.spill := by
  unfold Block.clockSecond; split <;> rfl

@[simp] theorem Block.takeDraw_spill (s : Block) (n : StationId) (c : DrawContent) :
    (s.takeDraw n c).spill = s.spill := by
  simp only [Block.takeDraw]
  split
  · rfl
  · simp

/-! ## The meter and the nozzle (chapters 1 and 2) -/

@[simp] theorem Block.checkBudget_spill (s : Block) (l : LaneId) : (s.checkBudget l).spill = s.spill := by
  simp only [Block.checkBudget]; split <;> simp

@[simp] theorem Block.checkReverse_spill (s : Block) (l : LaneId) : (s.checkReverse l).spill = s.spill := by
  unfold Block.checkReverse; split <;> simp

@[simp] theorem Block.comparePoints_spill (s : Block) (l : LaneId) (c : LaneCfg) :
    (s.comparePoints l c).spill = s.spill := by
  simp only [Block.comparePoints]
  split
  · rfl
  · split_ifs <;> simp

@[simp] theorem Block.actOnPulse_spill (s : Block) (l : LaneId) (c : LaneCfg) (f : Bool) :
    (s.actOnPulse l c f).spill = s.spill := by
  unfold Block.actOnPulse; split_ifs <;> simp

@[simp] theorem Block.sessionPulse_spill (s : Block) (l : LaneId) (c : LaneCfg) (r : PulseResult) :
    (s.sessionPulse l c r).spill = s.spill := by
  simp [Block.sessionPulse, apply_ite Block.spill]

@[simp] theorem Block.takeBPulse_spill (s : Block) (l : LaneId) : (s.takeBPulse l).spill = s.spill := by
  simp only [Block.takeBPulse]
  split
  · rfl
  · split_ifs <;> simp

@[simp] theorem Block.takeTemperature_spill (s : Block) (l : LaneId) : (s.takeTemperature l).spill = s.spill := by
  simp only [Block.takeTemperature]; split <;> rfl

@[simp] theorem Block.takeSample_spill (s : Block) (l : LaneId) (v : Sample) : (s.takeSample l v).spill = s.spill := by
  unfold Block.takeSample; split <;> simp

@[simp] theorem Block.missSample_spill (s : Block) (l : LaneId) : (s.missSample l).spill = s.spill := by
  unfold Block.missSample; split <;> simp

@[simp] theorem Block.endCreep_spill (s : Block) (l : LaneId) : (s.endCreep l).spill = s.spill := by
  unfold Block.endCreep; split <;> rfl

@[simp] theorem Block.takeNozzleOut_spill (s : Block) (l : LaneId) : (s.takeNozzleOut l).spill = s.spill := by
  simp only [Block.takeNozzleOut]
  split
  · rfl
  · split <;> rfl

@[simp] theorem Block.takeNozzleIn_spill (s : Block) (l : LaneId) : (s.takeNozzleIn l).spill = s.spill := by
  simp only [Block.takeNozzleIn]
  split
  · rfl
  · split <;> simp [Block.setNozzlePin]

@[simp] theorem Block.lapse_spill (s : Block) (l : LaneId) : (s.lapse l).spill = s.spill := by
  unfold Block.lapse; split <;> rfl

@[simp] theorem Block.stopNoFlow_spill (s : Block) (l : LaneId) : (s.stopNoFlow l).spill = s.spill := by
  unfold Block.stopNoFlow; split <;> simp

@[simp] theorem Block.stopDuration_spill (s : Block) (l : LaneId) : (s.stopDuration l).spill = s.spill := by
  unfold Block.stopDuration; split <;> simp

/-! ## Fill records (R25 to R30) -/

@[simp] theorem Block.postRecordOut_spill (s : Block) (r : FillRecord) : (s.postRecordOut r).spill = s.spill := by
  simp only [Block.postRecordOut]; split <;> simp [Block.postOwn]

@[simp] theorem Block.handOff_spill (s : Block) (l : LaneId) : (s.handOff l).spill = s.spill := by
  simp only [Block.handOff]
  split
  · rfl
  · simp [Block.clearInFlight, Block.pushFill, apply_ite Block.spill]

@[simp] theorem Block.endSettle_spill (s : Block) (l : LaneId) : (s.endSettle l).spill = s.spill := by
  unfold Block.endSettle; split <;> simp

@[simp] theorem Block.restartLanes_spill (s : Block) : s.restartLanes.spill = s.spill :=
  foldl_spill (fun b l => by unfold Block.restartLane; split <;> simp) _ s

/-! ## Requests and the panel line (chapters 8 and 9) -/

@[simp] theorem Block.cancel_spill (s : Block) (l : LaneId) : (s.cancel l).1.spill = s.spill := by
  unfold Block.cancel; split <;> simp

@[simp] theorem Block.authorize_spill (s : Block) (a : Ask) : (s.authorize a).1.spill = s.spill := by
  unfold Block.authorize
  split
  · rfl
  · split
    · rfl
    · split
      · rfl
      · simp [Block.grant]

@[simp] theorem Block.takeFill_spill (s : Block) (again : Bool) : (s.takeFill again).1.spill = s.spill := by
  unfold Block.takeFill
  split <;> split <;> rfl

@[simp] theorem Block.setAccount_spill (s : Block) (q : AccountSetReq) : (s.setAccount q).1.spill = s.spill := by
  unfold Block.setAccount
  split
  · split <;> simp
  · rfl

@[simp] theorem Block.serviceDone_spill (s : Block) (m : Nat) (v : Option Nat) :
    (s.serviceDone m v).1.spill = s.spill := by
  simp only [Block.serviceDone]
  split
  · rfl
  · split <;> rfl

@[simp] theorem Block.clearFlags_spill (s : Block) (m : Nat) (named : Byte) :
    (s.clearFlags m named).1.spill = s.spill := by
  unfold Block.clearFlags; split <;> rfl

@[simp] theorem Block.readRoster_spill (s : Block) (clear : Bool) : (s.readRoster clear).1.spill = s.spill := by
  simp only [Block.readRoster]; split <;> rfl

@[simp] theorem Block.readAttention_spill (s : Block) : s.readAttention.1.spill = s.spill := by
  simp only [Block.readAttention]
  split
  · rfl
  · split <;> rfl

@[simp] theorem Block.configure_spill (s : Block) (r : ConfigureReq) : (s.configure r).1.spill = s.spill := by
  unfold Block.configure
  split_ifs
  · rfl
  · rfl
  · rfl
  · rfl
  · split <;> rfl

@[simp] theorem unlessBad_spill {bad : Bool} {s : Block} {act : Block × Response} (h : act.1.spill = s.spill) :
    (unlessBad bad s act).1.spill = s.spill := by
  unfold unlessBad; split <;> simp [h]

@[simp] theorem Block.shortAnswer_spill (s : Block) (r : Response) : (s.shortAnswer r).spill = s.spill := by
  unfold Block.shortAnswer; split <;> rfl

@[simp] theorem Block.byteTimeout_spill (s : Block) : s.byteTimeout.spill = s.spill := by
  unfold Block.byteTimeout; split <;> simp [Block.endBadFrame, Block.setReceiver]

@[simp] theorem Block.panelSent_spill (s : Block) : s.panelSent.spill = s.spill := by
  unfold Block.panelSent; split <;> rfl

@[simp] theorem Block.losePanel_spill (s : Block) : s.losePanel.spill = s.spill := by
  unfold Block.losePanel; split <;> simp

end Sys2Proof.Machine
end

