-- ==== Sys2Proof/Proofs/EpochInvariant.lean ====
section
/-! Epochs over commands: what each command makes of them, and the statement that follows (R110). -/

namespace Sys2Proof.Machine

/-! ## Operations of several blocks -/

theorem Block.goodReading_rise {s : Block} (hs : EpochsInRange s) (t : TankId) (c : TankCfg) (g : Nat)
    (high highHigh : Bool) : EpochsRise s (s.goodReading t c g high highHigh) := by
  have presented : ∀ v, EpochsRise s ((s.setTank t v).present c.zone .highHigh) := fun v =>
    (Block.present_rise (s := s.setTank t v) (hs.of_views rfl) _ _).after rfl
  have after : ∀ (b : Block) (P : Prop) [Decidable P] (x : TankView) (e : EntryBody), EpochsRise s b →
      EpochsRise s (if P then ((b.useReading t c g s.now).setTank t x).offer e
        else (b.useReading t c g s.now).setTank t x) := by
    intro b P _ x e hb
    have hu := hb.trans (.of_spill (b.useReading_spill t c g s.now))
    split
    · exact hu.congr rfl rfl
    · exact hu.congr rfl rfl
  simp only [Block.goodReading]
  refine after _ _ _ _ ?_
  split
  · exact presented _
  · exact .of_spill rfl

theorem Block.takeReading_rise {s : Block} (hs : EpochsInRange s) (i : InputId) (r : GaugeReading) :
    EpochsRise s (s.takeReading i r) := by
  unfold Block.takeReading
  split
  · split
    · split
      · split
        · exact .of_spill rfl
        · exact Block.goodReading_rise hs _ _ _ _ _
      · exact .refl s
    · exact .refl s
  · exact .refl s

theorem Block.takeStatus_rise (s : Block) (n : StationId) (c : StatusContent) : EpochsRise s (s.takeStatus n c) := by
  refine (EpochsRise.foldl (fun b z => b.takeZoneReport_rise n z _) _ _).after ?_
  simp

theorem Block.isolate_rise (s : Block) (c : IsolationCause) : EpochsRise s (s.isolate c) := by
  simp only [Block.isolate]
  split
  · exact .refl s
  · refine EpochsRise.trans ?_ (.of_spill (Block.raise_spill ..))
    exact (EpochsRise.foldl (fun b (x : ZoneId × Nat × Nat) => b.clearSent_rise x.1 x.2.1 x.2.2) _ _).after rfl

theorem Block.countConflict_rise (s : Block) : EpochsRise s s.countConflict := by
  have h := Block.isolate_rise (s.setLink { s.link with conflicts := s.link.conflicts + 1 }) .dupStation
  simp only [Block.countConflict]
  split
  · exact h.congr rfl rfl
  · exact .of_spill rfl

theorem Block.conflict_rise (s : Block) : EpochsRise s s.conflict := by
  simp only [Block.conflict]
  split
  · exact .refl s
  · refine (Block.countConflict_rise _).after ?_
    split <;> rfl

theorem Block.takeOwnNumber_rise (s : Block) : EpochsRise s s.takeOwnNumber := by
  simp only [Block.takeOwnNumber]
  split
  · split
    · exact .of_spill rfl
    · exact (Block.countConflict_rise s.frameEnded).after rfl
  · exact .refl s

theorem Block.completeFrame_rise (s : Block) : EpochsRise s s.completeFrame := by
  have sent : ∀ (b : Block) (e : Entry) (f : Frame) (w : Bool), EpochsRise b (b.entrySent e f w) := by
    intro b e f w
    unfold Block.entrySent
    split
    · exact .of_spill rfl
    · exact b.clearSent_rise _ _ _
    · exact .refl b
    · split
      · exact .of_spill rfl
      · exact .refl b
  simp only [Block.completeFrame]
  split
  · exact .refl s
  · split
    · exact .of_spill rfl
    · exact (sent _ _ _ _).after rfl

theorem Block.endTest_rise (s : Block) (x : Option (List Byte)) : EpochsRise s (s.endTest x) := by
  simp only [Block.endTest]
  split
  · exact .refl s
  · split
    · exact .of_spill rfl
    · exact (Block.isolate_rise _ _).after rfl

theorem Block.dispatch_rise {s : Block} (hs : EpochsInRange s) (n : StationId) {take : Block → Block}
    (h : ∀ b, EpochsInRange b → EpochsRise b (take b)) : EpochsRise s (s.dispatch n take) := by
  unfold Block.dispatch
  split
  · exact s.takeOwnNumber_rise
  · split
    · split
      · exact .of_spill rfl
      · exact (h s.frameEnded (hs.of_views rfl)).after rfl
    · exact .refl s

theorem Block.takeAPulse_rise {s : Block} (hs : EpochsInRange s) (l : LaneId) (high : Bool) :
    EpochsRise s (s.takeAPulse l high) := by
  have creep : ∀ (c : LaneCfg) (r : PulseResult), EpochsRise s (s.creepPulse l c r) := by
    intro c r
    simp only [Block.creepPulse]
    split
    · exact (Block.presentOwn_rise (s := s.setLane l _) (hs.of_views rfl) .creep).after rfl
    · exact .of_spill rfl
  simp only [Block.takeAPulse]
  split
  · exact .refl s
  · split
    · exact .of_spill (s.sessionPulse_spill _ _ _)
    · split
      · exact creep _ _
      · exact .refl s

theorem Block.endWindow_rise {s : Block} (hs : EpochsInRange s) (l : LaneId) : EpochsRise s (s.endWindow l) := by
  have h : ∀ (x : Lane) (run : Nat),
      EpochsRise s (if 2 ≤ run then (s.setLane l x).presentOwn .excessFlow else s.setLane l x) := by
    intro x run
    split
    · exact (Block.presentOwn_rise (s := s.setLane l x) (hs.of_views rfl) .excessFlow).after rfl
    · exact .of_spill rfl
  simp only [Block.endWindow]
  split
  · exact .refl s
  · split
    · exact .refl s
    · exact h _ _

theorem Block.inputActive_rise {s : Block} (hs : EpochsInRange s) (i : InputId) : EpochsRise s (s.inputActive i) := by
  simp only [Block.inputActive]
  split
  · split
    · exact (Block.inputBecomesActive_rise (s := s.setInputPin i true) (hs.of_views rfl) i _).after rfl
    · exact .of_spill rfl
  · exact .of_spill rfl

theorem Block.inputInactive_rise (s : Block) (i : InputId) : EpochsRise s (s.inputInactive i) := by
  simp only [Block.inputInactive]
  split
  · exact .of_views rfl
  · exact .of_views rfl

theorem Block.confirmExpires_rise {s : Block} (hs : EpochsInRange s) (i : InputId) :
    EpochsRise s (s.confirmExpires i) := by
  unfold Block.confirmExpires
  split
  · split
    · exact Block.confirmInput_rise hs i _
    · exact .refl s
  · exact .refl s

theorem Block.senseLine_rise {s : Block} (hs : EpochsInRange s) : EpochsRise s s.senseLine := by
  unfold Block.senseLine
  split
  · exact Block.presentOwn_rise hs .zoneLine
  · exact .refl s

theorem Block.zoneLineChanges_rise {s : Block} (hs : EpochsInRange s) (x : Bool) :
    EpochsRise s (s.zoneLineChanges x) :=
  (Block.senseLine_rise (s := s.setPins { s.pins with zoneLine := x }) (hs.of_views rfl)).after rfl

theorem Block.endZoneSettle_rise {s : Block} (hs : EpochsInRange s) : EpochsRise s s.endZoneSettle := by
  unfold Block.endZoneSettle
  split
  · exact (Block.senseLine_rise (s := s.setSpill { s.spill with settle := .rest }) (hs.of_views rfl)).congr rfl rfl
  · exact .refl s

theorem Block.ownIntervalEnds_rise {s : Block} (hs : EpochsInRange s) : EpochsRise s s.ownIntervalEnds := by
  unfold Block.ownIntervalEnds
  split
  · exact Block.endInterval_rise hs _
  · exact .refl s

theorem Block.listenEnds_rise {s : Block} (hs : EpochsInRange s) : EpochsRise s s.listenEnds := by
  unfold Block.listenEnds
  split
  · exact Block.endListen_rise hs
  · exact .refl s

@[simp] theorem Block.beginTest_spill (s : Block) : s.beginTest.spill = s.spill := rfl

@[simp] theorem Block.restartLink_spill (s : Block) : s.restartLink.spill = s.spill := rfl

@[simp] theorem Block.restartRoster_spill (s : Block) : s.restartRoster.spill = s.spill := rfl

/-- R178: START changes the store and the lanes, and then listens. -/
theorem Block.begin_rise (s : Block) : EpochsRise s s.begin := by
  have h : ∀ b : Block, b.spill = s.spill → EpochsRise s b.startListen.beginTest := fun b hb =>
    b.startListen_rise.congr (congrArg Spill.views hb) (congrArg Spill.views (by simp))
  exact h _ (by simp)

theorem Block.start_rise (s : Block) : EpochsRise s s.start.1 := by
  unfold Block.start
  split
  · exact .refl s
  · split
    · exact .refl s
    · exact s.begin_rise

theorem Block.restart_rise (s : Block) : EpochsRise s s.restart.1 := by
  have h : ∀ b : Block, b.spill = s.spill → EpochsRise s b.startListen.restartRoster.restartLink.beginTest := fun b hb =>
    b.startListen_rise.congr (congrArg Spill.views hb) (congrArg Spill.views (by simp))
  unfold Block.restart
  split
  · exact h _ (by simp)
  · exact .refl s

/-! ## Requests and the panel line -/

theorem Block.doRequest_rise (s : Block) (r : Request) : EpochsRise s (s.doRequest r).1 := by
  cases r with
  | authorize a => exact .of_spill (unlessBad_spill (s.authorize_spill _))
  | cancel lane => exact .of_spill (unlessBad_spill (s.cancel_spill _))
  | laneRead lane => exact .of_spill (unlessBad_spill rfl)
  | takeFill again => exact .of_spill (unlessBad_spill (s.takeFill_spill _))
  | meterHealth lane => exact .of_spill (unlessBad_spill rfl)
  | tankRead tank => exact .of_spill (unlessBad_spill rfl)
  | accountRead machine => exact .refl s
  | accountSet q => exact .of_spill (unlessBad_spill (s.setAccount_spill q))
  | serviceDone machine service => exact .of_spill (unlessBad_spill (s.serviceDone_spill _ _))
  | clearFlags machine flags => exact .of_spill (unlessBad_spill (s.clearFlags_spill _ _))
  | zoneRead => exact .refl s
  | rosterRead clear => exact .of_spill (unlessBad_spill (s.readRoster_spill _))
  | stationRead => exact .of_spill rfl
  | timeSet time => exact .of_spill (unlessBad_spill rfl)
  | readAttention => exact .of_spill s.readAttention_spill
  | configure q => exact .of_spill (s.configure_spill q)
  | start => exact s.start_rise
  | restart => exact s.restart_rise

theorem Block.request_rise (s : Block) (r : Request) : EpochsRise s (s.request fun b => b.doRequest r) :=
  (s.touchPanel.doRequest_rise r).congr rfl rfl

theorem Block.endFrame_rise (s : Block) (bytes : List Byte) : EpochsRise s (s.endFrame bytes) := by
  have handled : ∀ b : Block, b.spill = s.spill → EpochsRise s (b.handleFrame bytes) := by
    intro b hb
    refine EpochsRise.after ?_ hb
    unfold Block.handleFrame
    split
    · exact .of_spill rfl
    · exact .of_spill rfl
    · exact (b.request_rise _).trans (.of_spill rfl)
  unfold Block.endFrame
  split
  · split
    · exact handled _ rfl
    · unfold Block.refuseFrame; split <;> exact .of_spill rfl
  · exact .of_spill (Block.shortAnswer_spill _ _)

theorem Block.takeByte_rise (s : Block) (b : Byte) : EpochsRise s (s.takeByte b) := by
  unfold Block.takeByte
  split
  · split
    · exact .of_spill rfl
    · exact .refl s
  · split
    · exact s.endFrame_rise _
    · exact .of_spill rfl

/-! ## Events -/

/-- The end of an event changes of the spill unit the drive of the zone line alone. -/
theorem Block.finish_views (before s : Block) : (Block.finish before s).spill.views = s.spill.views := by
  have eval : s.evalTanks.spill = s.spill := foldl_spill (fun b t => (b.evalTank_kept t).2.2.1) _ s
  rw [(Block.finish_end before s).spill, eval]

theorem event_rises {s t : State} {work : Block → Block} (hw : ∀ b, EpochsInRange b → EpochsRise b (work b))
    (hs : EpochsInRange s.block) (h : event s work = .next t) : EpochsRise s.block t.block := by
  cases h
  exact (hw s.block hs).congr rfl (Block.finish_views _ _)

theorem event_rises_always {s t : State} {work : Block → Block} (hw : ∀ b, EpochsRise b (work b))
    (h : event s work = .next t) : EpochsRise s.block t.block := by
  cases h
  exact (hw s.block).congr rfl (Block.finish_views _ _)

theorem event_keeps_epochs {s t : State} {work : Block → Block} (hw : ∀ b, (work b).spill = b.spill)
    (h : event s work = .next t) : EpochsRise s.block t.block := event_rises_always (fun b => .of_spill (hw b)) h

theorem event_request_rises {s t : State} (r : Request)
    (h : (event s fun b => b.request fun x => x.doRequest r) = .next t) : EpochsRise s.block t.block :=
  event_rises_always (work := fun b => b.request fun x => x.doRequest r) (fun b => b.request_rise r) h

theorem event_frame_rises {s t : State} {n : StationId} {take : Block → Block}
    (hw : ∀ b, EpochsInRange b → EpochsRise b (take b)) (hs : EpochsInRange s.block)
    (h : (event s fun b => b.dispatch n take) = .next t) : EpochsRise s.block t.block :=
  event_rises (work := fun b => b.dispatch n take) (fun _ hb => Block.dispatch_rise hb n hw) hs h

/-- But for power-on, no command lowers an epoch. -/
theorem exec_rises {c : Instr} {s t : State} (hp : ∀ straps, c ≠ .powerOnReset straps) (hs : EpochsInRange s.block)
    (h : exec c s = .next t) : EpochsRise s.block t.block := by
  cases c with
  | powerOnReset straps => exact absurd rfl (hp straps)
  | authorize r => exact event_request_rises (.authorize r) h
  | cancel l => exact event_request_rises (.cancel l) h
  | laneRead l => exact event_request_rises (.laneRead l) h
  | takeFill again => exact event_request_rises (.takeFill again) h
  | meterHealth l => exact event_request_rises (.meterHealth l) h
  | tankRead x => exact event_request_rises (.tankRead x) h
  | accountRead m => exact event_request_rises (.accountRead m) h
  | accountSet q => exact event_request_rises (.accountSet q) h
  | serviceDone m v => exact event_request_rises (.serviceDone m v) h
  | clearFlags m f => exact event_request_rises (.clearFlags m f) h
  | zoneRead => exact event_request_rises .zoneRead h
  | rosterRead x => exact event_request_rises (.rosterRead x) h
  | stationRead => exact event_request_rises .stationRead h
  | timeSet x => exact event_request_rises (.timeSet x) h
  | readAttention => exact event_request_rises .readAttention h
  | start => exact event_request_rises .start h
  | restart => exact event_request_rises .restart h
  | configure r =>
    refine event_rises_always (work := Block.configureRequest r) (fun b => ?_) h
    unfold Block.configureRequest
    split
    · exact .of_spill rfl
    · exact b.request_rise (.configure r)
  | panelByteReceived b => exact event_rises_always (fun x => x.takeByte_rise b) h
  | panelByteTimeout => exact event_keeps_epochs Block.byteTimeout_spill h
  | panelFrameSent => exact event_keeps_epochs Block.panelSent_spill h
  | presenceTimerExpiry => exact event_keeps_epochs Block.losePanel_spill h
  | nozzleOut l => exact event_keeps_epochs (fun b => b.takeNozzleOut_spill l) h
  | nozzleIn l => exact event_keeps_epochs (fun b => b.takeNozzleIn_spill l) h
  | aPulse l high => exact event_rises (fun _ hb => Block.takeAPulse_rise hb l high) hs h
  | bPulse l => exact event_keeps_epochs (fun b => b.takeBPulse_spill l) h
  | temperatureSample l v => exact event_keeps_epochs (fun b => b.takeSample_spill l v) h
  | sampleWatchExpiry l => exact event_keeps_epochs (fun b => b.missSample_spill l) h
  | liftTimerExpiry l => exact event_keeps_epochs (fun b => b.lapse_spill l) h
  | noFlowExpiry l => exact event_keeps_epochs (fun b => b.stopNoFlow_spill l) h
  | durationExpiry l => exact event_keeps_epochs (fun b => b.stopDuration_spill l) h
  | settleExpiry l => exact event_keeps_epochs (fun b => b.endSettle_spill l) h
  | rateWindowEnd l => exact event_rises (fun _ hb => Block.endWindow_rise hb l) hs h
  | creepTimerExpiry l => exact event_keeps_epochs (fun b => b.endCreep_spill l) h
  | spillInputActive i => exact event_rises (fun _ hb => Block.inputActive_rise hb i) hs h
  | spillInputInactive i => exact event_rises_always (fun b => b.inputInactive_rise i) h
  | confirmTimerExpiry i => exact event_rises (fun _ hb => Block.confirmExpires_rise hb i) hs h
  | zoneLineAsserted x => exact event_rises (fun _ hb => Block.zoneLineChanges_rise hb x) hs h
  | zoneSettleExpiry => exact event_rises (fun _ hb => Block.endZoneSettle_rise hb) hs h
  | releaseKey => exact event_rises_always Block.turnKey_rise h
  | intervalTimerExpiry => exact event_rises (fun _ hb => Block.ownIntervalEnds_rise hb) hs h
  | waitTimerExpiry z => exact event_rises_always (fun b => b.endWait_rise z) h
  | listenTimerExpiry => exact event_rises (fun _ hb => Block.listenEnds_rise hb) hs h
  | gaugeReading i r => exact event_rises (fun _ hb => Block.takeReading_rise hb i r) hs h
  | basisAgeExpiry x => exact event_keeps_epochs (work := fun b => b.modTank x TankView.ageOut) (fun _ => rfl) h
  | stockIntervalExpiry x => exact event_keeps_epochs (work := fun b => b.modTank x TankView.intervalOut) (fun _ => rfl) h
  | idleGapContend => exact event_keeps_epochs Block.contend_spill h
  | arbitrationWon => exact event_keeps_epochs Block.win_spill h
  | arbitrationLost => exact event_keeps_epochs (work := fun b => b.lose) (fun _ => rfl) h
  | frameSent => exact event_rises_always Block.completeFrame_rise h
  | linkConflict => exact event_rises_always Block.conflict_rise h
  | tripHoldExpiry z => exact event_keeps_epochs (work := fun b => b.endTripHold z) (fun _ => rfl) h
  | statusPeriodExpiry => exact event_keeps_epochs Block.endPeriod_spill h
  | holdOffExpiry => exact event_keeps_epochs Block.endHoldOff_spill h
  | invalidFrame => exact event_keeps_epochs Block.takeInvalid_spill h
  | ownNumberFrame => exact event_rises_always Block.takeOwnNumber_rise h
  | statusFrame n f => exact event_frame_rises (fun b _ => b.takeStatus_rise n f) hs h
  | drawFrame n f => exact event_frame_rises (fun b _ => .of_spill (b.takeDraw_spill n f)) hs h
  | stockFrame n f => exact event_frame_rises (take := fun b => b.takeStock n f) (fun b _ => .of_spill (b.takeStock_spill n f)) hs h
  | tripFrame n f => exact event_frame_rises (fun b _ => b.takeTrip_rise n f.zone f.epoch f.cause) hs h
  | clearCopy1Frame n z e => exact event_frame_rises (fun b _ => b.takeCopy1_rise n z e) hs h
  | clearCopy2Frame n z e => exact event_frame_rises (fun _ hb => Block.takeCopy2_rise hb n z e) hs h
  | loopbackTestEnd x => exact event_rises_always (fun b => b.endTest_rise x) h
  | rosterStale n => exact event_keeps_epochs (work := fun b => b.modEntry n RosterEntry.goStale) (fun _ => rfl) h
  | rosterLost n => exact event_keeps_epochs (work := fun b => b.modEntry n RosterEntry.goLost) (fun _ => rfl) h
  | bayClockSecond => exact event_keeps_epochs Block.clockSecond_spill h
  | calibrationSwitchChange on => exact event_keeps_epochs (work := fun b => b.setCalibration on) (fun _ => rfl) h
  | setPointStep l => exact event_keeps_epochs (work := fun b => b.modLane l Lane.stepSetPoint) (fun _ => rfl) h

/-- Settles O9, command by command. -/
theorem epochsNeverFall : Obligations.EpochsNeverFall :=
  fun _ _ _ z hp hs h => (exec_rises hp hs h).le z

end Sys2Proof.Machine
end

