-- ==== Sys2Proof/Proofs/Attention.lean ====
section
/-! The raises of an event as its end takes them (R172, R174): the cell of a cause follows the raises of that cause
alone. -/

namespace Sys2Proof.Machine

theorem Cause.index_injective : Function.Injective Cause.index := by
  intro a b h
  cases a <;> cases b <;> simp_all [Cause.index]

theorem insertRaise_perm (x : Cause × Nat) (xs : List (Cause × Nat)) : (insertRaise x xs).Perm (x :: xs) := by
  induction xs with
  | nil => exact .refl _
  | cons y ys ih =>
    unfold insertRaise
    split
    · exact .refl _
    · exact (ih.cons y).trans (.swap x y ys)

theorem sortRaises_perm (xs : List (Cause × Nat)) : (sortRaises xs).Perm xs := by
  induction xs with
  | nil => exact .refl _
  | cons x xs ih => exact (insertRaise_perm x _).trans (ih.cons x)

/-- The raises of one cause, in an event's raises. -/
def raisesOf (c : Cause) (xs : List (Cause × Nat)) : List (Cause × Nat) := xs.filter fun x => x.1 = c

theorem raisesOf_append (c : Cause) (xs ys : List (Cause × Nat)) :
    raisesOf c (xs ++ ys) = raisesOf c xs ++ raisesOf c ys := List.filter_append ..

theorem raisesOf_other {c : Cause} {xs : List (Cause × Nat)} (h : ∀ x ∈ xs, x.1 ≠ c) : raisesOf c xs = [] := by
  simpa [raisesOf] using h

theorem raisesOf_sorted (c : Cause) (xs : List (Cause × Nat)) : (raisesOf c (sortRaises xs)).Perm (raisesOf c xs) :=
  (sortRaises_perm xs).filter _

theorem takeRaise_self (cells : Vector CauseCell 10) (c : Cause) (d : Nat) :
    (takeRaise cells (c, d))[c.index] = CauseCell.raised d cells[c.index] := by
  simp [takeRaise]

theorem takeRaise_other (cells : Vector CauseCell 10) {x : Cause × Nat} {c : Cause} (h : x.1 ≠ c) :
    (takeRaise cells x)[c.index] = cells[c.index] := by
  have hi : x.1.index.val ≠ c.index.val := fun e => h (Cause.index_injective (Fin.ext e))
  simp [takeRaise, hi]

/-- Raises of other causes leave a cause's cell. -/
theorem takeRaises_cell (c : Cause) (xs : List (Cause × Nat)) (cells : Vector CauseCell 10) :
    (xs.foldl takeRaise cells)[c.index] = ((raisesOf c xs).foldl takeRaise cells)[c.index] := by
  have congr : ∀ (ys : List (Cause × Nat)) (a b : Vector CauseCell 10), (∀ y ∈ ys, y.1 = c) → a[c.index] = b[c.index] →
      (ys.foldl takeRaise a)[c.index] = (ys.foldl takeRaise b)[c.index] := by
    intro ys
    induction ys with
    | nil => exact fun a b _ h => h
    | cons y ys ih =>
      intro a b hy h
      have e : y = (c, y.2) := Prod.ext (hy y (List.mem_cons_self ..)) rfl
      refine ih _ _ (fun z hz => hy z (List.mem_cons_of_mem _ hz)) ?_
      rw [e, takeRaise_self, takeRaise_self, h]
  induction xs generalizing cells with
  | nil => rfl
  | cons x xs ih =>
    rw [List.foldl_cons, ih, raisesOf, raisesOf, List.filter_cons]
    split
    · rfl
    case isFalse h =>
      exact congr _ _ _ (by simp) (takeRaise_other _ (by simpa using h))

/-! ## The cells after the end of an event -/

theorem Panel.settle_cell (p : Panel) (c : Cause) :
    p.settle.causes[c.index] = ((raisesOf c (sortRaises p.raised)).foldl takeRaise p.causes)[c.index] :=
  takeRaises_cell c _ _

/-- A cause that nothing raised. -/
theorem Panel.settle_cell_kept {p : Panel} {c : Cause} (h : raisesOf c p.raised = []) :
    p.settle.causes[c.index] = p.causes[c.index] := by
  have hs : raisesOf c (sortRaises p.raised) = [] := ((raisesOf_sorted c p.raised).trans (.of_eq h)).eq_nil
  rw [p.settle_cell, hs]; rfl

/-- A cause that was raised once. -/
theorem Panel.settle_cell_once {p : Panel} {c : Cause} {d : Nat} (h : raisesOf c p.raised = [(c, d)]) :
    p.settle.causes[c.index] = ⟨true, some d, min 255 (p.causes[c.index].count + 1)⟩ := by
  have hs : raisesOf c (sortRaises p.raised) = [(c, d)] :=
    ((raisesOf_sorted c p.raised).trans (.of_eq h)).eq_singleton
  rw [p.settle_cell, hs]
  exact takeRaise_self _ _ _

theorem takeRaise_pending {cells : Vector CauseCell 10} {c : Cause} (h : cells[c.index].pending = true)
    (x : Cause × Nat) : (takeRaise cells x)[c.index].pending = true := by
  by_cases e : x.1 = c
  · subst e; rw [takeRaise_self cells x.1 x.2]; rfl
  · rw [takeRaise_other _ e, h]

theorem takeRaises_pending {xs : List (Cause × Nat)} {cells : Vector CauseCell 10} {c : Cause}
    (h : cells[c.index].pending = true ∨ ∃ x ∈ xs, x.1 = c) : (xs.foldl takeRaise cells)[c.index].pending = true := by
  induction xs generalizing cells with
  | nil => simpa using h
  | cons x xs ih =>
    refine ih ?_
    rcases h with h | ⟨y, hy, e⟩
    · exact .inl (takeRaise_pending h x)
    · rcases List.mem_cons.mp hy with rfl | hy
      · subst e; exact .inl (by rw [takeRaise_self cells y.1 y.2]; rfl)
      · exact .inr ⟨y, hy, e⟩

/-- A cause that was raised is pending. -/
theorem Panel.settle_pending {p : Panel} {x : Cause × Nat} (h : x ∈ p.raised) :
    p.settle.causes[x.1.index].pending = true :=
  takeRaises_pending (.inr ⟨x, (sortRaises_perm p.raised).mem_iff.mpr h, rfl⟩)

/-- From one part to the other the panel port stands, but for raises of the named causes that wait at the end. -/
structure Raises (cs : List Cause) (a b : Panel) : Prop where
  panel : b = { a with raised := b.raised }
  raised : ∃ xs, b.raised = a.raised ++ xs ∧ ∀ x ∈ xs, x.1 ∈ cs

namespace Raises

theorem refl (cs : List Cause) (a : Panel) : Raises cs a a := ⟨rfl, [], by simp, nofun⟩

theorem trans {cs : List Cause} {a b c : Panel} (h : Raises cs a b) (k : Raises cs b c) : Raises cs a c := by
  obtain ⟨xs, hx, hc⟩ := h.raised
  obtain ⟨ys, hy, hd⟩ := k.raised
  refine ⟨?_, xs ++ ys, by rw [hy, hx, List.append_assoc], fun x hx => ?_⟩
  · rw [k.panel, h.panel]
  · exact (List.mem_append.mp hx).elim (hc x) (hd x)

theorem mono {cs ds : List Cause} {a b : Panel} (h : Raises cs a b) (hs : cs ⊆ ds) : Raises ds a b :=
  ⟨h.panel, h.raised.imp fun _ hx => ⟨hx.1, fun y hy => hs (hx.2 y hy)⟩⟩

theorem of_raise {cs : List Cause} (s : Block) {c : Cause} (d : Nat) (h : c ∈ cs) :
    Raises cs s.panel (s.raise c d).panel :=
  ⟨rfl, [(c, d)], rfl, by simpa using h⟩

theorem foldl {α : Type} {cs : List Cause} {f : Block → α → Block} (hf : ∀ s x, Raises cs s.panel (f s x).panel)
    (xs : List α) (s : Block) : Raises cs s.panel (xs.foldl f s).panel :=
  List.foldlRecOn (motive := fun b : Block => Raises cs s.panel b.panel) xs f (refl _ _)
    fun b hb x _ => hb.trans (hf b x)

theorem subset {cs : List Cause} {a b : Panel} (h : Raises cs a b) : a.raised ⊆ b.raised := by
  obtain ⟨xs, hx, -⟩ := h.raised
  rw [hx]
  exact List.subset_append_left _ _

/-- The raises of a cause that is not among the named ones. -/
theorem raisesOf {cs : List Cause} {a b : Panel} (h : Raises cs a b) {c : Cause} (hc : c ∉ cs) :
    raisesOf c b.raised = raisesOf c a.raised := by
  obtain ⟨xs, hx, hs⟩ := h.raised
  rw [hx, raisesOf_append, raisesOf_other fun x hm (e : x.1 = c) => hc (e ▸ hs x hm), List.append_nil]

/-- What the end of the event leaves of the panel port. -/
theorem samePanel {cs : List Cause} {a b : Panel} (h : Raises cs a b) (ha : a.raised = []) :
    samePanel cs a b.settle := by
  refine ⟨?_, fun c hc => ?_⟩
  · rw [h.panel]
    simp only [Panel.settle, ha]
  · have e : b.causes = a.causes := by rw [h.panel]
    rw [Panel.settle_cell_kept (by rw [h.raisesOf hc, ha]; rfl), e]

end Raises

end Sys2Proof.Machine
end

