-- ==== Sys2Proof/Proofs/ZoneWork.lean ====
section
/-! Work on the spill unit and the bay link that leaves lanes, tank views and the roster's entries alone, and what the
end of its event makes of the part. -/

namespace Sys2Proof.Machine

/-- The event's own work has changed zone views, the link, the builder and the timers of the spill unit, and has raised
the named causes; nothing else. -/
structure ZoneWork (cs : List Cause) (a b : Block) : Prop where
  store : b.store = a.store
  pins : b.pins = a.pins
  lanes : b.lanes = a.lanes
  tanks : b.tanks = a.tanks
  accounts : b.accounts = a.accounts
  entries : b.roster.entries = a.roster.entries
  inputs : b.spill.inputs = a.spill.inputs
  panel : Raises cs a.panel b.panel

/-- The end `t` of such an event, begun at `a`, whose own work made `b`. -/
structure ZoneEnd (cs : List Cause) (a b t : Block) : Prop where
  store : t.store = a.store
  pins : t.pins = a.pins
  lanes : ∀ l, sameLane (a.lane l) (t.lane l)
  tanks : ∀ u, sameTank (a.tank u) (t.tank u)
  accounts : t.accounts = a.accounts
  inputs : ∀ i, t.input i = a.input i
  spill : t.spill = { b.spill with drive := b.lineDriven }
  roster : sameRoster b.roster t.roster
  link : t.link = b.link
  panel : t.panel = b.panel.settle
  samePanel : samePanel cs a.panel t.panel

namespace ZoneWork

variable {cs : List Cause} {a b c : Block}

theorem refl (cs : List Cause) (a : Block) : ZoneWork cs a a := ⟨rfl, rfl, rfl, rfl, rfl, rfl, rfl, .refl _ _⟩

theorem trans (h : ZoneWork cs a b) (k : ZoneWork cs b c) : ZoneWork cs a c :=
  ⟨k.store.trans h.store, k.pins.trans h.pins, k.lanes.trans h.lanes, k.tanks.trans h.tanks, k.accounts.trans h.accounts,
    k.entries.trans h.entries, k.inputs.trans h.inputs, h.panel.trans k.panel⟩

theorem foldl {α : Type} {f : Block → α → Block} (hf : ∀ s x, ZoneWork cs s (f s x)) (xs : List α) (s : Block) :
    ZoneWork cs s (xs.foldl f s) :=
  List.foldlRecOn (motive := ZoneWork cs s) xs f (.refl _ _) fun b hb x _ => hb.trans (hf b x)

theorem setView (cs : List Cause) (a : Block) (z : ZoneId) (v : ZoneView) : ZoneWork cs a (a.setView z v) :=
  ⟨rfl, rfl, rfl, rfl, rfl, rfl, rfl, .refl _ _⟩

theorem setLink (cs : List Cause) (a : Block) (k : Link) : ZoneWork cs a (a.setLink k) :=
  ⟨rfl, rfl, rfl, rfl, rfl, rfl, rfl, .refl _ _⟩

theorem setBuilder (cs : List Cause) (a : Block) (x : Builder) : ZoneWork cs a (a.setBuilder x) :=
  ⟨rfl, rfl, rfl, rfl, rfl, rfl, rfl, .refl _ _⟩

theorem offer (cs : List Cause) (a : Block) (x : EntryBody) : ZoneWork cs a (a.offer x) := .setLink cs a _

theorem raise (a : Block) {x : Cause} (d : Nat) (h : x ∈ cs) : ZoneWork cs a (a.raise x d) :=
  ⟨rfl, rfl, rfl, rfl, rfl, rfl, rfl, .of_raise a d h⟩

theorem lane (h : ZoneWork cs a b) (l : LaneId) : b.lane l = a.lane l := by simp only [Block.lane, h.lanes]

theorem tank (h : ZoneWork cs a b) (u : TankId) : b.tank u = a.tank u := by simp only [Block.tank, h.tanks]

/-- The tank views stand in the states their rules give. -/
theorem stock (h : ZoneWork cs a b) (ha : Settled a) (u : TankId) : b.nextTankState u = (b.tank u).state := by
  rw [Block.nextTankState_congr u h.store h.entries (by rw [h.tank]; exact .refl _) fun l => by rw [h.lane], ha.stock,
    h.tank]

theorem finish_end (h : ZoneWork cs a b) (ha : Settled a) : ZoneEnd cs a b (Block.finish a b) := by
  have e := Block.finish_end a b
  rw [b.evalTanks_none (h.stock ha)] at e
  generalize Block.finish a b = t at e ⊢
  refine ⟨e.store.trans h.store, e.pins.trans h.pins, fun l => ?_, fun u => ?_, e.accounts.trans h.accounts, fun i => ?_,
    e.spill, e.roster, e.link, e.panel, e.panel ▸ h.panel.samePanel ha.raised⟩
  · rw [e.lanes, h.lane]; rfl
  · rw [e.tanks, h.tank]; rfl
  · rw [Block.input, e.spill, Block.input, ← h.inputs]

end ZoneWork

namespace ZoneEnd

variable {cs : List Cause} {a b t : Block}

theorem view (h : ZoneEnd cs a b t) (z : ZoneId) : t.view z = b.view z := Block.view_congr (by rw [h.spill]) z

/-- R120: the zone line is not driven where the own view is neither TRIPPED nor CLEARING. -/
theorem drive_normal (h : ZoneEnd cs a b t) {z : ZoneId} (hz : b.store.ownZone = some z)
    (hn : (b.view z).state = .normal) : t.spill.drive = false := by
  rw [h.spill]
  simp [Block.lineDriven, Block.ownView, hz, hn]

theorem stockBut (h : ZoneEnd cs a b t) : sameStockBut [] a t := by
  intro u _
  have hu := h.tanks u
  rw [sameTank] at hu
  rw [sameStock, hu]

/-- A part that the end of such an event leaves is one that a release's passage leaves (R122 to R129). -/
theorem releaseFrame {z : ZoneId} (h : ZoneEnd [.zoneTripped] a b t) (hv : ∀ k, k ≠ z → b.view k = a.view k)
    (hr : b.roster = a.roster) : ReleaseFrame z a t :=
  ⟨fun k hk => (h.view k).trans (hv k hk), h.inputs, h.lanes, h.tanks, h.store, h.pins, h.accounts, hr ▸ h.roster,
    h.samePanel⟩

end ZoneEnd

/-- R147: a builder that does not run is told of nothing. -/
theorem Block.finish_roster_of_off (before : Block) {s : Block} (h : s.builderOn = false) :
    (Block.finish before s).roster = s.roster := by
  have keep : ∀ ts : List TankId, (ts.foldl Block.evalTank s).store = s.store ∧
      (ts.foldl Block.evalTank s).link = s.link ∧ (ts.foldl Block.evalTank s).roster = s.roster := fun ts =>
    List.foldlRecOn (motive := fun b : Block => b.store = s.store ∧ b.link = s.link ∧ b.roster = s.roster) ts _
      ⟨rfl, rfl, rfl⟩ fun b hb t _ => by
        obtain ⟨hs, -, -, hr, hl, -⟩ := b.evalTank_kept t
        exact ⟨hs.trans hb.1, hl.trans hb.2.1, hr.trans hb.2.2⟩
  obtain ⟨hs, hl, hr⟩ := keep allTanks
  have off : s.evalTanks.builderOn = false := by
    rw [← h]; simp only [Block.builderOn, Block.running, Block.isolated, Block.evalTanks, hs, hl]
  have still : Block.noteChange before s.evalTanks = s.evalTanks := by
    unfold Block.noteChange Block.markChange
    split <;> simp [off]
  show (Block.noteChange before s.evalTanks).roster = s.roster
  rw [still]; exact hr

end Sys2Proof.Machine
end

