-- ==== Sys2Proof/Proofs/FrameSent.lean ====
section
/-! The frame in the transmitter has been read back whole (R147, R151, R155, R156, R158), and a TRIP entry's hold
ends. -/

namespace Sys2Proof.Machine

/-! ## Events that the end of the event does not see -/

theorem event_later {s : State} {work : Block → Block} {b : Block} (hs : Settled s.block) (hw : work s.block = b)
    (hb : SameAtEnd s.block b) : event s work = becomes s (later b) := by
  rw [event, hw, hb.finish hs]; rfl

theorem event_link {s : State} {work : Block → Block} {k : Link} (hs : Settled s.block)
    (hw : work s.block = s.block.setLink k) (hk : k.isolated = s.block.link.isolated) :
    event s work = becomes s (later (s.block.setLink k)) :=
  event_later hs hw (Block.setLink_sameAtEnd hs hk)

/-- An event that changes what no tank state, output, picture or attention line is formed of. -/
theorem event_still {s : State} {work : Block → Block} {b : Block} (hs : Settled s.block) (hw : work s.block = b)
    (ha : Alike s.block b) (ho : SameOutputs s.block b) (ht : ∀ t, SameForStock (b.tank t) (s.block.tank t))
    (hp : b.panel = s.block.panel) : event s work = becomes s (later b) := by
  have hq : b.panel.settle = b.panel := by rw [hp]; exact Panel.settle_still hs.raised hs.attention rfl
  rw [event, hw, Block.finish_still hs ha ho ht, hq]; rfl

/-! ## The own roster entry -/

/-- R135: the lanes in view are those of the other stations. -/
theorem Block.peerLanes_of_entries {a b : Block} (hn : b.number = a.number)
    (he : ∀ n, n ≠ a.number → b.entry n = a.entry n) :
    b.peerLanes = a.peerLanes := by
  simp only [Block.peerLanes, hn]
  refine List.flatMap_congr fun n _ => ?_
  by_cases h : n = a.number
  · simp [h]
  · simp [h, he n h]

/-! ## The release's copies (R123, R132, R158) -/

theorem Block.clearSent_copy1 {s : Block} {z : ZoneId} {e : Nat} {x : Timer} (hs : (s.view z).state = .clearing)
    (hc : (s.view z).clearing = some (.sender e .copy1 x)) :
    s.clearSent z e 1 = s.setView z { s.view z with clearing := some (.sender e .interval (.run 1000)) } := by
  simp [Block.clearSent, hs, hc]; rfl

theorem Block.clearSent_copy2 {s : Block} {z : ZoneId} {e : Nat} {x : Timer} (hs : (s.view z).state = .clearing)
    (hc : (s.view z).clearing = some (.sender e .copy2 x)) : s.clearSent z e 2 = s.enterNormal z := by
  simp [Block.clearSent, hs, hc]

theorem Block.enterNormal_work (s : Block) (z : ZoneId) : ZoneWork [] s (s.enterNormal z) := by
  simp only [Block.enterNormal]
  split
  · exact ⟨rfl, rfl, rfl, rfl, rfl, rfl, rfl, .refl _ _⟩
  · exact .setView _ s z _

theorem Block.enterNormal_view (s : Block) (z k : ZoneId) : (s.enterNormal z).view k =
    if k = z then { s.view z with state := .normal, clearing := none } else s.view k := by
  rw [Block.view_congr (s.enterNormal_views z), Block.view_setView_eq]

theorem Block.enterNormal_link (s : Block) (z : ZoneId) : (s.enterNormal z).link = s.link := by
  simp only [Block.enterNormal]; split <;> rfl

theorem Block.enterNormal_roster (s : Block) (z : ZoneId) : (s.enterNormal z).roster = s.roster := by
  simp only [Block.enterNormal]; split <;> rfl

/-- R129: the own zone's settle timer starts. -/
theorem Block.enterNormal_settle {s : Block} {z : ZoneId} (hz : s.store.ownZone = some z) :
    (s.enterNormal z).spill.settle = .run 500 := by
  have : s.isOwnZone z = true := by simp [Block.isOwnZone, hz]
  simp only [Block.enterNormal, this, if_true]; rfl

/-! ## The report, by the frame sent -/

/-- The link once the frame has been read back. -/
def Link.reported (k : Link) : Link := { k with sending := none, conflicts := 0 }

theorem Block.completeFrame_entry {s : Block} {e : Entry} {f : Frame} {w : Bool}
    (h : s.link.sending = some (.entry e f w)) : s.completeFrame = (s.setLink s.link.reported).entrySent e f w := by
  simp only [Block.completeFrame, h]; rfl

/-- R155: what the report makes of the queue. -/
theorem Link.tripSent_reported (k : Link) {e : Entry} {z : ZoneId} {epoch remaining : Nat} {cause : TripCause}
    {hold : Timer} (w : Bool) (he : e.body = .trip z epoch cause remaining hold) :
    k.reported.tripSent e w = { k with
      sending := none, conflicts := 0,
      queue := if w = false ∧ 1 < remaining ∧ (∀ x ∈ k.queue, x.hasKey (.trip z) = false) then
          insertEntry ⟨e.stamp, .trip z epoch cause (remaining - 1) (.run 200)⟩ k.queue
        else k.queue } := by
  have hq : k.reported.queue = k.queue := rfl
  have hc : (w || decide (remaining ≤ 1) || k.queue.any (Entry.hasKey (.trip z))) = true ↔
      ¬ (w = false ∧ 1 < remaining ∧ ∀ x ∈ k.queue, x.hasKey (.trip z) = false) := by
    simp only [Bool.or_eq_true, decide_eq_true_eq, List.any_eq_true, not_and, not_forall, Bool.not_eq_false]
    cases w <;> simp [Nat.lt_iff_add_one_le, imp_iff_not_or]
  simp only [Link.tripSent, he, hq, hc, ite_not]
  split <;> rfl

theorem exec_frameSent_status {s : State} (hs : Settled s.block) {c : StatusContent}
    (h : s.block.link.sending = some (.status c)) : exec .frameSent s = becomes s (later
      (((s.block.setLink s.block.link.reported).setBuilder
        { s.block.roster.builder with period := .run 500, holdOff := .run 100 }).setEntry s.block.number
          { s.block.entry s.block.number with state := .live, age := 0, last := some c })) := by
  refine event_later hs (work := fun b => b.completeFrame) (by simp only [Block.completeFrame, h]; rfl)
    ⟨rfl, rfl, rfl, rfl, Block.peerLanes_of_entries rfl fun n hn => ?_, fun _ => rfl, fun _ => rfl, fun _ => rfl, hs.lanes,
      rfl, rfl, rfl⟩
  rw [Block.entry_setEntry_of_ne _ hn]; rfl

theorem exec_frameSent_trip {s : State} (hs : Settled s.block) {e : Entry} {f : Frame} {w : Bool} {z : ZoneId}
    {epoch remaining : Nat} {cause : TripCause} {hold : Timer} (h : s.block.link.sending = some (.entry e f w))
    (he : e.body = .trip z epoch cause remaining hold) :
    exec .frameSent s = becomes s (later (s.block.setLink
      { s.block.link with
        sending := none, conflicts := 0,
        queue := if w = false ∧ 1 < remaining ∧ (∀ x ∈ s.block.link.queue, x.hasKey (.trip z) = false) then
            insertEntry ⟨e.stamp, .trip z epoch cause (remaining - 1) (.run 200)⟩ s.block.link.queue
          else s.block.link.queue })) := by
  refine event_link hs (work := fun b => b.completeFrame) ?_ rfl
  rw [← Link.tripSent_reported _ w he, Block.completeFrame_entry h]
  simp only [Block.entrySent, he]; rfl

theorem exec_frameSent_draw {s : State} (hs : Settled s.block) {e : Entry} {f : Frame} {w : Bool} {d : DrawContent}
    (h : s.block.link.sending = some (.entry e f w)) (he : e.body = .draw d) :
    exec .frameSent s = becomes s (later (s.block.setLink s.block.link.reported)) := by
  refine event_link hs (work := fun b => b.completeFrame) ?_ rfl
  rw [Block.completeFrame_entry h]
  simp only [Block.entrySent, he]

/-- R71: the time, the interval and the pending volume of a tank view are read by nothing at the end of an event. -/
theorem exec_frameSent_stock {s : State} (hs : Settled s.block) {e : Entry} {c : StockContent} {w : Bool} {u : TankId}
    {g time : Nat} {hi hh delivering : Bool} (h : s.block.link.sending = some (.entry e (.stock c) w))
    (he : e.body = .stock u g time hi hh delivering) :
    exec .frameSent s = becomes s (later ((s.block.setLink s.block.link.reported).setTank u
      { s.block.tank u with
        lastStock := some s.block.roster.clock, stockAge := 0,
        pendingDelivery := (s.block.tank u).pendingDelivery - c.delivery })) := by
  have hw : s.block.completeFrame = (s.block.setLink s.block.link.reported).setTank u
      { s.block.tank u with
        lastStock := some s.block.roster.clock, stockAge := 0,
        pendingDelivery := (s.block.tank u).pendingDelivery - c.delivery } := by
    rw [Block.completeFrame_entry h]
    simp only [Block.entrySent, he]; rfl
  generalize hv : ({ s.block.tank u with
    lastStock := some s.block.roster.clock, stockAge := 0,
    pendingDelivery := (s.block.tank u).pendingDelivery - c.delivery } : TankView) = v at hw ⊢
  have read : ∀ {β : Type} (f : TankView → β), f v = f (s.block.tank u) →
      ∀ t, f (((s.block.setLink s.block.link.reported).setTank u v).tank t) = f (s.block.tank t) := by
    intro β f hf t
    by_cases ht : t = u
    · subst ht; rw [Block.tank_setTank, hf]
    · rw [Block.tank_setTank_of_ne _ ht]; rfl
  exact event_still hs (work := fun b => b.completeFrame) hw
    ⟨rfl, rfl, rfl, fun _ => ⟨rfl, rfl⟩, fun _ => rfl, fun _ => rfl, fun _ => rfl⟩
    ⟨fun _ => ⟨rfl, rfl, rfl, rfl, rfl⟩, fun t => ⟨read (·.pump) (hv ▸ rfl) t, read (·.inlet) (hv ▸ rfl) t,
      read (·.state) (hv ▸ rfl) t, read (·.highHigh) (hv ▸ rfl) t, read (·.lastGood) (hv ▸ rfl) t⟩, rfl⟩
    (fun t => ⟨read (·.book) (hv ▸ rfl) t, read (·.basis) (hv ▸ rfl) t, read (·.age) (hv ▸ rfl) t,
      read (·.state) (hv ▸ rfl) t, read (·.high) (hv ▸ rfl) t, read (·.heardHigh) (hv ▸ rfl) t⟩) rfl

/-- R123: the interval starts. -/
theorem exec_frameSent_copy1 {s : State} (hs : Settled s.block) {e : Entry} {f : Frame} {w : Bool} {z : ZoneId}
    {epoch : Nat} {x : Timer} (h : s.block.link.sending = some (.entry e f w)) (he : e.body = .clear z epoch 1)
    (hv : (s.block.view z).state = .clearing) (hc : (s.block.view z).clearing = some (.sender epoch .copy1 x)) :
    exec .frameSent s = becomes s (later ((s.block.setLink s.block.link.reported).setView z
      { s.block.view z with clearing := some (.sender epoch .interval (.run 1000)) })) := by
  have views : ∀ k, (((s.block.setLink s.block.link.reported).setView z
      { s.block.view z with clearing := some (.sender epoch .interval (.run 1000)) }).view k).state
        = (s.block.view k).state ∧ (((s.block.setLink s.block.link.reported).setView z
      { s.block.view z with clearing := some (.sender epoch .interval (.run 1000)) }).view k).epoch
        = (s.block.view k).epoch := by
    intro k
    rw [Block.view_setView_eq]
    split
    case isTrue hk => subst hk; exact ⟨rfl, rfl⟩
    case isFalse => exact ⟨rfl, rfl⟩
  refine event_still hs (work := fun b => b.completeFrame) ?_ ⟨rfl, rfl, rfl, views, fun _ => rfl, fun _ => rfl, fun _ => rfl⟩
    ⟨fun _ => ⟨rfl, rfl, rfl, rfl, rfl⟩, fun _ => ⟨rfl, rfl, rfl, rfl, rfl⟩, rfl⟩ (fun _ => .refl _) rfl
  rw [Block.completeFrame_entry h]
  simp only [Block.entrySent, he]
  exact Block.clearSent_copy1 (s := s.block.setLink s.block.link.reported) hv hc

/-- R129: the sender's view becomes NORMAL. -/
theorem exec_frameSent_copy2 {s : State} (hs : Settled s.block) {e : Entry} {f : Frame} {w : Bool} {z : ZoneId}
    {epoch : Nat} {x : Timer} (h : s.block.link.sending = some (.entry e f w)) (he : e.body = .clear z epoch 2)
    (hv : (s.block.view z).state = .clearing) (hc : (s.block.view z).clearing = some (.sender epoch .copy2 x)) :
    ∃ t, exec .frameSent s = .next t ∧ t.pending = s.pending ∧
      t.block.view z = { s.block.view z with state := .normal, clearing := none } ∧
      t.block.link = s.block.link.reported ∧
      (s.block.store.ownZone = some z → t.block.spill.settle = .run 500 ∧ t.block.spill.drive = false) ∧
      ReleaseFrame z s.block t.block := by
  have hw : s.block.completeFrame = (s.block.setLink s.block.link.reported).enterNormal z := by
    rw [Block.completeFrame_entry h]
    simp only [Block.entrySent, he]
    exact Block.clearSent_copy2 (s := s.block.setLink s.block.link.reported) hv hc
  generalize hb : s.block.setLink s.block.link.reported = b at hw
  have work : ZoneWork [] s.block (b.enterNormal z) := hb ▸ (ZoneWork.setLink [] _ _).trans (Block.enterNormal_work _ z)
  have hk : b.link = s.block.link.reported := hb ▸ rfl
  have hview : ∀ k, b.view k = s.block.view k := hb ▸ fun _ => rfl
  have hroster : b.roster = s.block.roster := hb ▸ rfl
  have hstore : b.store = s.block.store := hb ▸ rfl
  have view := b.enterNormal_view z
  have fin := ZoneWork.finish_end (cs := [.zoneTripped]) ⟨work.store, work.pins, work.lanes, work.tanks, work.accounts,
    work.entries, work.inputs, work.panel.mono (List.nil_subset _)⟩ hs
  refine ⟨{ s with block := Block.finish s.block (b.enterNormal z) }, by rw [← hw]; rfl, rfl, ?_, ?_, fun hz => ⟨?_, ?_⟩, ?_⟩
  · rw [fin.view, view, if_pos rfl, hview]
  · rw [fin.link, b.enterNormal_link, hk]
  · rw [fin.spill]; exact Block.enterNormal_settle (hstore ▸ hz)
  · refine fin.drive_normal (z := z) (by rw [work.store]; exact hz) ?_
    rw [view, if_pos rfl]
  · exact fin.releaseFrame (fun k hk => by rw [view, if_neg hk, hview]) ((b.enterNormal_roster z).trans hroster)

/-! ## The hold of a TRIP entry (R155) -/

theorem endHold_eq (z : ZoneId) (e : Entry) : endHold z e = match e.body with
    | .trip y epoch cause remaining hold =>
      if y = z then { e with body := .trip y epoch cause remaining .rest }
      else { e with body := .trip y epoch cause remaining hold }
    | _ => e := by
  obtain ⟨stamp, body⟩ := e
  cases body <;> rfl

/-- Settles O56, by the kind of the frame sent. -/
theorem frameSentIsReported : Obligations.FrameSentIsReported := by
  rintro s k hs rfl
  refine ⟨fun h => event_later hs (work := fun b => b.completeFrame) (by simp only [Block.completeFrame, h]) (.refl hs),
    fun c h => ?_, fun e f w z epoch cause remaining hold h he => exec_frameSent_trip hs h he,
    fun e f w d h he => exec_frameSent_draw hs h he,
    fun e c w u g time hi hh delivering h he => exec_frameSent_stock hs h he,
    fun e f w z epoch copy h he => ⟨?_, ?_⟩, fun z => ?_⟩
  · refine ⟨_, exec_frameSent_status hs h, rfl, rfl, Block.entry_setEntry _ _ _, fun n hn => ?_, rfl, rfl, rfl⟩
    exact Block.entry_setEntry_of_ne _ hn _
  · rintro rfl hv ⟨x, hc⟩
    exact exec_frameSent_copy1 hs h he hv hc
  · rintro rfl hv ⟨x, hc⟩
    exact exec_frameSent_copy2 hs h he hv hc
  · refine event_link hs (work := fun b => b.endTripHold z) ?_ rfl
    rw [Block.endTripHold, funext (endHold_eq z)] <;> rfl

end Sys2Proof.Machine
end

