-- ==== Sys2Proof/Proofs/Listen.lean ====
section
/-! The end of the listen (R131): each view still STARTING is settled by its own cause, and the TRIP entries join the
queue in ascending zone number. -/

namespace Sys2Proof.Machine

/-! ## Offers to the queue (R153, R154) -/

theorem mem_insertEntry {x e : Entry} {q : List Entry} : x ∈ insertEntry e q ↔ x = e ∨ x ∈ q := by
  induction q with
  | nil => simp [insertEntry]
  | cons y ys ih =>
    unfold insertEntry
    split
    · rw [List.mem_cons, ih, List.mem_cons, or_left_comm]
    · rw [List.mem_cons]

theorem hasKey_iff {k : Contender} {e : Entry} : e.hasKey k = true ↔ e.body.isDraw = false ∧ e.body.contender = k := by
  simp [Entry.hasKey]

/-- An entry of another contender is in the queue after an offer exactly if it was before. -/
theorem Link.mem_offer_other {k : Link} {b : EntryBody} {e : Entry} (h : e.body.contender ≠ b.contender) :
    e ∈ (k.offer b).queue ↔ e ∈ k.queue := by
  unfold Link.offer
  split
  · simp only [replaceEntry, List.mem_map]
    constructor
    · rintro ⟨x, hx, rfl⟩
      split at h
      · exact absurd rfl h
      · rename_i hk; rwa [if_neg hk]
    · exact fun he => ⟨e, he, if_neg fun hk => h (hasKey_iff.mp hk).2⟩
  · rw [mem_insertEntry]
    exact or_iff_right fun he => h (he ▸ rfl)

/-- What is offered is in the queue. -/
theorem Link.exists_mem_offer (k : Link) (b : EntryBody) : ∃ e ∈ (k.offer b).queue, e.body = b := by
  unfold Link.offer
  split
  case isTrue h =>
    simp only [Bool.and_eq_true, List.any_eq_true] at h
    obtain ⟨-, x, hx, hk⟩ := h
    exact ⟨{ x with body := b }, List.mem_map.mpr ⟨x, hx, if_pos hk⟩, rfl⟩
  case isFalse => exact ⟨⟨k.stamp, b⟩, mem_insertEntry.mpr (.inl rfl), rfl⟩

theorem Link.stamp_le_offer (k : Link) (b : EntryBody) : k.stamp ≤ (k.offer b).stamp := by
  unfold Link.offer
  split
  · exact le_rfl
  · exact Nat.le_succ _

/-- An entry whose contender had none takes the next time of entry. -/
theorem Link.stamp_of_offer {k : Link} {b : EntryBody} (hn : ∀ e ∈ k.queue, e.body.contender ≠ b.contender) {e : Entry}
    (he : e ∈ (k.offer b).queue) (hc : e.body.contender = b.contender) : e.stamp = k.stamp ∧ e.stamp < (k.offer b).stamp := by
  have hnew : (!b.isDraw && k.queue.any (Entry.hasKey b.contender)) = false := by
    rw [Bool.and_eq_false_iff]
    exact .inr (List.any_eq_false.mpr fun x hx hk => hn x hx (hasKey_iff.mp hk).2)
  simp only [Link.offer, hnew] at he ⊢
  rcases mem_insertEntry.mp he with rfl | he
  · exact ⟨rfl, Nat.lt_succ_self _⟩
  · exact absurd hc (hn e he)

/-- From one link to the other the TRIPs of some of the zones have been offered, in the order of the list. -/
inductive TripsOffered : List ZoneId → Link → Link → Prop where
  | done (k : Link) : TripsOffered [] k k
  | skip {z : ZoneId} {zs : List ZoneId} {k l : Link} : TripsOffered zs k l → TripsOffered (z :: zs) k l
  | trip {z : ZoneId} {zs : List ZoneId} {k l : Link} (epoch : Nat) (cause : TripCause) :
      TripsOffered zs (k.offer (.trip z epoch cause 3 .rest)) l → TripsOffered (z :: zs) k l

namespace TripsOffered

theorem stamp_le {zs : List ZoneId} {k l : Link} (h : TripsOffered zs k l) : k.stamp ≤ l.stamp := by
  induction h with
  | done k => exact le_rfl
  | skip _ ih => exact ih
  | trip epoch cause _ ih => exact (Link.stamp_le_offer _ _).trans ih

theorem isolated {zs : List ZoneId} {k l : Link} (h : TripsOffered zs k l) : l.isolated = k.isolated := by
  induction h with
  | done k => rfl
  | skip _ ih => exact ih
  | trip epoch cause _ ih =>
    refine ih.trans ?_
    unfold Link.offer
    split <;> rfl

/-- The entries of a zone that is not of the list are as they were. -/
theorem mem_other {zs : List ZoneId} {k l : Link} (h : TripsOffered zs k l) {z : ZoneId} (hz : z ∉ zs) {e : Entry}
    (he : e.body.contender = .trip z) : e ∈ l.queue ↔ e ∈ k.queue := by
  induction h with
  | done k => rfl
  | skip _ ih => exact ih fun hm => hz (List.mem_cons_of_mem _ hm)
  | @trip u _ _ _ epoch cause _ ih =>
    rw [ih fun hm => hz (List.mem_cons_of_mem _ hm), Link.mem_offer_other]
    rw [he]
    exact fun hu => hz (by cases hu; exact List.mem_cons_self ..)

/-- No entry of the zone waits. -/
def NoTrip (k : Link) (z : ZoneId) : Prop := ∀ e ∈ k.queue, e.body.contender ≠ .trip z

theorem NoTrip.offer {k : Link} {z u : ZoneId} (h : NoTrip k z) (hu : u ≠ z) (epoch : Nat) (cause : TripCause) :
    NoTrip (k.offer (.trip u epoch cause 3 .rest)) z := fun e he hc =>
  h e ((Link.mem_offer_other fun hx => hu (by rw [hc] at hx; cases hx; rfl)).mp he) hc

/-- A new entry of a zone has a time of entry that was yet to come. -/
theorem le_stamp {zs : List ZoneId} {k l : Link} (h : TripsOffered zs k l) (hd : zs.Nodup) {z : ZoneId}
    (hn : NoTrip k z)
    {e : Entry} (he : e ∈ l.queue) (hc : e.body.contender = .trip z) : k.stamp ≤ e.stamp := by
  induction h with
  | done k => exact absurd hc (hn e he)
  | skip _ ih => exact ih (List.nodup_cons.mp hd).2 hn he
  | @trip u _ k _ epoch cause h ih =>
    obtain ⟨hu, hd⟩ := List.nodup_cons.mp hd
    by_cases hz : u = z
    · subst hz
      exact (Link.stamp_of_offer (b := .trip u epoch cause 3 .rest) hn ((h.mem_other hu hc).mp he) hc).1.ge
    · exact (Link.stamp_le_offer _ _).trans (ih hd (hn.offer hz _ _) he)

/-- The new entries stand in the order of the list. -/
theorem ordered {zs : List ZoneId} {k l : Link} (h : TripsOffered zs k l) (hs : zs.Pairwise (· < ·)) {a b : ZoneId}
    (ha : a ∈ zs) (hb : b ∈ zs) (hab : a < b) (hna : NoTrip k a) (hnb : NoTrip k b) {x y : Entry} (hx : x ∈ l.queue)
    (hy : y ∈ l.queue) (hxa : x.body.contender = .trip a) (hyb : y.body.contender = .trip b) : x.stamp < y.stamp := by
  induction h with
  | done k => exact absurd ha List.not_mem_nil
  | @skip u _ k l h ih =>
    obtain ⟨hu, hs⟩ := List.pairwise_cons.mp hs
    have hne : a ≠ u := by
      rintro rfl
      exact hna x ((h.mem_other (fun hm => (hu a hm).false) hxa).mp hx) hxa
    have ha := (List.mem_cons.mp ha).resolve_left hne
    exact ih hs ha ((List.mem_cons.mp hb).resolve_left ((hu a ha).trans hab).ne') hna hnb hx hy
  | @trip u us k l epoch cause h ih =>
    obtain ⟨hu, hus⟩ := List.pairwise_cons.mp hs
    by_cases hne : a = u
    · subst hne
      have hx' := (h.mem_other (fun hm => (hu a hm).false) hxa).mp hx
      exact (Link.stamp_of_offer (b := .trip a epoch cause 3 .rest) hna hx' hxa).2.trans_le
        (h.le_stamp (hus.imp ne_of_lt) (hnb.offer hab.ne _ _) hy hyb)
    · have ha := (List.mem_cons.mp ha).resolve_left hne
      have hub : u < b := (hu a ha).trans hab
      exact ih hus ha ((List.mem_cons.mp hb).resolve_left hub.ne') (hna.offer (Ne.symm hne) _ _) (hnb.offer hub.ne _ _) hx hy

end TripsOffered

/-! ## One view (R116, R131) -/

/-- R131: the cause that a view still STARTING is tripped with. -/
def Block.listenCause (s : Block) (z : ZoneId) : Option TripCause :=
  match (s.view z).held with
  | some cause => some cause
  | none =>
    if s.store.ownZone = some z ∧ s.pins.zoneLine = true then some .zoneLine
    else if s.highHighIn z = true then some .highHigh else none

/-- R116: the view after a trip made here. -/
def Block.trippedHere (s : Block) (z : ZoneId) (c : TripCause) : ZoneView :=
  ⟨.tripped, s.nextEpoch z, c, some s.number, none, none⟩

/-- R131: the view as the end of the listen leaves it. -/
def Block.settledView (s : Block) (z : ZoneId) : ZoneView :=
  if (s.view z).state = .starting then
    match s.listenCause z with
    | some c => s.trippedHere z c
    | none => { s.view z with state := .normal }
  else s.view z

/-- A trip of a STARTING view ends no session and abandons no release. -/
theorem Block.tripZone_starting {s : Block} {z : ZoneId} (h : (s.view z).state = .starting) (c : TripCause) :
    s.tripZone z c = Block.raise (if s.isolated then s.setView z (s.trippedHere z c)
      else (s.setView z (s.trippedHere z c)).offer (.trip z (s.nextEpoch z) c 3 .rest)) .zoneTripped z.val := by
  have hi : (s.setView z (s.trippedHere z c)).isolated = s.isolated := rfl
  simp only [Block.tripZone, Block.abandon, Block.leaveNormal, h, reduceCtorEq, and_false, if_false]
  rfl

theorem Block.settleView_starting {s : Block} {z : ZoneId} (h : (s.view z).state = .starting) :
    s.settleView z = match s.listenCause z with
      | some c => s.tripZone z c
      | none => s.setView z { s.view z with state := .normal } := by
  simp only [Block.settleView, Block.listenCause, h, if_true, Block.isOwnZone, decide_eq_true_eq]
  cases (s.view z).held with
  | some c => rfl
  | none => split_ifs <;> rfl

theorem Block.settleView_other {s : Block} {z : ZoneId} (h : (s.view z).state ≠ .starting) : s.settleView z = s := by
  simp only [Block.settleView, h, if_false]

/-- What the settling of one view does. -/
structure ViewSettled (z : ZoneId) (s b : Block) : Prop where
  work : ZoneWork [.zoneTripped] s b
  views : b.spill.views = (s.setView z (s.settledView z)).spill.views
  listen : b.spill.listen = s.spill.listen
  roster : b.roster = s.roster
  openDraws : b.openDraws = s.openDraws
  link : b.link = s.link ∨ ∃ c, b.link = s.link.offer (.trip z (s.nextEpoch z) c 3 .rest)
  offered : ∀ c, (s.view z).state = .starting → s.listenCause z = some c → s.link.isolated = none →
    b.link = s.link.offer (.trip z (s.nextEpoch z) c 3 .rest)
  raised : ∀ c, (s.view z).state = .starting → s.listenCause z = some c → (Cause.zoneTripped, z.val) ∈ b.panel.raised

theorem Block.settleView_settled (s : Block) (z : ZoneId) : ViewSettled z s (s.settleView z) := by
  by_cases h : (s.view z).state = .starting
  case neg =>
    rw [Block.settleView_other h]
    have hv : (s.setView z (s.settledView z)).spill.views = s.spill.views := by
      rw [Block.settledView, if_neg h]
      simp [Block.setView, Block.view]
    exact ⟨.refl _ _, hv.symm, rfl, rfl, rfl, .inl rfl, fun _ e => absurd e h, fun _ e => absurd e h⟩
  case pos =>
    rw [Block.settleView_starting h]
    cases hc : s.listenCause z with
    | none =>
      have hv : s.settledView z = { s.view z with state := .normal } := by simp [Block.settledView, h, hc]
      have none_tripped : ∀ c, s.listenCause z ≠ some c := fun c e => by cases hc.symm.trans e
      exact ⟨.setView _ s z _, by rw [hv], rfl, rfl, rfl, .inl rfl, fun c _ e => absurd e (none_tripped c),
        fun c _ e => absurd e (none_tripped c)⟩
    | some c =>
      have hv : s.settledView z = s.trippedHere z c := by simp [Block.settledView, h, hc]
      have raise : ∀ b : Block, ZoneWork [.zoneTripped] s b → ZoneWork [.zoneTripped] s (b.raise .zoneTripped z.val) :=
        fun b hb => hb.trans (.raise b _ (List.mem_singleton_self _))
      simp only [Block.tripZone_starting h]
      by_cases hi : s.isolated = true
      · rw [if_pos hi]
        exact ⟨raise _ (.setView _ s z _), by rw [hv]; rfl, rfl, rfl, rfl, .inl rfl,
          fun _ _ _ e => absurd hi (by simp [Block.isolated, e]), fun _ _ _ => by simp⟩
      · rw [if_neg hi]
        refine ⟨raise _ ((ZoneWork.setView _ s z _).trans (.offer _ _ _)), by rw [hv]; rfl, rfl, rfl, rfl, .inr ⟨c, rfl⟩,
          fun d _ e _ => ?_, fun _ _ _ => by simp⟩
        cases hc.symm.trans e
        rfl

/-! ## All views -/

/-- What is looked at to settle a view stands, where the view does and no store, pin or tank view has changed. -/
theorem Block.listenCause_congr {a b : Block} {cs : List Cause} (h : ZoneWork cs a b) {z : ZoneId}
    (hv : b.view z = a.view z) : b.listenCause z = a.listenCause z := by
  have hg : ∀ t, b.gauges t = a.gauges t := fun t => by
    simp only [Block.gauges, Block.running, Block.gaugeTank, h.store] <;> rfl
  simp only [Block.listenCause, Block.highHighIn, Block.tankCfg, h.store, h.pins, hv, hg, h.tank]
  rfl

theorem Block.settledView_congr {a b : Block} {cs : List Cause} (h : ZoneWork cs a b) (ho : b.openDraws = a.openDraws)
    {z : ZoneId} (hv : b.view z = a.view z) : b.settledView z = a.settledView z ∧ b.nextEpoch z = a.nextEpoch z := by
  have he : b.nextEpoch z = a.nextEpoch z := by simp only [Block.nextEpoch, hv, ho]
  refine ⟨?_, he⟩
  simp only [Block.settledView, Block.trippedHere, Block.listenCause_congr h hv, Block.number, h.store, hv, he]

/-- What the settling of the views of `zs` does. -/
structure ViewsSettled (zs : List ZoneId) (s b : Block) : Prop where
  work : ZoneWork [.zoneTripped] s b
  views : ∀ z, b.view z = if z ∈ zs then s.settledView z else s.view z
  listen : b.spill.listen = s.spill.listen
  roster : b.roster = s.roster
  trips : TripsOffered zs s.link b.link
  offered : ∀ z ∈ zs, ∀ c, (s.view z).state = .starting → s.listenCause z = some c → s.link.isolated = none →
    ∃ e ∈ b.link.queue, e.body = .trip z (s.nextEpoch z) c 3 .rest
  raised : ∀ z ∈ zs, ∀ c, (s.view z).state = .starting → s.listenCause z = some c →
    (Cause.zoneTripped, z.val) ∈ b.panel.raised

theorem Block.settleViews_settled {zs : List ZoneId} (hn : zs.Nodup) (s : Block) :
    ViewsSettled zs s (zs.foldl Block.settleView s) := by
  induction zs generalizing s with
  | nil => exact ⟨.refl _ _, fun z => by simp, rfl, rfl, .done _, nofun, nofun⟩
  | cons u zs ih =>
    obtain ⟨hu, hn⟩ := List.nodup_cons.mp hn
    have h := s.settleView_settled u
    have k := ih hn (s.settleView u)
    have other : ∀ z, z ≠ u → (s.settleView u).view z = s.view z := fun z hz => by
      rw [Block.view_congr h.views, Block.view_setView_of_ne _ hz]
    have same : ∀ z ∈ zs, (s.settleView u).view z = s.view z ∧ (s.settleView u).listenCause z = s.listenCause z ∧
        (s.settleView u).settledView z = s.settledView z ∧ (s.settleView u).nextEpoch z = s.nextEpoch z := fun z hz =>
      have hv := other z (ne_of_mem_of_not_mem hz hu)
      ⟨hv, Block.listenCause_congr h.work hv, Block.settledView_congr h.work h.openDraws hv⟩
    have isolated : (s.settleView u).link.isolated = s.link.isolated := by
      rcases h.link with e | ⟨c, e⟩
      · rw [e]
      · rw [e]; exact (TripsOffered.trip (z := u) (s.nextEpoch u) c (.done _)).isolated
    rw [List.foldl_cons]
    refine ⟨h.work.trans k.work, fun z => ?_, k.listen.trans h.listen, k.roster.trans h.roster, ?_, ?_, ?_⟩
    · rw [k.views]
      by_cases hz : z ∈ zs
      · rw [if_pos hz, if_pos (List.mem_cons_of_mem _ hz), (same z hz).2.2.1]
      · rw [if_neg hz]
        by_cases hzu : z = u
        · subst hzu
          rw [Block.view_congr h.views, Block.view_setView, if_pos (List.mem_cons_self ..)]
        · rw [other z hzu, if_neg (by simp [hz, hzu])]
    · rcases h.link with e | ⟨c, e⟩
      · exact .skip (e ▸ k.trips)
      · exact .trip _ c (e ▸ k.trips)
    · intro z hz c hs hc hi
      rcases List.mem_cons.mp hz with rfl | hz
      · have hl := h.offered c hs hc hi
        obtain ⟨e, he, hb⟩ := Link.exists_mem_offer s.link (.trip z (s.nextEpoch z) c 3 .rest)
        exact ⟨e, (k.trips.mem_other hu (by rw [hb]; rfl)).mpr (hl ▸ he), hb⟩
      · obtain ⟨hv, hl, -, hx⟩ := same z hz
        rw [← hx]
        exact k.offered z hz c (hv ▸ hs) (hl ▸ hc) (isolated ▸ hi)
    · intro z hz c hs hc
      rcases List.mem_cons.mp hz with rfl | hz
      · exact k.work.panel.subset (h.raised c hs hc)
      · obtain ⟨hv, hl, -, -⟩ := same z hz
        exact k.raised z hz c (hv ▸ hs) (hl ▸ hc)

theorem mem_allZones (z : ZoneId) : z ∈ allZones := by revert z; decide

/-- Settles O51: the views are settled one by one, each as it stood when the listen ended. -/
theorem listenSettlesTheViews : Obligations.ListenSettlesTheViews := by
  intro s hs
  refine ⟨fun h => event_later hs (work := fun b => b.listenEnds) (by simp [Block.listenEnds, h]) (.refl hs),
    fun h hep => ?_⟩
  generalize ha : s.block.setSpill { s.block.spill with listen := .rest } = a
  have hw : s.block.listenEnds = allZones.foldl Block.settleView a := by
    rw [Block.listenEnds, if_pos h, ← ha]; rfl
  have start : ZoneWork [.zoneTripped] s.block a := ha ▸ ⟨rfl, rfl, rfl, rfl, rfl, rfl, rfl, .refl _ _⟩
  have aview : ∀ z, a.view z = s.block.view z := ha ▸ fun _ => rfl
  have alink : a.link = s.block.link := ha ▸ rfl
  have aroster : a.roster = s.block.roster := ha ▸ rfl
  have alisten : a.spill.listen = .rest := ha ▸ rfl
  have cause : ∀ z, a.listenCause z = s.block.listenCause z := fun z => Block.listenCause_congr start (aview z)
  have epoch : ∀ z, a.nextEpoch z = (s.block.view z).epoch + 1 := fun z => by
    have hz : (s.block.view z).epoch < Config.epochMax := hep z
    rw [Block.nextEpoch, aview, if_pos hz]
  have settled := Block.settleViews_settled (zs := allZones) (by decide) a
  have fin := (start.trans settled.work).finish_end hs
  generalize allZones.foldl Block.settleView a = b at hw settled fin
  have view : ∀ z, (Block.finish s.block b).view z = a.settledView z := fun z => by
    rw [fin.view, settled.views, if_pos (mem_allZones z)]
  refine ⟨{ s with block := Block.finish s.block b }, by rw [← hw]; rfl, rfl, ?_, fun z hz => ?_,
    fun z c hz hc => ⟨?_, fun why hw hi => ?_, fun hw => ?_⟩, ?_, fin.store, fin.pins, fin.accounts, fin.inputs, fin.tanks,
    fin.lanes, ?_, fin.samePanel⟩
  · rw [fin.spill, settled.listen, alisten]
  · rw [view, Block.settledView, aview, if_neg hz]
  · have hc : a.listenCause z = c := (cause z).trans hc.symm
    rw [view, Block.settledView, aview, if_pos hz, hc]
    cases c with
    | none => rfl
    | some why => simp only [Block.trippedHere, epoch, Block.number, start.store]
  · have hc : a.listenCause z = some why := (cause z).trans (hc.symm.trans hw)
    rw [fin.link, ← epoch]
    exact settled.offered z (mem_allZones z) why ((aview z).symm ▸ hz) hc (alink ▸ hi)
  · obtain ⟨why, hw⟩ := Option.isSome_iff_exists.mp hw
    have hc : a.listenCause z = some why := (cause z).trans (hc.symm.trans hw)
    rw [fin.panel]
    exact Panel.settle_pending (settled.raised z (mem_allZones z) why ((aview z).symm ▸ hz) hc)
  · intro x y p q ep eq cp cq hx hy _ _ hpq hn hxp hyq
    rw [fin.link] at hx hy
    exact settled.trips.ordered (by decide) (mem_allZones p) (mem_allZones q) hpq
      (fun e he => (hn e (alink ▸ he)).1) (fun e he => (hn e (alink ▸ he)).2) hx hy (by rw [hxp]; rfl) (by rw [hyq]; rfl)
  · exact aroster ▸ settled.roster ▸ fin.roster

end Sys2Proof.Machine
end

