-- ==== Sys2Proof/Proofs/Isolation.lean ====
section
/-! Conflicts, link errors, isolation and the self-test (R132, R152, R159 to R162). -/

namespace Sys2Proof.Machine

/-! ## CLEAR copies taken as sent (R132, R161) -/

/-- No CLEAR copy of a release of this station is yet to be sent for the view. -/
def ZoneView.NoCopy (v : ZoneView) : Prop :=
  v.state ≠ .clearing ∨ ∀ e x, v.clearing ≠ some (.sender e .copy1 x) ∧ v.clearing ≠ some (.sender e .copy2 x)

/-- A copy taken as sent for a view that waits for none does nothing. -/
theorem Block.clearSent_noCopy {s : Block} {z : ZoneId} (h : (s.view z).NoCopy) (e c : Nat) :
    s.clearSent z e c = s := by
  simp only [Block.clearSent]
  split
  case h_1 hs hc => exact h.elim (absurd hs) fun h => absurd hc (h _ _).1
  case h_2 hs hc => exact h.elim (absurd hs) fun h => absurd hc (h _ _).2
  case h_3 => rfl

/-- What a copy taken as sent does: nothing, the start of the interval, or the entry to NORMAL. -/
theorem Block.clearSent_cases (s : Block) (z : ZoneId) (e c : Nat) :
    s.clearSent z e c = s ∨ ((s.view z).state = .clearing ∧ ∃ e', s.clearSent z e c =
        s.setView z { s.view z with clearing := some (.sender e' .interval (.run Config.intervalMs)) }) ∨
      s.clearSent z e c = s.enterNormal z := by
  simp only [Block.clearSent]
  split
  case h_1 hs hc =>
    split
    · exact .inr (.inl ⟨hs, _, rfl⟩)
    · exact .inl rfl
  case h_2 =>
    split
    · exact .inr (.inr rfl)
    · exact .inl rfl
  case h_3 => exact .inl rfl

theorem Block.clearSent_work (s : Block) (z : ZoneId) (e c : Nat) : ZoneWork [] s (s.clearSent z e c) := by
  rcases s.clearSent_cases z e c with h | ⟨-, e, h⟩ | h <;> rw [h]
  · exact .refl _ _
  · exact .setView _ s z _
  · exact s.enterNormal_work z

theorem Block.clearSent_other (s : Block) {z k : ZoneId} (hk : k ≠ z) (e c : Nat) :
    (s.clearSent z e c).view k = s.view k := by
  rcases s.clearSent_cases z e c with h | ⟨-, e, h⟩ | h <;> rw [h]
  · rw [Block.view_setView_of_ne _ hk]
  · rw [s.enterNormal_view, if_neg hk]

theorem Block.clearSent_kept (s : Block) (z : ZoneId) (e c : Nat) :
    (s.clearSent z e c).link = s.link ∧ (s.clearSent z e c).roster = s.roster ∧
      (s.clearSent z e c).spill.listen = s.spill.listen ∧ (s.clearSent z e c).panel = s.panel := by
  rcases s.clearSent_cases z e c with h | ⟨-, e, h⟩ | h <;> rw [h]
  · exact ⟨rfl, rfl, rfl, rfl⟩
  · exact ⟨rfl, rfl, rfl, rfl⟩
  · simp only [Block.enterNormal]
    split <;> exact ⟨rfl, rfl, rfl, rfl⟩

/-- R129: where the own zone's view is NORMAL by a release, its settle timer has been started. -/
def SettleStarted (z : ZoneId) (s : Block) : Prop := (s.view z).state = .normal → s.spill.settle = .run 500

theorem SettleStarted.clearSent {s : Block} {z : ZoneId} (h : SettleStarted z s) (hz : s.store.ownZone = some z)
    (k : ZoneId) (e c : Nat) : SettleStarted z (s.clearSent k e c) := by
  rcases s.clearSent_cases k e c with hc | ⟨hv, e, hc⟩ | hc <;> rw [hc]
  · exact h
  · intro hn
    rw [Block.view_setView_eq] at hn
    split at hn
    · cases hv.symm.trans hn
    · exact h hn
  · by_cases hk : z = k
    · subst hk; exact fun _ => Block.enterNormal_settle hz
    · have hown : s.isOwnZone k = false := by simp [Block.isOwnZone, hz, hk]
      intro hn
      rw [s.enterNormal_view, if_neg hk] at hn
      simp only [Block.enterNormal, hown]
      exact h hn

/-- CLEAR copies taken as sent, one after the other. -/
def Block.clearsSent (s : Block) (xs : List (ZoneId × Nat × Nat)) : Block :=
  xs.foldl (fun b x => b.clearSent x.1 x.2.1 x.2.2) s

theorem Block.clearsSent_work (s : Block) (xs : List (ZoneId × Nat × Nat)) : ZoneWork [] s (s.clearsSent xs) :=
  ZoneWork.foldl (fun b (x : ZoneId × Nat × Nat) => b.clearSent_work x.1 x.2.1 x.2.2) xs s

theorem Block.clearsSent_kept (s : Block) (xs : List (ZoneId × Nat × Nat)) :
    (s.clearsSent xs).link = s.link ∧ (s.clearsSent xs).roster = s.roster ∧
      (s.clearsSent xs).spill.listen = s.spill.listen ∧ (s.clearsSent xs).panel = s.panel :=
  List.foldlRecOn (motive := fun b : Block => b.link = s.link ∧ b.roster = s.roster ∧
      b.spill.listen = s.spill.listen ∧ b.panel = s.panel) xs _ ⟨rfl, rfl, rfl, rfl⟩
    fun b ⟨hl, hr, hs, hp⟩ x _ => by
      obtain ⟨kl, kr, ks, kp⟩ := b.clearSent_kept x.1 x.2.1 x.2.2
      exact ⟨kl.trans hl, kr.trans hr, ks.trans hs, kp.trans hp⟩

theorem Block.clearsSent_noCopy {s : Block} {z : ZoneId} (h : (s.view z).NoCopy) (xs : List (ZoneId × Nat × Nat)) :
    (s.clearsSent xs).view z = s.view z := by
  refine List.foldlRecOn (motive := fun b : Block => b.view z = s.view z) xs _ rfl fun b hb x _ => ?_
  by_cases hx : z = x.1
  · subst hx; rw [Block.clearSent_noCopy (hb ▸ h), hb]
  · rw [b.clearSent_other hx, hb]

/-- A view for which one copy waits is as that copy leaves it, however often the copy is found. -/
theorem Block.clearsSent_view {z : ZoneId} {e c : Nat} {v w : ZoneView} (hw : w.NoCopy)
    (hstep : ∀ b : Block, b.view z = v → (b.clearSent z e c).view z = w) {xs : List (ZoneId × Nat × Nat)} {s : Block}
    (hx : (z, e, c) ∈ xs) (hall : ∀ y ∈ xs, y.1 = z → y = (z, e, c)) (hs : s.view z = v) :
    (s.clearsSent xs).view z = w := by
  induction xs generalizing s with
  | nil => cases hx
  | cons y ys ih =>
    show ((s.clearSent y.1 y.2.1 y.2.2).clearsSent ys).view z = w
    by_cases hy : y.1 = z
    · obtain rfl := hall y (List.mem_cons_self ..) hy
      have h := hstep s hs
      rw [Block.clearsSent_noCopy (h ▸ hw), h]
    · refine ih ?_ (fun x hm => hall x (List.mem_cons_of_mem _ hm)) ?_
      · exact (List.mem_cons.mp hx).resolve_left fun h => hy (h ▸ rfl)
      · rw [s.clearSent_other (Ne.symm hy), hs]

theorem Block.clearsSent_settle {s : Block} {z : ZoneId} (h : SettleStarted z s) (hz : s.store.ownZone = some z)
    (xs : List (ZoneId × Nat × Nat)) : SettleStarted z (s.clearsSent xs) :=
  (List.foldlRecOn (motive := fun b : Block => SettleStarted z b ∧ b.store.ownZone = some z) xs _ ⟨h, hz⟩
    fun b hb x _ => ⟨hb.1.clearSent hb.2 _ _ _, by rw [(b.clearSent_work x.1 x.2.1 x.2.2).store]; exact hb.2⟩).1

/-! ## Isolation (R161) -/

/-- R161: the CLEAR copies that wait or are being sent. -/
def Link.clearCopies (k : Link) : List (ZoneId × Nat × Nat) := (k.entryInSending.toList ++ k.queue).filterMap clearCopyOf

/-- What of the queue an isolated station keeps. -/
def Link.isolatedBy (k : Link) (cause : IsolationCause) : Link :=
  { k with
    queue := k.drawReturned.filter fun e => e.body.isDraw, sending := none, contending := none, isolated := some cause }

/-- The part once the link is isolated and the builder stopped, before the CLEAR copies are taken as sent. -/
def Block.cutOff (s : Block) (cause : IsolationCause) : Block :=
  (s.setLink (s.link.isolatedBy cause)).setBuilder Builder.stopped

theorem Block.isolate_eq {s : Block} (h : s.link.isolated = none) (cause : IsolationCause) :
    s.isolate cause = ((s.cutOff cause).clearsSent s.link.clearCopies).raise .linkErrors cause.detail := by
  have hi : s.isolated = false := by simp [Block.isolated, h]
  simp only [Block.isolate, hi]
  rfl

/-- What the event that isolates the station leaves, begun at `a`; its own work had made `b` of it when it isolated. -/
structure IsolationEnd (cause : IsolationCause) (a b t : Block) : Prop where
  fin : ZoneEnd [.linkErrors] a (((b.cutOff cause).clearsSent b.link.clearCopies).raise .linkErrors cause.detail) t
  link : t.link = b.link.isolatedBy cause
  roster : t.roster = { b.roster with builder := Builder.stopped }
  listen : t.spill.listen = b.spill.listen
  cell : t.panel.causes[Cause.linkErrors.index] =
    ⟨true, some cause.detail, min 255 (a.panel.causes[Cause.linkErrors.index].count + 1)⟩

theorem Block.isolate_end {a b : Block} (ha : Settled a) (h : ZoneWork [] a b) (hi : b.link.isolated = none)
    (cause : IsolationCause) : IsolationEnd cause a b (Block.finish a (b.isolate cause)) := by
  have cut : ZoneWork [] b (b.cutOff cause) := (ZoneWork.setLink [] b _).trans (.setBuilder _ _ _)
  obtain ⟨hl, hr, hs, hp⟩ := (b.cutOff cause).clearsSent_kept b.link.clearCopies
  have work : ZoneWork [] a ((b.cutOff cause).clearsSent b.link.clearCopies) :=
    h.trans (cut.trans (Block.clearsSent_work _ _))
  rw [Block.isolate_eq hi]
  generalize hc : (b.cutOff cause).clearsSent b.link.clearCopies = c at hl hr hs hp work
  have raised : ZoneWork [.linkErrors] a (c.raise .linkErrors cause.detail) :=
    ⟨work.store, work.pins, work.lanes, work.tanks, work.accounts, work.entries, work.inputs,
      (work.panel.mono (List.nil_subset _)).trans (.of_raise c _ (List.mem_singleton_self _))⟩
  have off : (c.raise .linkErrors cause.detail).builderOn = false := by
    simp [Block.builderOn, Block.isolated, hl, Block.cutOff, Link.isolatedBy]
  have roster := Block.finish_roster_of_off a off
  have fin := raised.finish_end ha
  have pc : c.panel = a.panel := by
    obtain ⟨xs, hx, hn⟩ := work.panel.raised
    have : xs = [] := List.eq_nil_iff_forall_not_mem.mpr fun x hm => List.not_mem_nil (hn x hm)
    rw [work.panel.panel, hx, this, List.append_nil]
  generalize Block.finish a (c.raise .linkErrors cause.detail) = t at fin roster ⊢
  refine ⟨hc ▸ fin, fin.link.trans hl, roster.trans hr, ?_, ?_⟩
  · rw [fin.spill]; exact hs
  · rw [fin.panel, Panel.settle_cell_once (d := cause.detail)]
    · rw [Block.raise_panel, pc]
    · rw [Block.raise_panel, pc, ha.raised]; rfl

end Sys2Proof.Machine
end

