-- ==== Sys2Proof/Proofs/Conflicts.lean ====
section
/-! Conflicts on the link (R152, R156), and what the third, which isolates the station, leaves (R132, R161). -/

namespace Sys2Proof.Machine

/-! ## The frame given back (R152) -/

/-- The link when the frame in the transmitter has been given up, and a conflict counted. -/
def Link.inConflict (k : Link) (queue : List Entry) : Link :=
  { k with sending := none, restOfConflict := true, conflicts := k.conflicts + 1, queue := queue }

/-- R152, R156: the queue with the abandoned entry back in its place. -/
def Link.queueBack (k : Link) (e : Entry) (w : Bool) : List Entry :=
  if w = true ∨ (∃ x ∈ k.queue, e.body.isDraw = false ∧ x.body.contender = e.body.contender) then k.queue
  else insertEntry e k.queue

theorem Link.returnEntry_eq (k : Link) (e : Entry) (w : Bool) :
    k.returnEntry e w = { k with queue := k.queueBack e w } := by
  have hc : (w || k.queue.any fun x => e.hasKey x.body.contender) = true ↔
      w = true ∨ ∃ x ∈ k.queue, e.body.isDraw = false ∧ x.body.contender = e.body.contender := by
    simp only [Bool.or_eq_true, List.any_eq_true, hasKey_iff, eq_comm (a := e.body.contender)]
  simp only [Link.returnEntry, Link.queueBack, hc]
  split <;> rfl

theorem Block.conflict_entry {s : Block} {e : Entry} {f : Frame} {w : Bool}
    (h : s.link.sending = some (.entry e f w)) :
    s.conflict = Block.countConflict
      (s.setLink { s.link with sending := none, restOfConflict := true, queue := s.link.queueBack e w }) := by
  simp only [Block.conflict, h, Link.returnEntry_eq]
  rfl

theorem Block.conflict_status {s : Block} {c : StatusContent} (h : s.link.sending = some (.status c)) :
    s.conflict = Block.countConflict
      ((s.setLink { s.link with sending := none, restOfConflict := true }).setBuilder
        { s.roster.builder with due := true }) := by
  simp only [Block.conflict, h]
  rfl

/-- R152: fewer than three conflicts are counted, and no more. -/
theorem Block.countConflict_few {s : Block} (h : s.link.conflicts < 2) :
    s.countConflict = s.setLink { s.link with conflicts := s.link.conflicts + 1 } := by
  have hl : ¬ Config.conflictLimit ≤ s.link.conflicts + 1 := by unfold Config.conflictLimit; omega
  simp only [Block.countConflict, Block.setLink_link, hl, if_false]

/-- R152: the third isolates the station. -/
theorem Block.countConflict_third {s : Block} (h : 2 ≤ s.link.conflicts) :
    s.countConflict = (s.setLink { s.link with conflicts := s.link.conflicts + 1 }).isolate .dupStation := by
  have hl : Config.conflictLimit ≤ s.link.conflicts + 1 := by unfold Config.conflictLimit; omega
  simp only [Block.countConflict, Block.setLink_link, hl, if_true]

/-! ## What is known of the queue when the third conflict isolates -/

/-- The transmitter of `l` is free, and its queue is that of `k` with, or without, the entry that `k` was sending; one
that was not withdrawn is there, or another of its key. -/
structure Freed (k l : Link) : Prop where
  sending : l.sending = none
  isolated : l.isolated = k.isolated
  kept : k.queue ⊆ l.queue
  from' : ∀ y ∈ l.queue, y ∈ k.queue ∨ ∃ f w, k.sending = some (.entry y f w)
  covered : ∀ x f, k.sending = some (.entry x f false) → ∃ y ∈ l.queue, y.body.contender = x.body.contender

theorem Freed.of_status {k : Link} (h : ∀ e f w, k.sending ≠ some (.entry e f w)) {l : Link} (hs : l.sending = none)
    (hi : l.isolated = k.isolated) (hq : l.queue = k.queue) : Freed k l :=
  ⟨hs, hi, hq ▸ List.Subset.refl _, fun _ hy => .inl (hq ▸ hy), fun x f e => absurd e (h x f false)⟩

theorem Freed.of_entry {k : Link} {e : Entry} {f : Frame} {w : Bool} (h : k.sending = some (.entry e f w)) {l : Link}
    (hs : l.sending = none) (hi : l.isolated = k.isolated) (hq : l.queue = k.queueBack e w) : Freed k l := by
  unfold Link.queueBack at hq
  split at hq
  case isTrue hc =>
    refine ⟨hs, hi, hq ▸ List.Subset.refl _, fun _ hy => .inl (hq ▸ hy), fun x g hx => ?_⟩
    cases h.symm.trans hx
    obtain ⟨y, hy, -, hk⟩ := hc.resolve_left Bool.false_ne_true
    exact ⟨y, hq ▸ hy, hk⟩
  case isFalse =>
    refine ⟨hs, hi, fun y hy => hq ▸ mem_insertEntry.mpr (.inr hy), fun y hy => ?_, fun x g hx => ?_⟩
    · rcases mem_insertEntry.mp (hq ▸ hy) with rfl | hy
      · exact .inr ⟨f, w, h⟩
      · exact .inl hy
    · cases h.symm.trans hx
      exact ⟨e, hq ▸ mem_insertEntry.mpr (.inl rfl), rfl⟩

theorem clearCopyOf_eq_some {e : Entry} {x : ZoneId × Nat × Nat} :
    clearCopyOf e = some x ↔ e.body = .clear x.1 x.2.1 x.2.2 := by
  obtain ⟨z, epoch, copy⟩ := x
  obtain ⟨stamp, body⟩ := e
  cases body <;> simp [clearCopyOf]

theorem contender_clear {b : EntryBody} {z : ZoneId} (h : b.contender = .clear z) : ∃ e c, b = .clear z e c := by
  cases b <;> simp_all [EntryBody.contender]

namespace Freed

variable {k l : Link} (h : Freed k l)

include h

theorem mem_clearCopies {x : ZoneId × Nat × Nat} :
    x ∈ l.clearCopies ↔ ∃ e ∈ l.queue, e.body = .clear x.1 x.2.1 x.2.2 := by
  have : l.entryInSending = none := by simp [Link.entryInSending, h.sending]
  simp only [Link.clearCopies, this, Option.toList_none, List.nil_append, List.mem_filterMap, clearCopyOf_eq_some]

/-- R161: the copy that waits for a zone is taken as sent, and no other of the zone. -/
theorem copy_waits {z : ZoneId} {e c : Nat} (hw : clearWaits k z e c) :
    (z, e, c) ∈ l.clearCopies ∧ ∀ y ∈ l.clearCopies, y.1 = z → y = (z, e, c) := by
  obtain ⟨hone, hqueue, hsending⟩ := hw
  have only : ∀ y ∈ l.queue, y.body.contender = .clear z → y.body = .clear z e c := by
    intro y hy hc
    rcases h.from' y hy with hy | ⟨f, w, hf⟩
    · exact hqueue y hy hc
    · exact (hsending y f w hf hc).1
  constructor
  · rw [h.mem_clearCopies]
    rcases hone with ⟨x, hx, hb⟩ | ⟨x, f, hf, hb⟩
    · exact ⟨x, h.kept hx, hb⟩
    · obtain ⟨y, hy, hk⟩ := h.covered x f hf
      exact ⟨y, hy, only y hy (by rw [hk, hb]; rfl)⟩
  · intro y hy hz
    obtain ⟨x, hx, hb⟩ := h.mem_clearCopies.mp hy
    have hx := only x hx (by rw [hb, hz]; rfl)
    rw [hb] at hx
    obtain ⟨y1, y2, y3⟩ := y
    cases hx
    rfl

theorem isolatedBy_queue (cause : IsolationCause) :
    (l.isolatedBy cause).queue = l.queue.filter fun e => e.body.isDraw := by
  have : l.entryInSending = none := by simp [Link.entryInSending, h.sending]
  simp only [Link.isolatedBy, Link.drawReturned, this]

end Freed

/-- R161: what the third conflict leaves, as the statement gives it: `b` is the part as the frame has been given up. -/
theorem thirdConflict_end {a b : Block} (ha : Settled a) (hwork : ZoneWork [] a b) (hspill : b.spill = a.spill)
    (hk : Freed a.link b.link) (hi : a.link.isolated = none) :
    let t := Block.finish a (b.isolate .dupStation)
    t.link.isolated = some .dupStation ∧ t.link.sending = none ∧ t.link.contending = none ∧
      (∀ e ∈ t.link.queue, e.body.isDraw = true) ∧
      (∀ e ∈ a.link.queue, e.body.isDraw = true → e ∈ t.link.queue) ∧
      t.roster.builder = Builder.stopped ∧
      t.panel.causes[Cause.linkErrors.index] =
        ⟨true, some 2, min 255 (a.panel.causes[Cause.linkErrors.index].count + 1)⟩ ∧
      t.store = a.store ∧ t.accounts = a.accounts ∧ t.pins = a.pins ∧
      sameStockBut [] a t ∧ (∀ l, sameLane (a.lane l) (t.lane l)) ∧
      t.roster.entries = a.roster.entries ∧ t.spill.listen = a.spill.listen ∧
      (∀ i, t.input i = a.input i) ∧
      (∀ z, (a.view z).NoCopy → t.view z = a.view z) ∧
      (∀ z e x, (a.view z).state = .clearing → (a.view z).clearing = some (.sender e .copy1 x) →
        clearWaits a.link z e 1 →
        t.view z = { a.view z with clearing := some (.sender e .interval (.run 1000)) }) ∧
      (∀ z e x, (a.view z).state = .clearing → (a.view z).clearing = some (.sender e .copy2 x) →
        clearWaits a.link z e 2 →
        t.view z = { a.view z with state := .normal, clearing := none } ∧
        (a.store.ownZone = some z → t.spill.settle = .run 500 ∧ t.spill.drive = false)) ∧
      samePanel [.linkErrors] a.panel t.panel := by
  intro t
  have iso : IsolationEnd .dupStation a b t := Block.isolate_end ha hwork (hk.isolated.trans hi) .dupStation
  have cview : ∀ z, (b.cutOff .dupStation).view z = a.view z := fun z =>
    Block.view_congr (congrArg Spill.views hspill) z
  have cstore : (b.cutOff .dupStation).store = a.store := hwork.store
  have tview : ∀ z, t.view z = ((b.cutOff .dupStation).clearsSent b.link.clearCopies).view z := iso.fin.view
  have queue : t.link.queue = b.link.queue.filter fun e => e.body.isDraw := by
    rw [iso.link, hk.isolatedBy_queue]
  have normal : ∀ z e x, (a.view z).state = .clearing → (a.view z).clearing = some (.sender e .copy2 x) →
      clearWaits a.link z e 2 → t.view z = { a.view z with state := .normal, clearing := none } := by
    intro z e x hs hc hw
    obtain ⟨hone, hall⟩ := hk.copy_waits hw
    rw [tview]
    refine Block.clearsSent_view (v := a.view z) (by simp [ZoneView.NoCopy]) (fun c hcv => ?_) hone hall (cview z)
    rw [Block.clearSent_copy2 (hcv ▸ hs) (hcv ▸ hc), Block.enterNormal_view, if_pos rfl, hcv]
  refine ⟨by rw [iso.link]; rfl, by rw [iso.link]; rfl, by rw [iso.link]; rfl, fun e he => ?_, fun e he hd => ?_,
    by rw [iso.roster], iso.cell, iso.fin.store, iso.fin.accounts, iso.fin.pins, iso.fin.stockBut, iso.fin.lanes,
    by rw [iso.roster]; exact hwork.entries, by rw [iso.listen, hspill], iso.fin.inputs, fun z hz => ?_,
    fun z e x hs hc hw => ?_, fun z e x hs hc hw => ⟨normal z e x hs hc hw, fun hz => ⟨?_, ?_⟩⟩, iso.fin.samePanel⟩
  · rw [queue] at he
    exact (List.mem_filter.mp he).2
  · rw [queue]
    exact List.mem_filter.mpr ⟨hk.kept he, hd⟩
  · rw [tview, Block.clearsSent_noCopy (by rw [cview]; exact hz), cview]
  · obtain ⟨hone, hall⟩ := hk.copy_waits hw
    rw [tview]
    refine Block.clearsSent_view (v := a.view z) (by simp [ZoneView.NoCopy]) (fun c hcv => ?_) hone hall (cview z)
    rw [Block.clearSent_copy1 (hcv ▸ hs) (hcv ▸ hc), Block.view_setView, hcv]
  · have started : SettleStarted z ((b.cutOff .dupStation).clearsSent b.link.clearCopies) := by
      refine Block.clearsSent_settle (fun hn => ?_) (cstore ▸ hz) _
      rw [cview, hs] at hn
      cases hn
    rw [iso.fin.spill]
    exact started (by rw [← tview, normal z e x hs hc hw])
  · refine iso.fin.drive_normal (z := z) ?_ ?_
    · exact (congrArg Store.ownZone ((Block.clearsSent_work _ _).store.trans cstore)).trans hz
    · exact (congrArg ZoneView.state ((tview z).symm.trans (normal z e x hs hc hw)))

end Sys2Proof.Machine
end

