-- ==== Sys2Proof/Proofs/LinkErrors.lean ====
section
/-! The commands of conflicts, invalid frames and the self-test, clause by clause (R152, R159 to R162). -/

namespace Sys2Proof.Machine

/-! ## Conflicts -/

theorem exec_linkConflict_entry {s : State} (hs : Settled s.block) {e : Entry} {f : Frame} {w : Bool}
    (h : s.block.link.sending = some (.entry e f w)) (hc : s.block.link.conflicts < 2) :
    exec .linkConflict s = becomes s (later (s.block.setLink
      (s.block.link.inConflict (s.block.link.queueBack e w)))) := by
  refine event_link hs (work := fun b => b.conflict) ?_ rfl
  refine (Block.conflict_entry h).trans ?_
  exact (Block.countConflict_few (by exact hc)).trans rfl

theorem exec_linkConflict_status {s : State} (hs : Settled s.block) {c : StatusContent}
    (h : s.block.link.sending = some (.status c)) (hc : s.block.link.conflicts < 2) :
    exec .linkConflict s = becomes s (later ((s.block.setLink
      (s.block.link.inConflict s.block.link.queue)).setRoster
      { s.block.roster with builder := { s.block.roster.builder with due := true } })) := by
  refine event_later hs (work := fun b => b.conflict) ?_
    ⟨rfl, rfl, rfl, rfl, rfl, fun _ => rfl, fun _ => rfl, fun _ => rfl, hs.lanes, rfl, rfl, rfl⟩
  refine (Block.conflict_status h).trans ?_
  exact (Block.countConflict_few (by exact hc)).trans rfl

/-- The part as the third conflict isolates it. -/
theorem exec_thirdConflict {s : State} {cmd : Instr}
    (h : cmd = Instr.linkConflict ∧ s.block.link.sending ≠ none ∧ s.block.link.isolated = none ∨
      cmd = Instr.ownNumberFrame ∧ s.block.link.sending = none ∧ Receiving s.block ∧
        s.block.link.restOfConflict = false) (hc : 2 ≤ s.block.link.conflicts) :
    ∃ b : Block, exec cmd s = .next { s with block := Block.finish s.block (b.isolate .dupStation) } ∧
      ZoneWork [] s.block b ∧ b.spill = s.block.spill ∧ Freed s.block.link b.link ∧ s.block.link.isolated = none := by
  have run : ∀ (work : Block → Block) (b : Block), work s.block = b.isolate .dupStation →
      event s work = .next { s with block := Block.finish s.block (b.isolate .dupStation) } := by
    intro work b hw
    rw [event, hw]
  rcases h with ⟨rfl, hs, hi⟩ | ⟨rfl, hs, ⟨hr, ht, hi⟩, hrest⟩
  · obtain ⟨x, hx⟩ := Option.ne_none_iff_exists'.mp hs
    cases x with
    | entry e f w =>
      refine ⟨_, run (fun b => b.conflict) _ ((Block.conflict_entry hx).trans (Block.countConflict_third hc)),
        (ZoneWork.setLink [] _ _).trans (.setLink _ _ _), rfl, .of_entry hx rfl rfl rfl, hi⟩
    | status c =>
      refine ⟨_, run (fun b => b.conflict) _ ((Block.conflict_status hx).trans (Block.countConflict_third hc)),
        ((ZoneWork.setLink [] _ _).trans (.setBuilder _ _ _)).trans (.setLink _ _ _), rfl,
        .of_status (fun e f w => by rw [hx]; nofun) rfl rfl rfl, hi⟩
  · have hw : s.block.takeOwnNumber = s.block.frameEnded.countConflict := by
      simp [Block.takeOwnNumber, Block.receiving, Block.isolated, hr, ht, hs, hi, hrest]
    refine ⟨_, run (fun b => b.takeOwnNumber) _ (hw.trans (Block.countConflict_third hc)),
      (ZoneWork.setLink [] _ _).trans (.setLink _ _ _), rfl, .of_status (fun e f w => by rw [hs]; nofun) hs rfl rfl, hi⟩

/-! ## Frames with this station's number (R152, R160) -/

theorem exec_ownNumberFrame_ignored {s : State} (hs : Settled s.block)
    (h : s.block.link.sending ≠ none ∨ s.block.running = false ∨ s.block.link.test ≠ none) :
    exec .ownNumberFrame s = becomes s (later s.block) := by
  refine event_later hs (work := fun b => b.takeOwnNumber) ?_ (.refl hs)
  have : ¬ (s.block.receiving = true ∧ s.block.link.sending = none) := by
    rintro ⟨hr, hn⟩
    simp only [Block.receiving, Bool.and_eq_true, Option.isNone_iff_eq_none] at hr
    rcases h with h | h | h
    · exact h hn
    · rw [h] at hr; exact absurd hr.1 Bool.false_ne_true
    · exact h hr.2
  rw [Block.takeOwnNumber, if_neg this]

theorem exec_ownNumberFrame_heard {s : State} (hs : Settled s.block) (hr : s.block.running = true)
    (ht : s.block.link.test = none) (hn : s.block.link.sending = none)
    (h : s.block.link.isolated ≠ none ∨ s.block.link.restOfConflict = true) :
    exec .ownNumberFrame s = becomes s (later (heardFrame s.block)) := by
  refine event_link hs (work := fun b => b.takeOwnNumber) ?_ rfl
  have hi : s.block.isolated = true ∨ s.block.link.restOfConflict = true :=
    h.imp_left fun h => by rw [Block.isolated, Option.isSome_iff_ne_none]; exact h
  have hr : s.block.receiving = true := by simp [Block.receiving, hr, ht]
  rw [Block.takeOwnNumber, if_pos ⟨hr, hn⟩, if_pos hi]
  rfl

theorem exec_ownNumberFrame_counted {s : State} (hs : Settled s.block) (h : Receiving s.block)
    (hn : s.block.link.sending = none) (hrest : s.block.link.restOfConflict = false)
    (hc : s.block.link.conflicts < 2) : exec .ownNumberFrame s =
      becomes s (later (s.block.setLink { s.block.link with conflicts := s.block.link.conflicts + 1 })) := by
  obtain ⟨hr, ht, hi⟩ := h
  refine event_link hs (work := fun b => b.takeOwnNumber) ?_ rfl
  have hw : s.block.takeOwnNumber = s.block.frameEnded.countConflict := by
    simp [Block.takeOwnNumber, Block.receiving, Block.isolated, hr, ht, hn, hi, hrest]
  rw [hw, Block.countConflict_few (s := s.block.frameEnded) hc]
  simp only [Block.frameEnded, ← hrest] <;> rfl

/-! ## Frames that fail validation (R159) -/

theorem Block.takeInvalid_counted {s : Block} (hr : s.running = true) (ht : s.link.test = none) :
    s.takeInvalid = if s.link.errors = 15 then
        (s.setLink { s.link with restOfConflict := false, errors := min 65535 (s.link.errors + 1) }).raise .linkErrors 0
      else s.setLink { s.link with restOfConflict := false, errors := min 65535 (s.link.errors + 1) } := by
  have h : s.receiving = true := by simp [Block.receiving, hr, ht]
  have he : s.link.errors + 1 = Config.linkErrorLimit ↔ s.link.errors = 15 := by unfold Config.linkErrorLimit; omega
  simp only [Block.takeInvalid, h, if_true, he]
  rfl

theorem exec_invalidFrame_counted {s : State} (hs : Settled s.block) (hr : s.block.running = true)
    (ht : s.block.link.test = none) (he : s.block.link.errors ≠ 15) :
    exec .invalidFrame s = becomes s (later (s.block.setLink
      { s.block.link with restOfConflict := false, errors := min 65535 (s.block.link.errors + 1) })) :=
  event_link hs (work := fun b => b.takeInvalid) (by rw [Block.takeInvalid_counted hr ht, if_neg he]) rfl

theorem exec_invalidFrame_sixteenth {s : State} (hs : Settled s.block) (hr : s.block.running = true)
    (ht : s.block.link.test = none) (he : s.block.link.errors = 15) :
    ∃ t, exec .invalidFrame s = .next t ∧ t.pending = s.pending ∧
      t.block.link = { s.block.link with restOfConflict := false, errors := 16 } ∧
      t.block.panel.causes[Cause.linkErrors.index] =
        ⟨true, some 0, min 255 (s.block.panel.causes[Cause.linkErrors.index].count + 1)⟩ ∧
      { t.block with link := s.block.link, panel := s.block.panel } = later s.block ∧
      samePanel [.linkErrors] s.block.panel t.block.panel := by
  have hw : s.block.takeInvalid =
      (s.block.setLink { s.block.link with restOfConflict := false, errors := 16 }).raise .linkErrors 0 := by
    rw [Block.takeInvalid_counted hr ht, if_pos he, he]; rfl
  generalize hb : (s.block.setLink { s.block.link with restOfConflict := false, errors := 16 }).raise .linkErrors 0 = b at hw
  have alike : Alike s.block b := hb ▸ ⟨rfl, rfl, rfl, fun _ => ⟨rfl, rfl⟩, fun _ => rfl, fun _ => rfl, fun _ => rfl⟩
  have outputs : SameOutputs s.block b :=
    hb ▸ ⟨fun _ => ⟨rfl, rfl, rfl, rfl, rfl⟩, fun _ => ⟨rfl, rfl, rfl, rfl, rfl⟩, rfl⟩
  have raises : Raises [.linkErrors] s.block.panel b.panel := hb ▸ .of_raise _ 0 (List.mem_singleton_self _)
  have panel : b.panel = { s.block.panel with raised := s.block.panel.raised ++ [(.linkErrors, 0)] } := hb ▸ rfl
  have fin := Block.finish_still hs alike outputs fun t => hb ▸ SameForStock.refl _
  refine ⟨{ s with block := Block.finish s.block b }, by rw [← hw]; rfl, rfl, ?_, ?_, ?_, ?_⟩
  · rw [fin, ← hb]; rfl
  · rw [fin]
    refine (Panel.settle_cell_once (d := 0) (by rw [panel, hs.raised]; rfl)).trans ?_
    rw [panel]
  · rw [fin, ← hb]; rfl
  · rw [fin]; exact raises.samePanel hs.raised

theorem exec_invalidFrame_ignored {s : State} (hs : Settled s.block)
    (h : s.block.running = false ∨ s.block.link.test ≠ none) :
    exec .invalidFrame s = becomes s (later s.block) := by
  refine event_later hs (work := fun b => b.takeInvalid) ?_ (.refl hs)
  have : s.block.receiving = false := by
    rw [Block.receiving, Bool.and_eq_false_iff, Option.isNone_eq_false_iff, Option.isSome_iff_ne_none]
    exact h
  rw [Block.takeInvalid, this]
  rfl

/-! ## The self-test (R162) -/

theorem exec_loopbackTestEnd_passed {s : State} (hs : Settled s.block) {sent : List Byte}
    (h : s.block.link.test = some sent) (hd : (decodeFrame sent).isSome = true) :
    exec (.loopbackTestEnd (some sent)) s = becomes s (later ((s.block.setLink
      { s.block.link with test := none, driver := true }).setRoster
      { s.block.roster with builder := ⟨.run 500, .rest, false, true⟩ })) := by
  refine event_later hs (work := fun b => b.endTest (some sent)) ?_
    ⟨rfl, rfl, rfl, rfl, rfl, fun _ => rfl, fun _ => rfl, fun _ => rfl, hs.lanes, rfl, rfl, rfl⟩
  have hp : loopbackPasses sent (some sent) = true := by simp [loopbackPasses, hd]
  simp only [Block.endTest, h, hp, if_true]
  rfl

theorem exec_loopbackTestEnd_failed {s : State} (hs : Settled s.block) {sent : List Byte} {back : Option (List Byte)}
    (h : s.block.link.test = some sent) (hb : back ≠ some sent) (hi : s.block.link.isolated = none) :
    ∃ t, exec (.loopbackTestEnd back) s = .next t ∧ t.pending = s.pending ∧
      t.block.link.isolated = some .loopback ∧ t.block.link.test = none ∧ t.block.link.sending = none ∧
      (∀ e ∈ t.block.link.queue, e.body.isDraw = true) ∧ t.block.roster.builder = Builder.stopped ∧
      t.block.panel.causes[Cause.linkErrors.index] =
        ⟨true, some 1, min 255 (s.block.panel.causes[Cause.linkErrors.index].count + 1)⟩ ∧
      t.block.store = s.block.store ∧ t.block.accounts = s.block.accounts ∧ t.block.pins = s.block.pins ∧
      sameStockBut [] s.block t.block ∧ (∀ l, sameLane (s.block.lane l) (t.block.lane l)) := by
  have hp : loopbackPasses sent back = false := by simp [loopbackPasses, hb]
  have hw : s.block.endTest back =
      (s.block.setLink { s.block.link with test := none, driver := true }).isolate .loopback := by
    simp only [Block.endTest, h, hp, Bool.false_eq_true, if_false]
  generalize hx : s.block.setLink { s.block.link with test := none, driver := true } = b at hw
  have work : ZoneWork [] s.block b := hx ▸ .setLink _ _ _
  have isolated : b.link.isolated = none := hx ▸ hi
  have test : b.link.test = none := hx ▸ rfl
  have iso := Block.isolate_end hs work isolated .loopback
  refine ⟨{ s with block := Block.finish s.block (b.isolate .loopback) }, by rw [← hw]; rfl, rfl, ?_, ?_, ?_,
    fun e he => ?_, ?_, iso.cell, iso.fin.store, iso.fin.accounts, iso.fin.pins, iso.fin.stockBut, iso.fin.lanes⟩
  · rw [iso.link]; rfl
  · rw [iso.link]; exact test
  · rw [iso.link]; rfl
  · rw [iso.link] at he
    exact (List.mem_filter.mp he).2
  · rw [iso.roster]

/-- Settles O57, command by command. -/
theorem conflictsErrorsAndIsolation : Obligations.ConflictsErrorsAndIsolation := by
  rintro s k hs rfl
  refine ⟨fun h => event_later hs (work := fun b => b.conflict) (by simp only [Block.conflict, h]) (.refl hs),
    fun e f w h hc => exec_linkConflict_entry hs h hc, fun c h hc => exec_linkConflict_status hs h hc,
    fun cmd h hc => ?_, exec_ownNumberFrame_ignored hs, exec_ownNumberFrame_heard hs, exec_ownNumberFrame_counted hs,
    exec_invalidFrame_counted hs, exec_invalidFrame_sixteenth hs, exec_invalidFrame_ignored hs,
    fun sent => exec_loopbackTestEnd_passed hs, fun sent back h hb hi _ => exec_loopbackTestEnd_failed hs h hb hi⟩
  obtain ⟨b, hb, work, spill, freed, isolated⟩ := exec_thirdConflict h hc
  exact ⟨_, hb, rfl, thirdConflict_end hs work spill freed isolated⟩

end Sys2Proof.Machine
end

