-- ==== Sys2Proof/Proofs/StartChecks.lean ====
section
/-! START's checks (R177): the first that fails of the model's chain is the first of the statement's table. -/

namespace Sys2Proof.Machine

/-! ## The first that fails -/

/-- The failing that the chain finds is the first of the table. -/
def Finds (cs : List (Prop × Failing)) (o : Option Failing) : Prop := ∀ f, o = some f ↔ firstFails cs f

theorem firstFails_append {α : Type} (xs ys : List (Prop × α)) (a : α) :
    firstFails (xs ++ ys) a ↔ firstFails xs a ∨ (∀ x ∈ xs, ¬ x.1) ∧ firstFails ys a := by
  induction xs with
  | nil => simp [firstFails]
  | cons x xs ih =>
    rw [List.cons_append, firstFails, firstFails, ih, List.forall_mem_cons]
    tauto

theorem firstFails_iff_exists {α : Type} (xs : List (Prop × α)) : (∃ a, firstFails xs a) ↔ ∃ x ∈ xs, x.1 := by
  induction xs with
  | nil => simp [firstFails]
  | cons x xs ih =>
    simp only [firstFails, exists_or, exists_and_left, ih, List.exists_mem_cons_iff, exists_eq, and_true]
    tauto

theorem firstFailing_append (xs ys : List (Option Failing)) :
    firstFailing (xs ++ ys) = (firstFailing xs).or (firstFailing ys) := by
  induction xs with
  | nil => rfl
  | cons x xs ih => cases x with
    | none => exact ih
    | some f => rfl

namespace Finds

theorem eq_none_iff {cs : List (Prop × Failing)} {o : Option Failing} (h : Finds cs o) :
    o = none ↔ ∀ x ∈ cs, ¬ x.1 := by
  rw [Option.eq_none_iff_forall_ne_some]
  simp only [ne_eq, h _, ← not_exists, firstFails_iff_exists]
  simp

theorem append {cs ds : List (Prop × Failing)} {o p : Option Failing} (h : Finds cs o) (k : Finds ds p) :
    Finds (cs ++ ds) (o.or p) := fun f => by
  rw [firstFails_append, ← h f, ← h.eq_none_iff, ← k f, Option.or_eq_some_iff]

theorem nil : Finds [] none := fun f => by simp [firstFails]

theorem here {p : Prop} {f : Failing} {cs : List (Prop × Failing)} (h : p) :
    Finds ((p, f) :: cs) (some f) := fun g => by
  simp [firstFails, h, eq_comm]

theorem skip {p : Prop} {f : Failing} {cs : List (Prop × Failing)} {o : Option Failing} (h : ¬ p) (k : Finds cs o) :
    Finds ((p, f) :: cs) o := fun g => by simp [firstFails, h, k g]

/-- A last check, tested by a Bool. -/
theorem last {p : Prop} {b : Bool} (h : b = true ↔ p) (kind number : Nat) (c : StartCondition) :
    Finds [(p, ⟨kind, number, c⟩)] (failWhen b kind number c) := by
  rw [failWhen]
  split
  case isTrue hb => exact here (h.mp hb)
  case isFalse hb => exact skip (mt h.mpr hb) nil

theorem flatMap {α : Type} {f : α → List (Prop × Failing)} {g : α → Option Failing} (h : ∀ a, Finds (f a) (g a))
    (as : List α) : Finds (as.flatMap f) (firstFailing (as.map g)) := by
  induction as with
  | nil => exact nil
  | cons a as ih =>
    have e : firstFailing ((a :: as).map g) = (g a).or (firstFailing (as.map g)) := by
      rw [List.map_cons]; cases g a <;> rfl
    rw [List.flatMap_cons, e]
    exact (h a).append ih

theorem map {α : Type} {f : α → Prop × Failing} {g : α → Option Failing} (h : ∀ a, Finds [f a] (g a)) (as : List α) :
    Finds (as.map f) (firstFailing (as.map g)) := by
  rw [List.map_eq_flatMap]
  exact flatMap h as

end Finds

/-! ## The six steps -/

theorem LaneCfg.allows_draw (c : LaneCfg) : c.allows .draw = true ↔ mayDraw c := by
  rw [mayDraw]; unfold LaneCfg.allows; cases c.mode <;> simp

theorem LaneCfg.allows_ret (c : LaneCfg) : c.allows .ret = true ↔ mayReturn c := by
  rw [mayReturn]; unfold LaneCfg.allows; cases c.mode <;> simp

theorem Store.slowRateFault_finds (st : Store) (l : LaneId) :
    Finds [(∃ c ∈ st.lanes[l], c.maxRate < c.slowRate, ⟨1, l, .slowRate⟩)] (st.slowRateFault l) := by
  rw [Store.slowRateFault]
  cases st.lanes[l] with
  | none => exact .skip (by simp) .nil
  | some c => exact .last (by simp) _ _ _

theorem Store.drawFault_finds (st : Store) (l : LaneId) : Finds
    [ (∃ c ∈ st.lanes[l], mayDraw c ∧ (st.products[c.drawProduct] = none ∨ st.tanks[c.drawTank] = none), ⟨1, l, .notLoaded⟩)
    , (∃ c ∈ st.lanes[l], mayDraw c ∧ ∃ t ∈ st.tanks[c.drawTank], t.product ≠ c.drawProduct, ⟨1, l, .productMismatch⟩)
    , (∃ c ∈ st.lanes[l], mayDraw c ∧ ∃ t ∈ st.tanks[c.drawTank], t.cls = .waste, ⟨1, l, .classMismatch⟩) ]
    (st.drawFault l) := by
  rw [Store.drawFault]
  cases st.lanes[l] with
  | none => exact .skip (by simp) (.skip (by simp) (.skip (by simp) .nil))
  | some c =>
    simp only [Option.mem_some_iff, exists_eq_left']
    by_cases hd : mayDraw c
    case neg => rw [if_neg (mt c.allows_draw.mp hd)]; simp only [hd, false_and]; exact .skip id (.skip id (.skip id .nil))
    case pos =>
      rw [if_pos (c.allows_draw.mpr hd)]
      simp only [hd, true_and]
      cases st.products[c.drawProduct] with
      | none => exact .here (.inl rfl)
      | some p => cases st.tanks[c.drawTank] with
        | none => exact .here (.inr rfl)
        | some t =>
          refine .skip (by simp) ?_
          dsimp only
          split
          case isTrue hm => exact .here ⟨t, rfl, hm⟩
          case isFalse hm => exact .skip (by simpa using hm) (.last (by simp) _ _ _)

theorem Store.returnFault_finds (st : Store) (l : LaneId) : Finds
    [ (∃ c ∈ st.lanes[l], mayReturn c ∧ st.tanks[c.returnTank] = none, ⟨1, l, .notLoaded⟩)
    , (∃ c ∈ st.lanes[l], mayReturn c ∧ ∃ t ∈ st.tanks[c.returnTank], t.cls ≠ .waste, ⟨1, l, .classMismatch⟩) ]
    (st.returnFault l) := by
  rw [Store.returnFault]
  cases st.lanes[l] with
  | none => exact .skip (by simp) (.skip (by simp) .nil)
  | some c =>
    simp only [Option.mem_some_iff, exists_eq_left']
    by_cases hr : mayReturn c
    case neg => rw [if_neg (mt c.allows_ret.mp hr)]; simp only [hr, false_and]; exact .skip id (.skip id .nil)
    case pos =>
      rw [if_pos (c.allows_ret.mpr hr)]
      simp only [hr, true_and]
      cases st.tanks[c.returnTank] with
      | none => exact .here rfl
      | some t => exact .skip (by simp) (.last (by simp) _ _ _)

theorem mem_allTanks (u : TankId) : u ∈ allTanks := by revert u; decide

theorem mem_allInputs (i : InputId) : i ∈ allInputs := by revert i; decide

theorem Store.usesTank_iff (st : Store) (t : TankId) : st.usesTank t = true ↔ startNames st t := by
  rw [Store.usesTank, startNames, Bool.or_eq_true, List.any_eq_true, List.any_eq_true]
  refine or_congr (exists_congr fun l => ?_) (exists_congr fun i => ?_)
  · rw [and_iff_right (mem_allLanes l)]
    cases st.lanes[l] <;> simp [LaneCfg.allows_draw, LaneCfg.allows_ret]
  · rw [and_iff_right (mem_allInputs i), decide_eq_true_eq, Option.join_eq_some_iff]

theorem Store.ownDrawRates_eq (st : Store) (t : TankId) : st.ownDrawRates t = drawRates st t := by
  refine congrArg List.sum (List.map_congr_left fun l _ => ?_)
  cases st.lanes[l] with
  | none => rfl
  | some c => simp only [Bool.and_eq_true, decide_eq_true_eq, c.allows_draw, mayDraw]

theorem tankClassOf_iff (p : ProductClass) (t : TankClass) : t = tankClassOf p ↔ classesAgree p t := by
  cases p <;> cases t <;> simp [tankClassOf, classesAgree]

theorem TankCfg.marksInOrder_iff (c : TankCfg) : c.marksInOrder = true ↔ c.suctionMark < c.reserveMark ∧
    c.reserveMark < c.lowMark ∧ c.lowMark < c.highMark ∧ c.highMark < c.highHighMark ∧ c.highHighMark ≤ c.capacity := by
  simp [TankCfg.marksInOrder, and_assoc]

theorem TankCfg.supplyFits_iff (c : TankCfg) :
    c.supplyFits = false ↔ (c.cls = .waste ∧ c.supply ≠ 0) ∨ (c.cls ≠ .waste ∧ c.supply = 0) := by
  by_cases h : c.cls = .waste <;> simp [TankCfg.supplyFits, h]

theorem Store.tankFault_finds (st : Store) (u : TankId) : Finds
    [ (startNames st u ∧ ∀ t ∈ st.tanks[u], st.products[t.product] = none, ⟨3, u, .notLoaded⟩)
    , (startNames st u ∧ ∃ t ∈ st.tanks[u], ∃ p ∈ st.products[t.product], ¬ classesAgree p.cls t.cls, ⟨3, u, .classMismatch⟩)
    , (startNames st u ∧ ∃ t ∈ st.tanks[u], ¬ (t.suctionMark < t.reserveMark ∧ t.reserveMark < t.lowMark ∧
        t.lowMark < t.highMark ∧ t.highMark < t.highHighMark ∧ t.highHighMark ≤ t.capacity), ⟨3, u, .markOrder⟩)
    , (startNames st u ∧ ∃ t ∈ st.tanks[u], (t.cls = .waste ∧ t.supply ≠ 0) ∨ (t.cls ≠ .waste ∧ t.supply = 0),
        ⟨3, u, .supplyCapacity⟩)
    , (startNames st u ∧ ∃ t ∈ st.tanks[u], t.bayDemand < drawRates st u, ⟨3, u, .demandSum⟩) ]
    (st.tankFault u) := by
  simp only [Store.tankFault, ← st.usesTank_iff, st.ownDrawRates_eq, ← TankCfg.marksInOrder_iff]
  cases st.usesTank u with
  | false => exact .skip (by simp) (.skip (by simp) (.skip (by simp) (.skip (by simp) (.skip (by simp) .nil))))
  | true =>
    simp only [true_and, if_true]
    cases st.tanks[u] with
    | none => exact .here nofun
    | some c =>
      simp only [Option.mem_some_iff, exists_eq_left', forall_eq', ← c.supplyFits_iff]
      cases st.products[c.product] with
      | none => exact .here rfl
      | some p =>
        simp only [Option.mem_some_iff, exists_eq_left', ← tankClassOf_iff]
        refine .skip nofun ?_
        split
        case isTrue h => exact .here h
        refine .skip (by assumption) ?_
        split
        case isTrue h => exact .here (by simp [h])
        case isFalse h =>
          refine .skip (by simpa using h) ?_
          split
          case isTrue h => exact .here h
          case isFalse h => exact .skip h (.last (by simp) _ _ _)

theorem Store.gaugeFault_finds (st : Store) (i : InputId) : Finds
    [ (∃ u, st.gauges[i] = some (some u) ∧ ∀ t ∈ st.tanks[(u : TankId)], t.gaugeStation ≠ st.number ∨ t.gaugeInput ≠ i,
        ⟨6, i, .gaugeMismatch⟩)
    , (∃ u, st.gauges[i] = some (some u) ∧ ∃ j, j ≠ i ∧ st.gauges[(j : InputId)] = some (some u), ⟨6, i, .gaugeDuplicate⟩) ]
    (st.gaugeFault i) := by
  simp only [Store.gaugeFault, ← Option.join_eq_some_iff]
  cases st.gauges[i].join with
  | none => exact .skip (by simp) (.skip (by simp) .nil)
  | some u =>
    simp only [Option.some.injEq, exists_eq_left']
    cases st.tanks[u] with
    | none => exact .here nofun
    | some c =>
      simp only [Option.mem_some_iff, forall_eq']
      split
      case isTrue h => exact .here h
      case isFalse h => exact .skip h (.last (by simp [mem_allInputs]) _ _ _)

/-- R177: START's chain finds the first failing check of the table. -/
theorem Store.startFault_finds (st : Store) : Finds (startChecks st) st.startFault := by
  have zone : Finds [(st.ownZone = none, ⟨0, 0, .notLoaded⟩)] (firstFailing [failWhen st.ownZone.isNone 0 0 .notLoaded]) := by
    rw [show ∀ o, firstFailing [o] = o from fun o => by cases o <;> rfl]
    exact .last (by simp) _ _ _
  simp only [startChecks, Store.startFault, firstFailing_append]
  exact ((((zone.append (.map st.slowRateFault_finds _)).append (.flatMap st.drawFault_finds _)).append
    (.flatMap st.returnFault_finds _)).append (.flatMap st.tankFault_finds _)).append (.flatMap st.gaugeFault_finds _)

end Sys2Proof.Machine
end

