-- ==== Sys2Proof/Proofs/Start.lean ====
section
/-! START (R113, R131, R162, R178): the inputs taken anew, the listen, the self-test and the end of the event. -/

namespace Sys2Proof.Machine

/-! ## The inputs taken anew (R112, R113) -/

/-- R112, R113: the state of an enabled input that is taken anew, by the level of its line. -/
def InputCfg.stateAtStart (c : InputCfg) (high : Bool) : InputState :=
  if high ≠ c.activeHigh then .inactive else if c.kind = .estop ∨ c.confirm = 0 then .confirmed else .confirming

theorem InputCfg.confirmMs_eq_zero (c : InputCfg) : c.confirmMs = 0 ↔ c.kind = .estop ∨ c.confirm = 0 := by
  by_cases h : c.kind = .estop <;> simp [InputCfg.confirmMs, h]

/-- From one part to the other the inputs of `is` have been taken anew; a source may have been presented to a view. -/
structure InputsTaken (is : List InputId) (a b : Block) : Prop where
  block : b = a.setSpill { a.spill with views := b.spill.views, inputs := b.spill.inputs }
  taken : ∀ i ∈ is, ∀ c, a.inputCfg i = some c → c.enabled = true → (b.input i).state = c.stateAtStart a.pins.inputHigh[i]
  other : ∀ i, i ∉ is → b.input i = a.input i

theorem InputsTaken.of_set {s b : Block} {i : InputId} {x : SpillInput}
    (hb : b = (s.setInput i x).setSpill { (s.setInput i x).spill with views := b.spill.views })
    (hx : ∀ c, s.inputCfg i = some c → c.enabled = true → x.state = c.stateAtStart s.pins.inputHigh[i]) :
    InputsTaken [i] s b := by
  have inputs : b.spill.inputs = s.spill.inputs.set i x := by rw [hb]; rfl
  have input : ∀ k, b.input k = if k = i then x else s.input k := fun k => by
    simp only [Block.input, inputs, Vector.getElem_set, Fin.getElem_fin, Fin.ext_iff, eq_comm]
  refine ⟨by rw [inputs]; exact hb, fun k hk c hc he => ?_, fun k hk => ?_⟩
  · obtain rfl := List.mem_singleton.mp hk
    rw [input, if_pos rfl]; exact hx c hc he
  · rw [input, if_neg (by simpa using hk)]

theorem Block.inputLineActive_iff (s : Block) (i : InputId) (c : InputCfg) :
    s.inputLineActive i c = true ↔ ¬ s.pins.inputHigh[i] ≠ c.activeHigh := by
  rw [Block.inputLineActive, decide_eq_true_eq, not_not]

theorem Block.setInput_twice (s : Block) (i : InputId) (x y : SpillInput) :
    (s.setInput i x).setInput i y = s.setInput i y := by
  simp [Block.setInput]

/-- While the views are STARTING an input that is taken anew changes its own state, and what a view holds. -/
theorem Listening.retakeInput_taken {a s : Block} (h : Listening a s) (i : InputId) :
    InputsTaken [i] s (s.retakeInput i) := by
  have stands : (∀ c, s.inputCfg i = some c → ¬ c.enabled = true) → InputsTaken [i] s s := fun hn =>
    ⟨rfl, fun k hk c hc he => absurd he (hn c (List.mem_singleton.mp hk ▸ hc)), fun _ _ => rfl⟩
  rw [Block.retakeInput]
  cases hc : s.inputCfg i with
  | none => exact stands fun c e => by rw [hc] at e; cases e
  | some c =>
    have only : ∀ {x : InputState}, x = c.stateAtStart s.pins.inputHigh[i] →
        ∀ d, s.inputCfg i = some d → d.enabled = true → x = d.stateAtStart s.pins.inputHigh[i] := fun hx d e _ => by
      rw [hc] at e; cases e; exact hx
    dsimp only
    split
    case isFalse he => exact stands fun d e => by rw [hc] at e; cases e; exact he
    split
    case isFalse hl =>
      have low : s.pins.inputHigh[i] ≠ c.activeHigh := not_not.mp (mt (Block.inputLineActive_iff ..).mpr hl)
      refine .of_set (x := ⟨.inactive, .rest⟩) rfl (only ?_)
      rw [InputCfg.stateAtStart, if_pos low]
    case isTrue hl =>
      have high : ¬ s.pins.inputHigh[i] ≠ c.activeHigh := (Block.inputLineActive_iff ..).mp hl
      rw [Block.inputBecomesActive, if_pos (by simp), Block.confirmInput, s.setInput_twice, s.setInput_twice]
      split
      case isTrue hm =>
        have held := Block.present_starting (s := s.setInput i ⟨.confirmed, .rest⟩) (h.state c.zone) (causeOfKind c.kind)
        refine .of_set (x := ⟨.confirmed, .rest⟩) (by rw [held]; rfl) (only ?_)
        rw [InputCfg.stateAtStart, if_neg high, if_pos (c.confirmMs_eq_zero.mp hm)]
      case isFalse hm =>
        refine .of_set (x := ⟨.confirming, .run c.confirmMs⟩) rfl (only ?_)
        rw [InputCfg.stateAtStart, if_neg high, if_neg (mt c.confirmMs_eq_zero.mpr hm)]

theorem Listening.retakeInputs_taken {is : List InputId} (hn : is.Nodup) {a s : Block} (h : Listening a s) :
    InputsTaken is s (is.foldl Block.retakeInput s) := by
  induction is generalizing s with
  | nil => exact ⟨rfl, nofun, fun _ _ => rfl⟩
  | cons i is ih =>
    obtain ⟨hi, hn⟩ := List.nodup_cons.mp hn
    have first := h.retakeInput_taken i
    have rest := ih hn (h.retakeInput i)
    have store : (s.retakeInput i).store = s.store := by rw [first.block]; rfl
    have pins : (s.retakeInput i).pins = s.pins := by rw [first.block]; rfl
    rw [List.foldl_cons]
    refine ⟨by rw [rest.block, first.block]; rfl, fun j hj c hc he => ?_, fun j hj => ?_⟩
    · rcases List.mem_cons.mp hj with rfl | hj
      · rw [rest.other _ hi]
        exact first.taken _ (List.mem_singleton_self _) c hc he
      · rw [rest.taken j hj c (by rw [Block.inputCfg, store]; exact hc) he, pins]
    · obtain ⟨hji, hj⟩ := not_or.mp (mt List.mem_cons.mpr hj)
      rw [rest.other j hj, first.other j (by simpa using hji)]

/-- R113, R131: what the start of the listen does. -/
structure ListenStarted (a b : Block) : Prop where
  block : b = a.setSpill { a.spill with
    views := b.spill.views, inputs := b.spill.inputs, settle := .rest, listen := .run Config.listenMs }
  views : Listening a b
  inputs : ∀ i c, a.inputCfg i = some c → c.enabled = true → (b.input i).state = c.stateAtStart a.pins.inputHigh[i]

theorem Block.startListen_started (s : Block) : ListenStarted s s.startListen := by
  have listening := s.startListen_listening
  rw [Block.startListen] at listening ⊢
  generalize ha : s.setSpill _ = a at listening ⊢
  have start : Listening s a := by
    have hv : ∀ z, a.view z = { s.view z with state := .starting, held := none, clearing := none } := fun z => by
      simp [← ha, Block.view, Block.setSpill]
    exact ⟨fun z => by rw [hv], fun z => by rw [hv], fun z => by rw [hv], fun z => by rw [hv]⟩
  have taken := start.retakeInputs_taken (is := allInputs) (by decide)
  refine ⟨by rw [taken.block, ← ha]; rfl, listening, fun i c hc he => ?_⟩
  rw [taken.taken i (mem_allInputs i) c (ha ▸ hc) he, ← ha]
  rfl

/-! ## The start (R177, R178) -/

/-- R178: START with no failing check: the part before the response and the end of the event. -/
theorem Block.start_begins {s : Block} (hr : s.running = false) (hf : s.store.startFault = none) :
    s.start = (s.begin, .started s.begin.store.lock) := by
  rw [Block.start, hf, hr]; rfl

/-- R162: the self-test begins, on the link and the builder. -/
theorem Block.beginTest_eq (s : Block) : ∃ k : Link, k.test.isSome = true ∧ k.driver = false ∧
    s.beginTest = (s.setLink k).setBuilder Builder.stopped := ⟨_, rfl, rfl, rfl⟩

/-- What every block is after START, before the end of the event. -/
structure Begun (a b : Block) : Prop where
  store : b.store = { a.store with running := true, lock := a.store.lockAtStart }
  pins : b.pins = a.pins
  lanes : ∀ l, b.lane l = a.startLane l (a.lane l)
  tanks : b.tanks = a.tanks
  accounts : b.accounts = a.accounts
  views : Listening a b
  inputs : ∀ i c, a.inputCfg i = some c → c.enabled = true → (b.input i).state = c.stateAtStart a.pins.inputHigh[i]
  listen : b.spill.listen = .run 2000
  roster : b.roster = { a.roster with builder := Builder.stopped }
  test : b.link.test.isSome = true
  driver : b.link.driver = false

theorem Block.begin_begun (s : Block) : Begun s s.begin := by
  rw [Block.begin]
  generalize ha : s.setStore _ = a
  have start := (a.mapLanes a.startLane).startListen_started
  obtain ⟨k, test, driver, he⟩ := (a.mapLanes a.startLane).startListen.beginTest_eq
  rw [he]
  generalize (a.mapLanes a.startLane).startListen = c at start
  have of := fun {β : Type} (f : Block → β) => congrArg f start.block
  subst ha
  refine ⟨of (·.store), of (·.pins), fun l => (of (·.lane l)).trans (Block.lane_mapLanes ..), of (·.tanks),
    of (·.accounts), ⟨start.views.state, start.views.epoch, start.views.cause, start.views.clearing⟩, start.inputs,
    of (·.spill.listen), ?_, test, driver⟩
  have roster : c.roster = s.roster := of (·.roster)
  show { c.roster with builder := Builder.stopped } = _
  rw [roster]

/-- The panel port has no part in it. -/
theorem Begun.setPanel {a b : Block} {p : Panel} (h : Begun (a.setPanel p) b) (q : Panel) : Begun a (b.setPanel q) :=
  ⟨h.store, h.pins, h.lanes, h.tanks, h.accounts, ⟨h.views.state, h.views.epoch, h.views.cause, h.views.clearing⟩,
    h.inputs, h.listen, h.roster, h.test, h.driver⟩

/-- R57: a view without basis is UNKNOWN. -/
theorem Block.nextTankState_unconfigured {s : Block} {u : TankId} (hb : (s.tank u).basis = none)
    (hu : (s.tank u).state = .unknown) : s.nextTankState u = (s.tank u).state := by
  simp only [Block.nextTankState]
  split
  · rfl
  · simp [TankView.blind, hb, hu]

/-- R178: what START's lanes are, as the rule says it. -/
theorem Block.startLane_eq (s : Block) (l : LaneId) : s.startLane l (s.lane l) =
    if ∃ c ∈ s.laneCfg l, c.mode ≠ .disabled then
      { s.lane l with
        session := .idle, nozzleOut := s.pins.nozzleOut[l],
        check := { (s.lane l).check with memory := .none }, windowForward := 0, windowReverse := 0,
        windowTimer := .run 1000, watch := .run 3000 }
    else s.lane l := by
  rw [Block.startLane]
  cases s.laneCfg l with
  | none => simp
  | some c => by_cases h : c.mode = .disabled <;> simp [h, Config.rateWindowMs, Config.sampleWatchMs]

theorem Begun.finish {a b : Block} (h : Begun a b) (hu : Unconfigured a) (before : Block) :
    EndOf b (Block.finish before b) ∧ (Block.finish before b).roster = { a.roster with builder := Builder.stopped } := by
  have tank : ∀ u, b.tank u = a.tank u := fun u => by simp only [Block.tank, h.tanks]
  have stock : ∀ u, b.nextTankState u = (b.tank u).state := fun u =>
    Block.nextTankState_unconfigured (by rw [tank]; exact (hu.tanks u).1) (by rw [tank]; exact (hu.tanks u).2)
  have off : b.builderOn = false := by
    have test : b.link.test.isNone = false := by rw [Option.isNone_eq_false_iff]; exact h.test
    simp [Block.builderOn, test]
  have fin := Block.finish_end before b
  rw [b.evalTanks_none stock] at fin
  exact ⟨fin, (Block.finish_roster_of_off before off).trans h.roster⟩

/-- R120: while every view is STARTING the zone line is not driven. -/
theorem Block.lineDriven_starting {s : Block} (h : ∀ z, (s.view z).state = .starting) : s.lineDriven = false := by
  rw [Block.lineDriven, Block.ownView]
  cases s.store.ownZone with
  | none => rfl
  | some z => simp [h]

/-- Settles O34: R177's table first, then what every block is after START. -/
theorem startBeginsEveryBlock : Obligations.StartBeginsEveryBlock := by
  intro s hs
  refine ⟨fun hr => ?_, fun f hr hf => ?_, fun hr hu hf => ?_⟩
  · exact request_answered hs (work := fun b => b.doStart)
      (by simp only [Block.doStart, Block.start, show s.block.touchPanel.running = true from hr, if_true]) (.refl hs)
  · have fault : s.block.store.startFault = some f := (s.block.store.startFault_finds f).mpr hf
    refine request_answered hs (work := fun b => b.doStart) ?_ (.refl hs)
    simp only [Block.doStart, Block.start, show s.block.touchPanel.running = false from hr, Bool.false_eq_true, if_false]
    rw [show s.block.touchPanel.store.startFault = some f from fault]
  have fault : s.block.store.startFault = none := s.block.store.startFault_finds.eq_none_iff.mpr hf
  have begun : Begun (s.block.setPanel _) s.block.touchPanel.begin := s.block.touchPanel.begin_begun
  have hw : s.block.request (fun b => b.doStart) = s.block.touchPanel.begin.setPanel
      { s.block.touchPanel.begin.panel with response := some (.started s.block.touchPanel.begin.store.lock) } := by
    rw [Block.request, Block.doStart, Block.start_begins (s := s.block.touchPanel) hr fault]; rfl
  generalize s.block.touchPanel.begin = b at hw begun
  have begun := begun.setPanel { b.panel with response := some (.started b.store.lock) }
  have response : (b.setPanel { b.panel with response := some (.started b.store.lock) }).panel.response =
    some (.started (b.setPanel { b.panel with response := some (.started b.store.lock) }).store.lock) := rfl
  generalize b.setPanel { b.panel with response := some (.started b.store.lock) } = a at hw begun response
  obtain ⟨fin, roster⟩ := begun.finish hu s.block
  have view : ∀ z, (Block.finish s.block a).view z = a.view z := Block.view_congr (by rw [fin.spill])
  refine ⟨{ s with block := Block.finish s.block a }, by rw [← hw]; rfl, rfl, fin.store.trans begun.store, fun l => ?_,
    fun z => ?_, fun i c hc he => ?_, ?_, ?_, ?_, ?_, ?_, ?_, ?_, fin.accounts.trans begun.accounts,
    fin.pins.trans begun.pins, fun u => ?_, ?_⟩
  · rw [fin.lanes, begun.lanes, s.block.startLane_eq]; rfl
  · rw [view]
    exact ⟨begun.views.state z, begun.views.epoch z, begun.views.cause z, begun.views.clearing z⟩
  · rw [← InputCfg.stateAtStart, ← begun.inputs i c hc he, Block.input, Block.input, fin.spill]
  · rw [fin.spill]; exact begun.listen
  · rw [fin.spill]; exact Block.lineDriven_starting begun.views.state
  · rw [fin.link]; exact begun.test
  · rw [fin.link]; exact begun.driver
  · rw [roster]
  · rw [roster]
  · rw [roster]
  · rw [fin.tanks]
    simp only [Block.tank, begun.tanks]; rfl
  · rw [fin.panel, fin.store]; exact response

end Sys2Proof.Machine
end

