-- ==== Sys2Proof/Proofs/StatusStored.lean ====
section
/-! A STATUS in the roster (R136, R137, R139, R140, R144, R145): its sequence is checked, its bay time compared, and
its content stored. -/

namespace Sys2Proof.Machine

/-- R145: the disagree mark after a bay time `t`, and before it. -/
def disagreeAfter (clock t : Nat) (before : Bool) : Bool :=
  if clock = 0 ∨ t = 0 then before else !closeTimes t clock

/-- From one part to the other the entry of `n` has become `e`, and what `xs` names has been raised; nothing else has
changed but the bay clock. -/
structure EntryStored (n : StationId) (e : RosterEntry) (xs : List (Cause × Nat)) (a b : Block) : Prop where
  block : b = { a with roster := b.roster, panel := { a.panel with raised := a.panel.raised ++ xs } }
  entry : b.entry n = e
  other : ∀ k, k ≠ n → b.entry k = a.entry k

namespace EntryStored

variable {n : StationId} {e f : RosterEntry} {xs ys : List (Cause × Nat)} {a b c : Block}

theorem trans (h : EntryStored n e xs a b) (k : EntryStored n f ys b c) : EntryStored n f (xs ++ ys) a c := by
  refine ⟨?_, k.entry, fun j hj => (k.other j hj).trans (h.other j hj)⟩
  rw [k.block, h.block, ← List.append_assoc]

theorem setEntry (n : StationId) (e : RosterEntry) (a : Block) : EntryStored n e [] a (a.setEntry n e) :=
  ⟨by rw [List.append_nil]; rfl, a.entry_setEntry n e, fun _ hk => Block.entry_setEntry_of_ne a hk e⟩

theorem refl (n : StationId) (a : Block) :
    EntryStored n (a.entry n) [] a a := ⟨by rw [List.append_nil], rfl, fun _ _ => rfl⟩

theorem raise (h : EntryStored n e [] a b) (x : Cause) (d : Nat) : EntryStored n e [(x, d)] a (b.raise x d) := by
  refine ⟨?_, h.entry, h.other⟩
  rw [h.block, List.append_nil]; rfl

end EntryStored

/-- R140: what a rise of missed postings raises. -/
def missedRaises (n : StationId) (before after : Nat) : List (Cause × Nat) :=
  if before < after then [(.postingsMissed, n.val)] else []

/-- R145: what a bay time that newly disagrees raises. -/
def disagreeRaises (n : StationId) (before after : Bool) : List (Cause × Nat) :=
  if before = false ∧ after = true then [(.timeDisagree, n.val)] else []

theorem Block.storeChecked_stored (s : Block) (n : StationId) (old new : RosterEntry) :
    EntryStored n new (missedRaises n old.missed new.missed) s (s.storeChecked n old new) ∧
      (s.storeChecked n old new).now = s.now := by
  simp only [Block.storeChecked, missedRaises]
  split
  · exact ⟨(EntryStored.setEntry n new s).raise _ _, rfl⟩
  · exact ⟨.setEntry n new s, rfl⟩

theorem Block.compareClock_stored (s : Block) (n : StationId) (t : Nat) :
    EntryStored n { s.entry n with disagree := disagreeAfter s.now t (s.entry n).disagree }
        (disagreeRaises n (s.entry n).disagree (disagreeAfter s.now t (s.entry n).disagree)) s (s.compareClock n t) ∧
      (s.compareClock n t).now = if s.now = 0 then t else s.now := by
  have kept : ∀ b : Bool, disagreeRaises n b b = [] := fun b => by cases b <;> rfl
  rw [Block.compareClock]
  by_cases hc : s.now = 0
  · have same : disagreeAfter s.now t (s.entry n).disagree = (s.entry n).disagree := by simp [disagreeAfter, hc]
    rw [if_pos hc, if_pos hc, same, kept]
    split
    case isTrue ht => exact ⟨.refl n s, hc.trans ht.symm⟩
    case isFalse => exact ⟨⟨by rw [List.append_nil]; rfl, rfl, fun _ _ => rfl⟩, rfl⟩
  rw [if_neg hc, if_neg hc]
  by_cases ht : t = 0
  · have same : disagreeAfter s.now t (s.entry n).disagree = (s.entry n).disagree := by simp [disagreeAfter, ht]
    rw [if_pos ht, same, kept]
    exact ⟨.refl n s, rfl⟩
  have after : disagreeAfter s.now t (s.entry n).disagree = !closeTimes t s.now := by
    rw [disagreeAfter, if_neg (by simp [hc, ht])]
  rw [if_neg ht, after]
  cases closeTimes t s.now with
  | true => exact ⟨by simpa [disagreeRaises] using EntryStored.setEntry n _ s, rfl⟩
  | false =>
    cases hd : (s.entry n).disagree with
    | true =>
      have same : s.entry n = { s.entry n with disagree := true } := by rw [← hd]
      exact ⟨⟨by rw [Bool.not_false, kept, List.append_nil]; rfl, same, fun _ _ => rfl⟩, rfl⟩
    | false => exact ⟨(EntryStored.setEntry n _ s).raise _ _, rfl⟩

/-- R136, R137, R139, R145: the entry of a station, once its STATUS is taken. -/
def RosterEntry.heard (clock : Nat) (c : StatusContent) (e : RosterEntry) : RosterEntry :=
  { e.checkStatus c.drawSeq with
    state := .live, age := 0, last := some c, disagree := disagreeAfter clock c.bayTime e.disagree }

/-- What the roster's part of a STATUS raises. -/
def statusRaises (n : StationId) (clock : Nat) (c : StatusContent) (e : RosterEntry) : List (Cause × Nat) :=
  missedRaises n e.missed (e.heard clock c).missed ++ disagreeRaises n e.disagree (e.heard clock c).disagree

theorem RosterEntry.checkStatus_disagree (e : RosterEntry) (k : Nat) : (e.checkStatus k).disagree = e.disagree := by
  unfold RosterEntry.checkStatus
  split
  · rfl
  · split <;> rfl

/-- A STATUS is stored, and its zones are taken one by one. -/
theorem Block.takeStatus_stored (n : StationId) (c : StatusContent) (s : Block) : ∃ b : Block,
    s.takeStatus n c = b.takeZoneReports n c ∧
    EntryStored n ((s.entry n).heard s.now c) (statusRaises n s.now c (s.entry n)) s b ∧
    b.now = if s.now = 0 then c.bayTime else s.now := by
  obtain ⟨checked, clock⟩ := s.storeChecked_stored n (s.entry n) ((s.entry n).checkStatus c.drawSeq)
  simp only [Block.takeStatus]
  generalize s.storeChecked n (s.entry n) ((s.entry n).checkStatus c.drawSeq) = x at checked clock
  obtain ⟨compared, clock'⟩ := x.compareClock_stored n c.bayTime
  generalize x.compareClock n c.bayTime = y at compared clock'
  rw [checked.entry, clock, RosterEntry.checkStatus_disagree] at compared
  refine ⟨_, rfl, ?_, clock'.trans (by rw [clock])⟩
  have stored := (checked.trans compared).trans (.setEntry n (RosterEntry.takeStatus c (y.entry n)) y)
  rw [List.append_nil, compared.entry] at stored
  rw [Block.modEntry, compared.entry]
  exact stored

end Sys2Proof.Machine
end

