-- ==== Sys2Proof/Proofs/StatusZones.lean ====
section
/-! The zones of a STATUS (R130), zone by zone, and what the end of the event leaves of them. -/

namespace Sys2Proof.Machine

/-! ## Raises of the ends of grants and sessions, and of the tank views -/

theorem Block.laneSpill_panel (s : Block) (l : LaneId) : (s.laneSpill l).panel = s.panel := by
  simp only [Block.laneSpill, Block.takeCause]; split_ifs <;> rfl

theorem Block.laneDry_panel (t : TankId) (s : Block) (l : LaneId) : (s.laneDry t l).panel = s.panel := by
  simp only [Block.laneDry, Block.takeCause]; split_ifs <;> rfl

theorem Block.lanesSpill_panel (s : Block) : s.lanesSpill.panel = s.panel :=
  List.foldlRecOn (motive := fun b : Block => b.panel = s.panel) allLanes _ rfl
    fun b hb l _ => (b.laneSpill_panel l).trans hb

theorem Block.lanesDry_panel (s : Block) (t : TankId) : (s.lanesDry t).panel = s.panel :=
  List.foldlRecOn (motive := fun b : Block => b.panel = s.panel) allLanes _ rfl
    fun b hb l _ => (Block.laneDry_panel t b l).trans hb

theorem Block.evalTank_raises (s : Block) (t : TankId) : Raises [.stockState] s.panel (s.evalTank t).panel := by
  have raise : Raises [.stockState] s.panel ((s.modTank t fun v =>
      { v with state := s.nextTankState t }).raise .stockState t.val).panel :=
    .of_raise (s.modTank t fun v => { v with state := s.nextTankState t }) _ (List.mem_singleton_self _)
  simp only [Block.evalTank]
  split_ifs
  · exact .refl _ _
  · rw [Block.lanesDry_panel]; exact raise
  · exact raise

theorem Block.evalTanks_raises (s : Block) : Raises [.stockState] s.panel s.evalTanks.panel :=
  .foldl Block.evalTank_raises _ _

/-- What the evaluation of the tank views leaves alone. -/
theorem Block.evalTanks_kept (s : Block) :
    s.evalTanks.store = s.store ∧ s.evalTanks.spill = s.spill ∧ s.evalTanks.roster = s.roster :=
  List.foldlRecOn (motive := fun b : Block => b.store = s.store ∧ b.spill = s.spill ∧ b.roster = s.roster) allTanks _
    ⟨rfl, rfl, rfl⟩ fun b hb t _ => by
      obtain ⟨store, -, spill, roster, -⟩ := b.evalTank_kept t
      exact ⟨store.trans hb.1, spill.trans hb.2.1, roster.trans hb.2.2⟩

/-! ## One zone (R130) -/

/-- R130: the view of a zone after a report of it. -/
def ZoneView.reported (v : ZoneView) (n : StationId) (r : ZoneReport) : ZoneView :=
  if r.state = .tripped ∨ r.state = .clearing then
    if v.state = .starting ∨ v.epoch < r.epoch then ⟨.tripped, max v.epoch r.epoch, .peerStatus, some n, none, none⟩ else v
  else if v.epoch < r.epoch then
    if v.state = .tripped then ⟨.tripped, r.epoch, .peerStatus, some n, none, none⟩ else { v with epoch := r.epoch }
  else v

/-- R119, R130: the report trips the view anew. -/
def ZoneView.trippedBy (v : ZoneView) (r : ZoneReport) : Prop :=
  (r.state = .tripped ∨ r.state = .clearing) ∧ (v.state = .starting ∨ v.epoch < r.epoch)

/-- What a zone's report does. -/
structure ZoneReported (z : ZoneId) (v : ZoneView) (raised : Prop) (a b : Block) : Prop where
  store : b.store = a.store
  roster : b.roster = a.roster
  views : b.spill.views = (a.setView z v).spill.views
  panel : Raises [.zoneTripped] a.panel b.panel
  raised : raised → (Cause.zoneTripped, z.val) ∈ b.panel.raised

theorem Block.enterTripped_reported (s : Block) (z : ZoneId) (e : Nat) (c : TripCause) (n : StationId) :
    ZoneReported z ⟨.tripped, e, c, some n, none, none⟩ ((s.view z).state ≠ .tripped ∨ (s.view z).epoch < e) s
      (s.enterTripped z e c n) := by
  have left : ∀ (b : Block) (x : ZoneState), (b.leaveNormal z x).store = b.store ∧ (b.leaveNormal z x).roster = b.roster ∧
      (b.leaveNormal z x).panel = b.panel := by
    intro b x
    unfold Block.leaveNormal
    split
    · exact ⟨(Block.lanesSpill_only _).store, (Block.lanesSpill_only _).roster, Block.lanesSpill_panel _⟩
    · exact ⟨rfl, rfl, rfl⟩
  have views := s.enterTripped_views z e c n
  simp only [Block.enterTripped] at views ⊢
  rw [s.abandon_eq] at views ⊢
  generalize hb : Block.leaveNormal _ z _ = b at views ⊢
  obtain ⟨store, roster, panel⟩ := hb ▸ left _ _
  split at views
  case isTrue h =>
    rw [if_pos h]
    exact ⟨store, roster, views, panel ▸ .of_raise b z.val (List.mem_singleton_self _), fun _ => by simp⟩
  case isFalse h =>
    rw [if_neg h]
    exact ⟨store, roster, views, panel ▸ .refl _ _, fun e => absurd e h⟩

theorem Block.setView_reported (s : Block) (z : ZoneId) (v : ZoneView) : ZoneReported z v False s (s.setView z v) :=
  ⟨rfl, rfl, rfl, .refl _ _, False.elim⟩

theorem Block.same_reported (s : Block) (z : ZoneId) : ZoneReported z (s.view z) False s s :=
  ⟨rfl, rfl, by simp [Block.setView, Block.view], .refl _ _, False.elim⟩

theorem ZoneReported.mono {z : ZoneId} {v : ZoneView} {p q : Prop} {a b : Block} (h : ZoneReported z v p a b)
    (hq : q → p) :
    ZoneReported z v q a b := ⟨h.store, h.roster, h.views, h.panel, fun e => h.raised (hq e)⟩

theorem Block.takeZoneReport_eq (s : Block) (n : StationId) (z : ZoneId) (r : ZoneReport) :
    s.takeZoneReport n z r =
      if r.state = .tripped ∨ r.state = .clearing then
        if (s.view z).state = .starting ∨ (s.view z).epoch < r.epoch then
          s.enterTripped z (max (s.view z).epoch r.epoch) .peerStatus n
        else s
      else if (s.view z).epoch < r.epoch then
        if (s.view z).state = .tripped then s.enterTripped z r.epoch .peerStatus n
        else s.setView z { s.view z with epoch := r.epoch }
      else s := by
  have larger : (s.view z).epoch < r.epoch → max (s.view z).epoch r.epoch = r.epoch := fun h => max_eq_right h.le
  simp only [Block.takeZoneReport]
  cases (s.view z).state <;> simp +contextual [larger]

theorem Block.takeZoneReport_reported (s : Block) (n : StationId) (z : ZoneId) (r : ZoneReport) :
    ZoneReported z ((s.view z).reported n r)
      ((s.view z).trippedBy r ∧ ((s.view z).state ≠ .tripped ∨ (s.view z).epoch < r.epoch)) s (s.takeZoneReport n z r) := by
  rw [s.takeZoneReport_eq, ZoneView.reported, ZoneView.trippedBy]
  by_cases hr : r.state = .tripped ∨ r.state = .clearing
  · rw [if_pos hr, if_pos hr]
    by_cases hv : (s.view z).state = .starting ∨ (s.view z).epoch < r.epoch
    · rw [if_pos hv, if_pos hv]
      exact (s.enterTripped_reported z _ _ n).mono fun h => h.2.imp_right fun e => e.trans_le (le_max_right _ _)
    · rw [if_neg hv, if_neg hv]
      exact (s.same_reported z).mono fun h => hv h.1.2
  · rw [if_neg hr, if_neg hr]
    split_ifs
    · exact (s.enterTripped_reported z _ _ n).mono fun h => absurd h.1.1 hr
    · exact (s.setView_reported z _).mono fun h => absurd h.1.1 hr
    · exact (s.same_reported z).mono fun h => absurd h.1.1 hr

/-! ## The zones of a STATUS -/

/-- What the reports of the zones of `zs` do. -/
structure ZonesReported (zs : List ZoneId) (n : StationId) (c : StatusContent) (a b : Block) : Prop where
  store : b.store = a.store
  roster : b.roster = a.roster
  view : ∀ z, b.view z = if z ∈ zs then (a.view z).reported n c.zones[z] else a.view z
  panel : Raises [.zoneTripped] a.panel b.panel
  raised : ∀ z ∈ zs, (a.view z).trippedBy c.zones[z] →
    (a.view z).state ≠ .tripped ∨ (a.view z).epoch < c.zones[z].epoch → (Cause.zoneTripped, z.val) ∈ b.panel.raised

theorem Block.zoneReports_reported {zs : List ZoneId} (hn : zs.Nodup) (n : StationId) (c : StatusContent) (s : Block) :
    ZonesReported zs n c s (zs.foldl (fun b z => b.takeZoneReport n z c.zones[z]) s) := by
  induction zs generalizing s with
  | nil => exact ⟨rfl, rfl, fun z => by simp, .refl _ _, nofun⟩
  | cons u zs ih =>
    obtain ⟨hu, hn⟩ := List.nodup_cons.mp hn
    have first := s.takeZoneReport_reported n u c.zones[u]
    have rest := ih hn (s.takeZoneReport n u c.zones[u])
    have view : ∀ z, (s.takeZoneReport n u c.zones[u]).view z =
        if z = u then (s.view u).reported n c.zones[u] else s.view z := fun z => by
      rw [Block.view_congr first.views, Block.view_setView_eq]
    have other : ∀ z ∈ zs, (s.takeZoneReport n u c.zones[u]).view z = s.view z := fun z hz => by
      rw [view, if_neg (ne_of_mem_of_not_mem hz hu)]
    rw [List.foldl_cons]
    refine ⟨rest.store.trans first.store, rest.roster.trans first.roster, fun z => ?_, first.panel.trans rest.panel,
      fun z hz ht hv => ?_⟩
    · rw [rest.view]
      by_cases hz : z ∈ zs
      · rw [if_pos hz, other z hz, if_pos (List.mem_cons_of_mem _ hz)]
      · rw [if_neg hz, view]
        by_cases e : z = u
        · subst e; rw [if_pos rfl, if_pos (List.mem_cons_self ..)]
        · rw [if_neg e, if_neg (by simp [e, hz])]
    · rcases List.mem_cons.mp hz with rfl | hz
      · exact rest.panel.subset (first.raised ⟨ht, hv⟩)
      · exact rest.raised z hz (other z hz ▸ ht) (other z hz ▸ hv)

/-- A report of a view that it does not change. -/
theorem Block.takeZoneReport_none {s : Block} {n : StationId} {z : ZoneId} {r : ZoneReport}
    (he : r.epoch ≤ (s.view z).epoch) (hs : (s.view z).state = .starting → r.state = .normal ∨ r.state = .starting) :
    s.takeZoneReport n z r = s := by
  rw [s.takeZoneReport_eq, if_neg he.not_gt]
  split
  case isTrue hr =>
    refine if_neg (not_or.mpr ⟨fun hv => ?_, he.not_gt⟩)
    rcases hs hv with e | e <;> simp [e] at hr
  case isFalse => rfl

theorem Block.takeZoneReports_none {s : Block} {n : StationId} {c : StatusContent}
    (h : ∀ z : ZoneId, c.zones[z].epoch ≤ (s.view z).epoch ∧
      ((s.view z).state = .starting → c.zones[z].state = .normal ∨ c.zones[z].state = .starting)) :
    s.takeZoneReports n c = s :=
  List.foldlRecOn (motive := fun b => b = s) allZones _ rfl fun b hb z _ => by
    subst hb; exact Block.takeZoneReport_none (h z).1 (h z).2

end Sys2Proof.Machine
end

