-- ==== Sys2Proof/Proofs/StatusFrames.lean ====
section
/-! STATUS frames of other stations (R130, R136 to R140, R144, R145, R160, R161), clause by clause. -/

namespace Sys2Proof.Machine

/-! ## Frames that are not taken (R160, R161) -/

theorem exec_statusFrame_ignored {s : State} (hs : Settled s.block) {n : StationId} (c : StatusContent)
    (hn : n ≠ s.block.store.number) (h : s.block.running = false ∨ s.block.link.test ≠ none) :
    exec (.statusFrame n c) s = becomes s (later s.block) := by
  refine event_later hs (work := fun b => b.dispatch n (Block.takeStatus n c)) ?_ (.refl hs)
  have : s.block.receiving = false := by
    rw [Block.receiving, Bool.and_eq_false_iff, Option.isNone_eq_false_iff, Option.isSome_iff_ne_none]
    exact h
  rw [Block.dispatch, if_neg (by exact hn), this]
  rfl

theorem exec_statusFrame_isolated {s : State} (hs : Settled s.block) {n : StationId} (c : StatusContent)
    (hn : n ≠ s.block.store.number) (hr : s.block.running = true) (ht : s.block.link.test = none)
    (hi : s.block.link.isolated ≠ none) :
    exec (.statusFrame n c) s = becomes s (later (heardFrame s.block)) := by
  refine event_link hs (work := fun b => b.dispatch n (Block.takeStatus n c)) ?_ rfl
  have receiving : s.block.receiving = true := by simp [Block.receiving, hr, ht]
  have isolated : s.block.isolated = true := by rw [Block.isolated, Option.isSome_iff_ne_none]; exact hi
  rw [Block.dispatch, if_neg (by exact hn), if_pos receiving, if_pos isolated]
  rfl

/-! ## The frame taken -/

theorem Block.dispatch_taken {s : Block} (h : Receiving s) {n : StationId} (hn : n ≠ s.store.number)
    (take : Block → Block) :
    s.dispatch n take = take (heardFrame s) := by
  obtain ⟨hr, ht, hi⟩ := h
  have receiving : s.receiving = true := by simp [Block.receiving, hr, ht]
  have isolated : ¬ s.isolated = true := by simp [Block.isolated, hi]
  rw [Block.dispatch, if_neg (by exact hn), if_pos receiving, if_neg isolated]
  rfl

/-- Where book, basis and age of the tank views stand, no view comes to DRY: commitments alone do not take one there. -/
theorem Block.noNewDry_of_tanks {a b : Block} (ha : Settled a) (hs : b.store = a.store) (ht : b.tanks = a.tanks) :
    b.NoNewDry := by
  have tank : ∀ t, b.tank t = a.tank t := fun t => by simp only [Block.tank, ht]
  intro t h
  by_contra hd
  have dry := Block.nextTankState_dry h hd hs.symm (by rw [tank]) (by rw [tank]) (by rw [tank])
  exact hd (by rw [tank, ← ha.stock, dry])

theorem RosterEntry.heard_eq (clock : Nat) (c : StatusContent) (e : RosterEntry) : e.heard clock c = { e with
    state := .live, age := 0, last := some c, seq := some c.drawSeq,
    missed := (match e.seq with
      | none => e.missed
      | some k => if c.drawSeq < k then min 65535 (e.missed + c.drawSeq) else min 65535 (e.missed + (c.drawSeq - k))),
    totals := (match e.seq with
      | none => e.totals
      | some k => if c.drawSeq < k then Vector.replicate 12 ⟨none, none⟩ else e.totals),
    disagree := disagreeAfter clock c.bayTime e.disagree } := by
  simp only [RosterEntry.heard, RosterEntry.checkStatus]
  cases e.seq with
  | none => rfl
  | some k => by_cases h : c.drawSeq < k <;>
      simp [h, RosterEntry.missedBy, RosterEntry.forget, holdAt, KnownTotals.unknown, Config.hold16]

/-- R145: a bay time within 60 s clears the mark. -/
theorem disagreeAfter_close {clock t : Nat} (b : Bool)
    (h : clock = 0 ∨ t = 0 ∨ (t ≤ clock + 60 ∧ clock ≤ t + 60)) :
    disagreeAfter clock t b = if clock = 0 ∨ t = 0 then b else false := by
  rw [disagreeAfter]
  split
  · rfl
  case isFalse hc =>
    rw [not_or] at hc
    simp [closeTimes, (h.resolve_left hc.1).resolve_left hc.2]

/-- R145: a bay time more than 60 s off sets it. -/
theorem disagreeAfter_far {clock t : Nat} (b : Bool) (hc : clock ≠ 0) (ht : t ≠ 0)
    (h : clock + 60 < t ∨ t + 60 < clock) : disagreeAfter clock t b = true := by
  rw [disagreeAfter, if_neg (by simp [hc, ht])]
  simp only [closeTimes, Bool.not_eq_true', Bool.and_eq_false_iff, decide_eq_false_iff_not, not_le]
  exact h

theorem Block.stockRaises_cause (s : Block) : ∀ x ∈ s.stockRaises, x.1 = .stockState := by
  simp only [Block.stockRaises, List.mem_map]
  rintro x ⟨t, -, rfl⟩
  rfl

theorem disagreeRaises_kept {n : StationId} {x y : Bool} (h : y = true → x = true) : disagreeRaises n x y = [] :=
  if_neg fun e => by rw [h e.2] at e; cases e.1

theorem sameRoster.entries {a b : Roster} (h : sameRoster a b) : b.entries = a.entries := by rw [h]

theorem sameRoster.clock {a b : Roster} (h : sameRoster a b) : b.clock = a.clock := by rw [h]

/-- A STATUS that says nothing new of a zone, with a bay time that does not disagree. -/
theorem exec_statusFrame_known {s : State} (hs : Settled s.block) {n : StationId} {c : StatusContent} {e : RosterEntry}
    (hn : n ≠ s.block.store.number) (he : e = s.block.entry n) (h : Receiving s.block)
    (hz : ∀ z : ZoneId, c.zones[z].epoch ≤ (s.block.view z).epoch ∧ ((s.block.view z).state = .starting →
      c.zones[z].state = .normal ∨ c.zones[z].state = .starting))
    (hc : s.block.roster.clock = 0 ∨ c.bayTime = 0 ∨
      (c.bayTime ≤ s.block.roster.clock + 60 ∧ s.block.roster.clock ≤ c.bayTime + 60)) :
    ∃ t, exec (.statusFrame n c) s = .next t ∧ t.pending = s.pending ∧
      t.block.entry n = { e with
        state := .live, age := 0, last := some c, seq := some c.drawSeq,
        missed := (match e.seq with
          | none => e.missed
          | some k => if c.drawSeq < k then min 65535 (e.missed + c.drawSeq)
            else min 65535 (e.missed + (c.drawSeq - k))),
        totals := (match e.seq with
          | none => e.totals
          | some k => if c.drawSeq < k then Vector.replicate 12 ⟨none, none⟩ else e.totals),
        disagree := if s.block.roster.clock = 0 ∨ c.bayTime = 0 then e.disagree else false } ∧
      (∀ k, k ≠ n → t.block.entry k = s.block.entry k) ∧
      t.block.roster.clock = (if s.block.roster.clock = 0 then c.bayTime else s.block.roster.clock) ∧
      (e.missed < (t.block.entry n).missed → t.block.panel.causes[Cause.postingsMissed.index] =
        ⟨true, some n.val, min 255 (s.block.panel.causes[Cause.postingsMissed.index].count + 1)⟩) ∧
      t.block.link = (heardFrame s.block).link ∧ t.block.store = s.block.store ∧ t.block.pins = s.block.pins ∧
      t.block.accounts = s.block.accounts ∧ sameSpill s.block.spill t.block.spill ∧
      (∀ l, sameLane (s.block.lane l) (t.block.lane l)) ∧ sameStockBut [] s.block t.block ∧
      samePanel [.postingsMissed, .stockState] s.block.panel t.block.panel := by
  subst he
  obtain ⟨b, hw, stored, clock⟩ := Block.takeStatus_stored n c (heardFrame s.block)
  have still := fun {β : Type} (f : Block → β) => congrArg f stored.block
  have hw : s.block.dispatch n (Block.takeStatus n c) = b := by
    rw [Block.dispatch_taken h hn, hw]
    exact Block.takeZoneReports_none fun z => still (·.view z) ▸ hz z
  have after : ((s.block.entry n).heard s.block.roster.clock c).disagree =
      if s.block.roster.clock = 0 ∨ c.bayTime = 0 then (s.block.entry n).disagree else false := disagreeAfter_close _ hc
  have raises : statusRaises n s.block.roster.clock c (s.block.entry n) = missedRaises n (s.block.entry n).missed
      ((s.block.entry n).heard s.block.roster.clock c).missed := by
    rw [statusRaises, after, disagreeRaises_kept (by split <;> simp), List.append_nil]
  have raised : b.panel.raised = missedRaises n (s.block.entry n).missed (b.entry n).missed := by
    refine (still (·.panel.raised)).trans ?_
    rw [show (heardFrame s.block).panel.raised = [] from hs.raised, List.nil_append, stored.entry]
    exact raises
  obtain ⟨store, pins, lanes, tanks, accounts, spill, roster, link, panel, -⟩ :=
    Block.finish_quiet s.block b (Block.noNewDry_of_tanks hs (still (·.store)) (still (·.tanks)))
  have entry : ∀ k, (Block.finish s.block b).entry k = b.entry k := fun k => by simp only [Block.entry, roster.entries]
  refine ⟨{ s with block := Block.finish s.block b }, by rw [← hw]; rfl, rfl, ?_, fun k hk => (entry k).trans (stored.other k hk),
    roster.clock.trans clock, fun hm => ?_, link.trans (still (·.link)), store.trans (still (·.store)),
    pins.trans (still (·.pins)), accounts.trans (still (·.accounts)), ?_, fun l => ?_, fun u _ => ?_, ?_⟩
  · rw [entry, stored.entry, RosterEntry.heard_eq, ← disagreeAfter_close _ hc]; rfl
  · rw [entry] at hm
    rw [panel]
    refine (Panel.settle_cell_once (d := n.val) ?_).trans ?_
    · have other : raisesOf .postingsMissed b.stockRaises = [] :=
        raisesOf_other fun x hx => by rw [b.stockRaises_cause x hx]; nofun
      rw [raised, raisesOf_append, other, missedRaises, if_pos hm]
      rfl
    · rw [show b.panel.causes = s.block.panel.causes from still (·.panel.causes)]
  · rw [show s.block.spill = b.spill from (still (·.spill)).symm]; exact spill
  · rw [show s.block.lane l = b.lane l from (still (·.lane l)).symm]; exact lanes l
  · have hu := tanks u
    rw [show b.tank u = s.block.tank u from still (·.tank u), sameTank] at hu
    rw [sameStock, hu]
  · rw [panel]
    refine Raises.samePanel ⟨?_, b.panel.raised ++ b.stockRaises, by rw [hs.raised, List.nil_append], fun x hx => ?_⟩ hs.raised
    · rw [still (·.panel)]; rfl
    · rcases List.mem_append.mp hx with hx | hx
      · rw [raised, missedRaises] at hx
        split at hx
        · rw [List.mem_singleton.mp hx]; exact List.mem_cons_self ..
        · exact absurd hx List.not_mem_nil
      · rw [b.stockRaises_cause x hx]; exact List.mem_cons_of_mem _ (List.mem_singleton_self _)

/-! ## The end of any STATUS -/

/-- What the event of a STATUS leaves in entry, views, clock and causes. -/
structure StatusTaken (n : StationId) (c : StatusContent) (a t : Block) : Prop where
  entry : t.entry n = (a.entry n).heard a.now c
  clock : t.roster.clock = if a.roster.clock = 0 then c.bayTime else a.roster.clock
  view : ∀ z, t.view z = (a.view z).reported n c.zones[z]
  drive : ∀ z, a.store.ownZone = some z → (t.view z).state = .tripped → t.spill.drive = true
  pending : ∀ z, (a.view z).trippedBy c.zones[z] →
    (a.view z).state ≠ .tripped ∨ (a.view z).epoch < c.zones[z].epoch →
    t.panel.causes[Cause.zoneTripped.index].pending = true
  disagree : disagreeRaises n (a.entry n).disagree ((a.entry n).heard a.now c).disagree = [(.timeDisagree, n.val)] →
    t.panel.causes[Cause.timeDisagree.index] = ⟨true, some n.val, min 255 (a.panel.causes[Cause.timeDisagree.index].count + 1)⟩
  agree : disagreeRaises n (a.entry n).disagree ((a.entry n).heard a.now c).disagree = [] →
    t.panel.causes[Cause.timeDisagree.index] = a.panel.causes[Cause.timeDisagree.index]

theorem Block.lineDriven_tripped {s : Block} {z : ZoneId} (hz : s.store.ownZone = some z)
    (hv : (s.view z).state = .tripped) :
    s.lineDriven = true := by
  simp [Block.lineDriven, Block.ownView, hz, hv]

theorem Block.takeStatus_finish {s : Block} (hs : s.panel.raised = []) (n : StationId) (c : StatusContent)
    (before : Block) :
    StatusTaken n c s (Block.finish before (s.takeStatus n c)) := by
  obtain ⟨b, hw, stored, clock⟩ := Block.takeStatus_stored n c s
  have still := fun {β : Type} (f : Block → β) => congrArg f stored.block
  have zones : ZonesReported allZones n c b (s.takeStatus n c) := hw ▸ Block.zoneReports_reported (by decide) n c b
  generalize s.takeStatus n c = x at zones
  obtain ⟨store, spill, roster⟩ := x.evalTanks_kept
  have stock := x.evalTanks_raises
  have fin := Block.finish_end before x
  generalize x.evalTanks = y at store spill roster stock fin
  generalize Block.finish before x = t at fin
  have same : ∀ z, b.view z = s.view z := fun z => still (·.view z)
  have viewY : ∀ z, y.view z = (s.view z).reported n c.zones[z] := fun z => by
    rw [Block.view_congr (congrArg Spill.views spill), zones.view, if_pos (mem_allZones z), same]
  have view : ∀ z, t.view z = y.view z := fun z => Block.view_congr (by rw [fin.spill]) z
  have raised : raisesOf .timeDisagree y.panel.raised =
      disagreeRaises n (s.entry n).disagree ((s.entry n).heard s.now c).disagree := by
    have sequence : raisesOf .timeDisagree (missedRaises n (s.entry n).missed ((s.entry n).heard s.now c).missed) = [] := by
      unfold missedRaises; split <;> rfl
    have clock : ∀ p q, raisesOf .timeDisagree (disagreeRaises n p q) = disagreeRaises n p q := fun p q => by
      unfold disagreeRaises; split <;> rfl
    rw [stock.raisesOf (by decide), zones.panel.raisesOf (by decide), still (·.panel.raised), hs, List.nil_append, statusRaises,
      raisesOf_append, sequence, clock, List.nil_append]
  have causes : y.panel.causes = s.panel.causes := by
    rw [stock.panel, zones.panel.panel, still (·.panel)]
  refine ⟨?_, ?_, fun z => (view z).trans (viewY z), fun z hz hv => ?_, fun z ht hv => ?_, fun hd => ?_, fun hd => ?_⟩
  · rw [← stored.entry]
    simp only [Block.entry, fin.roster.entries, roster, zones.roster]
  · rw [fin.roster.clock, roster, zones.roster]; exact clock
  · rw [fin.spill]
    refine Block.lineDriven_tripped ?_ (view z ▸ hv)
    rw [store, zones.store, still (·.store), hz]
  · rw [fin.panel]
    exact Panel.settle_pending (stock.subset (zones.raised z (mem_allZones z) (same z ▸ ht) (same z ▸ hv)))
  · rw [fin.panel, ← causes]
    exact Panel.settle_cell_once (raised.trans hd)
  · rw [fin.panel, ← causes]
    exact Panel.settle_cell_kept (raised.trans hd)

/-! ## The zones, as the rule says them -/

theorem ZoneView.reported_trip {v : ZoneView} {r : ZoneReport} (n : StationId) (h : v.trippedBy r) :
    v.reported n r = ⟨.tripped, max v.epoch r.epoch, .peerStatus, some n, none, none⟩ := by
  rw [ZoneView.reported, if_pos h.1, if_pos h.2]

theorem ZoneView.reported_old_trip {v : ZoneView} {r : ZoneReport} (n : StationId)
    (hr : r.state = .tripped ∨ r.state = .clearing) (hv : v.state ≠ .starting) (he : r.epoch ≤ v.epoch) :
    v.reported n r = v := by
  rw [ZoneView.reported, if_pos hr, if_neg (not_or.mpr ⟨hv, he.not_gt⟩)]

theorem ZoneReport.not_trip {r : ZoneReport} (hr : r.state = .normal ∨ r.state = .starting) :
    ¬ (r.state = .tripped ∨ r.state = .clearing) := by
  rcases hr with e | e <;> simp [e]

theorem ZoneView.reported_normal {v : ZoneView} {r : ZoneReport} (n : StationId)
    (hr : r.state = .normal ∨ r.state = .starting) (he : v.epoch < r.epoch) :
    v.reported n r = if v.state = .tripped then ⟨.tripped, r.epoch, .peerStatus, some n, none, none⟩
      else { v with epoch := r.epoch } := by
  rw [ZoneView.reported, if_neg (ZoneReport.not_trip hr), if_pos he]

theorem ZoneView.reported_old_normal {v : ZoneView} {r : ZoneReport} (n : StationId)
    (hr : r.state = .normal ∨ r.state = .starting) (he : r.epoch ≤ v.epoch) : v.reported n r = v := by
  rw [ZoneView.reported, if_neg (ZoneReport.not_trip hr), if_neg he.not_gt]

/-- Settles O58, clause by clause. -/
theorem statusFramesAreTaken : Obligations.StatusFramesAreTaken := by
  intro s n c e hs hn he
  refine ⟨exec_statusFrame_ignored hs c hn, exec_statusFrame_isolated hs c hn, exec_statusFrame_known hs hn he, fun h => ?_⟩
  subst he
  have hw : s.block.dispatch n (Block.takeStatus n c) = (heardFrame s.block).takeStatus n c := Block.dispatch_taken h hn _
  have heard := Block.takeStatus_finish (s := heardFrame s.block) hs.raised n c s.block
  have taken : StatusTaken n c s.block (Block.finish s.block ((heardFrame s.block).takeStatus n c)) :=
    ⟨heard.entry, heard.clock, heard.view, heard.drive, heard.pending, heard.disagree, heard.agree⟩
  refine ⟨{ s with block := Block.finish s.block ((heardFrame s.block).takeStatus n c) }, by rw [← hw]; rfl, rfl, ?_, ?_, ?_,
    fun z => ⟨fun hr hv => ?_, fun hr hv hz => ?_, fun hr hz => ?_, fun hr hz => ?_⟩, fun hc hb hd => ?_⟩
  · rw [taken.entry]; rfl
  · rw [taken.entry]; rfl
  · rw [taken.entry]; rfl
  · have view := (taken.view z).trans (ZoneView.reported_trip n ⟨hr, hv⟩)
    exact ⟨view, taken.pending z ⟨hr, hv⟩, fun hz => taken.drive z hz (by rw [view])⟩
  · exact (taken.view z).trans (ZoneView.reported_old_trip n hr hv hz)
  · exact (taken.view z).trans (ZoneView.reported_normal n hr hz)
  · exact (taken.view z).trans (ZoneView.reported_old_normal n hr hz)
  · have far : ((s.block.entry n).heard s.block.now c).disagree = true := disagreeAfter_far _ hc hb hd
    refine ⟨by rw [taken.entry]; exact far, taken.clock.trans (if_neg hc), fun old => taken.disagree ?_,
      fun old => taken.agree ?_⟩
    · rw [far, disagreeRaises, if_pos ⟨old, rfl⟩]
    · exact disagreeRaises_kept fun _ => old

end Sys2Proof.Machine
end
